-- ==== Sys2Proof/Word.lean ====
section
/-! DEFINITION. The word types of RDATCORE: bytes, line words, command words, flagged bytes. -/

namespace Sys2Proof

/-- An unsigned byte, bit 0 the least significant (00_scope.md R13); also an element of GF(2^8) (40_gf256.md R130). -/
abbrev Byte := BitVec 8

/-- A 10-bit line word, bit 9 the bit received first (R13, 30_encoding.md R101). -/
abbrev LineWord := BitVec 10

/-- A 40-bit command word: opcode in bits 39..32, operand word in bits 31..0 (30_encoding.md R90). -/
abbrev CmdWord := BitVec 40

/-- A flagged byte `(v, ok)`, the contents of one cell (R14, 30_encoding.md R100). -/
structure Flagged where
  v : Byte
  ok : Bool
deriving DecidableEq, Repr, Inhabited

/-- The contents of a cell that nothing has written: (0x00, false) (10_state.md R56, D27). -/
def blankCell : Flagged := ⟨0, false⟩

end Sys2Proof
end

