-- ==== Sys2Proof/Syntax.lean ====
section
/-! DEFINITION. The 33 operations of 30_encoding.md R92, one constructor per row of spec/opcode_table.json. -/

namespace Sys2Proof

/-- The field `code` of format RC: which Reed-Solomon code (30_encoding.md R91, 41_rs_solver.md R151). -/
inductive Code where
  | c1 | c2 | c3
deriving DecidableEq, Repr, Inhabited

/-- The field `src` of format PE: which polynomial register file GFPEVAL evaluates (R91, 40_gf256.md R137). -/
inductive PolySrc where
  | syn | sig | omg
deriving DecidableEq, Repr, Inhabited

/-- The field `tone` of format B2: the two ATF tones that have an encoding (R91, 43_clock_recovery.md R230). -/
inductive Tone where
  | tone2 | tone3
deriving DecidableEq, Repr, Inhabited

/-- One operation with its operands (30_encoding.md R91, R92). The class E operations carry no operand: their object is
passed along in the machine's state by the rule that emits them. -/
inductive Instr where
  /-- GFMUL, opcode 0x10, format G2. -/
  | gfmul (a b : Byte)
  /-- GFPOWA, opcode 0x11, format I32. -/
  | gfpowa (i : BitVec 32)
  /-- GFINV, opcode 0x12, format G1. -/
  | gfinv (a : Byte)
  /-- GFPEVAL, opcode 0x13, format PE. -/
  | gfpeval (src : PolySrc) (x : Byte)
  /-- RSSYN, opcode 0x20, format RC. -/
  | rssyn (code : Code)
  /-- RSSOLVE, opcode 0x21, format RC with the field `fe`. -/
  | rssolve (fe : Bool) (code : Code)
  /-- RSEVAL, opcode 0x22, format RC. -/
  | rseval (code : Code)
  /-- RSVFY, opcode 0x23, format RC. -/
  | rsvfy (code : Code)
  /-- C1DEC, opcode 0x30, format V1: block pair 0..71, interleave (false even, true odd). -/
  | c1dec (pair : BitVec 7) (il : Bool)
  /-- C2DEC, opcode 0x31, format V2. -/
  | c2dec (group : BitVec 2) (slice : BitVec 5)
  /-- C3DEC, opcode 0x32, format V3: slice 0..719, track pair, interleave. -/
  | c3dec (slice : BitVec 10) (tp il : Bool)
  /-- C1PASS, opcode 0x33, format Z. -/
  | c1pass
  /-- C2PASS, opcode 0x34, format Z. -/
  | c2pass
  /-- C3PASS, opcode 0x35, format Z. -/
  | c3pass
  /-- SAMPLE, opcode 0x40, format F32: the bits of one IEEE-754 binary32 sample. -/
  | sample (bits : BitVec 32)
  /-- ATF, opcode 0x41, format B2. -/
  | atf (tone : Tone)
  /-- STOP, opcode 0x42, format Z. -/
  | stop
  /-- CLKEV, opcode 0x48, format B1: clock detected (true) or lost (false). -/
  | clkev (d : Bool)
  /-- SYM, opcode 0x49, format B1: one channel symbol. -/
  | sym (v : Bool)
  /-- BIT, opcode 0x4A, format B1: one NRZI-decoded bit. -/
  | bit (b : Bool)
  /-- WORD, opcode 0x4B, format W10: sync flag and line word. -/
  | word (sync : Bool) (w : LineWord)
  /-- BLOCK, opcode 0x4C, class E. -/
  | block
  /-- TRKSTART, opcode 0x4D, format Z. -/
  | trkstart
  /-- TRKSTOP, opcode 0x4E, format Z. -/
  | trkstop
  /-- TRKCPL, opcode 0x50, class E. -/
  | trkcpl
  /-- SUBX, opcode 0x51, class E. -/
  | subx
  /-- TRACK, opcode 0x52, class E. -/
  | track
  /-- PAIR, opcode 0x53, class E. -/
  | pair
  /-- G3DEC, opcode 0x60, class E. -/
  | g3dec
  /-- DEWHT, opcode 0x61, class E. -/
  | dewht
  /-- SESS, opcode 0x62, class E. -/
  | sess
  /-- BGMERGE, opcode 0x63, class E. -/
  | bgmerge
  /-- BGFIN, opcode 0x64, class E. -/
  | bgfin
deriving DecidableEq, Repr

end Sys2Proof
end

