-- ==== Sys2Proof/Config.lean ====
section
/-! DEFINITION. What is fixed for a run: the constants of 00_scope.md R9 and R10, the types of the OPEN parameters of
R11, the uninterpreted base of each parameter the spec gives no default for, and the record of what the host supplies. -/

namespace Sys2Proof

/-! ### The constants of R9 and R10 -/

/-- `N`: samples per symbol, the length of the energy ring (R9). -/
def Config.samplesPerSymbol : Nat := 8

/-- `SYNC_WORD` (R9, 44_deframer.md R250). -/
def Config.syncWord : LineWord := 0x111

/-- `SYNC_MASK`: the bottom nine bits (R250). -/
def Config.syncMask : LineWord := 0x1FF

/-- `PREAMBLE_WORD`: ten ones (R9, R250). -/
def Config.preambleWord : LineWord := 0x3FF

/-- `PREAMBLE_RUN`: a run of more than this many checks declares preamble (R9, R250). -/
def Config.preambleRun : Nat := 10

/-- `ATF_THRESHOLD` (R9, 45_block_track.md R283). -/
def Config.atfThreshold : Nat := 10

/-- `TRACK_TIMER_LOAD` = 196 x 10 x 36 x N x 1.05 = 74088 x N (R10, 43_clock_recovery.md R231). -/
def Config.trackTimerLoad : Nat := 74088 * Config.samplesPerSymbol

/-- `ALPHA_E` = 1/30, not rounded (R9, D15). -/
def Config.alphaE : Rat := 1 / 30

/-- `DET_RATIO` = 0.97, not rounded (R9, D15). -/
def Config.detRatio : Rat := 97 / 100

/-! ### Types of the parameters -/

/-- Seven bytes of a subcode pack (30_encoding.md R105). -/
abbrev Pack := Vector Byte 7

/-- Packs 1 to 4, the argument of `PARSE_DDS` (47_dds.md R343). -/
structure Packs where
  p1 : Pack
  p2 : Pack
  p3 : Pack
  p4 : Pack
deriving DecidableEq, Repr, Inhabited

/-- The area of a DDS frame (30_encoding.md R109). -/
inductive Area where
  | device | reference | system | data | eod
deriving DecidableEq, Repr, Inhabited

/-- The record `PARSE_DDS` returns (47_dds.md R343). -/
structure DdsFields where
  partition : Fin 2
  area : Area
  afn : BitVec 24
  bgId : Nat
  lfid : BitVec 6
  isLast : Bool
  isEcc3 : Bool
  sep1 : Nat
  sep2 : Nat
  recCnt : Nat
  cksum : Vector Byte 4
deriving DecidableEq, Repr, Inhabited

/-- The argument of the function f of 42_codec_shells.md R190: slice, track pair, interleave, parity of the position. -/
structure C3Arg where
  slice : Fin 720
  tp : Bool
  il : Bool
  odd : Bool
deriving DecidableEq, Repr, Inhabited

/-- The argument of `C3_CELL`: slice, track pair, interleave, position (42_codec_shells.md R196). -/
structure C3Sel where
  slice : Fin 720
  tp : Bool
  il : Bool
  p : Fin 46
deriving DecidableEq, Repr, Inhabited

/-- The result of `C3_CELL` (R196): a cell of the main buffer, a cell of the ECC region, or a fixed flagged byte to which
a write-back is discarded. -/
inductive C3Ref where
  | main (k : Fin 126632)
  | ecc (k : Fin 5756)
  | fixed (c : Flagged)
deriving DecidableEq, Repr, Inhabited

/-- Which numerics record `FP` a run uses (43_clock_recovery.md R221, D15): exact rational arithmetic, the spec's reference
instance, or the number format of an implementation, of which nothing is known but that its operations are functions of
their operands. A value of a format is coded by a rational, the number 0 by
0 (log entries 4, 37). -/
inductive Numerics where
  | exact
  | format (k : Nat)
deriving DecidableEq, Repr, Inhabited

/-! ### Uninterpreted bases: no body, so no proof can see a value -/

/-- `DEC10` of 45_block_track.md R272 where the host has supplied no entry. -/
opaque Config.dec10 : LineWord → Flagged

/-- `DEMUX` of 46_framer_frame.md R328 where the host has supplied no entry. -/
opaque Config.demux : Fin 2 → Fin 1456 → Fin 144 × Fin 32

/-- The function f of 42_codec_shells.md R190 and R196, an offset inside a sub-group, where the host has supplied no
entry. -/
opaque Config.c3Offset : C3Arg → Fin 5756

/-- The positions that `C3_CELL` maps to a fixed flagged byte (R196), where the host has supplied no entry. -/
opaque Config.c3Fixed : C3Sel → Option Flagged

/-- `WHITEN` of 47_dds.md R352 where the host has supplied no entry. -/
opaque Config.whiten : Fin 5756 → Byte

/-- `PARSE_DDS` of 47_dds.md R343 where the host has supplied no entry. -/
opaque Config.parseDds : Packs → Option DdsFields

/-- `CKSUM_SET` of 47_dds.md R350 where the host has supplied no entry. -/
opaque Config.cksumSet : Fin 4 → List (Fin 1456 × Fin 4)

/-- Addition of number format `k` (R221). -/
opaque Config.fpAdd : Nat → Rat → Rat → Rat

/-- Subtraction of number format `k` (R221). -/
opaque Config.fpSub : Nat → Rat → Rat → Rat

/-- Multiplication of number format `k` (R221). -/
opaque Config.fpMul : Nat → Rat → Rat → Rat

/-- Division of number format `k` (R221). -/
opaque Config.fpDiv : Nat → Rat → Rat → Rat

/-- Absolute value of number format `k` (R221). -/
opaque Config.fpAbs : Nat → Rat → Rat

/-- Less-than of number format `k` (R221). -/
opaque Config.fpLt : Nat → Rat → Rat → Bool

/-- The real number `x` as number format `k` holds it: an input sample, `ALPHA_E` or `DET_RATIO` (R221). -/
opaque Config.fpOfReal : Nat → Rat → Rat

/-- The n-th free byte: the value of a register the spec leaves unspecified after an operation (41_rs_solver.md R154). -/
opaque Config.freeByte : Nat → Byte

/-! ### What the host supplies -/

/-- The OPEN parameters as the host supplies them (00_scope.md R11, 70_reset_and_hazards.md R423, R405). A table entry
given here counts before the default of the spec (LOC, BLKNO) and before the uninterpreted base of this file (the rest). -/
structure Params where
  /-- `PRIM_POLY`, nine bits (40_gf256.md R131). -/
  primPoly : BitVec 9
  /-- `FCR`, the first consecutive root exponent (41_rs_solver.md R151). -/
  fcr : Int
  /-- Entries of `LOC(code, p)` that differ from the default n-1-p (R151). -/
  loc : List ((Code × Fin 46) × Int)
  /-- Entries of `DEC10` (R272). -/
  dec10 : List (LineWord × Flagged)
  /-- Entries of `BLKNO` that differ from the default of 45_block_track.md R275. -/
  blkno : List ((Byte × Byte) × Fin 144)
  /-- Entries of `DEMUX` (R328). -/
  demux : List ((Fin 2 × Fin 1456) × (Fin 144 × Fin 32))
  /-- Entries of f, the part of `C3_CELL` that the geometry of R190 leaves open (R196). -/
  c3offset : List (C3Arg × Fin 5756)
  /-- Entries for positions of `C3_CELL`: a fixed flagged byte, or none for a stored cell (R196). -/
  c3fixed : List (C3Sel × Option Flagged)
  /-- Entries of `WHITEN` (R352). -/
  whiten : List (Fin 5756 × Byte)
  /-- Entries of `PARSE_DDS` (R343). -/
  parse : List (Packs × Option DdsFields)
  /-- Entries of `CKSUM_SET` (R350). -/
  cksum : List (Fin 4 × List (Fin 1456 × Fin 4))
  /-- `FP` (R221). -/
  fp : Numerics
deriving DecidableEq, Repr, Inhabited

/-- The stated defaults: PRIM_POLY 0x11D, FCR 0, LOC n-1-p, BLKNO of R275 (R11; each is [from general knowledge, not in
source]), exact rational FP (D15), and the uninterpreted base for every table without a default. -/
def Config.defaults : Params :=
  ⟨0x11D, 0, [], [], [], [], [], [], [], [], [], .exact⟩

end Sys2Proof
end

