-- ==== Sys2Proof/WellFormed.lean ====
section
/-! DEFINITION. The range checks of 30_encoding.md R91 and R94 on operand fields that their bits alone do not enforce. -/

namespace Sys2Proof

/-- The operand fields of `i` are inside the ranges their format states (R91): `pair` is 0..71, `slice` of C2DEC is 0..23
in groups 1 and 3, `slice` of C3DEC is 0..719. -/
def Instr.wf : Instr → Bool
  | .c1dec blocks _ => decide (blocks.toNat ≤ 71)
  | .c2dec group slice => decide (group.toNat % 2 = 0 ∨ slice.toNat ≤ 23)
  | .c3dec slice _ _ => decide (slice.toNat ≤ 719)
  | .gfmul _ _ => true
  | .gfpowa _ => true
  | .gfinv _ => true
  | .gfpeval _ _ => true
  | .rssyn _ => true
  | .rssolve _ _ => true
  | .rseval _ => true
  | .rsvfy _ => true
  | .c1pass => true
  | .c2pass => true
  | .c3pass => true
  | .sample _ => true
  | .atf _ => true
  | .stop => true
  | .clkev _ => true
  | .sym _ => true
  | .bit _ => true
  | .word _ _ => true
  | .block => true
  | .trkstart => true
  | .trkstop => true
  | .trkcpl => true
  | .subx => true
  | .track => true
  | .pair => true
  | .g3dec => true
  | .dewht => true
  | .sess => true
  | .bgmerge => true
  | .bgfin => true

/-- Class E of R92: an operation that only a rule of the spec emits. A host issue of it is refused (R94). -/
def Instr.eventOnly : Instr → Bool
  | .block => true
  | .trkcpl => true
  | .subx => true
  | .track => true
  | .pair => true
  | .g3dec => true
  | .dewht => true
  | .sess => true
  | .bgmerge => true
  | .bgfin => true
  | .gfmul _ _ => false
  | .gfpowa _ => false
  | .gfinv _ => false
  | .gfpeval _ _ => false
  | .rssyn _ => false
  | .rssolve _ _ => false
  | .rseval _ => false
  | .rsvfy _ => false
  | .c1dec _ _ => false
  | .c2dec _ _ => false
  | .c3dec _ _ _ => false
  | .c1pass => false
  | .c2pass => false
  | .c3pass => false
  | .sample _ => false
  | .atf _ => false
  | .stop => false
  | .clkev _ => false
  | .sym _ => false
  | .bit _ => false
  | .word _ _ => false
  | .trkstart => false
  | .trkstop => false

end Sys2Proof
end

