-- ==== Sys2Proof/Decode.lean ====
section
/-! DEFINITION. Decoding and encoding of the 40-bit command word (30_encoding.md R90 to R94). -/

namespace Sys2Proof

/-- Why a command word is reserved (30_encoding.md R94). -/
inductive DecodeError where
  /-- The opcode is none of R92. -/
  | reservedOpcode (op : Byte)
  /-- A bit of `arg` outside the fields of the format is not zero (R91). -/
  | reservedBits (op : Byte)
  /-- A field holds a value outside the range its format states (R91). -/
  | reservedField (op : Byte)
deriving DecidableEq, Repr

/-- Bits 39..32 of a command word (R90). -/
def opField (w : CmdWord) : Byte := w.extractLsb' 32 8

/-- Bits 31..0 of a command word (R90). -/
def argField (w : CmdWord) : BitVec 32 := w.extractLsb' 0 32

/-- `code` = arg[1:0]: 0 C1, 1 C2, 2 C3, 3 reserved (R91). -/
def codeOfBits (b : BitVec 2) : Option Code :=
  if b = 0 then some .c1 else if b = 1 then some .c2 else if b = 2 then some .c3 else none

/-- `src` = arg[9:8]: 0 SYN, 1 SIG, 2 OMG, 3 reserved (R91). -/
def srcOfBits (b : BitVec 2) : Option PolySrc :=
  if b = 0 then some .syn else if b = 1 then some .sig else if b = 2 then some .omg else none

/-- `tone` = arg[1:0]: 2 or 3, 0 and 1 reserved (R91). -/
def toneOfBits (b : BitVec 2) : Option Tone :=
  if b = 2 then some .tone2 else if b = 3 then some .tone3 else none

/-- The instruction if its must-be-zero bits are zero and its fields are in range, else the reason (R94). -/
def accept (op : Byte) (mbz : Bool) (field : Option Instr) : Except DecodeError Instr :=
  if mbz then
    match field with
    | some i => if i.wf then .ok i else .error (.reservedField op)
    | none => .error (.reservedField op)
  else .error (.reservedBits op)

/-- Format Z: no field, every bit of `arg` zero (R91). -/
def fmtZ (op : Byte) (arg : BitVec 32) (i : Instr) : Except DecodeError Instr :=
  accept op (arg = 0#32) (some i)

/-- Format G2: `a` = arg[15:8], `b` = arg[7:0]. -/
def fmtG2 (op : Byte) (arg : BitVec 32) : Except DecodeError Instr :=
  accept op (arg.extractLsb' 16 16 = 0#16) (some (.gfmul (arg.extractLsb' 8 8) (arg.extractLsb' 0 8)))

/-- Format G1: `a` = arg[7:0]. -/
def fmtG1 (op : Byte) (arg : BitVec 32) : Except DecodeError Instr :=
  accept op (arg.extractLsb' 8 24 = 0#24) (some (.gfinv (arg.extractLsb' 0 8)))

/-- Format PE: `src` = arg[9:8], `x` = arg[7:0]. -/
def fmtPE (op : Byte) (arg : BitVec 32) : Except DecodeError Instr :=
  accept op (arg.extractLsb' 10 22 = 0#22)
    ((srcOfBits (arg.extractLsb' 8 2)).map fun src => .gfpeval src (arg.extractLsb' 0 8))

/-- Format RC with `fe` = 0: `code` = arg[1:0]. -/
def fmtRC (op : Byte) (arg : BitVec 32) (k : Code → Instr) : Except DecodeError Instr :=
  accept op (arg.extractLsb' 2 30 = 0#30) ((codeOfBits (arg.extractLsb' 0 2)).map k)

/-- Format RC of RSSOLVE: `fe` = arg[8], `code` = arg[1:0]. -/
def fmtRCfe (op : Byte) (arg : BitVec 32) : Except DecodeError Instr :=
  accept op (decide (arg.extractLsb' 9 23 = 0#23) && decide (arg.extractLsb' 2 6 = 0#6))
    ((codeOfBits (arg.extractLsb' 0 2)).map (.rssolve (arg.getLsbD 8)))

/-- Format V1: `pair` = arg[7:1] (0..71), `il` = arg[0]. -/
def fmtV1 (op : Byte) (arg : BitVec 32) : Except DecodeError Instr :=
  accept op (arg.extractLsb' 8 24 = 0#24) (some (.c1dec (arg.extractLsb' 1 7) (arg.getLsbD 0)))

/-- Format V2: `group` = arg[6:5], `slice` = arg[4:0] (0..23 for groups 1 and 3). -/
def fmtV2 (op : Byte) (arg : BitVec 32) : Except DecodeError Instr :=
  accept op (arg.extractLsb' 7 25 = 0#25) (some (.c2dec (arg.extractLsb' 5 2) (arg.extractLsb' 0 5)))

/-- Format V3: `slice` = arg[11:2] (0..719), `tp` = arg[1], `il` = arg[0]. -/
def fmtV3 (op : Byte) (arg : BitVec 32) : Except DecodeError Instr :=
  accept op (arg.extractLsb' 12 20 = 0#20)
    (some (.c3dec (arg.extractLsb' 2 10) (arg.getLsbD 1) (arg.getLsbD 0)))

/-- Format B2: `tone` = arg[1:0] (2 or 3). -/
def fmtB2 (op : Byte) (arg : BitVec 32) : Except DecodeError Instr :=
  accept op (arg.extractLsb' 2 30 = 0#30) ((toneOfBits (arg.extractLsb' 0 2)).map .atf)

/-- Format B1: one bit, arg[0]. -/
def fmtB1 (op : Byte) (arg : BitVec 32) (k : Bool → Instr) : Except DecodeError Instr :=
  accept op (arg.extractLsb' 1 31 = 0#31) (some (k (arg.getLsbD 0)))

/-- Format W10: `s` = arg[10], `w` = arg[9:0]. -/
def fmtW10 (op : Byte) (arg : BitVec 32) : Except DecodeError Instr :=
  accept op (arg.extractLsb' 11 21 = 0#21) (some (.word (arg.getLsbD 10) (arg.extractLsb' 0 10)))

/-- The operation an opcode and an operand word stand for (R92), or why the word is reserved (R94). -/
def decodeArg (op : Byte) (arg : BitVec 32) : Except DecodeError Instr :=
  match op.toNat with
  | 0x10 => fmtG2 op arg
  | 0x11 => accept op true (some (.gfpowa arg))
  | 0x12 => fmtG1 op arg
  | 0x13 => fmtPE op arg
  | 0x20 => fmtRC op arg .rssyn
  | 0x21 => fmtRCfe op arg
  | 0x22 => fmtRC op arg .rseval
  | 0x23 => fmtRC op arg .rsvfy
  | 0x30 => fmtV1 op arg
  | 0x31 => fmtV2 op arg
  | 0x32 => fmtV3 op arg
  | 0x33 => fmtZ op arg .c1pass
  | 0x34 => fmtZ op arg .c2pass
  | 0x35 => fmtZ op arg .c3pass
  | 0x40 => accept op true (some (.sample arg))
  | 0x41 => fmtB2 op arg
  | 0x42 => fmtZ op arg .stop
  | 0x48 => fmtB1 op arg .clkev
  | 0x49 => fmtB1 op arg .sym
  | 0x4A => fmtB1 op arg .bit
  | 0x4B => fmtW10 op arg
  | 0x4C => fmtZ op arg .block
  | 0x4D => fmtZ op arg .trkstart
  | 0x4E => fmtZ op arg .trkstop
  | 0x50 => fmtZ op arg .trkcpl
  | 0x51 => fmtZ op arg .subx
  | 0x52 => fmtZ op arg .track
  | 0x53 => fmtZ op arg .pair
  | 0x60 => fmtZ op arg .g3dec
  | 0x61 => fmtZ op arg .dewht
  | 0x62 => fmtZ op arg .sess
  | 0x63 => fmtZ op arg .bgmerge
  | 0x64 => fmtZ op arg .bgfin
  | _ => .error (.reservedOpcode op)

/-- The decoder: total on every 40-bit word (R90). A class E word decodes to its operation, since the encoding of an
emitted event is the same (R90); who may issue it is checked where commands are taken (Machine/HostPort.lean). -/
def decode (w : CmdWord) : Except DecodeError Instr := decodeArg (opField w) (argField w)

/-! ### The encoder, from the same tables -/

/-- The opcode of an operation (R92). -/
def opcode : Instr → Byte
  | .gfmul _ _ => 0x10
  | .gfpowa _ => 0x11
  | .gfinv _ => 0x12
  | .gfpeval _ _ => 0x13
  | .rssyn _ => 0x20
  | .rssolve _ _ => 0x21
  | .rseval _ => 0x22
  | .rsvfy _ => 0x23
  | .c1dec _ _ => 0x30
  | .c2dec _ _ => 0x31
  | .c3dec _ _ _ => 0x32
  | .c1pass => 0x33
  | .c2pass => 0x34
  | .c3pass => 0x35
  | .sample _ => 0x40
  | .atf _ => 0x41
  | .stop => 0x42
  | .clkev _ => 0x48
  | .sym _ => 0x49
  | .bit _ => 0x4A
  | .word _ _ => 0x4B
  | .block => 0x4C
  | .trkstart => 0x4D
  | .trkstop => 0x4E
  | .trkcpl => 0x50
  | .subx => 0x51
  | .track => 0x52
  | .pair => 0x53
  | .g3dec => 0x60
  | .dewht => 0x61
  | .sess => 0x62
  | .bgmerge => 0x63
  | .bgfin => 0x64

/-- The bits of the field `code` (R91). -/
def codeBits : Code → BitVec 2
  | .c1 => 0
  | .c2 => 1
  | .c3 => 2

/-- The bits of the field `src` (R91). -/
def srcBits : PolySrc → BitVec 2
  | .syn => 0
  | .sig => 1
  | .omg => 2

/-- The bits of the field `tone` (R91). -/
def toneBits : Tone → BitVec 2
  | .tone2 => 2
  | .tone3 => 3

/-- The operand word of an operation (R91): its fields at their places, zeros elsewhere. -/
def argOf : Instr → BitVec 32
  | .gfmul a b => 0#16 ++ a ++ b
  | .gfpowa i => i
  | .gfinv a => 0#24 ++ a
  | .gfpeval src x => 0#22 ++ srcBits src ++ x
  | .rssyn code => 0#30 ++ codeBits code
  | .rssolve fe code => 0#23 ++ BitVec.ofBool fe ++ 0#6 ++ codeBits code
  | .rseval code => 0#30 ++ codeBits code
  | .rsvfy code => 0#30 ++ codeBits code
  | .c1dec blocks il => 0#24 ++ blocks ++ BitVec.ofBool il
  | .c2dec group slice => 0#25 ++ group ++ slice
  | .c3dec slice tp il => 0#20 ++ slice ++ BitVec.ofBool tp ++ BitVec.ofBool il
  | .sample bits => bits
  | .atf tone => 0#30 ++ toneBits tone
  | .clkev d => 0#31 ++ BitVec.ofBool d
  | .sym v => 0#31 ++ BitVec.ofBool v
  | .bit b => 0#31 ++ BitVec.ofBool b
  | .word sync w => 0#21 ++ BitVec.ofBool sync ++ w
  | .c1pass => 0
  | .c2pass => 0
  | .c3pass => 0
  | .stop => 0
  | .block => 0
  | .trkstart => 0
  | .trkstop => 0
  | .trkcpl => 0
  | .subx => 0
  | .track => 0
  | .pair => 0
  | .g3dec => 0
  | .dewht => 0
  | .sess => 0
  | .bgmerge => 0
  | .bgfin => 0

/-- The command word of an operation (R90). -/
def encode (i : Instr) : CmdWord := opcode i ++ argOf i

/-- The instruction the decoder reads from a table row's word: `nbits` is 40 for every row of spec/opcode_table.json, and a
command is one word, taken as a value (20_memory.md R68). -/
def decodeTableWord (nbits w : Nat) : Option Instr :=
  match decode (BitVec.ofNat 40 (w % 2 ^ nbits)) with
  | .ok i => some i
  | .error _ => none

end Sys2Proof
end

