-- ==== Sys2Proof/Machine/State.lean ====
section
/-! DEFINITION. The state of RDATCORE (10_state.md R20 to R56), unit by unit, the reasons a step stops, and the state after
reset. -/

namespace Sys2Proof.Machine

open Sys2Proof

/-! ### Stores -/

/-- A storage array as a list of (address, contents) pairs: addresses strictly rising, no entry equal to what an unlisted
address reads as (20_memory.md R60 to R67). -/
abbrev Store (α : Type) := List (Nat × α)

/-! ### Reed-Solomon working registers (R24 to R31) -/

/-- The three values of RS_STATUS (R31, 30_encoding.md R108). -/
inductive RsStatus where
  | noErrors | corrected | uncorrectable
deriving DecidableEq, Repr, Inhabited

/-- The working registers of the Reed-Solomon unit, one set shared by the three shells (R23). -/
structure RsFile where
  /-- VEC[0..45] (R24). -/
  vec : Vector Byte 46
  /-- VAL[0..45] (R25). -/
  valid : Vector Bool 46
  /-- SYN[0..5] (R26). -/
  syn : Vector Byte 6
  /-- ERA (R27). -/
  era : List (Fin 46)
  /-- NERA (R27, R55). -/
  nera : Nat
  /-- SIG[0..6] (R28). -/
  sig : Vector Byte 7
  /-- OMG[0..5] (R29). -/
  omg : Vector Byte 6
  /-- COR (R30). -/
  cor : List (Fin 46 × Byte)
  /-- NCOR (R30, R55). -/
  ncor : Nat
  /-- RS_STATUS (R31). -/
  status : RsStatus
  /-- SOLVE_OK (R31). -/
  solveOk : Bool
  /-- CODE (R31). -/
  code : Code
  /-- The model's own count of free values drawn so far (log entry 6). -/
  draws : Nat
deriving DecidableEq, Repr

/-! ### Stream front end (R33 to R38) -/

/-- Clock recovery (R33). -/
structure Clock where
  e : Vector Rat 8
  pos : Fin 8
  syncPos : Fin 8
  nextSyncPos : Fin 8
  maxPos : Fin 8
  integ : Rat
  detected : Bool
deriving DecidableEq, Repr

/-- The track timer: `trk_timer` and `trk_in_progress` (R34). -/
structure Timer where
  count : Nat
  running : Bool
deriving DecidableEq, Repr

/-- The deframer (R36). -/
structure Deframer where
  sr : LineWord
  bitCnt : Fin 10
  synced : Bool
  prevSym : Bool
deriving DecidableEq, Repr

/-- The preamble detector (R37). -/
structure Preamble where
  cnt : Fin 10
  run : Nat
  present : Bool
deriving DecidableEq, Repr

/-- The block assembler (R38). -/
structure BlockAsm where
  words : Vector LineWord 36
  widx : Fin 36
deriving DecidableEq, Repr

/-! ### Tracks and frames (R39 to R42) -/

/-- A header record of space TRKHDR (R40, 20_memory.md R62). -/
structure Hdr where
  present : Bool
  hdrOk : Bool
  id : Byte
deriving DecidableEq, Repr, Inhabited

/-- The azimuth tag of a Track (R40, 30_encoding.md R109). -/
inductive Head where
  | a | b | unknown
deriving DecidableEq, Repr, Inhabited

/-- A Track (R40). -/
structure Track where
  /-- Space TRK, linear address 32*b+i (20_memory.md R61, R67). -/
  cells : Store Flagged
  /-- Space TRKHDR, indexed by block number (R62). -/
  hdrs : Store Hdr
  head : Head
  atf3Cnt : Nat
  isSealed : Bool
  /-- Packs by identifier; index 0 is never filled (45_block_track.md R290). -/
  pack : Vector (Option Pack) 16
  sig : Vector (Option (BitVec 4)) 7
  ctlId : Option (BitVec 4)
  dataId : Option (BitVec 4)
  c1Corr : Nat
  c1Unc : Nat
  c2Corr : Nat
  c2Unc : Nat
deriving DecidableEq, Repr

/-- The contents of a newly constructed Track (R56). -/
def Track.new : Track where
  cells := []
  hdrs := []
  head := .unknown
  atf3Cnt := 0
  isSealed := false
  pack := Vector.replicate 16 none
  sig := Vector.replicate 7 none
  ctlId := none
  dataId := none
  c1Corr := 0
  c1Unc := 0
  c2Corr := 0
  c2Unc := 0

/-- A DAT frame (R42): the pair, space FRM at linear address 4*w+c (20_memory.md R63, R67), and the four counter sums. -/
structure Frame where
  a : Track
  b : Track
  cells : Store Flagged
  c1Corr : Nat
  c1Unc : Nat
  c2Corr : Nat
  c2Unc : Nat
deriving DecidableEq, Repr

/-! ### DDS (R43 to R45) -/

/-- The group-3 decode kinds (60_exceptions.md R392). -/
inductive G3Kind where
  | ok | missingPack | badField | afnMismatch | lfidMismatch | c2ErrorsPresent | headerNonzero | headerLfidMismatch
deriving DecidableEq, Repr, Inhabited

/-- The current DDS group-3 besides its frame (R43): the fields of `PARSE_DDS`, and once they are computed the checksums
and whether they equal the stored ones. -/
structure Group3 where
  fields : DdsFields
  cksum : Option (Vector Byte 4)
  cksumOk : Bool
deriving DecidableEq, Repr

/-- The decode report of one DDS frame that the host reads (R46, R391, 60_exceptions.md R405): `g3_status`, whether
AFN_MISMATCH was logged, and the group-3 as far as it was decoded, with `cksum_ok`. -/
structure G3Report where
  status : G3Kind
  afnMismatch : Bool
  group : Option Group3
deriving DecidableEq, Repr

/-- The two session states (R44, R109). -/
inductive SessState where
  | data | eot
deriving DecidableEq, Repr, Inhabited

/-- The session state and counter (R44). -/
structure Session where
  state : SessState
  cnt : Nat
deriving DecidableEq, Repr

/-- The active basic group (R45): spaces BGM and BGE (20_memory.md R64, R65). -/
structure BasicGroup where
  id : Nat
  main : Store Flagged
  ecc : Store Flagged
  diffLog : Nat
deriving DecidableEq, Repr

/-- The host image of a basic group: payload, validity (0xFF valid, 0x00 invalid), ECC region, ECC validity
(30_encoding.md R110). Lengths and validity bytes are checked when it is loaded (47_dds.md R361). -/
structure Image where
  main : List Byte
  mainVal : List Byte
  ecc : List Byte
  eccVal : List Byte
deriving DecidableEq, Repr

/-! ### Objects in transit and the host interface -/

/-- The objects that class E operations take (30_encoding.md R92): each exists only inside a step, from the rule that
makes it to the operation that consumes it (10_state.md R22, R42, R43). -/
structure Transit where
  /-- The sealed Track that TRACK takes (46_framer_frame.md R320). -/
  track : Option Track
  /-- The pair that PAIR takes (R325). -/
  pair : Option (Track × Track)
  /-- The current frame, which G3DEC and DEWHT take (47_dds.md R341, R351). -/
  frame : Option Frame
  /-- The current group-3, whose fields SESS and BGMERGE take (R353, R360). -/
  g3 : Option Group3
  /-- The current group-1, 5756 flagged bytes, which BGMERGE takes (R360). -/
  g1 : Option (Store Flagged)
deriving DecidableEq, Repr

/-- The control register MODE (R50). -/
inductive Mode where
  | dat | dds
deriving DecidableEq, Repr, Inhabited

/-- What crosses the boundary from the core to the host (60_exceptions.md R405), besides the registers it may read. -/
inductive HostOut where
  /-- One frame at the DAT frame output (46_framer_frame.md R331). -/
  | datFrame (f : Frame)
  /-- A request for the persisted image of `id` (47_dds.md R374). -/
  | bgLoad (id : Nat)
  /-- A finalized basic group (R375). -/
  | bgPersist (id : Nat) (img : Image)
  /-- The end of the Stop sequence (R376). -/
  | sinkFlush
  /-- The passive tap on WORD events (60_exceptions.md R413). -/
  | wordTap (sync : Bool) (w : LineWord)
deriving DecidableEq, Repr

/-- Who issues a command word: the host at the command port, or a rule of the spec by `emit` (30_encoding.md R90). -/
inductive Issuer where
  | host | rule
deriving DecidableEq, Repr, Inhabited

/-- One input waiting at the core's boundary (60_exceptions.md R405). -/
inductive PortInput where
  /-- A command word (30_encoding.md R90). -/
  | command (by_ : Issuer) (w : CmdWord)
  /-- The input RESET, outside the command encoding (70_reset_and_hazards.md R420). -/
  | reset
  /-- The host writes MODE (10_state.md R50). -/
  | writeMode (m : Mode)
  /-- The host writes SESSION_SEL (R51). -/
  | writeSessionSel (n : Nat)
  /-- The host supplies the OPEN parameters (70_reset_and_hazards.md R423). -/
  | supply (p : Params)
  /-- The host's answers to `BG_LOAD` from here on: an identifier without an entry has no image (47_dds.md R374). -/
  | images (l : List (Nat × Image))
deriving DecidableEq, Repr

/-! ### The state -/

/-- The state of RDATCORE between two inputs of the host: the union of the state of its units (R20), and the model's own
fields for the host's side (`cfg`, `images`, `running`, `port`, `out`). -/
structure State where
  /-- The Reed-Solomon working registers (R24 to R31). -/
  rs : RsFile
  /-- GFR (R32). -/
  gfr : Byte
  /-- Clock recovery (R33). -/
  clk : Clock
  /-- The track timer (R34). -/
  timer : Timer
  /-- The sample window W, which no wired-up rule reads (R35, 43_clock_recovery.md R233). -/
  win : Vector Rat 8
  /-- The deframer (R36). -/
  dfr : Deframer
  /-- The preamble detector (R37). -/
  pre : Preamble
  /-- The block assembler (R38). -/
  asm : BlockAsm
  /-- The open Track (R39). -/
  cur : Option Track
  /-- `last_blk` (R39). -/
  lastBlk : Option (Fin 144)
  /-- The framer's `last` (R41). -/
  last : Option Track
  /-- Objects in transit inside a step (R42, R43); none between steps (R22). -/
  transit : Transit
  /-- The report of the last G3DEC, none before the first (R43, R46). -/
  report : Option G3Report
  /-- The session state (R44). -/
  sess : Session
  /-- The active basic group (R45). -/
  bg : Option BasicGroup
  /-- MODE (R50). -/
  mode : Mode
  /-- SESSION_SEL (R51). -/
  sessionSel : Nat
  /-- The OPEN parameters of the run (00_scope.md R11). -/
  cfg : Params
  /-- The host's function `BG_LOAD`, its answers by basic group ID: an argument of the step, which no operation writes
  (47_dds.md R374, R53). -/
  images : List (Nat × Image)
  /-- Whether an input operation has been taken since reset or STOP (70_reset_and_hazards.md R430). -/
  running : Bool
  /-- Inputs the host has issued and the core has not taken, oldest first. -/
  port : List PortInput
  /-- Outputs of the last input taken, oldest first. -/
  out : List HostOut
deriving DecidableEq, Repr

/-! ### Why a step stops -/

/-- A step never ends in a fault: no operation of RDATCORE raises an exception (60_exceptions.md R390, R397). The type
therefore has no constructor. -/
inductive Fault where
deriving DecidableEq, Repr

/-- Why an input is refused: the spec gives it no meaning, and the state does not change (60_exceptions.md R390). Every
refusal is safe: a claim about what follows is not provable. -/
inductive Refusal where
  /-- An instruction without a meaning in this model; raised by no arm (safe). -/
  | notModelled (mnemonic : String)
  /-- A reserved command word; raised where commands are taken (R94, U2; safe). -/
  | reserved (e : DecodeError)
  /-- An operand field out of the range of its format; raised by C1DEC, C2DEC, C3DEC (20_memory.md R71, R94; safe). -/
  | fieldOutOfRange
  /-- A class E operation issued by the host; raised where commands are taken (R92, R94, U7; safe). -/
  | eventFromHost
  /-- GFINV of zero; raised by GFINV (40_gf256.md R136, U1; safe). -/
  | inverseOfZero
  /-- A NaN or infinite sample; raised by SAMPLE (43_clock_recovery.md R235, U3; safe). -/
  | nonFiniteSample
  /-- A Track operation with no open Track; raised by the C1 and C2 operations, TRKCPL and SUBX (R183, R186, U5; safe). -/
  | noTrack
  /-- A write to a sealed Track; raised by the same, and by BLOCK and ATF (20_memory.md R77, 45_block_track.md R293, U5;
  safe). -/
  | trackSealed
  /-- A C3 operation with no active basic group (42_codec_shells.md R197, R202, U5; safe). -/
  | noBasicGroup
  /-- A class E operation whose object was not passed along; raised by TRACK, PAIR, G3DEC, DEWHT, SESS, BGMERGE (R92;
  safe). -/
  | noObject
  /-- A loaded image with an array of the wrong length; raised by BGMERGE (47_dds.md R361, U11; safe). -/
  | imageLength
  /-- A loaded image with a validity byte other than 0xFF and 0x00; raised by BGMERGE (R361, U12; safe). -/
  | imageValidity
  /-- A write of MODE with a Track open or held (70_reset_and_hazards.md R430, U9; safe). -/
  | modeWithTrack
  /-- A configuration write between the first input operation and STOP (R430, U10; safe). -/
  | configFrozen
deriving DecidableEq, Repr

/-! ### Reset -/

/-- The RS working registers at reset. R55 gives them no value: these are the model's (log entry 5). -/
def RsFile.initial : RsFile where
  vec := Vector.replicate 46 0
  valid := Vector.replicate 46 false
  syn := Vector.replicate 6 0
  era := []
  nera := 0
  sig := Vector.replicate 7 0
  omg := Vector.replicate 6 0
  cor := []
  ncor := 0
  status := .noErrors
  solveOk := false
  code := .c1
  draws := 0

/-- No object is in transit (R22). -/
def Transit.none : Transit := ⟨Option.none, Option.none, Option.none, Option.none, Option.none⟩

/-- The machine right after reset: the table of 10_state.md R55, and for what it calls unspecified the values of log entry
5. -/
def State.reset : State where
  rs := .initial
  gfr := 0
  clk := ⟨Vector.replicate 8 0, 0, 0, 0, 0, 0, false⟩
  timer := ⟨0, false⟩
  win := Vector.replicate 8 0
  dfr := ⟨0, 0, false, false⟩
  pre := ⟨0, 0, false⟩
  asm := ⟨Vector.replicate 36 0, 0⟩
  cur := none
  lastBlk := none
  last := none
  transit := .none
  report := none
  sess := ⟨.data, 0⟩
  bg := none
  mode := .dat
  sessionSel := 0
  cfg := Config.defaults
  images := []
  running := false
  port := []
  out := []

/-! ### Updates of one field -/

/-- `s` with `rs` replaced. -/
def State.setRs (s : State) (x : RsFile) : State :=
  { s with rs := x }

/-- `s` with `gfr` replaced. -/
def State.setGfr (s : State) (x : Byte) : State :=
  { s with gfr := x }

/-- `s` with `clk` replaced. -/
def State.setClk (s : State) (x : Clock) : State :=
  { s with clk := x }

/-- `s` with `timer` replaced. -/
def State.setTimer (s : State) (x : Timer) : State :=
  { s with timer := x }

/-- `s` with `dfr` replaced. -/
def State.setDfr (s : State) (x : Deframer) : State :=
  { s with dfr := x }

/-- `s` with `pre` replaced. -/
def State.setPre (s : State) (x : Preamble) : State :=
  { s with pre := x }

/-- `s` with `asm` replaced. -/
def State.setAsm (s : State) (x : BlockAsm) : State :=
  { s with asm := x }

/-- `s` with `cur` replaced. -/
def State.setCur (s : State) (x : Option Track) : State :=
  { s with cur := x }

/-- `s` with `lastBlk` replaced. -/
def State.setLastBlk (s : State) (x : Option (Fin 144)) : State :=
  { s with lastBlk := x }

/-- `s` with `last` replaced. -/
def State.setLast (s : State) (x : Option Track) : State :=
  { s with last := x }

/-- `s` with `transit` replaced. -/
def State.setTransit (s : State) (x : Transit) : State :=
  { s with transit := x }

/-- `s` with `report` replaced. -/
def State.setReport (s : State) (x : Option G3Report) : State :=
  { s with report := x }

/-- `s` with `sess` replaced. -/
def State.setSess (s : State) (x : Session) : State :=
  { s with sess := x }

/-- `s` with `bg` replaced. -/
def State.setBg (s : State) (x : Option BasicGroup) : State :=
  { s with bg := x }

/-- `s` with `running` replaced. -/
def State.setRunning (s : State) (x : Bool) : State :=
  { s with running := x }

/-- `s` with `out` replaced. -/
def State.setOut (s : State) (x : List HostOut) : State :=
  { s with out := x }

end Sys2Proof.Machine
end

