-- ==== Sys2Proof/Machine/Ops.lean ====
section
/-! DEFINITION. The named operations over storage, registers, containers and outputs that the meanings share. RDATCORE has
no exceptions (60_exceptions.md R390, R397): what stands in for taking one is refusing an operation, here once. -/

namespace Sys2Proof.Machine

open Sys2Proof

/-! ### Outcomes -/

/-- An operation on the state: a next state, or a refusal that leaves the state as it was (R390, R397). -/
abbrev Res := Except Refusal State

/-- Refusing: the spec gives the operation no meaning on these operands (00_scope.md R14, R390). -/
def refuse {α : Type} (r : Refusal) : Except Refusal α := .error r

/-- The outcome of an operation as one step's outcome. There is no fault (R390). -/
def settle (x : Res) : Host.Outcome State Fault Refusal :=
  match x with
  | .ok s => .next s
  | .error r => .refused r

/-! ### Storage arrays (20_memory.md R60 to R67) -/

/-- The contents at address `a`: the listed entry, or the default `d`. -/
def sread {α : Type} (d : α) : Store α → Nat → α
  | [], _ => d
  | (k, v) :: m, a => if a = k then v else sread d m a

/-- Write `v` at address `a`, keeping the canonical form: addresses rising, no entry equal to the default `d`. -/
def swrite {α : Type} [DecidableEq α] (d : α) : Store α → Nat → α → Store α
  | [], a, v => if v = d then [] else [(a, v)]
  | (k, w) :: m, a, v =>
    if a < k then (if v = d then (k, w) :: m else (a, v) :: (k, w) :: m)
    else if a = k then (if v = d then m else (a, v) :: m)
    else (k, w) :: swrite d m a v

/-- Write a list of (address, contents) pairs, first to last. -/
def swriteAll {α : Type} [DecidableEq α] (d : α) (m : Store α) (kvs : List (Nat × α)) : Store α :=
  kvs.foldl (fun m kv => swrite d m kv.1 kv.2) m

/-- The array whose contents at every address `a < n` are `f a`, and the default elsewhere. -/
def sbuild {α : Type} [DecidableEq α] (d : α) (n : Nat) (f : Nat → α) : Store α :=
  ((List.range n).map fun a => (a, f a)).filter fun kv => kv.2 ≠ d

/-- The array that holds the list `xs` from address 0 on, and the default elsewhere. -/
def sofList {α : Type} [DecidableEq α] (d : α) (xs : List α) : Store α :=
  (xs.zipIdx.map fun (v, a) => (a, v)).filter fun kv => kv.2 ≠ d

/-- The contents of addresses 0 to n-1 in order. -/
def sdump {α : Type} (d : α) (n : Nat) (m : Store α) : List α :=
  (List.range n).map (sread d m)

/-- The canonical form of a store over addresses below `n`: addresses rising and below `n`, no entry equal to the default. -/
def swf {α : Type} [DecidableEq α] (d : α) (n : Nat) (m : Store α) : Bool :=
  decide (m.Pairwise fun x y => x.1 < y.1) && m.all fun e => decide (e.1 < n) && decide (e.2 ≠ d)

/-! ### Registers -/

/-- The contents of the first `n` registers of a register file, in order. -/
def fileValues {α : Type} {m : Nat} (v : Vector α m) (n : Nat) : List α := v.toList.take n

/-- Write a list to the first registers of a file; the others are not written (10_state.md R24). -/
def writeFile {α : Type} {m : Nat} (v : Vector α m) (xs : List α) : Vector α m :=
  Vector.ofFn fun i => (xs[i.val]?).getD v[i]

/-! ### Cells of a Track (R61, R62, R67) -/

/-- `TRK(t)[b][i]`. -/
def Track.cell (t : Track) (b i : Nat) : Flagged := sread blankCell t.cells (32 * b + i)

/-- `TRKHDR(t)[b]`; a record never written is (false, false, 0x00) (10_state.md R56). -/
def Track.hdr (t : Track) (b : Nat) : Hdr := sread ⟨false, false, 0⟩ t.hdrs b

/-- Write cells of space TRK by linear address. -/
def Track.writeCells (t : Track) (kvs : List (Nat × Flagged)) : Track :=
  { t with cells := swriteAll blankCell t.cells kvs }

/-- `TRKHDR(t)[b] <- h`. -/
def Track.writeHdr (t : Track) (b : Nat) (h : Hdr) : Track :=
  { t with hdrs := swrite ⟨false, false, 0⟩ t.hdrs b h }

/-- `FRM[w][c]` (R63). -/
def Frame.cell (f : Frame) (w c : Nat) : Flagged := sread blankCell f.cells (4 * w + c)

/-- `BGM[k]` (R64). -/
def BasicGroup.mainCell (g : BasicGroup) (k : Nat) : Flagged := sread blankCell g.main k

/-- `BGE[k]` (R65). -/
def BasicGroup.eccCell (g : BasicGroup) (k : Nat) : Flagged := sread blankCell g.ecc k

/-! ### Containers and objects -/

/-- The open Track for a write: refused when there is none or it is sealed (20_memory.md R77, 42_codec_shells.md R183,
R186, R200, R201). -/
def openTrack (s : State) : Except Refusal Track :=
  match s.cur with
  | none => refuse .noTrack
  | some t => if t.isSealed then refuse .trackSealed else .ok t

/-- The active basic group, refused when there is none (R197, R202). -/
def activeGroup (s : State) : Except Refusal BasicGroup :=
  match s.bg with
  | none => refuse .noBasicGroup
  | some g => .ok g

/-- The object a class E operation takes, refused when the emitter passed none (30_encoding.md R92). -/
def object {α : Type} (x : Option α) : Except Refusal α :=
  match x with
  | none => refuse .noObject
  | some a => .ok a

/-! ### Outputs -/

/-- Deliver one output to the host (60_exceptions.md R405). -/
def emitOut (s : State) (o : HostOut) : State := s.setOut (s.out ++ [o])

end Sys2Proof.Machine
end

