-- ==== Sys2Proof/Machine/Operands.lean ====
section
/-! DEFINITION. Operand forms: code parameters, look-ups in the OPEN parameters, the numerics record FP, the binary32
operand, and the iterators that map codeword positions to cells. -/

namespace Sys2Proof.Machine

open Sys2Proof

/-! ### Code parameters (41_rs_solver.md R151) -/

/-- `n` of a code: 32, 32, 46. -/
def codeLen : Code → Nat
  | .c1 => 32
  | .c2 => 32
  | .c3 => 46

/-- `r` = 2t of a code: 4, 6, 2. -/
def codePar : Code → Nat
  | .c1 => 4
  | .c2 => 6
  | .c3 => 2

/-- The positions 0..n-1 of a code, ascending (42_codec_shells.md R180). -/
def codePositions (code : Code) : List (Fin 46) := (List.finRange 46).take (codeLen code)

/-! ### The OPEN parameters (00_scope.md R11) -/

/-- `LOC(code, p)`: the supplied entry, or the default n-1-p (R151). -/
def locOf (cfg : Params) (code : Code) (p : Fin 46) : Int :=
  (cfg.loc.lookup (code, p)).getD ((codeLen code : Int) - 1 - p.val)

/-- `DEC10(w)` (45_block_track.md R272). -/
def dec10Of (cfg : Params) (w : LineWord) : Flagged :=
  (cfg.dec10.lookup w).getD (Config.dec10 w)

/-- The default of `BLKNO`: bit 7 of h1 clear, the block number is h1; set, it is 128 + (h1 and 0x0F) (R275). -/
def blknoDefault (h1 : Byte) : Fin 144 :=
  if h : h1.toNat < 128 then ⟨h1.toNat, by omega⟩ else ⟨128 + h1.toNat % 16, by omega⟩

/-- `BLKNO(h0, h1)`: the supplied entry, or the default (R275). -/
def blknoOf (cfg : Params) (h0 h1 : Byte) : Fin 144 :=
  (cfg.blkno.lookup (h0, h1)).getD (blknoDefault h1)

/-- `DEMUX(c, w)` (46_framer_frame.md R328). -/
def demuxOf (cfg : Params) (c : Fin 2) (w : Fin 1456) : Fin 144 × Fin 32 :=
  (cfg.demux.lookup (c, w)).getD (Config.demux c w)

/-- f(s, tp, il, p mod 2), the offset inside a sub-group: the supplied entry or the base (42_codec_shells.md R190, R196). -/
def c3OffsetOf (cfg : Params) (a : C3Arg) : Fin 5756 :=
  (cfg.c3offset.lookup a).getD (Config.c3Offset a)

/-- The fixed flagged byte of a position without a stored cell, if it is one (R196). -/
def c3FixedOf (cfg : Params) (sel : C3Sel) : Option Flagged :=
  (cfg.c3fixed.lookup sel).getD (Config.c3Fixed sel)

/-- `C3_CELL(s, tp, il, p)` by the geometry of R190: sub-group p div 2; below 22 the main buffer at (p div 2)*5756 + f, at
22 the ECC region at f; or a position without a stored cell (R196). -/
def c3CellOf (cfg : Params) (sel : C3Sel) : C3Ref :=
  match c3FixedOf cfg sel with
  | some c => .fixed c
  | none =>
    let f := c3OffsetOf cfg ⟨sel.slice, sel.tp, sel.il, decide (sel.p.val % 2 = 1)⟩
    if h : sel.p.val / 2 < 22 then .main ⟨sel.p.val / 2 * 5756 + f.val, by have := f.isLt; omega⟩ else .ecc f

/-- `WHITEN(i)` (47_dds.md R352). -/
def whitenOf (cfg : Params) (i : Fin 5756) : Byte :=
  (cfg.whiten.lookup i).getD (Config.whiten i)

/-- `PARSE_DDS(packs)` (47_dds.md R343). -/
def parseDdsOf (cfg : Params) (p : Packs) : Option DdsFields :=
  (cfg.parse.lookup p).getD (Config.parseDds p)

/-- `CKSUM_SET(k)` as a list without repeats, k = 0..3 for the spec's 1..4 (47_dds.md R350). -/
def cksumSetOf (cfg : Params) (k : Fin 4) : List (Fin 1456 × Fin 4) :=
  ((cfg.cksum.lookup k).getD (Config.cksumSet k)).eraseDups

/-! ### The numerics record FP (43_clock_recovery.md R221, D15) -/

/-- Addition of FP. -/
def fpAdd : Numerics → Rat → Rat → Rat
  | .exact, x, y => x + y
  | .format k, x, y => Config.fpAdd k x y

/-- Subtraction of FP. -/
def fpSub : Numerics → Rat → Rat → Rat
  | .exact, x, y => x - y
  | .format k, x, y => Config.fpSub k x y

/-- Multiplication of FP. -/
def fpMul : Numerics → Rat → Rat → Rat
  | .exact, x, y => x * y
  | .format k, x, y => Config.fpMul k x y

/-- Division of FP. -/
def fpDiv : Numerics → Rat → Rat → Rat
  | .exact, x, y => x / y
  | .format k, x, y => Config.fpDiv k x y

/-- Absolute value of FP. -/
def fpAbs : Numerics → Rat → Rat
  | .exact, x => if x < 0 then -x else x
  | .format k, x => Config.fpAbs k x

/-- Less-than of FP. -/
def fpLt : Numerics → Rat → Rat → Bool
  | .exact, x, y => decide (x < y)
  | .format k, x, y => Config.fpLt k x y

/-- A real number (a sample, ALPHA_E, DET_RATIO) as FP holds it. -/
def fpOfReal : Numerics → Rat → Rat
  | .exact, x => x
  | .format k, x => Config.fpOfReal k x

/-! ### The operand of SAMPLE: an IEEE-754 binary32 bit pattern (30_encoding.md R93, 20_memory.md R68) -/

/-- Bits 30..23. -/
def f32Exponent (b : BitVec 32) : Nat := (b.extractLsb' 23 8).toNat

/-- Bits 22..0. -/
def f32Fraction (b : BitVec 32) : Nat := (b.extractLsb' 0 23).toNat

/-- Neither a NaN nor an infinity (R235). -/
def f32Finite (b : BitVec 32) : Bool := decide (f32Exponent b ≠ 255)

/-- The magnitude of a finite sample: (2^23 + fraction) * 2^(exponent - 150), or fraction * 2^(-149) when the exponent
field is 0 (R93). -/
def f32Magnitude (b : BitVec 32) : Rat :=
  let m := if f32Exponent b = 0 then f32Fraction b else 2 ^ 23 + f32Fraction b
  let e := max (f32Exponent b) 1
  if 150 ≤ e then mkRat (m * 2 ^ (e - 150) : Nat) 1 else mkRat m (2 ^ (150 - e))

/-- The real number a finite sample denotes; negative zero is 0 (R93, R235). -/
def f32Value (b : BitVec 32) : Rat :=
  if b.getLsbD 31 then -f32Magnitude b else f32Magnitude b

/-! ### Iterators: codeword position to cell (42_codec_shells.md R181) -/

/-- `cell_C1(pair, il, p)` as a linear address of TRK (R182): positions 0..15 are the even or odd bytes of the lower block
of the pair, 16..31 those of the upper. -/
def c1Addr (pr il p : Nat) : Nat :=
  if p < 16 then 32 * (2 * pr) + (2 * p + il) else 32 * (2 * pr + 1) + (2 * (p - 16) + il)

/-- `cell_C2(g, s, p)` as a linear address of TRK (R185): byte s of block 4p+g. -/
def c2Addr (g sl p : Nat) : Nat := 32 * (4 * p + g) + sl

/-- The 32 addresses of a C1 vector, by position. -/
def c1Addrs (pr il : Nat) : List Nat := (List.range 32).map (c1Addr pr il)

/-- The 32 addresses of a C2 vector, by position. -/
def c2Addrs (g sl : Nat) : List Nat := (List.range 32).map (c2Addr g sl)

/-- The 46 cell references of a C3 vector, by position (R196). -/
def c3Refs (cfg : Params) (sl : Fin 720) (tp il : Bool) : List C3Ref :=
  (List.finRange 46).map fun p => c3CellOf cfg ⟨sl, tp, il, p⟩

/-- The flagged byte a C3 cell reference reads (R196). -/
def readC3 (g : BasicGroup) : C3Ref → Flagged
  | .main k => g.mainCell k.val
  | .ecc k => g.eccCell k.val
  | .fixed c => c

/-- Write a flagged byte back through a C3 cell reference; a FIXED position discards it (R196). -/
def writeC3 (g : BasicGroup) : C3Ref → Flagged → BasicGroup
  | .main k, c => { g with main := swrite blankCell g.main k.val c }
  | .ecc k, c => { g with ecc := swrite blankCell g.ecc k.val c }
  | .fixed _, _ => g

/-! ### The polynomial operand of GFPEVAL (40_gf256.md R137) -/

/-- The coefficients that `src` selects: SYN[0..2t-1], SIG[0..2t] or OMG[0..2t-1], with 2t taken from CODE (R137). -/
def polyOperand (rs : RsFile) : PolySrc → List Byte
  | .syn => fileValues rs.syn (codePar rs.code)
  | .sig => fileValues rs.sig (codePar rs.code + 1)
  | .omg => fileValues rs.omg (codePar rs.code)

end Sys2Proof.Machine
end

