-- ==== Sys2Proof/Machine/Flags.lean ====
section
/-! DEFINITION. Every flag and status the spec computes (10_state.md R46, 60_exceptions.md R391). -/

namespace Sys2Proof.Machine

open Sys2Proof

/-! ### RS_STATUS and the validity rules of the shells -/

/-- RS_STATUS after RSSYN: NO_ERRORS iff every syndrome is zero, else provisionally UNCORRECTABLE (41_rs_solver.md R153). -/
def synStatus (syn : List Byte) : RsStatus :=
  if syn.all (· = 0) then .noErrors else .uncorrectable

/-- RS_STATUS after RSVFY's check: CORRECTED iff every residual is zero (R158). -/
def verifyStatus (residual : List Byte) : RsStatus :=
  if residual.all (· = 0) then .corrected else .uncorrectable

/-- The flag that all 32 positions take after C1DEC (42_codec_shells.md R184): false when two corrections were applied or
the vector is uncorrectable, true otherwise. -/
def c1Valid (status : RsStatus) (ncor : Nat) : Bool :=
  match status with
  | .noErrors => true
  | .corrected => decide (ncor ≠ 2)
  | .uncorrectable => false

/-- The flag that all 32 positions take after C2DEC (R187). -/
def c2Valid (status : RsStatus) : Bool :=
  match status with
  | .noErrors => true
  | .corrected => true
  | .uncorrectable => false

/-- The flag a position that was filled with `ok` takes after C3DEC (R198): true on success, left as filled on failure. -/
def c3Valid (status : RsStatus) (ok : Bool) : Bool :=
  match status with
  | .noErrors => true
  | .corrected => true
  | .uncorrectable => ok

/-- What a vector that ended with `status` adds to the CORRECTED counter (45_block_track.md R287). -/
def corrIncr (status : RsStatus) : Nat :=
  match status with
  | .noErrors => 0
  | .corrected => 1
  | .uncorrectable => 0

/-- What it adds to the UNCORRECTABLE counter (R287). -/
def uncIncr (status : RsStatus) : Nat :=
  match status with
  | .noErrors => 0
  | .corrected => 0
  | .uncorrectable => 1

/-! ### Clock (43_clock_recovery.md R226, R227) -/

/-- The lowest index of the maximum of the ring: a scan from index 0 with a strict greater-than (R226). -/
def argMax (fp : Numerics) (e : Vector Rat 8) : Fin 8 :=
  (List.finRange 8).foldl (fun m i => if fpLt fp e[m] e[i] then i else m) 0

/-- The index of the minimum of the ring (R227), found as R226 finds the maximum: a scan from index 0 with a strict less-than
(DESIGN CHOICE, unsafe: log entry 38). -/
def argMin (fp : Numerics) (e : Vector Rat 8) : Fin 8 :=
  (List.finRange 8).foldl (fun m i => if fpLt fp e[i] e[m] then i else m) 0

/-- `clk_detected` from a ring: the maximum is positive and min/max is below DET_RATIO (R227). The number 0 is the rational 0 in
every format (DESIGN CHOICE, safe: log entry 37). -/
def clockDetected (fp : Numerics) (e : Vector Rat 8) : Bool :=
  fpLt fp 0 e[argMax fp e] &&
    fpLt fp (fpDiv fp e[argMin fp e] e[argMax fp e]) (fpOfReal fp Config.detRatio)

/-! ### Deframer (44_deframer.md R253) -/

/-- The low nine bits of the shift register equal those of the sync word. -/
def syncMatch (sr : LineWord) : Bool :=
  decide (sr &&& Config.syncMask = Config.syncWord &&& Config.syncMask)

/-! ### Blocks and Tracks (45_block_track.md R274, R278, R283, R105) -/

/-- `hdr_good`: the three header bytes are valid and their XOR is zero (R274). -/
def hdrGood (y0 y1 y2 : Flagged) : Bool :=
  y0.ok && y1.ok && y2.ok && decide (y0.v ^^^ y1.v ^^^ y2.v = 0)

/-- `legal_succ(k)`: k and k+1 lie together in one of the ranges 0..0x7F, 0x80..0x88, 0x88..0x8F (R278). -/
def legalSucc (k : Nat) : Bool :=
  decide (k ≤ 0x7E) || decide (0x88 ≤ k ∧ k ≤ 0x8E) || decide (0x80 ≤ k ∧ k ≤ 0x87)

/-- The head tag at track stop: A when the ATF3 count is above the threshold, else UNKNOWN; never B (R283). -/
def headOf (atf3 : Nat) : Head :=
  if Config.atfThreshold < atf3 then .a else .unknown

/-- A subcode item is good iff its eight cells are valid and their XOR is zero (30_encoding.md R105, R288). -/
def itemGood (c : List Flagged) : Bool :=
  c.all (·.ok) && decide ((c.map (·.v)).foldl (· ^^^ ·) 0 = 0)

/-! ### Frames (46_framer_frame.md R321, R322; 47_dds.md R346, R349, R350) -/

/-- `IsFrame_DAT`: pack 2 present in both and equal, the older head not B, the newer head not A (R321). -/
def isFrameDat (l n : Track) : Bool :=
  l.pack[2].isSome && n.pack[2].isSome && decide (l.pack[2] = n.pack[2]) &&
    decide (l.head ≠ .b) && decide (n.head ≠ .a)

/-- `IsFrame_DDS`: pack 3 present in both and equal (R322). -/
def isFrameDds (l n : Track) : Bool :=
  l.pack[3].isSome && n.pack[3].isSome && decide (l.pack[3] = n.pack[3])

/-- The IsFrame rule that MODE selects (R320). -/
def isFrame (mode : Mode) (l n : Track) : Bool :=
  match mode with
  | .dat => isFrameDat l n
  | .dds => isFrameDds l n

/-- Some cell of FRM, in any of the 1456 rows, has its flag false (R346). -/
def frameHasInvalid (f : Frame) : Bool :=
  !((List.range 5824).all fun k => (sread blankCell f.cells k).ok)

/-- L, the LFID byte: bits 5..0 lfid, bit 6 is_ecc3, bit 7 is_last (R349, 30_encoding.md R106). -/
def lfidByte (d : DdsFields) : Byte :=
  BitVec.ofBool d.isLast ++ BitVec.ofBool d.isEcc3 ++ d.lfid

/-- `cksum_computed[k]`: the XOR of the byte values over CKSUM_SET(k), whatever their flags (R350). -/
def cksumComputed (cfg : Params) (f : Frame) : Vector Byte 4 :=
  Vector.ofFn fun k => ((cksumSetOf cfg k).map fun rc => (f.cell rc.1.val rc.2.val).v).foldl (· ^^^ ·) 0

end Sys2Proof.Machine
end

