-- ==== Sys2Proof/Machine/Gf.lean ====
section
/-! DEFINITION. The GF(2^8) arithmetic unit: GFMUL, GFPOWA, GFINV, GFPEVAL (40_gf256.md R130 to R137). -/

namespace Sys2Proof.Machine

open Sys2Proof

/-! ### The tables of R132, each as one wide ROM word of bytes -/

/-- EXP[i+1] from EXP[i]: shift left, and subtract PRIM_POLY when bit 7 was set (R132). -/
def expStep (p a : Nat) : Nat := if a < 128 then 2 * a else ((2 * a) ^^^ p) % 256

/-- `n` entries of EXP from the entry `a` on, entry i in bits 8i+7..8i. -/
def expRomFrom (p : Nat) : Nat → Nat → Nat
  | 0, _ => 0
  | n + 1, a => a + 256 * expRomFrom p n (expStep p a)

/-- EXP[0..254], EXP[0] = 0x01 (R132). -/
def expRom (p : Nat) : Nat := expRomFrom p 255 1

/-- Entry `i` of a ROM word. -/
def romByte (rom i : Nat) : Nat := (rom >>> (8 * i)) % 256

/-- The ROM with i at entry EXP[i], for the first `n` entries of EXP. -/
def logRomFrom (rom : Nat) : Nat → Nat
  | 0 => 0
  | n + 1 => (n <<< (8 * romByte rom n)) ||| logRomFrom rom n

/-- LOG, with LOG[EXP[i]] = i for i = 0..254 (R132). -/
def logRom (p : Nat) : Nat := logRomFrom (expRom p) 255

/-- EXP[i mod 255] (R132, R135). -/
def gfExp (p : BitVec 9) (i : Nat) : Byte := BitVec.ofNat 8 (romByte (expRom p.toNat) (i % 255))

/-- LOG[a], for a nonzero `a` (R132: LOG[0] does not exist). -/
def gfLog (p : BitVec 9) (a : Byte) : Nat := romByte (logRom p.toNat) a.toNat

/-! ### The four field operations (R134 to R137) -/

/-- `gf_mul(a, b)` (R134). -/
def gfMul (p : BitVec 9) (a b : Byte) : Byte :=
  if a = 0 ∨ b = 0 then 0 else gfExp p ((gfLog p a + gfLog p b) % 255)

/-- `gf_pow(i)` on every integer, the exponent reduced modulo 255 into 0..254 (R135, D5). -/
def gfPow (p : BitVec 9) (i : Int) : Byte := gfExp p (i % 255).toNat

/-- `gf_inv(a)` for a nonzero `a` (R136). -/
def gfInv (p : BitVec 9) (a : Byte) : Byte := gfExp p ((255 - gfLog p a) % 255)

/-- `gf_peval(c, x)` by Horner's rule, the coefficient of x^i at index i (R137). -/
def gfPeval (p : BitVec 9) (c : List Byte) (x : Byte) : Byte :=
  c.foldr (fun ci r => gfMul p r x ^^^ ci) 0

/-! ### The meanings -/

/-- GFR takes the result of a GF operation (10_state.md R32). -/
def putGfr (s : State) (v : Byte) : State := s.setGfr v

/-- GFMUL (R134). -/
def execGfmul (a b : Byte) (s : State) : Host.Outcome State Fault Refusal :=
  .next (putGfr s (gfMul s.cfg.primPoly a b))

/-- GFPOWA (R135). -/
def execGfpowa (i : BitVec 32) (s : State) : Host.Outcome State Fault Refusal :=
  .next (putGfr s (gfPow s.cfg.primPoly i.toNat))

/-- GFINV: refused on zero, which has no inverse (R136, U1). -/
def execGfinv (a : Byte) (s : State) : Host.Outcome State Fault Refusal :=
  if a = 0 then .refused .inverseOfZero else .next (putGfr s (gfInv s.cfg.primPoly a))

/-- GFPEVAL (R137). -/
def execGfpeval (src : PolySrc) (x : Byte) (s : State) : Host.Outcome State Fault Refusal :=
  .next (putGfr s (gfPeval s.cfg.primPoly (polyOperand s.rs src) x))

end Sys2Proof.Machine
end

