-- ==== Sys2Proof/Machine/Rs.lean ====
section
/-! DEFINITION. The Reed-Solomon solver: RSSYN, RSSOLVE, RSEVAL, RSVFY and the sequence RSCORRECT (41_rs_solver.md R150 to
R159). Polynomials are coefficient lists, index = degree (40_gf256.md R133, 00_scope.md R14). -/

namespace Sys2Proof.Machine

open Sys2Proof

/-! ### Polynomials over GF(2^8) -/

/-- Coefficient-wise XOR (R133). -/
def polyAdd : List Byte → List Byte → List Byte
  | [], b => b
  | a, [] => a
  | x :: a, y :: b => (x ^^^ y) :: polyAdd a b

/-- Every coefficient multiplied by `c`. -/
def polyScale (p : BitVec 9) (c : Byte) (a : List Byte) : List Byte := a.map (gfMul p c)

/-- Convolution (R133). -/
def polyMul (p : BitVec 9) : List Byte → List Byte → List Byte
  | [], _ => []
  | x :: a, b => polyAdd (polyScale p x b) (0 :: polyMul p a b)

/-- The list without its leading zero coefficients (those of the highest degrees). -/
def polyTrim (a : List Byte) : List Byte := (a.reverse.dropWhile (· = 0)).reverse

/-- `deg(c)`: the largest index of a nonzero coefficient, -1 for the zero polynomial (R14). -/
def polyDeg (a : List Byte) : Int := (polyTrim a).length - 1

/-- The leading coefficient, 0 for the zero polynomial. -/
def polyLead (a : List Byte) : Byte := (polyTrim a).getLastD 0

/-- Multiplication by x^k. -/
def polyShift (k : Nat) (a : List Byte) : List Byte := List.replicate k 0 ++ a

/-- The first `n` coefficients, padded with zeros. -/
def polyPad (n : Nat) (a : List Byte) : List Byte := (List.range n).map fun i => a.getD i 0

/-- The coefficient of x^k of a product, k < n: multiplication modulo x^n (R155). -/
def polyMulMod (p : BitVec 9) (n : Nat) (a b : List Byte) : List Byte := polyPad n (polyMul p a b)

/-- Long division by `b` with at most `fuel` quotient terms: `q` the quotient so far, `rem` the remainder (R155). -/
def polyDivLoop (p : BitVec 9) (b : List Byte) : Nat → List Byte → List Byte → List Byte × List Byte
  | 0, q, rem => (q, rem)
  | fuel + 1, q, rem =>
    if polyDeg rem < polyDeg b then (q, rem)
    else
      let k := (polyDeg rem - polyDeg b).toNat
      let c := gfMul p (polyLead rem) (gfInv p (polyLead b))
      polyDivLoop p b fuel (polyAdd q (polyShift k [c])) (polyAdd rem (polyShift k (polyScale p c b)))

/-- `polydivmod(a, b)` for b nonzero: (q, rem) with a = q*b + rem and deg rem < deg b (R155). -/
def polyDivMod (p : BitVec 9) (a b : List Byte) : List Byte × List Byte :=
  polyDivLoop p b a.length [] a

/-! ### Syndromes (R152, R153) -/

/-- X_p^(FCR + j), the weight of position `p` in syndrome `j`. -/
def synWeight (cfg : Params) (code : Code) (p : Fin 46) (j : Nat) : Byte :=
  gfPow cfg.primPoly (locOf cfg code p * (cfg.fcr + j))

/-- The XOR over the given (position, byte) pairs of byte * X_p^(FCR + j). -/
def weightedSum (cfg : Params) (code : Code) (j : Nat) (pv : List (Fin 46 × Byte)) : Byte :=
  (pv.map fun x => gfMul cfg.primPoly x.2 (synWeight cfg code x.1 j)).foldl (· ^^^ ·) 0

/-- The r syndromes of a vector v[0..n-1] (R153). -/
def syndromes (cfg : Params) (code : Code) (v : List Byte) : List Byte :=
  (List.range (codePar code)).map fun j => weightedSum cfg code j ((codePositions code).zip v)

/-- RSSYN (R153). -/
def rsSyn (cfg : Params) (code : Code) (rs : RsFile) : RsFile :=
  let syn := syndromes cfg code (fileValues rs.vec (codeLen code))
  { rs with code := code, syn := writeFile rs.syn syn, status := synStatus syn }

/-! ### The key-equation solver (R154, R155) -/

/-- The four polynomials of the Euclidean loop. -/
structure Euclid where
  a : List Byte
  b : List Byte
  ua : List Byte
  ub : List Byte
deriving DecidableEq, Repr

/-- The loop of R155: while 2*deg(b) >= bound, divide and swap. It runs at most r times, the fuel it is given. -/
def euclidLoop (p : BitVec 9) (bound : Int) : Nat → Euclid → Euclid
  | 0, st => st
  | fuel + 1, st =>
    if bound ≤ 2 * polyDeg st.b then
      let d := polyDivMod p st.a st.b
      euclidLoop p bound fuel ⟨st.b, d.2, st.ub, polyAdd st.ua (polyMul p d.1 st.ub)⟩
    else st

/-- The erasure locator: the product of (1 + X_p x) over ERA (R155). -/
def erasureLocator (cfg : Params) (code : Code) (era : List (Fin 46)) : List Byte :=
  era.foldl (fun g p => polyMul cfg.primPoly g [1, gfPow cfg.primPoly (locOf cfg code p)]) [1]

/-- T = (S * Gamma) mod x^r, the modified syndrome (R155). -/
def modifiedSyndrome (cfg : Params) (code : Code) (era : List (Fin 46)) (syn : List Byte) : List Byte :=
  polyMulMod cfg.primPoly (codePar code) syn (erasureLocator cfg code era)

/-- The state of the Euclidean loop when it ends (R155). -/
def euclidEnd (cfg : Params) (code : Code) (rho : Nat) (era : List (Fin 46)) (syn : List Byte) : Euclid :=
  euclidLoop cfg.primPoly (codePar code + rho) (codePar code)
    ⟨polyShift (codePar code) [1], modifiedSyndrome cfg code era syn, [0], [1]⟩

/-- (L, W) of R155: the error locator and the evaluator, or none when Lambda(0) = 0; rho is NERA. -/
def keySolve (cfg : Params) (code : Code) (fe : Bool) (rho : Nat) (era : List (Fin 46)) (syn : List Byte) :
    Option (List Byte × List Byte) :=
  if fe then
    let st := euclidEnd cfg code rho era syn
    if st.ub.headD 0 = 0 then none
    else
      let c := gfInv cfg.primPoly (st.ub.headD 0)
      some (polyScale cfg.primPoly c st.ub, polyScale cfg.primPoly c st.b)
  else some ([1], modifiedSyndrome cfg code era syn)

/-- The failure of the solver: SOLVE_OK false, RS_STATUS UNCORRECTABLE (R155). -/
def solveFail (rs : RsFile) : RsFile :=
  { rs with solveOk := false, status := .uncorrectable }

/-- Free bytes from the counter `k` on in the first `n` registers of a file (R154 "SIG and OMG unspecified"). -/
def unspecify {m : Nat} (v : Vector Byte m) (n k : Nat) : Vector Byte m :=
  Vector.ofFn fun i => if i.val < n then Config.freeByte (k + i.val) else v[i]

/-- SIG[0..r] and OMG[0..r-1] become unspecified: free values are drawn (R154, log entry 6). -/
def unspecifySolution (code : Code) (rs : RsFile) : RsFile :=
  { rs with
    sig := unspecify rs.sig (codePar code + 1) rs.draws
    omg := unspecify rs.omg (codePar code) (rs.draws + 7)
    draws := rs.draws + 13 }

/-- RSSOLVE (R154, R155). -/
def rsSolve (cfg : Params) (fe : Bool) (code : Code) (rs : RsFile) : RsFile :=
  let rs := { rs with code := code }
  if codePar code < rs.nera then solveFail (unspecifySolution code rs)
  else
    match keySolve cfg code fe rs.nera rs.era (fileValues rs.syn (codePar code)) with
    | none => solveFail rs
    | some (l, w) =>
      { rs with
        sig := writeFile rs.sig (polyPad (codePar code + 1) (polyMul cfg.primPoly (erasureLocator cfg code rs.era) l))
        omg := writeFile rs.omg (polyPad (codePar code) w)
        solveOk := true }

/-! ### Root search and Forney (R157) -/

/-- The formal derivative of SIG at z = X^(-1), X = alpha^k: the odd-degree terms (R157). -/
def sigmaDeriv (p : BitVec 9) (sig : List Byte) (k : Int) : Byte :=
  (((List.range sig.length).filter fun i => i % 2 = 1).map fun i =>
    gfMul p (sig.getD i 0) (gfPow p (-k * ((i : Int) - 1)))).foldl (· ^^^ ·) 0

/-- Forney's value for first root alpha^FCR (R157). -/
def forney (cfg : Params) (omg : List Byte) (k : Int) (d : Byte) : Byte :=
  let p := cfg.primPoly
  gfMul p (gfPow p (k * (1 - cfg.fcr))) (gfMul p (gfPeval p omg (gfPow p (-k))) (gfInv p d))

/-- Whether sigma vanishes at X_p^(-1) (R157). -/
def isRoot (cfg : Params) (code : Code) (sig : List Byte) (p : Fin 46) : Bool :=
  decide (gfPeval cfg.primPoly sig (gfPow cfg.primPoly (-locOf cfg code p)) = 0)

/-- The search over the given positions: COR so far is `acc`; the Boolean is false when a repeated root ended it (R157). -/
def rootSearch (cfg : Params) (code : Code) (sig omg : List Byte) :
    List (Fin 46) → List (Fin 46 × Byte) → List (Fin 46 × Byte) × Bool
  | [], acc => (acc, true)
  | p :: ps, acc =>
    if isRoot cfg code sig p then
      let d := sigmaDeriv cfg.primPoly sig (locOf cfg code p)
      if d = 0 then (acc, false)
      else rootSearch cfg code sig omg ps (acc ++ [(p, forney cfg omg (locOf cfg code p) d)])
    else rootSearch cfg code sig omg ps acc

/-- RSEVAL (R157): nothing to evaluate after a failure; else COR and NCOR, or the repeated-root failure. A root count that
differs from deg sigma is a failure too (92_eei_decisions.md D10, log entry 35). -/
def rsEval (cfg : Params) (code : Code) (rs : RsFile) : RsFile :=
  let sig := fileValues rs.sig (codePar code + 1)
  let found := rootSearch cfg code sig (fileValues rs.omg (codePar code)) (codePositions code) []
  if !rs.solveOk then rs
  else if !found.2 then { solveFail rs with cor := found.1 }
  else
    let rs := { rs with cor := found.1, ncor := found.1.length }
    if (found.1.length : Int) = polyDeg sig then rs else solveFail rs

/-! ### Verify and apply (R158) -/

/-- R[j]: the syndrome with the predicted corrections XORed in (R158). -/
def residuals (cfg : Params) (code : Code) (syn : List Byte) (cor : List (Fin 46 × Byte)) : List Byte :=
  (syn.zipIdx).map fun x => x.1 ^^^ weightedSum cfg code x.2 cor

/-- VEC[p] <- VEC[p] ^ e for each (p, e) of COR (R158). -/
def applyCor (cor : List (Fin 46 × Byte)) (v : Vector Byte 46) : Vector Byte 46 :=
  cor.foldl (fun v pe => v.set pe.1 (v[pe.1] ^^^ pe.2)) v

/-- RSVFY (R158). -/
def rsVfy (cfg : Params) (code : Code) (rs : RsFile) : RsFile :=
  let res := residuals cfg code (fileValues rs.syn (codePar code)) rs.cor
  if !rs.solveOk then { rs with status := .uncorrectable }
  else if res.all (· = 0) then { rs with vec := applyCor rs.cor rs.vec, status := verifyStatus res }
  else { rs with status := verifyStatus res }

/-- The correction sequence RSCORRECT (R159, 30_encoding.md R96): no solve when the syndrome is zero. NCOR then keeps what it
held, by the pseudocode of R153 and R159 and against the wording of R160 (DEDUCED, unsafe: log entry 36). -/
def rsCorrect (cfg : Params) (fe : Bool) (code : Code) (rs : RsFile) : RsFile :=
  let rs := rsSyn cfg code rs
  if rs.status = .noErrors then rs
  else rsVfy cfg code (rsEval cfg code (rsSolve cfg fe code rs))

/-! ### The meanings -/

/-- An operation on the RS working registers alone, as an operation on the state. -/
def onRs (f : Params → RsFile → RsFile) (s : State) : State := s.setRs (f s.cfg s.rs)

/-- RSSYN (R153). -/
def execRssyn (code : Code) (s : State) : Host.Outcome State Fault Refusal :=
  .next (onRs (fun cfg => rsSyn cfg code) s)

/-- RSSOLVE (R154, R155). -/
def execRssolve (fe : Bool) (code : Code) (s : State) : Host.Outcome State Fault Refusal :=
  .next (onRs (fun cfg => rsSolve cfg fe code) s)

/-- RSEVAL (R157). -/
def execRseval (code : Code) (s : State) : Host.Outcome State Fault Refusal :=
  .next (onRs (fun cfg => rsEval cfg code) s)

/-- RSVFY (R158). -/
def execRsvfy (code : Code) (s : State) : Host.Outcome State Fault Refusal :=
  .next (onRs (fun cfg => rsVfy cfg code) s)

end Sys2Proof.Machine
end

