-- ==== Sys2Proof/Machine/Shells.lean ====
section
/-! DEFINITION. The codec shells and their passes: C1DEC, C2DEC, C3DEC, C1PASS, C2PASS, C3PASS (42_codec_shells.md R180 to
R202). -/

namespace Sys2Proof.Machine

open Sys2Proof

/-! ### The shell over a vector of flagged bytes (R180) -/

/-- CODE <- code, and the fill of VEC and VAL from position 0 (R180, 70_reset_and_hazards.md R428). -/
def fillVector (code : Code) (cells : List Flagged) (rs : RsFile) : RsFile :=
  { rs with
    code := code
    vec := writeFile rs.vec (cells.map (·.v))
    valid := writeFile rs.valid (cells.map (·.ok)) }

/-- The number of positions whose flag is false. -/
def badCount (cells : List Flagged) : Nat := cells.countP (!·.ok)

/-- The positions whose flag is false, ascending (R186, R197). -/
def erasures (cells : List Flagged) : List (Fin 46) :=
  ((List.finRange 46).zip cells).filterMap fun x => if x.2.ok then none else some x.1

/-- ERA and NERA take a list of positions. -/
def setErasures (era : List (Fin 46)) (rs : RsFile) : RsFile :=
  { rs with era := era, nera := era.length }

/-- The vector is uncorrectable by its count of bad flags: no syndrome is computed, VEC is unchanged (R183, R186, R197). -/
def giveUp (rs : RsFile) : RsFile := { rs with status := .uncorrectable }

/-- VAL takes a list of flags. -/
def setValid (flags : List Bool) (rs : RsFile) : RsFile :=
  { rs with valid := writeFile rs.valid flags }

/-- The first `n` positions of VEC and VAL, to be written back (R180). -/
def vectorCells (n : Nat) (rs : RsFile) : List Flagged :=
  ((rs.vec.toList.zip rs.valid.toList).take n).map fun x => ⟨x.1, x.2⟩

/-- C1 on a filled vector: more than 4 bad flags are uncorrectable, else errors are located with no erasures; then the
validity rule R184 (R183). -/
def c1Vector (cfg : Params) (cells : List Flagged) (rs : RsFile) : RsFile :=
  let rs := fillVector .c1 cells rs
  let rs := if 4 < badCount cells then giveUp rs else rsCorrect cfg true .c1 (setErasures [] rs)
  setValid (List.replicate 32 (c1Valid rs.status rs.ncor)) rs

/-- C2 on a filled vector: erasures only, more than 6 are uncorrectable; then the validity rule R187 (R186). -/
def c2Vector (cfg : Params) (cells : List Flagged) (rs : RsFile) : RsFile :=
  let rs := setErasures (erasures cells) (fillVector .c2 cells rs)
  let rs := if 6 < (erasures cells).length then giveUp rs else rsCorrect cfg false .c2 rs
  setValid (List.replicate 32 (c2Valid rs.status)) rs

/-- C3 on a filled vector: erasures only, more than 2 are uncorrectable; then the validity rule R198 (R197). -/
def c3Vector (cfg : Params) (cells : List Flagged) (rs : RsFile) : RsFile :=
  let rs := setErasures (erasures cells) (fillVector .c3 cells rs)
  let rs := if 2 < (erasures cells).length then giveUp rs else rsCorrect cfg false .c3 rs
  setValid (cells.map fun c => c3Valid rs.status c.ok) rs

/-! ### The operations on the containers -/

/-- The flagged bytes at a list of TRK addresses. -/
def readCells (t : Track) (addrs : List Nat) : List Flagged := addrs.map (sread blankCell t.cells)

/-- C1DEC on block pair `pr` and interleave `il` of the open Track (R183). -/
def c1dec (pr il : Nat) (s : State) : Res := do
  let t ← openTrack s
  let rs := c1Vector s.cfg (readCells t (c1Addrs pr il)) s.rs
  return (s.setRs rs).setCur (some (t.writeCells ((c1Addrs pr il).zip (vectorCells 32 rs))))

/-- C2DEC on group `g` and slice `sl` of the open Track (R186). -/
def c2dec (g sl : Nat) (s : State) : Res := do
  let t ← openTrack s
  let rs := c2Vector s.cfg (readCells t (c2Addrs g sl)) s.rs
  return (s.setRs rs).setCur (some (t.writeCells ((c2Addrs g sl).zip (vectorCells 32 rs))))

/-- Write flagged bytes back through a list of C3 cell references, position 0 first (R197). -/
def writeGroup (g : BasicGroup) (xs : List (C3Ref × Flagged)) : BasicGroup :=
  xs.foldl (fun g x => writeC3 g x.1 x.2) g

/-- C3DEC on slice `sl`, track pair `tp`, interleave `il` of the active basic group (R197). -/
def c3dec (sl : Fin 720) (tp il : Bool) (s : State) : Res := do
  let g ← activeGroup s
  let refs := c3Refs s.cfg sl tp il
  let rs := c3Vector s.cfg (refs.map (readC3 g)) s.rs
  return (s.setRs rs).setBg (some (writeGroup g (refs.zip (vectorCells 46 rs))))

/-- Add the outcome of the last C1 vector to the open Track's counters (R200, 45_block_track.md R287). -/
def tallyC1 (s : State) : Res := do
  let t ← openTrack s
  let st := s.rs.status
  return s.setCur (some { t with c1Corr := t.c1Corr + corrIncr st, c1Unc := t.c1Unc + uncIncr st })

/-- Add the outcome of the last C2 vector to the open Track's counters (R201, R287). -/
def tallyC2 (s : State) : Res := do
  let t ← openTrack s
  let st := s.rs.status
  return s.setCur (some { t with c2Corr := t.c2Corr + corrIncr st, c2Unc := t.c2Unc + uncIncr st })

/-- The 144 selectors of C1PASS: pair ascending, even before odd (R200). -/
def c1Selectors : List (Nat × Nat) :=
  (List.range 72).flatMap fun pr => [(pr, 0), (pr, 1)]

/-- The 112 selectors of C2PASS: group ascending, slice ascending (R201). -/
def c2Selectors : List (Nat × Nat) :=
  (List.range 4).flatMap fun g => (List.range (if g % 2 = 0 then 32 else 24)).map fun sl => (g, sl)

/-- The 2880 selectors of C3PASS: slice, track pair, interleave ascending (R202). -/
def c3Selectors : List (Fin 720 × Bool × Bool) :=
  (List.finRange 720).flatMap fun sl => [(sl, false, false), (sl, false, true), (sl, true, false), (sl, true, true)]

/-- C1PASS (R200). -/
def c1pass (s : State) : Res :=
  openTrack s >>= fun _ => c1Selectors.foldlM (fun s sel => c1dec sel.1 sel.2 s >>= tallyC1) s

/-- C2PASS (R201). -/
def c2pass (s : State) : Res :=
  openTrack s >>= fun _ => c2Selectors.foldlM (fun s sel => c2dec sel.1 sel.2 s >>= tallyC2) s

/-- C3PASS (R202). -/
def c3pass (s : State) : Res :=
  activeGroup s >>= fun _ => c3Selectors.foldlM (fun s sel => c3dec sel.1 sel.2.1 sel.2.2 s) s

/-! ### The meanings -/

/-- C1DEC (R183); a pair above 71 is reserved (R94). -/
def execC1dec (blocks : BitVec 7) (il : Bool) (s : State) : Host.Outcome State Fault Refusal :=
  if blocks.toNat ≤ 71 then settle (c1dec blocks.toNat il.toNat s) else .refused .fieldOutOfRange

/-- C2DEC (R186); a slice above 23 in group 1 or 3 is reserved (R94). -/
def execC2dec (group : BitVec 2) (slice : BitVec 5) (s : State) : Host.Outcome State Fault Refusal :=
  if group.toNat % 2 = 0 ∨ slice.toNat ≤ 23 then settle (c2dec group.toNat slice.toNat s)
  else .refused .fieldOutOfRange

/-- C3DEC (R197); a slice above 719 is reserved (R94). -/
def execC3dec (slice : BitVec 10) (tp il : Bool) (s : State) : Host.Outcome State Fault Refusal :=
  if h : slice.toNat < 720 then settle (c3dec ⟨slice.toNat, h⟩ tp il s) else .refused .fieldOutOfRange

/-- C1PASS (R200). -/
def execC1pass (s : State) : Host.Outcome State Fault Refusal := settle (c1pass s)

/-- C2PASS (R201). -/
def execC2pass (s : State) : Host.Outcome State Fault Refusal := settle (c2pass s)

/-- C3PASS (R202). -/
def execC3pass (s : State) : Host.Outcome State Fault Refusal := settle (c3pass s)

end Sys2Proof.Machine
end

