-- ==== Sys2Proof/Machine/Dds.lean ====
section
/-! DEFINITION. DDS: group-3 decode, de-whitening, session state, the basic-group accumulator, finalize, and STOP
(47_dds.md R340 to R376). -/

namespace Sys2Proof.Machine

open Sys2Proof

/-! ### Session state (R353) -/

/-- The session state and counter after a frame of area `a` (R353). -/
def sessNext (ss : Session) (a : Area) : Session :=
  match ss.state with
  | .data => if a = .eod then { ss with state := .eot } else ss
  | .eot => if a = .eod then ss else ⟨.data, ss.cnt + 1⟩

/-- SESS on the area of the current group-3. -/
def sess (s : State) : Res := do
  let g ← object s.transit.g3
  return s.setSess (sessNext s.sess g.fields.area)

/-! ### De-whitening (R351) -/

/-- `g1[i]` for i in 0..5755: row 1 + i div 4, column i mod 4, its byte XORed with WHITEN(i), its flag unchanged (R351). -/
def dewhitenCell (cfg : Params) (f : Frame) (i : Fin 5756) : Flagged :=
  let c := f.cell (1 + i.val / 4) (i.val % 4)
  ⟨c.v ^^^ whitenOf cfg i, c.ok⟩

/-- The group-1 of a frame (R351). -/
def dewhiten (cfg : Params) (f : Frame) : Store Flagged :=
  sbuild blankCell 5756 fun i => if h : i < 5756 then dewhitenCell cfg f ⟨i, h⟩ else blankCell

/-- DEWHT on the current frame. -/
def dewht (s : State) : Res := do
  let f ← object s.transit.frame
  return s.setTransit { s.transit with g1 := some (dewhiten s.cfg f) }

/-! ### Finalize (R370 to R375) -/

/-- The byte of the host image that says whether a cell is valid (R375, 30_encoding.md R110). -/
def validityByte (ok : Bool) : Byte := if ok then 0xFF else 0x00

/-- The four arrays that BG_PERSIST carries (R372, R375). -/
def imageOf (g : BasicGroup) : Image :=
  let main := sdump blankCell 126632 g.main
  let ecc := sdump blankCell 5756 g.ecc
  ⟨main.map (·.v), main.map fun c => validityByte c.ok, ecc.map (·.v), ecc.map fun c => validityByte c.ok⟩

/-- BG_PERSIST: an output event and nothing else (R375). -/
def bgPersist (g : BasicGroup) (s : State) : State := emitOut s (.bgPersist g.id (imageOf g))

/-- BGFIN: C3PASS, BG_PERSIST, and no active group afterwards; nothing when there is none (R370). -/
def bgfin (s : State) : Res :=
  match s.bg with
  | none => .ok s
  | some _ => do
    let s ← c3pass s
    let g ← activeGroup s
    return (bgPersist g s).setBg none

/-! ### The accumulator (R360 to R364) -/

/-- The merge policy of one cell, and what it adds to `diff_log` (R363). -/
def mergeCell (old new : Flagged) : Flagged × Nat :=
  if new.ok then
    if old.ok then (old, if new.v ≠ old.v then 1 else 0) else (⟨new.v, true⟩, 0)
  else
    if old.ok then (old, 0) else (⟨new.v, false⟩, 0)

/-- Merge `g1[0..5755]` into 5756 cells of a store from address `base` on; the second part counts differences (R360,
R363). -/
def mergeRange (base : Nat) (g1 : Store Flagged) (m : Store Flagged × Nat) : Store Flagged × Nat :=
  (List.range 5756).foldl
    (fun m i =>
      let r := mergeCell (sread blankCell m.1 (base + i)) (sread blankCell g1 i)
      (swrite blankCell m.1 (base + i) r.1, m.2 + r.2)) m

/-- Where a group-1 goes (R360, R362): the ECC3 flag first, then sub-groups 1..22, else nowhere. -/
def placeGroup (d : DdsFields) (g1 : Store Flagged) (g : BasicGroup) : BasicGroup :=
  if d.isEcc3 then
    let r := mergeRange 0 g1 (g.ecc, g.diffLog)
    { g with ecc := r.1, diffLog := r.2 }
  else if 1 ≤ d.lfid.toNat ∧ d.lfid.toNat ≤ 22 then
    let r := mergeRange ((d.lfid.toNat - 1) * 5756) g1 (g.main, g.diffLog)
    { g with main := r.1, diffLog := r.2 }
  else g

/-- The arrays of a loaded image have the lengths of 30_encoding.md R110 (R361, U11). -/
def imageLengthOk (img : Image) : Bool :=
  decide (img.main.length = 126632) && decide (img.mainVal.length = 126632) &&
    decide (img.ecc.length = 5756) && decide (img.eccVal.length = 5756)

/-- Every validity byte of a loaded image is 0xFF or 0x00 (R361, U12). -/
def imageValidityOk (img : Image) : Bool :=
  (img.mainVal ++ img.eccVal).all fun b => decide (b = 0xFF) || decide (b = 0x00)

/-- The store of an image's byte array and validity array: merging them into blank cells makes every cell equal to the
image's (R361). -/
def imageCells (vals flags : List Byte) : Store Flagged :=
  sofList blankCell ((vals.zip flags).map fun x => ⟨x.1, decide (x.2 = 0xFF)⟩)

/-- `begin(id)`: a new basic group, BG_LOAD, and the image merged in; a bad image is refused (R361, R374, U11, U12). -/
def beginGroup (id : Nat) (s : State) : Res :=
  let s := emitOut s (.bgLoad id)
  match s.images.lookup id with
  | none => .ok (s.setBg (some ⟨id, [], [], 0⟩))
  | some img =>
    if !imageLengthOk img then refuse .imageLength
    else if !imageValidityOk img then refuse .imageValidity
    else .ok (s.setBg (some ⟨id, imageCells img.main img.mainVal, imageCells img.ecc img.eccVal, 0⟩))

/-- The finalize of an active group with another ID, first step of BGMERGE (R360). -/
def closeOther (id : Nat) (s : State) : Res :=
  match s.bg with
  | none => .ok s
  | some g => if g.id ≠ id then bgfin s else .ok s

/-- The begin of a group when none is active, second step of BGMERGE (R360). -/
def ensureGroup (id : Nat) (s : State) : Res :=
  match s.bg with
  | none => beginGroup id s
  | some _ => .ok s

/-- BGMERGE on the current group-1 and the fields of the current group-3, which end with it (R360, 10_state.md R43). -/
def bgmerge (s : State) : Res := do
  let g1 ← object s.transit.g1
  let g3 ← object s.transit.g3
  let d := g3.fields
  let s ← closeOther d.bgId s
  let s ← ensureGroup d.bgId s
  let g ← activeGroup s
  let s := (s.setBg (some (placeGroup d g1 g))).setTransit { s.transit with g1 := none, g3 := none }
  if d.isLast then bgfin s else return s

/-! ### Group-3 decode (R341) -/

/-- Packs 1 to 4 of a Track, none when one of them is absent (R342). -/
def packs14 (t : Track) : Option Packs :=
  match t.pack[1], t.pack[2], t.pack[3], t.pack[4] with
  | some p1, some p2, some p3, some p4 => some ⟨p1, p2, p3, p4⟩
  | _, _, _, _ => none

/-- What the checks before the session step find in a frame (R341 to R344): a rejecting kind with the AFN_MISMATCH log, or
the A copy's fields with that log. -/
inductive G3Front where
  | reject (kind : G3Kind) (afnMismatch : Bool)
  | fields (d : DdsFields) (afnMismatch : Bool)
deriving DecidableEq, Repr

/-- The checks on packs, fields, absolute frame number and logical frame, in the order of R341. -/
def g3Front (cfg : Params) (f : Frame) : G3Front :=
  match packs14 f.a, packs14 f.b with
  | some pa, some pb =>
    match parseDdsOf cfg pa, parseDdsOf cfg pb with
    | some fa, some fb =>
      let mism := decide (fa.afn ≠ fb.afn)
      if fa.area = .data ∧ fa.lfid ≠ fb.lfid then .reject .lfidMismatch mism else .fields fa mism
    | _, _ => .reject .badField false
  | _, _ => .reject .missingPack false

/-- The header row check: the rejecting kind, or none (R348, R349, 30_encoding.md R107). -/
def headerCheck (f : Frame) (d : DdsFields) : Option G3Kind :=
  if (f.cell 0 0).v ≠ 0 ∨ (f.cell 0 2).v ≠ 0 then some .headerNonzero
  else if (f.cell 0 1).v ≠ lfidByte d ∨ (f.cell 0 3).v ≠ lfidByte d then some .headerLfidMismatch
  else none

/-- The status of a frame that no check rejects (R346). -/
def g3Status (f : Frame) : G3Kind :=
  if frameHasInvalid f then .c2ErrorsPresent else .ok

/-- The frame, the group-3 and the group-1 end with G3DEC (10_state.md R42, R43, R341). -/
def dropFrame (s : State) : State :=
  s.setTransit { s.transit with frame := none, g3 := none, g1 := none }

/-- The decode report of the current frame (60_exceptions.md R405). -/
def putReport (s : State) (kind : G3Kind) (mism : Bool) (g : Option Group3) : State :=
  s.setReport (some ⟨kind, mism, g⟩)

/-- A data-area frame whose header row is good: checksums, DEWHT, and BGMERGE when the session is the selected one (R341,
R350, R354). -/
def g3Accept (f : Frame) (d : DdsFields) (mism : Bool) (s : State) : Res := do
  let ck := cksumComputed s.cfg f
  let g : Group3 := ⟨d, some ck, decide (ck = d.cksum)⟩
  let s := putReport (s.setTransit { s.transit with g3 := some g }) (g3Status f) mism (some g)
  let s ← dewht s
  let s ← if s.sess.cnt = s.sessionSel then bgmerge s else .ok s
  return dropFrame s

/-- G3DEC on the current frame (R341). -/
def g3dec (s : State) : Res := do
  let f ← object s.transit.frame
  match g3Front s.cfg f with
  | .reject kind mism => return dropFrame (putReport s kind mism none)
  | .fields d mism =>
    let g : Group3 := ⟨d, none, false⟩
    let s ← sess (s.setTransit { s.transit with g3 := some g })
    if d.area ≠ .data then return dropFrame (putReport s (g3Status f) mism (some g))
    match headerCheck f d with
    | some kind => return dropFrame (putReport s kind mism (some g))
    | none => g3Accept f d mism s

/-! ### End of input (R376) -/

/-- STOP: the open and the held Track are discarded, the timer stops, the basic group is finalized (in DDS mode), the sink
is flushed; the run ends (R376, R399, 70_reset_and_hazards.md R430). -/
def stop (s : State) : Res := do
  let s := ((s.setCur none).setLastBlk none).setLast none
  let s := s.setTimer ⟨0, false⟩
  let s ← (match s.mode with
    | .dat => .ok s
    | .dds => bgfin s)
  return (emitOut s .sinkFlush).setRunning false

/-! ### The meanings -/

/-- SESS (R353). -/
def execSess (s : State) : Host.Outcome State Fault Refusal := settle (sess s)

/-- DEWHT (R351). -/
def execDewht (s : State) : Host.Outcome State Fault Refusal := settle (dewht s)

/-- BGFIN (R370). -/
def execBgfin (s : State) : Host.Outcome State Fault Refusal := settle (bgfin s)

/-- BGMERGE (R360). -/
def execBgmerge (s : State) : Host.Outcome State Fault Refusal := settle (bgmerge s)

/-- G3DEC (R341). -/
def execG3dec (s : State) : Host.Outcome State Fault Refusal := settle (g3dec s)

/-- STOP (R376). -/
def execStop (s : State) : Host.Outcome State Fault Refusal := settle (stop s)

end Sys2Proof.Machine
end

