-- ==== Sys2Proof/Machine/Framer.lean ====
section
/-! DEFINITION. The track framer and the track-pair frame deinterleaver: TRACK, PAIR (46_framer_frame.md R320 to R331). -/

namespace Sys2Proof.Machine

open Sys2Proof

/-- The cell of row `w`, column `col` of the frame of a pair (R325, R327): on even rows columns 0, 1 come from A and 2, 3
from B, on odd rows the reverse; columns c and c+2 share the source cell DEMUX(c, w). -/
def frameCell (cfg : Params) (a b : Track) (w : Fin 1456) (col : Fin 4) : Flagged :=
  let src := demuxOf cfg ⟨col.val % 2, by omega⟩ w
  let t := if w.val % 2 = 0 then (if col.val < 2 then a else b) else (if col.val < 2 then b else a)
  t.cell src.1.val src.2.val

/-- The frame of a pair: every cell written once, the counters summed (R325, R326, R330). -/
def frameOf (cfg : Params) (a b : Track) : Frame where
  a := a
  b := b
  cells := sbuild blankCell 5824 fun k =>
    if h : k < 5824 then frameCell cfg a b ⟨k / 4, by omega⟩ ⟨k % 4, by omega⟩ else blankCell
  c1Corr := a.c1Corr + b.c1Corr
  c1Unc := a.c1Unc + b.c1Unc
  c2Corr := a.c2Corr + b.c2Corr
  c2Unc := a.c2Unc + b.c2Unc

/-- PAIR on the pair in transit: to the DAT frame output, or to G3DEC (R325, R331). -/
def pair (s : State) : Res := do
  let ab ← object s.transit.pair
  let f := frameOf s.cfg ab.1 ab.2
  let s := s.setTransit { s.transit with pair := none }
  match s.mode with
  | .dat => return emitOut s (.datFrame f)
  | .dds => g3dec (s.setTransit { s.transit with frame := some f })

/-- TRACK on the Track in transit (R320): stored, paired with the older one, or kept in its place. -/
def track (s : State) : Res := do
  let t ← object s.transit.track
  let s := s.setTransit { s.transit with track := none }
  match s.last with
  | none => return s.setLast (some t)
  | some l =>
    if isFrame s.mode l t then
      let s := s.setLast none
      pair (s.setTransit { s.transit with pair := some (l, t) })
    else return s.setLast (some t)

/-! ### The meanings -/

/-- TRACK (R320). -/
def execTrack (s : State) : Host.Outcome State Fault Refusal := settle (track s)

/-- PAIR (R325). -/
def execPair (s : State) : Host.Outcome State Fault Refusal := settle (pair s)

end Sys2Proof.Machine
end

