-- ==== Sys2Proof/Machine/BlockTrack.lean ====
section
/-! DEFINITION. The block assembler, the track assembler, Track Complete and subcode extraction: WORD, BLOCK, TRKSTART,
TRKSTOP, TRKCPL, SUBX (45_block_track.md R270 to R294). -/

namespace Sys2Proof.Machine

open Sys2Proof

/-! ### Subcode extraction (R288 to R292) -/

/-- `items(b)`: four in an even block, three in an odd one (R289). -/
def itemsOf (b : Nat) : Nat := if b % 2 = 0 then 4 else 3

/-- The signature slot of item `j` of block `b`: 0..3 in even blocks, 4..6 in odd ones (R288, R291). -/
def slotOf (b j : Nat) : Nat := if b % 2 = 0 then j else 4 + j

/-- The walk of SUBX: blocks 128..143 ascending, items ascending (R288). -/
def subWalk : List (Nat × Nat) :=
  (List.range 16).flatMap fun k => (List.range (itemsOf (128 + k))).map fun j => (128 + k, j)

/-- The eight cells of item `j` of block `b` (30_encoding.md R105). -/
def itemCells (t : Track) (b j : Nat) : List Flagged := (List.range 8).map fun m => t.cell b (8 * j + m)

/-- The identifier of an item: bits 7..4 of byte 0 (R105). -/
def itemId (c : List Flagged) : BitVec 4 := (c.getD 0 blankCell).v.extractLsb' 4 4

/-- Bytes 0..6 of an item: the pack (R105, R290). -/
def itemPack (c : List Flagged) : Pack := Vector.ofFn fun i => (c.getD i.val blankCell).v

/-- The first good item at a slot gives the signature entry (R291). -/
def latchSig (t : Track) (slot : Nat) (id : BitVec 4) : Track :=
  if t.sig[slot]? = some none then { t with sig := t.sig.setIfInBounds slot (some id) } else t

/-- The first good item with identifier 1..15 gives the pack (R290). -/
def latchPack (t : Track) (id : BitVec 4) (p : Pack) : Track :=
  if id ≠ 0 ∧ t.pack[id.toNat]? = some none then { t with pack := t.pack.setIfInBounds id.toNat (some p) } else t

/-- One step of the walk (R288). -/
def subItem (t : Track) (bj : Nat × Nat) : Track :=
  let c := itemCells t bj.1 bj.2
  if itemGood c then latchPack (latchSig t (slotOf bj.1 bj.2) (itemId c)) (itemId c) (itemPack c) else t

/-- The first even subcode block that is present with a good header (R292). -/
def idBlock (t : Track) : Option Nat :=
  ((List.range 8).map (128 + 2 * ·)).find? fun b => (t.hdr b).present && (t.hdr b).hdrOk

/-- Control ID and Data ID: the nibbles of that block's stored header byte; unchanged when there is none (R292). -/
def latchIds (t : Track) : Track :=
  match idBlock t with
  | some b => { t with ctlId := some ((t.hdr b).id.extractLsb' 4 4), dataId := some ((t.hdr b).id.extractLsb' 0 4) }
  | none => t

/-- Subcode extraction from the cells and headers of a Track (R288). -/
def extractSubcode (t : Track) : Track := latchIds (subWalk.foldl subItem t)

/-- SUBX on the open Track. -/
def subx (s : State) : Res := do
  let t ← openTrack s
  return s.setCur (some (extractSubcode t))

/-! ### Track Complete (R284, R293) -/

/-- Set `sealed` (R293). -/
def sealTrack (s : State) : Res := do
  let t ← openTrack s
  return s.setCur (some { t with isSealed := true })

/-- TRKCPL: C1, then C2, then subcode extraction, then the seal (R284, 20_memory.md R78). -/
def trkcpl (s : State) : Res :=
  c1pass s >>= c2pass >>= subx >>= sealTrack

/-! ### Track start and stop (R281, R282) -/

/-- `timer_load()` (43_clock_recovery.md R231). -/
def timerLoad (s : State) : State := s.setTimer ⟨Config.trackTimerLoad, true⟩

/-- TRKSTART: load the timer and open a new Track (R281). -/
def trkstart (s : State) : State :=
  ((timerLoad s).setCur (some Track.new)).setLastBlk none

/-- The timer and the preamble state of TRKSTOP (R282). -/
def trackIdle (s : State) : State := (s.setTimer ⟨0, false⟩).setPre ⟨0, 0, false⟩

/-- TRKSTOP: stop the timer, clear the preamble state, and complete and deliver the open Track (R282). -/
def trkstop (s : State) : Res :=
  let s := trackIdle s
  match s.cur with
  | none => .ok s
  | some t => do
    let s ← trkcpl (s.setCur (some { t with head := headOf t.atf3Cnt }))
    let done := s.cur
    let s := (s.setCur none).setLastBlk none
    track (s.setTransit { s.transit with track := done })

/-! ### Blocks (R273 to R280) -/

/-- The payload words `words[1..35]`; `words[0]` is the sync position and is not read (R273). -/
def payloadWords (a : BlockAsm) : List LineWord := a.words.toList.drop 1

/-- `y[0..34]`: the payload words decoded (R273). -/
def decodeBlock (cfg : Params) (payload : List LineWord) : List Flagged := payload.map (dec10Of cfg)

/-- The (address, cell) pairs that `place(b, _)` writes: `TRK(cur)[b][i] <- y[i+3]` (R279). -/
def blockCells (y : List Flagged) (b : Nat) : List (Nat × Flagged) :=
  (List.range 32).map fun i => (32 * b + i, y.getD (i + 3) blankCell)

/-- `place(b, ok)` on a Track (R279). -/
def placeBlock (t : Track) (y : List Flagged) (b : Nat) (ok : Bool) : Track :=
  (t.writeCells (blockCells y b)).writeHdr b ⟨true, ok, (y.getD 0 blankCell).v⟩

/-- `place(b, ok)` on the open Track; a sealed one is read-only (20_memory.md R77). -/
def place (y : List Flagged) (b : Nat) (ok : Bool) (s : State) : Res := do
  let t ← openTrack s
  return s.setCur (some (placeBlock t y b ok))

/-- The block number a bad-header block is placed at by the guess rule, none when it is dropped (R276, R277, R278). -/
def guessFor (lastBlk : Option (Fin 144)) : Option Nat :=
  lastBlk.bind fun k => if legalSucc k.val then some (k.val + 1) else none

/-- BLOCK on `words[0..35]` (R276). -/
def block (s : State) : Res :=
  let y := decodeBlock s.cfg (payloadWords s.asm)
  match s.cur with
  | none => .ok (s.setLastBlk none)
  | some _ =>
    let y0 := y.getD 0 blankCell
    let y1 := y.getD 1 blankCell
    if hdrGood y0 y1 (y.getD 2 blankCell) then do
      let k := blknoOf s.cfg y0.v y1.v
      let s ← place y k.val true s
      return s.setLastBlk (some k)
    else
      match guessFor s.lastBlk with
      | some b => do
        let s ← place y b false s
        return s.setLastBlk none
      | none => .ok (s.setLastBlk none)

/-- WORD: store the word, and emit BLOCK when it is the 36th (R271). -/
def word (sync : Bool) (w : LineWord) (s : State) : Res :=
  let i : Fin 36 := if sync then 0 else s.asm.widx
  let words := s.asm.words.set i w
  if h : i.val + 1 < 36 then .ok (s.setAsm ⟨words, ⟨i.val + 1, h⟩⟩)
  else block (s.setAsm ⟨words, 0⟩)

/-! ### The meanings -/

/-- SUBX (R288). -/
def execSubx (s : State) : Host.Outcome State Fault Refusal := settle (subx s)

/-- TRKCPL (R284). -/
def execTrkcpl (s : State) : Host.Outcome State Fault Refusal := settle (trkcpl s)

/-- TRKSTART (R281). -/
def execTrkstart (s : State) : Host.Outcome State Fault Refusal := .next (trkstart s)

/-- TRKSTOP (R282). -/
def execTrkstop (s : State) : Host.Outcome State Fault Refusal := settle (trkstop s)

/-- BLOCK (R276). -/
def execBlock (s : State) : Host.Outcome State Fault Refusal := settle (block s)

/-- WORD (R271). -/
def execWord (sync : Bool) (w : LineWord) (s : State) : Host.Outcome State Fault Refusal := settle (word sync w s)

end Sys2Proof.Machine
end

