-- ==== Sys2Proof/Machine/Line.lean ====
section
/-! DEFINITION. The NRZI deframer with its sync matcher and preamble detector: SYM, BIT (44_deframer.md R250 to R258). -/

namespace Sys2Proof.Machine

open Sys2Proof

/-- The shift register after one bit: shifted left, the new bit at bit 0 (R252). -/
def shiftIn (sr : LineWord) (b : Bool) : LineWord := (sr <<< 1) ||| (if b then 1 else 0)

/-- What one bit makes of the deframer, and the word it emits with its sync flag: a match at any bit, else every tenth bit
while synced (R252, R253, R254). -/
def frameBit (d : Deframer) (b : Bool) : Deframer × Option (Bool × LineWord) :=
  let sr := shiftIn d.sr b
  if syncMatch sr then ({ d with sr := sr, synced := true, bitCnt := 0 }, some (true, sr))
  else if h : d.bitCnt.val + 1 < 10 then ({ d with sr := sr, bitCnt := ⟨d.bitCnt.val + 1, h⟩ }, none)
  else ({ d with sr := sr, bitCnt := 0 }, if d.synced then some (false, sr) else none)

/-- Emit WORD, with the passive tap on it (R252, 60_exceptions.md R413). -/
def emitWord (s : State) : Option (Bool × LineWord) → Res
  | none => .ok s
  | some (sync, w) => word sync w (emitOut s (.wordTap sync w))

/-- What one bit makes of the preamble detector, and whether it declares the preamble present (R255). -/
def preambleBit (p : Preamble) (sr : LineWord) : Preamble × Bool :=
  if h : p.cnt.val + 1 < 10 then ({ p with cnt := ⟨p.cnt.val + 1, h⟩ }, false)
  else if sr = Config.preambleWord then
    let run := if p.run ≤ Config.preambleRun then p.run + 1 else p.run
    if Config.preambleRun < run ∧ p.present = false then (⟨0, run, true⟩, true)
    else (⟨0, run, p.present⟩, false)
  else (⟨0, 0, p.present⟩, false)

/-- `preamble_check()`, with the TRKSTART it may emit (R255). -/
def preambleCheck (s : State) : State :=
  let p := preambleBit s.pre s.dfr.sr
  if p.2 then trkstart (s.setPre p.1) else s.setPre p.1

/-- BIT (R252): the word, if any, before the preamble check (60_exceptions.md R396). -/
def bit (b : Bool) (s : State) : Res := do
  let r := frameBit s.dfr b
  let s ← emitWord (s.setDfr r.1) r.2
  return preambleCheck s

/-- SYM: a bit is 1 iff the symbol differs from the previous one (R251). -/
def sym (v : Bool) (s : State) : Res :=
  bit (v != s.dfr.prevSym) (s.setDfr { s.dfr with prevSym := v })

/-- `deframer_reset()` (R256). -/
def deframerReset (s : State) : State := s.setDfr ⟨0, 0, false, false⟩

/-! ### The meanings -/

/-- BIT (R252). -/
def execBit (b : Bool) (s : State) : Host.Outcome State Fault Refusal := settle (bit b s)

/-- SYM (R251). -/
def execSym (v : Bool) (s : State) : Host.Outcome State Fault Refusal := settle (sym v s)

end Sys2Proof.Machine
end

