-- ==== Sys2Proof/Machine/Clock.lean ====
section
/-! DEFINITION. Symbol timing recovery, envelope tracking and the track timer: SAMPLE, ATF, CLKEV (43_clock_recovery.md R220
to R236). -/

namespace Sys2Proof.Machine

open Sys2Proof

/-- CLKEV: loss of the clock resets the deframer; detection changes nothing (R228). -/
def clkev (d : Bool) (s : State) : State := if d then s else deframerReset s

/-- ATF: tone 3 counts in the open Track, anything else changes nothing (R230); a sealed Track is read-only (R293). -/
def atf (tone : Tone) (s : State) : Res :=
  match tone, s.cur with
  | .tone3, some t =>
    if t.isSealed then refuse .trackSealed else .ok (s.setCur (some { t with atf3Cnt := t.atf3Cnt + 1 }))
  | .tone3, none => .ok s
  | .tone2, _ => .ok s

/-- The envelope: E[pos] + ALPHA_E * (|x| - E[pos]) (R222, R223). -/
def envelope (fp : Numerics) (old x : Rat) : Rat :=
  fpAdd fp old (fpMul fp (fpOfReal fp Config.alphaE) (fpSub fp (fpAbs fp x) old))

/-- First part of a sample step: the integrator and the envelope slot take the sample (R222, R223, R224). -/
def takeSample (fp : Numerics) (x : Rat) (c : Clock) : Clock :=
  { c with
    integ := fpAdd fp c.integ x
    e := c.e.set c.pos (envelope fp c.e[c.pos] x) }

/-- Second part: at the sync position the integrator's sign is the symbol, and the next sync position is adopted (R225).
The number 0 is the rational 0 in every format (DESIGN CHOICE, safe: log entry 37). -/
def closeSymbol (fp : Numerics) (c : Clock) : Clock × Option Bool :=
  if c.pos = c.syncPos then ({ c with integ := 0, syncPos := c.nextSyncPos }, some (fpLt fp 0 c.integ))
  else (c, none)

/-- Third part: at the maximum position the ring is scanned; a change of `clk_detected` is an event (R226, R227). -/
def scanRing (fp : Numerics) (c : Clock) : Clock × Option Bool :=
  if c.pos = c.maxPos then
    let m := argMax fp c.e
    let d := clockDetected fp c.e
    ({ c with maxPos := m, nextSyncPos := m + 4, detected := d }, if d = c.detected then none else some d)
  else (c, none)

/-- Emit SYM, if there is a symbol (R229). -/
def emitSym (s : State) : Option Bool → Res
  | none => .ok s
  | some v => sym v s

/-- Emit CLKEV, if `clk_detected` changed (R228). -/
def emitClkev (s : State) : Option Bool → State
  | none => s
  | some d => clkev d s

/-- `timer_tick()`: TRKSTOP when the counter reaches zero (R232). -/
def timerTick (s : State) : Res :=
  match s.timer.count with
  | 0 => .ok s
  | 1 => trkstop (s.setTimer ⟨0, false⟩)
  | n + 2 => .ok (s.setTimer { s.timer with count := n + 1 })

/-- The position advances modulo N (R222). -/
def advance (s : State) : State := s.setClk { s.clk with pos := s.clk.pos + 1 }

/-- The scan of the ring and its event (R222). -/
def scanStep (s : State) : State :=
  let r := scanRing s.cfg.fp s.clk
  emitClkev (s.setClk r.1) r.2

/-- SAMPLE on the real number the operand denotes (R222). -/
def sampleReal (x : Rat) (s : State) : Res := do
  let r := closeSymbol s.cfg.fp (takeSample s.cfg.fp x s.clk)
  let s ← emitSym (s.setClk r.1) r.2
  timerTick (advance (scanStep s))

/-! ### The meanings -/

/-- SAMPLE: a NaN or an infinity is refused (R222, R235). -/
def execSample (bits : BitVec 32) (s : State) : Host.Outcome State Fault Refusal :=
  if f32Finite bits then settle (sampleReal (fpOfReal s.cfg.fp (f32Value bits)) s)
  else .refused .nonFiniteSample

/-- ATF (R230). -/
def execAtf (tone : Tone) (s : State) : Host.Outcome State Fault Refusal := settle (atf tone s)

/-- CLKEV (R228). -/
def execClkev (d : Bool) (s : State) : Host.Outcome State Fault Refusal := .next (clkev d s)

end Sys2Proof.Machine
end

