-- ==== Sys2Proof/Machine/Dispatch.lean ====
section
/-! DEFINITION. exec: one arm per operation, each a direct call of its meaning. -/

namespace Sys2Proof.Machine

open Sys2Proof

/-- What one operation does (30_encoding.md R92). A class E operation takes its object from the state; who may issue one is
checked where commands are taken (Machine/HostPort.lean). -/
def exec (i : Instr) (s : State) : Host.Outcome State Fault Refusal :=
  match i with
  | .gfmul a b => Sys2Proof.Machine.execGfmul a b s
  | .gfpowa n => Sys2Proof.Machine.execGfpowa n s
  | .gfinv a => Sys2Proof.Machine.execGfinv a s
  | .gfpeval src x => Sys2Proof.Machine.execGfpeval src x s
  | .rssyn code => Sys2Proof.Machine.execRssyn code s
  | .rssolve fe code => Sys2Proof.Machine.execRssolve fe code s
  | .rseval code => Sys2Proof.Machine.execRseval code s
  | .rsvfy code => Sys2Proof.Machine.execRsvfy code s
  | .c1dec blocks il => Sys2Proof.Machine.execC1dec blocks il s
  | .c2dec group slice => Sys2Proof.Machine.execC2dec group slice s
  | .c3dec slice tp il => Sys2Proof.Machine.execC3dec slice tp il s
  | .c1pass => Sys2Proof.Machine.execC1pass s
  | .c2pass => Sys2Proof.Machine.execC2pass s
  | .c3pass => Sys2Proof.Machine.execC3pass s
  | .sample bits => Sys2Proof.Machine.execSample bits s
  | .atf tone => Sys2Proof.Machine.execAtf tone s
  | .stop => Sys2Proof.Machine.execStop s
  | .clkev d => Sys2Proof.Machine.execClkev d s
  | .sym v => Sys2Proof.Machine.execSym v s
  | .bit b => Sys2Proof.Machine.execBit b s
  | .word sync w => Sys2Proof.Machine.execWord sync w s
  | .block => Sys2Proof.Machine.execBlock s
  | .trkstart => Sys2Proof.Machine.execTrkstart s
  | .trkstop => Sys2Proof.Machine.execTrkstop s
  | .trkcpl => Sys2Proof.Machine.execTrkcpl s
  | .subx => Sys2Proof.Machine.execSubx s
  | .track => Sys2Proof.Machine.execTrack s
  | .pair => Sys2Proof.Machine.execPair s
  | .g3dec => Sys2Proof.Machine.execG3dec s
  | .dewht => Sys2Proof.Machine.execDewht s
  | .sess => Sys2Proof.Machine.execSess s
  | .bgmerge => Sys2Proof.Machine.execBgmerge s
  | .bgfin => Sys2Proof.Machine.execBgfin s

end Sys2Proof.Machine
end

