-- ==== Sys2Proof/Machine/HostPort.lean ====
section
/-! DEFINITION. The host's side of the boundary: taking the next input from the port (60_exceptions.md R405), decoding a
command and checking its issuer (30_encoding.md R94), RESET (70_reset_and_hazards.md R420), configuration writes (R430). -/

namespace Sys2Proof.Machine

open Sys2Proof

/-- A command word of an issuer: reserved words are refused, and so is a class E word of the host (R92, R94). -/
def takeCommand (issuer : Issuer) (w : CmdWord) : Except Refusal Instr :=
  match decode w with
  | .error e => refuse (.reserved e)
  | .ok i => if issuer = .host ∧ i.eventOnly = true then refuse .eventFromHost else .ok i

/-- The state an accepted command starts from: it has left the port, the outputs of the input before it are gone, and a
host command begins or continues the run (R405, R430). -/
def startCommand (issuer : Issuer) (rest : List PortInput) (s : State) : State :=
  { s with
    port := rest
    out := []
    running := s.running || decide (issuer = .host) }

/-- RESET: every element of 10_state.md R55 at its reset value. The OPEN parameters, the host's images, the inputs still
waiting and the count of free values drawn are not the core's and stay (R420, R422, R53). -/
def takeReset (rest : List PortInput) (s : State) : State :=
  { State.reset with
    rs := { RsFile.initial with draws := s.rs.draws }
    cfg := s.cfg
    images := s.images
    port := rest }

/-- A configuration write is refused between the first input operation and STOP (R430, R50, R51). -/
def frozen (s : State) : Except Refusal Unit :=
  if s.running then refuse .configFrozen else .ok ()

/-- The host writes MODE: refused with a Track open or held, and in mid-run (R50, R430, U9). -/
def takeMode (m : Mode) (rest : List PortInput) (s : State) : Res :=
  if s.cur.isSome || s.last.isSome then refuse .modeWithTrack
  else frozen s >>= fun _ => .ok { s with port := rest, out := [], mode := m }

/-- The host writes SESSION_SEL: refused in mid-run (R51, R430, U10). -/
def takeSessionSel (n : Nat) (rest : List PortInput) (s : State) : Res :=
  frozen s >>= fun _ => .ok { s with port := rest, out := [], sessionSel := n }

/-- The host supplies the OPEN parameters: refused in mid-run (R423, R430, U10). -/
def takeParams (p : Params) (rest : List PortInput) (s : State) : Res :=
  frozen s >>= fun _ => .ok { s with port := rest, out := [], cfg := p }

/-- The host changes its answers to BG_LOAD, at any time: they are no part of the configuration (47_dds.md R374, R375). -/
def takeImages (l : List (Nat × Image)) (rest : List PortInput) (s : State) : State :=
  { s with port := rest, out := [], images := l }

/-- What the next input makes the core do: run an operation from a state, or go to a state with none to run. -/
inductive Taken where
  | run (i : Instr) (s : State)
  | done (s : State)

/-- Take the next input of the port. With none waiting the core is quiescent (10_state.md R22). -/
def takeInput (s : State) : Except Refusal Taken :=
  match s.port with
  | [] => .ok (.done s)
  | .command issuer w :: rest => (takeCommand issuer w).map fun i => .run i (startCommand issuer rest s)
  | .reset :: rest => .ok (.done (takeReset rest s))
  | .writeMode m :: rest => (takeMode m rest s).map .done
  | .writeSessionSel n :: rest => (takeSessionSel n rest s).map .done
  | .supply p :: rest => (takeParams p rest s).map .done
  | .images l :: rest => .ok (.done (takeImages l rest s))

/-- A table row's word as the next input: a class E word is issued by a rule (`emit`), every other word by the host (R90,
R92). -/
def tableInput (nbits w : Nat) : PortInput :=
  let cmd : CmdWord := BitVec.ofNat 40 (w % 2 ^ nbits)
  match decode cmd with
  | .ok i => .command (if i.eventOnly then .rule else .host) cmd
  | .error _ => .command .host cmd

end Sys2Proof.Machine
end

