-- ==== Sys2Proof/Machine/Step.lean ====
section
/-! DEFINITION. One step: the complete processing of one input of the host (00_scope.md R18). -/

namespace Sys2Proof.Machine

open Sys2Proof

/-- One step: take the next input; run its operation to completion, with every event it emits (R18, R22). -/
def step (s : State) : Host.Outcome State Fault Refusal :=
  match takeInput s with
  | .error r => .refused r
  | .ok (.done s') => .next s'
  | .ok (.run i s') => exec i s'

/-- `s` with a table row's command word as its next input, in front of those waiting. RDATCORE fetches nothing (10_state.md
R21): its next operation is the next command at the port. -/
def State.withFetchWord (s : State) (nbits w : Nat) : State :=
  { s with port := tableInput nbits w :: s.port }

end Sys2Proof.Machine
end

