-- ==== Sys2Proof/Safety.lean ====
section
/-! DEFINITION. The words that statements about RDATCORE are written in: the field by polynomial arithmetic, codewords, what
a stage needs to run to its end, and the invariants of the state. -/

namespace Sys2Proof.Machine

open Sys2Proof

/-! ### The field, defined by polynomial arithmetic and not by tables (40_gf256.md R130, R131, R134) -/

/-- Multiplication by z modulo PRIM_POLY: shift left, and subtract PRIM_POLY when z^8 appeared. -/
def timesZ (p : BitVec 9) (a : Byte) : Byte :=
  (a <<< 1) ^^^ (if a.msb then p.setWidth 8 else 0)

/-- alpha^n, alpha being the polynomial z (R131). -/
def alphaPow (p : BitVec 9) : Nat → Byte
  | 0 => 1
  | n + 1 => timesZ p (alphaPow p n)

/-- The product of two polynomials over GF(2) reduced modulo PRIM_POLY, bit 7 of `b` first (R134). -/
def polyProd (p : BitVec 9) (a b : Byte) : Byte :=
  (List.range 8).foldl (fun r i => timesZ p r ^^^ (if b.getLsbD (7 - i) then a else 0)) 0

/-- PRIM_POLY is legal: bits 8 and 0 are set and the powers alpha^0 to alpha^254 are pairwise different (R131, R132). -/
def primitive (p : BitVec 9) : Prop :=
  p.getLsbD 8 = true ∧ p.getLsbD 0 = true ∧ ((List.range 255).map (alphaPow p)).Nodup

/-- The XOR of a list of bytes, the sum in the field (R130). -/
def xorSum (xs : List Byte) : Byte := xs.foldr (· ^^^ ·) 0

/-- x^n by repeated multiplication. -/
def bytePow (p : BitVec 9) (x : Byte) : Nat → Byte
  | 0 => 1
  | n + 1 => polyProd p (bytePow p x n) x

/-- The sum of c_i x^i over a coefficient list (R133, R137). -/
def polyValue (p : BitVec 9) (c : List Byte) (x : Byte) : Byte :=
  xorSum (c.zipIdx.map fun ci => polyProd p ci.1 (bytePow p x ci.2))

/-- The coefficient of x^k of the product of two coefficient lists (R133). -/
def productCoeff (p : BitVec 9) (a b : List Byte) (k : Nat) : Byte :=
  xorSum ((List.range (k + 1)).map fun i => gfMul p (a.getD i 0) (b.getD (k - i) 0))

/-- The product of a coefficient list and (1 + X x). -/
def timesLinear (p : BitVec 9) (g : List Byte) (x : Byte) : List Byte :=
  (List.range (g.length + 1)).map fun k =>
    g.getD k 0 ^^^ (if k = 0 then 0 else gfMul p x (g.getD (k - 1) 0))

/-! ### Reed-Solomon vectors (41_rs_solver.md R151, R152) -/

/-- The locator X_p of a position (R151). -/
def locator (cfg : Params) (code : Code) (p : Fin 46) : Byte := gfPow cfg.primPoly (locOf cfg code p)

/-- Different positions of a code have different locators (R151). -/
def locatorsDistinct (cfg : Params) (code : Code) : Prop :=
  ∀ p q : Fin 46, p.val < codeLen code → q.val < codeLen code → p ≠ q →
    (locOf cfg code p - locOf cfg code q) % 255 ≠ 0

/-- The j-th parity sum of a vector: the XOR over the positions of v[p] * X_p^(FCR + j) (R152). -/
def paritySum (cfg : Params) (code : Code) (v : Fin 46 → Byte) (j : Nat) : Byte :=
  xorSum ((codePositions code).map fun p =>
    gfMul cfg.primPoly (v p) (gfPow cfg.primPoly (locOf cfg code p * (cfg.fcr + j))))

/-- A codeword: every parity sum is zero (R152). -/
def isCodeword (cfg : Params) (code : Code) (v : Fin 46 → Byte) : Prop :=
  ∀ j < codePar code, paritySum cfg code v j = 0

/-- The erasure locator Gamma: the product of (1 + X_p x) over a list of positions (R154). -/
def gammaPoly (cfg : Params) (code : Code) (era : List (Fin 46)) : List Byte :=
  era.foldr (fun p g => timesLinear cfg.primPoly g (locator cfg code p)) [1]

/-- `lam` meets the contract of R154 for these erasures and syndromes: Lambda(0) = 1, 2 deg Lambda + rho <= r, and with
sigma = Gamma * Lambda, 2 deg (sigma * S mod x^r) < r + rho. -/
def keyLocator (cfg : Params) (code : Code) (era : List (Fin 46)) (syn lam : List Byte) : Prop :=
  lam.getD 0 0 = 1 ∧ 2 * (lam.length - 1) + era.length ≤ codePar code ∧
    ∀ k < codePar code, codePar code + era.length ≤ 2 * k →
      productCoeff cfg.primPoly
        ((List.range (codePar code + 1)).map (productCoeff cfg.primPoly (gammaPoly cfg code era) lam)) syn k = 0

/-- `d` is the degree of a polynomial: its largest index with a nonzero coefficient (00_scope.md R14). -/
def isDegree (c : List Byte) (d : Nat) : Prop := c.getD d 0 ≠ 0 ∧ ∀ k, d < k → c.getD k 0 = 0

/-- The derivative of sigma at X_p^(-1): its odd-degree terms (R157). -/
def derivativeAt (cfg : Params) (code : Code) (sig : List Byte) (p : Fin 46) : Byte :=
  xorSum ((List.range sig.length).map fun i =>
    if i % 2 = 1 then gfMul cfg.primPoly (sig.getD i 0) (gfPow cfg.primPoly (-locOf cfg code p * ((i : Int) - 1))) else 0)

/-- sigma vanishes at X_p^(-1) (R157). -/
def vanishesAt (cfg : Params) (code : Code) (sig : List Byte) (p : Fin 46) : Bool :=
  decide (gfPeval cfg.primPoly sig (gfPow cfg.primPoly (-locOf cfg code p)) = 0)

/-- Forney's value at position p (R157). -/
def forneyValue (cfg : Params) (code : Code) (sig omg : List Byte) (p : Fin 46) : Byte :=
  gfMul cfg.primPoly (gfPow cfg.primPoly (locOf cfg code p * (1 - cfg.fcr)))
    (gfMul cfg.primPoly (gfPeval cfg.primPoly omg (gfPow cfg.primPoly (-locOf cfg code p)))
      (gfInv cfg.primPoly (derivativeAt cfg code sig p)))

/-- The polynomial register file that `src` selects (40_gf256.md R137). -/
def polyRegs (rs : RsFile) : PolySrc → List Byte
  | .syn => rs.syn.toList.take (codePar rs.code)
  | .sig => rs.sig.toList.take (codePar rs.code + 1)
  | .omg => rs.omg.toList.take (codePar rs.code)

/-! ### The C3 cell map (42_codec_shells.md R190, R196) -/

/-- `C3_CELL` maps no two (selector, position) pairs to one stored cell (R196). -/
def c3Injective (cfg : Params) : Prop :=
  (∀ x y k, c3CellOf cfg x = .main k → c3CellOf cfg y = .main k → x = y) ∧
  ∀ x y k, c3CellOf cfg x = .ecc k → c3CellOf cfg y = .ecc k → x = y

/-- The cell of a basic group at a reference of `C3_CELL` (R196). -/
def c3Cell (g : BasicGroup) : C3Ref → Flagged
  | .main k => g.mainCell k.val
  | .ecc k => g.eccCell k.val
  | .fixed c => c

/-! ### What a stage needs -/

/-- The open Track exists and may be written (20_memory.md R77). -/
def trackOpen (s : State) (t : Track) : Prop := s.cur = some t ∧ t.isSealed = false

/-- No open Track is sealed (45_block_track.md R293). -/
def curUnsealed (s : State) : Prop := ∀ t, s.cur = some t → t.isSealed = false

/-- What the host keeps for BG_LOAD has the lengths and validity bytes of 30_encoding.md R110 (60_exceptions.md R406). -/
def imagesOk (s : State) : Prop := ∀ e ∈ s.images, imageLengthOk e.2 = true ∧ imageValidityOk e.2 = true

/-- Everything an input of the stream needs to be processed to its end. -/
def streamReady (s : State) : Prop := curUnsealed s ∧ imagesOk s

/-- The linear TRK addresses that lie in some C2 vector: bytes 0 to 23 of every data block, and 24 to 31 of the even ones
(42_codec_shells.md R185). -/
def inSomeC2 (a : Nat) : Bool := decide (a < 4096 ∧ ((a / 32) % 2 = 0 ∨ a % 32 < 24))

/-- The operands of the 144 C1 vectors: 72 block pairs, two interleaves (42_codec_shells.md R182). -/
def c1Vectors : List (BitVec 7 × Bool) :=
  (List.range 72).flatMap fun pr => [(BitVec.ofNat 7 pr, false), (BitVec.ofNat 7 pr, true)]

/-- The operands of the 112 C2 vectors: 32 slices in groups 0 and 2, 24 in groups 1 and 3 (R185). -/
def c2Vectors : List (BitVec 2 × BitVec 5) :=
  ([(0, 32), (1, 24), (2, 32), (3, 24)] : List (BitVec 2 × Nat)).flatMap fun gn =>
    (List.range gn.2).map fun sl => (gn.1, BitVec.ofNat 5 sl)

/-- Every C2 vector of a store has its 32 flags equal. -/
def c2Uniform (m : Store Flagged) : Prop :=
  ∀ g sl, g < 4 → sl < (if g % 2 = 0 then 32 else 24) →
    ∃ f : Bool, ∀ p < 32, (sread blankCell m (c2Addr g sl p)).ok = f

/-- Every C1 vector of a store has the flags equal of those of its cells that lie in no C2 vector. -/
def c1UniformOutsideC2 (m : Store Flagged) : Prop :=
  ∀ pr il, pr < 72 → il < 2 →
    ∃ f : Bool, ∀ p < 32, inSomeC2 (c1Addr pr il p) = false → (sread blankCell m (c1Addr pr il p)).ok = f

/-- The C2 vectors whose flags are false: the first cell of each of the 112 vectors tells (42_codec_shells.md R187). -/
def c2InvalidCount (m : Store Flagged) : Nat :=
  c2Selectors.countP fun gs => !(sread blankCell m (c2Addr gs.1 gs.2 0)).ok

/-! ### Blocks, subcode items and frames -/

/-- `y[j]` of the block in `words[0..35]`: the decoded payload word j+1 (45_block_track.md R273). -/
def blockByte (s : State) (j : Nat) : Flagged :=
  dec10Of s.cfg (s.asm.words.toList.getD (j + 1) 0)

/-- The three header bytes of the block are valid and their XOR is zero (R274). -/
def headerGood (s : State) : Prop :=
  (blockByte s 0).ok = true ∧ (blockByte s 1).ok = true ∧ (blockByte s 2).ok = true ∧
    (blockByte s 0).v ^^^ (blockByte s 1).v ^^^ (blockByte s 2).v = 0

/-- `k` and `k+1` lie together in one of the three ranges of block numbers (R278). -/
def sameRange (k : Nat) : Prop :=
  ∃ r ∈ [(0, 0x7F), (0x88, 0x8F), (0x80, 0x88)], r.1 ≤ k ∧ k + 1 ≤ r.2

/-- The Track `t'` is `t` with the block of `s` placed at block number `b`: its 32 cells, its header record, nothing else
(R279). -/
def placedAt (s : State) (t t' : Track) (b : Nat) (hdrOk : Bool) : Prop :=
  (∀ i < 32, t'.cell b i = blockByte s (i + 3)) ∧
  (∀ a, a / 32 ≠ b → sread blankCell t'.cells a = sread blankCell t.cells a) ∧
  t'.hdr b = ⟨true, hdrOk, (blockByte s 0).v⟩ ∧
  (∀ b', b' ≠ b → t'.hdr b' = t.hdr b') ∧
  t' = { t with cells := t'.cells, hdrs := t'.hdrs }

/-- A subcode item is good: its eight cells are valid and their XOR is zero (R288). -/
def goodItem (t : Track) (bj : Nat × Nat) : Bool :=
  (List.range 8).all (fun m => (t.cell bj.1 (8 * bj.2 + m)).ok) &&
    decide (xorSum ((List.range 8).map fun m => (t.cell bj.1 (8 * bj.2 + m)).v) = 0)

/-- The identifier of an item: the high nibble of its first byte (R288). -/
def itemIdOf (t : Track) (bj : Nat × Nat) : Nat := (t.cell bj.1 (8 * bj.2)).v.toNat / 16

/-- The pack of an item: its first seven bytes (R290). -/
def itemPackOf (t : Track) (bj : Nat × Nat) : Pack := Vector.ofFn fun m => (t.cell bj.1 (8 * bj.2 + m.val)).v

/-- The items of the subcode blocks in walk order: blocks 128 to 143, four items in an even one and three in an odd one
(R288, R289). -/
def itemsInOrder : List (Nat × Nat) :=
  (List.range 8).flatMap fun k =>
    [(128 + 2 * k, 0), (128 + 2 * k, 1), (128 + 2 * k, 2), (128 + 2 * k, 3),
      (129 + 2 * k, 0), (129 + 2 * k, 1), (129 + 2 * k, 2)]

/-- The signature slot of an item: its index in even blocks, 4 more in odd ones (R291). -/
def slotIndex (bj : Nat × Nat) : Nat := if bj.1 % 2 = 0 then bj.2 else bj.2 + 4

/-- `f` is the frame of the pair (a, b): the wiring of every cell and the four sums (46_framer_frame.md R325, R330). -/
def wiredFrame (cfg : Params) (a b : Track) (f : Frame) : Prop :=
  f.a = a ∧ f.b = b ∧
  (∀ (c : Fin 2) (w : Fin 1456),
    let src := demuxOf cfg c w
    if w.val % 2 = 0 then
      f.cell w.val c.val = a.cell src.1.val src.2.val ∧ f.cell w.val (c.val + 2) = b.cell src.1.val src.2.val
    else
      f.cell w.val (c.val + 2) = a.cell src.1.val src.2.val ∧ f.cell w.val c.val = b.cell src.1.val src.2.val) ∧
  f.c1Corr = a.c1Corr + b.c1Corr ∧ f.c1Unc = a.c1Unc + b.c1Unc ∧
  f.c2Corr = a.c2Corr + b.c2Corr ∧ f.c2Unc = a.c2Unc + b.c2Unc

/-! ### DDS -/

/-- Packs 1 to 4 of a Track are latched and are `p` (47_dds.md R342). -/
def hasPacks (t : Track) (p : Packs) : Prop :=
  t.pack[1] = some p.p1 ∧ t.pack[2] = some p.p2 ∧ t.pack[3] = some p.p3 ∧ t.pack[4] = some p.p4

/-- One of packs 1 to 4 of a Track is not latched (R342). -/
def lacksPack (t : Track) : Prop := t.pack[1] = none ∨ t.pack[2] = none ∨ t.pack[3] = none ∨ t.pack[4] = none

/-- Some cell of the frame is invalid (R346). -/
def frameInvalid (f : Frame) : Prop := ∃ w c, w < 1456 ∧ c < 4 ∧ (f.cell w c).ok = false

/-- The header row of the frame has zeros at columns 0 and 2 (R348). -/
def headerZeros (f : Frame) : Prop := (f.cell 0 0).v = 0 ∧ (f.cell 0 2).v = 0

/-- Its columns 1 and 3 hold the LFID byte lfid | 0x40 if is_ecc3 | 0x80 if is_last (R348, R349). -/
def headerIsLfid (f : Frame) (d : DdsFields) : Prop :=
  ∀ c, c = 1 ∨ c = 3 → (f.cell 0 c).v.toNat =
    d.lfid.toNat + (if d.isEcc3 then 0x40 else 0) + (if d.isLast then 0x80 else 0)

/-- The state after a frame has been dropped with its report (R341). -/
def reported (s : State) (kind : G3Kind) (mism : Bool) (g : Option Group3) : State :=
  (s.setReport (some ⟨kind, mism, g⟩)).setTransit { s.transit with frame := none, g3 := none, g1 := none }

/-- A cell after a merge: a valid cell stays, an invalid one takes the new byte and flag (R363). -/
def mergedCell (old new : Flagged) : Flagged := if old.ok then old else new

/-- How many of the 5756 cells from address `base` on disagree with `g1`, both valid (R363). -/
def disagreements (base : Nat) (m g1 : Store Flagged) : Nat :=
  (List.range 5756).countP fun i =>
    (sread blankCell m (base + i)).ok && (sread blankCell g1 i).ok &&
      decide ((sread blankCell m (base + i)).v ≠ (sread blankCell g1 i).v)

/-- `m'` is `m` with `g1` merged into the 5756 cells from address `base` on (R360, R363). -/
def mergedInto (base : Nat) (m g1 m' : Store Flagged) : Prop :=
  ∀ a, sread blankCell m' a =
    if base ≤ a ∧ a < base + 5756 then mergedCell (sread blankCell m a) (sread blankCell g1 (a - base))
    else sread blankCell m a

/-- The four arrays of a host image hold the cells of a group (R375, 30_encoding.md R110). -/
def imageHolds (img : Image) (g : BasicGroup) : Prop :=
  imageLengthOk img = true ∧
  (∀ k < 126632, img.main[k]? = some (g.mainCell k).v ∧
    img.mainVal[k]? = some (if (g.mainCell k).ok then 0xFF else 0x00)) ∧
  (∀ k < 5756, img.ecc[k]? = some (g.eccCell k).v ∧
    img.eccVal[k]? = some (if (g.eccCell k).ok then 0xFF else 0x00))

/-! ### Refusals -/

/-- A Track operation of the shells is refused without an open Track and on a sealed one (U5, 42_codec_shells.md R183, R186,
R200, R201, 20_memory.md R77). -/
def refusesTrack (s : State) (r : Refusal) : Prop :=
  (s.cur = none ∧ r = .noTrack) ∨ (∃ t, s.cur = some t ∧ t.isSealed = true ∧ r = .trackSealed)

/-- The operations of the codec shells (42_codec_shells.md). -/
def isShell : Instr → Bool
  | .c1dec _ _ | .c2dec _ _ | .c3dec _ _ _ | .c1pass | .c2pass | .c3pass => true
  | .gfmul _ _ | .gfpowa _ | .gfinv _ | .gfpeval _ _ | .rssyn _ | .rssolve _ _ | .rseval _ | .rsvfy _ => false
  | .sample _ | .atf _ | .stop | .clkev _ | .sym _ | .bit _ | .word _ _ | .block | .trkstart | .trkstop => false
  | .trkcpl | .subx | .track | .pair | .g3dec | .dewht | .sess | .bgmerge | .bgfin => false

/-- When the spec refuses an operation of class H, and how (60_exceptions.md R390), but for a read of a register that nothing
has written since reset, which the model runs (U4, log entry 5); the operations that run the stream are refused on no state
whose stream can run. -/
def specRefuses (i : Instr) (s : State) (r : Refusal) : Prop :=
  match i with
  | .gfinv a => a = 0 ∧ r = .inverseOfZero
  | .c1dec _ _ | .c2dec _ _ => (i.wf = false ∧ r = .fieldOutOfRange) ∨ (i.wf = true ∧ refusesTrack s r)
  | .c3dec _ _ _ => (i.wf = false ∧ r = .fieldOutOfRange) ∨ (i.wf = true ∧ s.bg = none ∧ r = .noBasicGroup)
  | .c1pass | .c2pass => refusesTrack s r
  | .c3pass => s.bg = none ∧ r = .noBasicGroup
  | .sample bits => f32Finite bits = false ∧ r = .nonFiniteSample
  | .gfmul _ _ | .gfpowa _ | .gfpeval _ _ | .rssyn _ | .rssolve _ _ | .rseval _ | .rsvfy _ => False
  | .atf _ | .stop | .clkev _ | .sym _ | .bit _ | .word _ _ | .trkstart | .trkstop => False
  | .block | .trkcpl | .subx | .track | .pair | .g3dec | .dewht | .sess | .bgmerge | .bgfin => False

/-! ### Invariants of the state -/

/-- A Track in canonical form: addresses rising and inside spaces TRK and TRKHDR, no listed default, pack 0 empty
(45_block_track.md R290), head never B (R283). -/
structure TrackOk (t : Track) : Prop where
  cells : swf blankCell 4608 t.cells = true
  hdrs : swf ⟨false, false, 0⟩ 144 t.hdrs = true
  pack0 : t.pack[0] = none
  head : t.head ≠ .b

/-- A frame in canonical form (46_framer_frame.md R326), of two sealed Tracks (10_state.md R42). -/
structure FrameOk (f : Frame) : Prop where
  a : TrackOk f.a
  b : TrackOk f.b
  aSealed : f.a.isSealed = true
  bSealed : f.b.isSealed = true
  cells : swf blankCell 5824 f.cells = true

/-- A basic group in canonical form: spaces BGM and BGE (20_memory.md R64, R65). -/
structure GroupOk (g : BasicGroup) : Prop where
  main : swf blankCell 126632 g.main = true
  ecc : swf blankCell 5756 g.ecc = true

/-- What holds of every state whatever inputs wait at the port: storage in canonical form, counters in their ranges,
registers that go together agreeing. -/
structure StorageInv (s : State) : Prop where
  cur : ∀ t, s.cur = some t → TrackOk t
  last : ∀ t, s.last = some t → TrackOk t ∧ t.isSealed = true
  transitTrack : ∀ t, s.transit.track = some t → TrackOk t ∧ t.isSealed = true
  transitPair : ∀ a b, s.transit.pair = some (a, b) →
    TrackOk a ∧ a.isSealed = true ∧ TrackOk b ∧ b.isSealed = true
  transitFrame : ∀ f, s.transit.frame = some f → FrameOk f
  transitG1 : ∀ g, s.transit.g1 = some g → swf blankCell 5756 g = true
  bg : ∀ g, s.bg = some g → GroupOk g
  timerRange : s.timer.count ≤ 592704
  timerRunning : s.timer.running = decide (0 < s.timer.count)
  timerTrack : s.timer.running = s.cur.isSome
  preRun : s.pre.run ≤ 11
  lastBlk : s.lastBlk.isSome = true → s.cur.isSome = true
  nera : s.rs.nera = s.rs.era.length
  era : s.rs.era.Pairwise (· < ·)
  cor : (s.rs.cor.map (·.1)).Pairwise (· < ·)

/-- Every command waiting at the port was issued by the host (30_encoding.md R92). -/
def portFromHost (s : State) : Prop :=
  ∀ x ∈ s.port, ∀ w, x ≠ .command .rule w

/-- What holds besides when only the host issues commands: nothing is in transit between two inputs (10_state.md R22), the
open Track is not sealed, a basic group is active only in DDS mode, and outside a run nothing is open, held or active
(70_reset_and_hazards.md R430). -/
structure PipelineInv (s : State) : Prop where
  storage : StorageInv s
  port : portFromHost s
  transit : s.transit = Transit.none
  curUnsealed : curUnsealed s
  datGroup : s.mode = .dat → s.bg = none
  idle : s.running = false → s.cur = none ∧ s.last = none ∧ s.bg = none

end Sys2Proof.Machine
end

