-- ==== Sys2Proof/Certificates/Slice0/Obligations.lean ====
section
/-! DEFINITION. The statements for the provers, in the order of OBLIGATIONS.json. A next state is written as an equation on
the whole state wherever the operation leaves the rest alone: the equation is its frame. -/

open Sys2Proof Sys2Proof.Machine

/-! ### Encoding (30_encoding.md) -/

/-- Decoding the encoding of a well-formed instruction gives it back, and a word that decodes to an instruction is that
instruction's encoding, the instruction being well-formed (R90 to R94). -/
def Obligations.DecodeEncodeRoundTrip : Prop :=
  (∀ i : Instr, i.wf = true → decode (encode i) = .ok i) ∧
  ∀ (w : CmdWord) (i : Instr), decode w = .ok i → i.wf = true ∧ encode i = w

/-- A reserved word is the encoding of no well-formed instruction and is refused as a command, whoever issues it; an
opcode outside the table is named in the refusal; the ten operations of class E are refused when the host issues them (R92,
R94). That a refusal names a reason, and who issued a command, are the model's (log entries 10, 11). -/
def Obligations.ReservedWordsAreRefused : Prop :=
  (∀ (w : CmdWord) (e : DecodeError), decode w = .error e →
    (∀ i : Instr, i.wf = true → encode i ≠ w) ∧
    ∀ (s : State) (issuer : Issuer) (rest : List PortInput),
      s.port = .command issuer w :: rest → step s = .refused (.reserved e)) ∧
  (∀ w : CmdWord, (∀ i : Instr, opcode i ≠ opField w) → decode w = .error (.reservedOpcode (opField w))) ∧
  ∀ (s : State) (rest : List PortInput) (i : Instr),
    i ∈ [Instr.block, .trkcpl, .subx, .track, .pair, .g3dec, .dewht, .sess, .bgmerge, .bgfin] →
    s.port = .command .host (encode i) :: rest → step s = .refused .eventFromHost

/-- Words written out from R90 to R92 and the examples of 95_test_vectors.md decode to what they stand for. -/
def Obligations.WrittenWordsDecode : Prop :=
  decode 0x10000053CA = .ok (.gfmul 0x53 0xCA) ∧
  decode 0x1300000101 = .ok (.gfpeval .sig 0x01) ∧
  decode 0x2100000100 = .ok (.rssolve true .c1) ∧
  decode 0x300000008F = .ok (.c1dec 71 true) ∧
  decode 0x3100000037 = .ok (.c2dec 1 23) ∧
  decode 0x3200000B3F = .ok (.c3dec 719 true true) ∧
  decode 0x403F800000 = .ok (.sample 0x3F800000) ∧
  decode 0x4100000003 = .ok (.atf .tone3) ∧
  decode 0x4B00000511 = .ok (.word true 0x111) ∧
  decode 0x6400000000 = .ok .bgfin

/-! ### Steps and the host's side (00_scope.md R18, 60_exceptions.md R405) -/

/-- When the next input is a command word that decodes, the step runs the decoded instruction from the state without
that input, with the outputs of the input before it gone; a host command begins the run (R18, R405, R430). The queue of
inputs, the record of outputs and the run flag are the model's own (log entries 1, 13, 19). -/
def Obligations.StepRunsDecodedCommand : Prop :=
  ∀ (s : State) (issuer : Issuer) (w : CmdWord) (rest : List PortInput) (i : Instr),
    s.port = .command issuer w :: rest → decode w = .ok i → (issuer = .rule ∨ i.eventOnly = false) →
    step s = exec i { s with port := rest, out := [], running := s.running || decide (issuer = .host) }

/-- The host's configuration writes take effect outside a run and are refused in one; a write of MODE is refused with a
Track open or held (10_state.md R50, R51, 70_reset_and_hazards.md R430). The host changes its answers to BG_LOAD at any
time (R53, 47_dds.md R374). With no input waiting nothing changes (R22). The run flag, the refusal of a parameter change
in a run, the idle step on an empty port and the input that changes the answers are the model's choices (log entries 2, 3,
14, 19). -/
def Obligations.ConfigurationWrites : Prop :=
  (∀ s : State, s.port = [] → step s = .next s) ∧
  (∀ (s : State) (rest : List PortInput) (m : Mode), s.port = .writeMode m :: rest →
    (s.cur = none → s.last = none → s.running = false →
      step s = .next { s with port := rest, out := [], mode := m }) ∧
    (s.cur.isSome = true ∨ s.last.isSome = true → step s = .refused .modeWithTrack) ∧
    (s.cur = none → s.last = none → s.running = true → step s = .refused .configFrozen)) ∧
  (∀ (s : State) (rest : List PortInput) (n : Nat), s.port = .writeSessionSel n :: rest →
    (s.running = false → step s = .next { s with port := rest, out := [], sessionSel := n }) ∧
    (s.running = true → step s = .refused .configFrozen)) ∧
  (∀ (s : State) (rest : List PortInput) (p : Params), s.port = .supply p :: rest →
    (s.running = false → step s = .next { s with port := rest, out := [], cfg := p }) ∧
    (s.running = true → step s = .refused .configFrozen)) ∧
  (∀ (s : State) (rest : List PortInput) (l : List (Nat × Image)), s.port = .images l :: rest →
    step s = .next { s with port := rest, out := [], images := l })

/-- RESET puts every element of R55 at its value there, an element R55 leaves unspecified at the model's (zero, empty,
NO_ERRORS, C1: log entry 5), and leaves the parameters, the host's images and the inputs still waiting (R420 to R422).
What RESET leaves alone is the model's choice (log entries 20, 28). -/
def Obligations.ResetInputRestoresResetValues : Prop :=
  ∀ (s : State) (rest : List PortInput), s.port = .reset :: rest →
    ∃ t, step s = .next t ∧
      (∀ j : Fin 8, t.clk.e[j] = 0) ∧
      t.clk.pos = 0 ∧ t.clk.syncPos = 0 ∧ t.clk.nextSyncPos = 0 ∧ t.clk.maxPos = 0 ∧ t.clk.integ = 0 ∧
      t.clk.detected = false ∧
      t.timer = ⟨0, false⟩ ∧ t.dfr = ⟨0, 0, false, false⟩ ∧ t.pre = ⟨0, 0, false⟩ ∧ t.asm.widx = 0 ∧
      t.cur = none ∧ t.lastBlk = none ∧ t.last = none ∧ t.bg = none ∧ t.transit = Transit.none ∧ t.report = none ∧
      t.sess = ⟨.data, 0⟩ ∧ t.mode = .dat ∧ t.sessionSel = 0 ∧
      (∀ p : Fin 46, t.rs.vec[p] = 0 ∧ t.rs.valid[p] = false) ∧
      (∀ j : Fin 6, t.rs.syn[j] = 0 ∧ t.rs.omg[j] = 0) ∧ (∀ j : Fin 7, t.rs.sig[j] = 0) ∧
      t.rs.era = [] ∧ t.rs.nera = 0 ∧ t.rs.cor = [] ∧ t.rs.ncor = 0 ∧
      t.rs.status = .noErrors ∧ t.rs.solveOk = false ∧ t.rs.code = .c1 ∧ t.gfr = 0 ∧
      (∀ j : Fin 8, t.win[j] = 0) ∧ (∀ j : Fin 36, t.asm.words[j] = 0) ∧
      t.cfg = s.cfg ∧ t.images = s.images ∧ t.port = rest ∧ t.running = false

/-! ### The GF unit (40_gf256.md) -/

/-- GFMUL: GFR takes the product of the two polynomials reduced modulo PRIM_POLY (R134). GFPOWA: alpha multiplied by itself
i times (R135). GFINV: the byte whose product with a is 1; a = 0 is refused (R136). -/
def Obligations.GfmulGfpowaGfinvFollowTheField : Prop :=
  (∀ (s : State) (a b : Byte), primitive s.cfg.primPoly →
    exec (.gfmul a b) s = .next (s.setGfr (polyProd s.cfg.primPoly a b))) ∧
  (∀ (s : State) (i : BitVec 32), primitive s.cfg.primPoly →
    exec (.gfpowa i) s = .next (s.setGfr (alphaPow s.cfg.primPoly i.toNat))) ∧
  (∀ (s : State) (a : Byte), primitive s.cfg.primPoly → a ≠ 0 →
    ∃ v : Byte, polyProd s.cfg.primPoly a v = 1 ∧ exec (.gfinv a) s = .next (s.setGfr v)) ∧
  ∀ s : State, exec (.gfinv 0) s = .refused .inverseOfZero

/-- GFPEVAL: GFR takes the value at x of the polynomial that src selects with 2t taken from CODE (R137). Registers that
nothing has written since reset are read at the model's values (log entry 5). -/
def Obligations.GfpevalEvaluatesPolynomial : Prop :=
  ∀ (s : State) (src : PolySrc) (x : Byte), primitive s.cfg.primPoly →
    exec (.gfpeval src x) s = .next (s.setGfr (polyValue s.cfg.primPoly (polyRegs s.rs src) x))

/-- The laws of the field and their consequences (R138). -/
def Obligations.FieldLaws : Prop :=
  ∀ p : BitVec 9, primitive p →
    (∀ a b, gfMul p a b = gfMul p b a) ∧
    (∀ a b c, gfMul p a (gfMul p b c) = gfMul p (gfMul p a b) c) ∧
    (∀ a b c, gfMul p a (b ^^^ c) = gfMul p a b ^^^ gfMul p a c) ∧
    gfPow p 0 = 1 ∧ gfPow p 255 = 1 ∧
    (∀ a, a ≠ 0 → gfMul p (gfInv p a) a = 1 ∧ gfMul p a (gfInv p a) = 1) ∧
    (∀ a b, gfMul p a b = 0 ↔ a = 0 ∨ b = 0) ∧
    (∀ i j : Int, gfPow p (i + j) = gfMul p (gfPow p i) (gfPow p j)) ∧
    (∀ i j : Int, gfPow p i = gfPow p j ↔ i % 255 = j % 255)

/-! ### The Reed-Solomon solver (41_rs_solver.md) -/

/-- RSSYN: the syndrome of VEC, the status, CODE, and nothing else (R153). -/
def Obligations.RssynComputesSyndrome : Prop :=
  ∀ (s : State) (code : Code),
    ∃ t : RsFile, exec (.rssyn code) s = .next (s.setRs t) ∧
      (∀ j : Fin 6, j.val < codePar code → t.syn[j] = paritySum s.cfg code (fun p => s.rs.vec[p]) j.val) ∧
      (∀ j : Fin 6, codePar code ≤ j.val → t.syn[j] = s.rs.syn[j]) ∧
      t.code = code ∧
      (isCodeword s.cfg code (fun p => s.rs.vec[p]) → t.status = .noErrors) ∧
      (¬ isCodeword s.cfg code (fun p => s.rs.vec[p]) → t.status = .uncorrectable) ∧
      t = { s.rs with code := t.code, syn := t.syn, status := t.status }

/-- RSSOLVE with more erasures than 2t fails at once: SOLVE_OK false, UNCORRECTABLE, SIG and OMG unspecified (R154). An
unspecified register takes a free value, a new one each time (log entry 6). -/
def Obligations.RssolveRejectsTooManyErasures : Prop :=
  ∀ (s : State) (fe : Bool) (code : Code), codePar code < s.rs.nera →
    ∃ t : RsFile, exec (.rssolve fe code) s = .next (s.setRs t) ∧
      t.solveOk = false ∧ t.status = .uncorrectable ∧ t.code = code ∧
      (∀ i : Fin 7, i.val ≤ codePar code → t.sig[i] = Config.freeByte (s.rs.draws + i.val)) ∧
      (∀ i : Fin 7, codePar code < i.val → t.sig[i] = s.rs.sig[i]) ∧
      (∀ i : Fin 6, i.val < codePar code → t.omg[i] = Config.freeByte (s.rs.draws + 7 + i.val)) ∧
      (∀ i : Fin 6, codePar code ≤ i.val → t.omg[i] = s.rs.omg[i]) ∧ t.draws = s.rs.draws + 13 ∧
      t = { s.rs with code := t.code, sig := t.sig, omg := t.omg, solveOk := t.solveOk, status := t.status, draws := t.draws }

/-- RSSOLVE with fe = 0: sigma is the erasure locator, omega is sigma times the syndrome modulo x^r (R154, R155). -/
def Obligations.RssolveErasuresOnly : Prop :=
  ∀ (s : State) (code : Code), primitive s.cfg.primPoly →
    s.rs.nera = s.rs.era.length → s.rs.era.length ≤ codePar code →
    ∃ t : RsFile, exec (.rssolve false code) s = .next (s.setRs t) ∧
      t.solveOk = true ∧ t.code = code ∧
      (∀ i : Fin 7, i.val ≤ codePar code → t.sig[i] = (gammaPoly s.cfg code s.rs.era).getD i.val 0) ∧
      (∀ i : Fin 7, codePar code < i.val → t.sig[i] = s.rs.sig[i]) ∧
      (∀ k : Fin 6, k.val < codePar code →
        t.omg[k] = productCoeff s.cfg.primPoly (gammaPoly s.cfg code s.rs.era) (fileValues s.rs.syn (codePar code)) k.val) ∧
      (∀ k : Fin 6, codePar code ≤ k.val → t.omg[k] = s.rs.omg[k]) ∧
      t = { s.rs with code := t.code, sig := t.sig, omg := t.omg, solveOk := t.solveOk }

/-- RSSOLVE with fe = 1: when some Lambda meets the contract of R154 (Lambda(0) = 1, 2 deg Lambda + rho <= r, and with
sigma = Gamma * Lambda, 2 deg (sigma * S mod x^r) < r + rho), SIG takes Gamma * Lambda of one such Lambda and OMG sigma *
S modulo x^r; it fails exactly when there is none (R154, R155). That a failure leaves SIG and OMG as they were is the
model's reading (log entry 7). -/
def Obligations.RssolveFindsErrorLocator : Prop :=
  ∀ (s : State) (code : Code), primitive s.cfg.primPoly →
    s.rs.nera = s.rs.era.length → s.rs.era.length ≤ codePar code →
    let syn := fileValues s.rs.syn (codePar code)
    let gamma := gammaPoly s.cfg code s.rs.era
    ((∀ lam, ¬ keyLocator s.cfg code s.rs.era syn lam) →
      exec (.rssolve true code) s =
        .next (s.setRs { s.rs with code := code, solveOk := false, status := .uncorrectable })) ∧
    ((∃ lam, keyLocator s.cfg code s.rs.era syn lam) →
      ∃ (lam : List Byte) (t : RsFile), keyLocator s.cfg code s.rs.era syn lam ∧
        exec (.rssolve true code) s = .next (s.setRs t) ∧
        t = { s.rs with code := code, sig := t.sig, omg := t.omg, solveOk := true } ∧
        (∀ i : Fin 7, i.val ≤ codePar code → t.sig[i] = productCoeff s.cfg.primPoly gamma lam i.val) ∧
        t.sig[0] = 1 ∧
        (∀ i : Fin 7, codePar code < i.val → t.sig[i] = s.rs.sig[i]) ∧
        (∀ k : Fin 6, k.val < codePar code →
          t.omg[k] = productCoeff s.cfg.primPoly (fileValues t.sig (codePar code + 1)) syn k.val) ∧
        (∀ k : Fin 6, codePar code ≤ k.val → t.omg[k] = s.rs.omg[k]))

/-- RSEVAL: nothing after a failure; else COR lists the roots of sigma in ascending order with Forney's values and NCOR
counts them; a root with zero derivative is UNCORRECTABLE (R157), and so is a root count that differs from deg sigma
(92_eei_decisions.md D10). What COR and NCOR hold after a repeated root, that CODE stays as it was, and that COR and NCOR
are written before the root count fails, are the model's readings (log entries 8, 9, 35). -/
def Obligations.RsevalFindsRootsAndValues : Prop :=
  ∀ (s : State) (code : Code),
    (s.rs.solveOk = false → exec (.rseval code) s = .next s) ∧
    (s.rs.solveOk = true →
      let sig := fileValues s.rs.sig (codePar code + 1)
      let omg := fileValues s.rs.omg (codePar code)
      let roots := (codePositions code).filter (vanishesAt s.cfg code sig)
      let cor := roots.map fun p => (p, forneyValue s.cfg code sig omg p)
      ((∀ p ∈ roots, derivativeAt s.cfg code sig p ≠ 0) → isDegree sig roots.length →
        exec (.rseval code) s = .next (s.setRs { s.rs with cor := cor, ncor := roots.length })) ∧
      ((∀ p ∈ roots, derivativeAt s.cfg code sig p ≠ 0) → ¬ isDegree sig roots.length →
        exec (.rseval code) s = .next (s.setRs { s.rs with
          cor := cor, ncor := roots.length, solveOk := false, status := .uncorrectable })) ∧
      ((∃ p ∈ roots, derivativeAt s.cfg code sig p = 0) →
        ∃ c, exec (.rseval code) s = .next (s.setRs { s.rs with
          cor := c, solveOk := false, status := .uncorrectable })))

/-- RSVFY: the corrections are XORed into VEC iff they take every residual to zero; else VEC is unchanged (R158). That CODE
stays as it was, and that a position of COR beyond the code's length is verified and applied like any other, are the
model's readings (log entries 9, 24). -/
def Obligations.RsvfyVerifiesThenApplies : Prop :=
  ∀ (s : State) (code : Code),
    (s.rs.solveOk = false →
      exec (.rsvfy code) s = .next (s.setRs { s.rs with status := .uncorrectable })) ∧
    (s.rs.solveOk = true →
      let residual := fun j : Fin 6 => s.rs.syn[j] ^^^ xorSum (s.rs.cor.map fun pe =>
        gfMul s.cfg.primPoly pe.2 (gfPow s.cfg.primPoly (locOf s.cfg code pe.1 * (s.cfg.fcr + (j.val : Int)))))
      ((∀ j : Fin 6, j.val < codePar code → residual j = 0) →
        ∃ vec, exec (.rsvfy code) s = .next (s.setRs { s.rs with vec := vec, status := .corrected }) ∧
          ∀ p : Fin 46, vec[p] = s.rs.vec[p] ^^^ xorSum ((s.rs.cor.filter (·.1 = p)).map (·.2))) ∧
      ((∃ j : Fin 6, j.val < codePar code ∧ residual j ≠ 0) →
        exec (.rsvfy code) s = .next (s.setRs { s.rs with status := .uncorrectable })))

/-! ### The codec shells (42_codec_shells.md) -/

/-- C1DEC on an open Track completes and writes only the 32 cells of its vector and the RS registers; the flags follow
the table of R184, an UNCORRECTABLE vector keeps its bytes, more than four bad flags are UNCORRECTABLE (R183, R184). The
counter `draws` is the model's own and does not move here (log entry 6). -/
def Obligations.C1decDecodesOneVector : Prop :=
  ∀ (s : State) (tr : Track) (blocks : BitVec 7) (il : Bool), trackOpen s tr → TrackOk tr → blocks.toNat ≤ 71 →
    let addrs := (List.range 32).map (c1Addr blocks.toNat il.toNat)
    ∃ (rs : RsFile) (cells : Store Flagged),
      exec (.c1dec blocks il) s = .next ((s.setRs rs).setCur (some { tr with cells := cells })) ∧
      rs.code = .c1 ∧ rs.draws = s.rs.draws ∧
      (∀ a, a ∉ addrs → sread blankCell cells a = sread blankCell tr.cells a) ∧
      (4 < addrs.countP (fun a => !(sread blankCell tr.cells a).ok) → rs.status = .uncorrectable) ∧
      (addrs.countP (fun a => !(sread blankCell tr.cells a).ok) ≤ 4 →
        isCodeword s.cfg .c1 (fun p => (sread blankCell tr.cells (c1Addr blocks.toNat il.toNat p.val)).v) →
        rs.status = .noErrors) ∧
      (rs.status = .noErrors → ∀ a ∈ addrs, sread blankCell cells a = ⟨(sread blankCell tr.cells a).v, true⟩) ∧
      (rs.status = .corrected → rs.ncor = 1 → ∀ a ∈ addrs, (sread blankCell cells a).ok = true) ∧
      (rs.status = .corrected → rs.ncor = 2 → ∀ a ∈ addrs, (sread blankCell cells a).ok = false) ∧
      (rs.status = .uncorrectable →
        ∀ a ∈ addrs, sread blankCell cells a = ⟨(sread blankCell tr.cells a).v, false⟩) ∧
      (∀ p : Fin 46, 32 ≤ p.val → rs.vec[p] = s.rs.vec[p] ∧ rs.valid[p] = s.rs.valid[p]) ∧
      (∀ j : Fin 6, 4 ≤ j.val → rs.syn[j] = s.rs.syn[j] ∧ rs.omg[j] = s.rs.omg[j]) ∧
      (∀ j : Fin 7, 5 ≤ j.val → rs.sig[j] = s.rs.sig[j])

/-- C2DEC on an open Track completes and writes only the 32 cells of its vector and the RS registers: all flags true on
success, all false and the bytes kept on failure; more than six erasures are UNCORRECTABLE (R186, R187). The counter
`draws` is the model's own and does not move here (log entry 6). -/
def Obligations.C2decDecodesOneVector : Prop :=
  ∀ (s : State) (tr : Track) (group : BitVec 2) (slice : BitVec 5), trackOpen s tr → TrackOk tr →
    (group.toNat % 2 = 0 ∨ slice.toNat ≤ 23) →
    let addrs := (List.range 32).map (c2Addr group.toNat slice.toNat)
    ∃ (rs : RsFile) (cells : Store Flagged),
      exec (.c2dec group slice) s = .next ((s.setRs rs).setCur (some { tr with cells := cells })) ∧
      rs.code = .c2 ∧ rs.draws = s.rs.draws ∧
      (∀ a, a ∉ addrs → sread blankCell cells a = sread blankCell tr.cells a) ∧
      (6 < addrs.countP (fun a => !(sread blankCell tr.cells a).ok) → rs.status = .uncorrectable) ∧
      (rs.status = .noErrors → ∀ a ∈ addrs, sread blankCell cells a = ⟨(sread blankCell tr.cells a).v, true⟩) ∧
      (rs.status = .corrected → ∀ a ∈ addrs, (sread blankCell cells a).ok = true) ∧
      (rs.status = .uncorrectable →
        ∀ a ∈ addrs, sread blankCell cells a = ⟨(sread blankCell tr.cells a).v, false⟩) ∧
      (∀ p : Fin 46, 32 ≤ p.val → rs.vec[p] = s.rs.vec[p] ∧ rs.valid[p] = s.rs.valid[p])

/-- C3DEC on an active basic group completes and writes only the cells its selector maps to and the RS registers: on
success every one of them is valid, on failure nothing in the group changes; more than two erasures are UNCORRECTABLE
(R197, R198). The counter `draws` is the model's own and does not move here (log entry 6). -/
def Obligations.C3decDecodesOneVector : Prop :=
  ∀ (s : State) (g : BasicGroup) (slice : BitVec 10) (tp il : Bool), s.bg = some g → GroupOk g → ∀ h : slice.toNat < 720,
    let refs := c3Refs s.cfg ⟨slice.toNat, h⟩ tp il
    ∃ (rs : RsFile) (g' : BasicGroup),
      exec (.c3dec slice tp il) s = .next ((s.setRs rs).setBg (some g')) ∧
      g'.id = g.id ∧ g'.diffLog = g.diffLog ∧
      rs.code = .c3 ∧ rs.draws = s.rs.draws ∧
      (∀ k, (∀ m, C3Ref.main m ∈ refs → m.val ≠ k) → g'.mainCell k = g.mainCell k) ∧
      (∀ k, (∀ m, C3Ref.ecc m ∈ refs → m.val ≠ k) → g'.eccCell k = g.eccCell k) ∧
      (2 < refs.countP (fun r => !(readC3 g r).ok) → rs.status = .uncorrectable) ∧
      (rs.status = .uncorrectable → ∀ k, g'.mainCell k = g.mainCell k ∧ g'.eccCell k = g.eccCell k) ∧
      (rs.status ≠ .uncorrectable →
        (∀ m, C3Ref.main m ∈ refs → (g'.mainCell m.val).ok = true) ∧
        (∀ m, C3Ref.ecc m ∈ refs → (g'.eccCell m.val).ok = true))

/-- What C1DEC or C2DEC accepts is a codeword: unless the vector ends UNCORRECTABLE, the 32 bytes written back have zero
parity sums (R152, R158, R160). -/
def Obligations.AcceptedVectorsAreCodewords : Prop :=
  ∀ (s t : State) (tr k : Track), primitive s.cfg.primPoly → trackOpen s tr → TrackOk tr → t.cur = some k →
    t.rs.status ≠ .uncorrectable →
    (∀ (blocks : BitVec 7) (il : Bool), blocks.toNat ≤ 71 → exec (.c1dec blocks il) s = .next t →
      isCodeword s.cfg .c1 (fun p => (sread blankCell k.cells (c1Addr blocks.toNat il.toNat p.val)).v)) ∧
    (∀ (group : BitVec 2) (slice : BitVec 5), (group.toNat % 2 = 0 ∨ slice.toNat ≤ 23) →
      exec (.c2dec group slice) s = .next t →
      isCodeword s.cfg .c2 (fun p => (sread blankCell k.cells (c2Addr group.toNat slice.toNat p.val)).v))

/-- C2 corrects purely from positions: a byte whose flag was true is never changed (R156, R186). -/
def Obligations.C2KeepsUnerasedBytes : Prop :=
  ∀ (s t : State) (tr k : Track) (group : BitVec 2) (slice : BitVec 5),
    primitive s.cfg.primPoly → locatorsDistinct s.cfg .c2 → trackOpen s tr → TrackOk tr →
    (group.toNat % 2 = 0 ∨ slice.toNat ≤ 23) → exec (.c2dec group slice) s = .next t → t.cur = some k →
    ∀ p < 32, (sread blankCell tr.cells (c2Addr group.toNat slice.toNat p)).ok = true →
      (sread blankCell k.cells (c2Addr group.toNat slice.toNat p)).v =
        (sread blankCell tr.cells (c2Addr group.toNat slice.toNat p)).v

/-- C1DEC with at most four bad flags accepts its vector iff a codeword differs from it in at most two positions, and then
stores that codeword; it ends NO_ERRORS iff they differ nowhere, and a vector that ends CORRECTED has in NCOR the number of
positions changed, which is 1 or 2, so that the flags follow one of the two rows of R184 (R156, R160, R183, R184). -/
def Obligations.TwoByteErrorsAreCorrected : Prop :=
  ∀ (s : State) (tr : Track) (blocks : BitVec 7) (il : Bool), primitive s.cfg.primPoly → locatorsDistinct s.cfg .c1 →
    trackOpen s tr → TrackOk tr → blocks.toNat ≤ 71 →
    let before := fun p : Fin 46 => sread blankCell tr.cells (c1Addr blocks.toNat il.toNat p.val)
    let distance := fun c : Fin 46 → Byte => (codePositions .c1).countP fun p => decide (c p ≠ (before p).v)
    (codePositions .c1).countP (fun p => !(before p).ok) ≤ 4 →
    ∃ t k, exec (.c1dec blocks il) s = .next t ∧ t.cur = some k ∧
      (t.rs.status ≠ .uncorrectable ↔ ∃ c, isCodeword s.cfg .c1 c ∧ distance c ≤ 2) ∧
      ∀ c, isCodeword s.cfg .c1 c → distance c ≤ 2 →
        (∀ p : Fin 46, p.val < 32 → (sread blankCell k.cells (c1Addr blocks.toNat il.toNat p.val)).v = c p) ∧
        (t.rs.status = .noErrors ↔ distance c = 0) ∧
        (t.rs.status = .corrected → t.rs.ncor = distance c ∧ (t.rs.ncor = 1 ∨ t.rs.ncor = 2))

/-- C2DEC with at most six invalid bytes accepts its vector iff a codeword agrees with it at every valid byte, and then stores
that codeword, all flags true; with exactly six it always does (R156, R160, R186, R187). -/
def Obligations.ErasedBytesAreRecovered : Prop :=
  ∀ (s : State) (tr : Track) (group : BitVec 2) (slice : BitVec 5), primitive s.cfg.primPoly →
    locatorsDistinct s.cfg .c2 → trackOpen s tr → TrackOk tr → (group.toNat % 2 = 0 ∨ slice.toNat ≤ 23) →
    let before := fun p : Fin 46 => sread blankCell tr.cells (c2Addr group.toNat slice.toNat p.val)
    let erased := (codePositions .c2).countP fun p => !(before p).ok
    let agrees := fun c : Fin 46 → Byte => ∀ p : Fin 46, p.val < 32 → (before p).ok = true → c p = (before p).v
    erased ≤ 6 →
    ∃ t k, exec (.c2dec group slice) s = .next t ∧ t.cur = some k ∧
      (t.rs.status ≠ .uncorrectable ↔ ∃ c, isCodeword s.cfg .c2 c ∧ agrees c) ∧
      (erased = 6 → t.rs.status ≠ .uncorrectable) ∧
      ∀ c, isCodeword s.cfg .c2 c → agrees c → ∀ p : Fin 46, p.val < 32 →
        sread blankCell k.cells (c2Addr group.toNat slice.toNat p.val) = ⟨c p, true⟩

/-- C3DEC with at most two invalid bytes accepts its vector iff a codeword agrees with it at every valid byte, and then the
cells its selector maps to hold that codeword, all flags true; with exactly two it always does (R160, R196 to R198). The
type of `C3_CELL`, and that a stored cell belongs to one position, follow log entry 3. -/
def Obligations.C3ErasuresAreRecovered : Prop :=
  ∀ (s : State) (g : BasicGroup) (slice : BitVec 10) (tp il : Bool), primitive s.cfg.primPoly →
    locatorsDistinct s.cfg .c3 → c3Injective s.cfg → s.bg = some g → GroupOk g → ∀ h : slice.toNat < 720,
    let ref := fun p : Fin 46 => c3CellOf s.cfg ⟨⟨slice.toNat, h⟩, tp, il, p⟩
    let before := fun p : Fin 46 => c3Cell g (ref p)
    let erased := (codePositions .c3).countP fun p => !(before p).ok
    let agrees := fun c : Fin 46 → Byte => ∀ p : Fin 46, (before p).ok = true → c p = (before p).v
    erased ≤ 2 →
    ∃ t g', exec (.c3dec slice tp il) s = .next t ∧ t.bg = some g' ∧
      (t.rs.status ≠ .uncorrectable ↔ ∃ c, isCodeword s.cfg .c3 c ∧ agrees c) ∧
      (erased = 2 → t.rs.status ≠ .uncorrectable) ∧
      ∀ c, isCodeword s.cfg .c3 c → agrees c → ∀ p : Fin 46, (∀ x, ref p ≠ .fixed x) →
        c3Cell g' (ref p) = ⟨c p, true⟩

/-- The 144 C1 vectors partition the 4608 cells of TRK; the 112 C2 vectors are disjoint and hold every cell of the data
blocks but bytes 24 to 31 of the odd ones (R182, R185). -/
def Obligations.VectorsPartitionTheTrack : Prop :=
  (∀ a < 4608, ∃! x : Nat × Nat × Nat,
    x.1 < 72 ∧ x.2.1 < 2 ∧ x.2.2 < 32 ∧ c1Addr x.1 x.2.1 x.2.2 = a) ∧
  (∀ a, inSomeC2 a = true → ∃! x : Nat × Nat × Nat,
    x.1 < 4 ∧ x.2.1 < (if x.1 % 2 = 0 then 32 else 24) ∧ x.2.2 < 32 ∧ c2Addr x.1 x.2.1 x.2.2 = a) ∧
  (∀ a, inSomeC2 a = false → ∀ g sl p, g < 4 → sl < (if g % 2 = 0 then 32 else 24) → p < 32 → c2Addr g sl p ≠ a)

/-- C1PASS on an open Track completes, leaves each of the 144 vectors as C1DEC on it leaves it, and adds the number of
vectors that end CORRECTED and UNCORRECTABLE to the Track's counters (R200, R287). The vectors being disjoint, C1DEC is
taken from the state before the pass. -/
def Obligations.C1passDecodesEveryVector : Prop :=
  ∀ (s : State) (tr : Track), trackOpen s tr → TrackOk tr →
    ∃ (rs : RsFile) (cells : Store Flagged) (status : BitVec 7 × Bool → RsStatus),
      exec .c1pass s = .next ((s.setRs rs).setCur (some { tr with
        cells := cells
        c1Corr := tr.c1Corr + c1Vectors.countP fun x => decide (status x = .corrected)
        c1Unc := tr.c1Unc + c1Vectors.countP fun x => decide (status x = .uncorrectable) })) ∧
      (∀ (blocks : BitVec 7) (il : Bool), blocks.toNat ≤ 71 →
        ∃ t k, exec (.c1dec blocks il) s = .next t ∧ t.cur = some k ∧ status (blocks, il) = t.rs.status ∧
          ∀ p < 32, sread blankCell cells (c1Addr blocks.toNat il.toNat p) =
            sread blankCell k.cells (c1Addr blocks.toNat il.toNat p)) ∧
      (∀ a, 4608 ≤ a → sread blankCell cells a = sread blankCell tr.cells a)

/-- C2PASS on an open Track completes, leaves each of the 112 vectors as C2DEC on it leaves it, and adds the number of
vectors that end CORRECTED and UNCORRECTABLE to the Track's counters; the latter are those left invalid; cells in no C2
vector are unchanged (R201, R287). The vectors being disjoint, C2DEC is taken from the state before the pass. -/
def Obligations.C2passDecodesEveryVector : Prop :=
  ∀ (s : State) (tr : Track), trackOpen s tr → TrackOk tr →
    ∃ (rs : RsFile) (cells : Store Flagged) (status : BitVec 2 × BitVec 5 → RsStatus),
      exec .c2pass s = .next ((s.setRs rs).setCur (some { tr with
        cells := cells
        c2Corr := tr.c2Corr + c2Vectors.countP fun x => decide (status x = .corrected)
        c2Unc := tr.c2Unc + c2Vectors.countP fun x => decide (status x = .uncorrectable) })) ∧
      (∀ (group : BitVec 2) (slice : BitVec 5), (group.toNat % 2 = 0 ∨ slice.toNat ≤ 23) →
        ∃ t k, exec (.c2dec group slice) s = .next t ∧ t.cur = some k ∧ status (group, slice) = t.rs.status ∧
          ∀ p < 32, sread blankCell cells (c2Addr group.toNat slice.toNat p) =
            sread blankCell k.cells (c2Addr group.toNat slice.toNat p)) ∧
      (c2Vectors.countP fun x => decide (status x = .uncorrectable)) = c2InvalidCount cells ∧ c2Uniform cells ∧
      (∀ a, inSomeC2 a = false → sread blankCell cells a = sread blankCell tr.cells a)

/-- C3PASS on an active basic group completes and never makes a valid cell invalid; with a legal `C3_CELL` it leaves each
cell of its 2880 vectors as C3DEC on that vector leaves it, and every other cell unchanged (R196, R198, R202). No two
vectors of a legal `C3_CELL` sharing a stored cell (log entry 3), C3DEC is taken from the state before the pass. -/
def Obligations.C3passNeverDemotes : Prop :=
  ∀ (s : State) (g : BasicGroup), s.bg = some g → GroupOk g →
    ∃ (rs : RsFile) (g' : BasicGroup), exec .c3pass s = .next ((s.setRs rs).setBg (some g')) ∧
      g'.id = g.id ∧ g'.diffLog = g.diffLog ∧
      (∀ k, ((g.mainCell k).ok = true → (g'.mainCell k).ok = true) ∧
        ((g.eccCell k).ok = true → (g'.eccCell k).ok = true)) ∧
      (c3Injective s.cfg → ∀ (slice : BitVec 10) (tp il : Bool) (h : slice.toNat < 720),
        ∃ t h', exec (.c3dec slice tp il) s = .next t ∧ t.bg = some h' ∧
          ∀ p : Fin 46, c3Cell g' (c3CellOf s.cfg ⟨⟨slice.toNat, h⟩, tp, il, p⟩) =
            c3Cell h' (c3CellOf s.cfg ⟨⟨slice.toNat, h⟩, tp, il, p⟩)) ∧
      (∀ k, (∀ sel m, c3CellOf s.cfg sel = .main m → m.val ≠ k) → g'.mainCell k = g.mainCell k) ∧
      (∀ k, (∀ sel m, c3CellOf s.cfg sel = .ecc m → m.val ≠ k) → g'.eccCell k = g.eccCell k)

/-! ### Clock recovery and the track timer (43_clock_recovery.md) -/

/-- SAMPLE away from the sync and maximum positions and from the end of the timer changes one ring slot, the integrator,
the position and the timer, in any number format; a NaN or an infinity is refused (R222 to R224, R232, R235). The
operations of the number format are log entry 4's. -/
def Obligations.SampleQuietStep : Prop :=
  ∀ (s : State) (bits : BitVec 32),
    (f32Finite bits = false → exec (.sample bits) s = .refused .nonFiniteSample) ∧
    (f32Finite bits = true → s.clk.pos ≠ s.clk.syncPos → s.clk.pos ≠ s.clk.maxPos → s.timer.count ≠ 1 →
      let fp := s.cfg.fp
      let x := fpOfReal fp (f32Value bits)
      let old := s.clk.e[s.clk.pos]
      exec (.sample bits) s = .next ((s.setClk { s.clk with
        integ := fpAdd fp s.clk.integ x
        e := s.clk.e.set s.clk.pos (fpAdd fp old (fpMul fp (fpOfReal fp (1 / 30)) (fpSub fp (fpAbs fp x) old)))
        pos := s.clk.pos + 1 }).setTimer { s.timer with count := s.timer.count - 1 }))

/-- SAMPLE over the real numbers: the clock recovery registers after the step, with the scan at the maximum position
(R222 to R227). The real numbers are the model's format `exact` (log entry 4). -/
def Obligations.SampleClockRecovery : Prop :=
  ∀ (s : State) (bits : BitVec 32), s.cfg.fp = .exact → f32Finite bits = true → streamReady s →
    let x := f32Value bits
    let old := s.clk.e[s.clk.pos]
    let ring := s.clk.e.set s.clk.pos (old + 1 / 30 * (|x| - old))
    ∃ t, exec (.sample bits) s = .next t ∧
      t.clk.e = ring ∧ t.clk.pos.val = (s.clk.pos.val + 1) % 8 ∧
      (s.clk.pos = s.clk.syncPos → t.clk.integ = 0 ∧ t.clk.syncPos = s.clk.nextSyncPos) ∧
      (s.clk.pos ≠ s.clk.syncPos → t.clk.integ = s.clk.integ + x ∧ t.clk.syncPos = s.clk.syncPos) ∧
      (s.clk.pos = s.clk.maxPos →
        (∀ j : Fin 8, ring[j] ≤ ring[t.clk.maxPos]) ∧
        (∀ j : Fin 8, j < t.clk.maxPos → ring[j] < ring[t.clk.maxPos]) ∧
        t.clk.nextSyncPos.val = (t.clk.maxPos.val + 4) % 8 ∧
        (t.clk.detected = true ↔
          0 < ring[t.clk.maxPos] ∧ ∃ j : Fin 8, ring[j] < 97 / 100 * ring[t.clk.maxPos])) ∧
      (s.clk.pos ≠ s.clk.maxPos → t.clk.maxPos = s.clk.maxPos ∧ t.clk.nextSyncPos = s.clk.nextSyncPos ∧
        t.clk.detected = s.clk.detected)

/-- SAMPLE at the sync position runs SYM with the sign of the integrator before the position advances and the timer
ticks; at the maximum position a loss of the clock resets the deframer, after the symbol of the same step (R222, R225, R228,
R229). The step in which the timer ends is SampleTicksTheTimer's. The real numbers are the model's format `exact` (log entry 4). -/
def Obligations.SampleEmitsSymbolAndClockEvent : Prop :=
  ∀ (s : State) (bits : BitVec 32), s.cfg.fp = .exact → f32Finite bits = true → streamReady s → s.timer.count ≠ 1 →
    let x := f32Value bits
    let old := s.clk.e[s.clk.pos]
    let ring := s.clk.e.set s.clk.pos (old + 1 / 30 * (|x| - old))
    (s.clk.pos = s.clk.syncPos → s.clk.pos ≠ s.clk.maxPos →
      ∃ u, exec (.sym (decide (0 < s.clk.integ + x)))
          (s.setClk { s.clk with e := ring, integ := 0, syncPos := s.clk.nextSyncPos }) = .next u ∧
        exec (.sample bits) s = .next ((u.setClk { u.clk with pos := s.clk.pos + 1 }).setTimer
          { u.timer with count := u.timer.count - 1 })) ∧
    (s.clk.pos ≠ s.clk.syncPos → s.clk.pos = s.clk.maxPos →
      ∃ c : Clock, exec (.sample bits) s = .next (((s.setClk c).setDfr
          (if s.clk.detected = true ∧ c.detected = false then ⟨0, 0, false, false⟩ else s.dfr)).setTimer
          { s.timer with count := s.timer.count - 1 })) ∧
    (s.clk.pos = s.clk.syncPos → s.clk.pos = s.clk.maxPos →
      ∃ (u : State) (c : Clock), exec (.sym (decide (0 < s.clk.integ + x)))
          (s.setClk { s.clk with e := ring, integ := 0, syncPos := s.clk.nextSyncPos }) = .next u ∧
        exec (.sample bits) s = .next (((u.setClk c).setDfr
          (if s.clk.detected = true ∧ c.detected = false then ⟨0, 0, false, false⟩ else u.dfr)).setTimer
          { u.timer with count := u.timer.count - 1 }))

/-- Every SAMPLE ticks the track timer last, in any number format: `v` is the state after the symbol of the step (SYM at the
sync position, 43_clock_recovery.md R225, R229), `w` the state after the scan, its event and the advance, and the tick acts
on the counter in `w`, which SYM may have loaded anew (R222, R231). A stopped timer stays, a counter of two or more goes down
by one, and a counter of one goes to zero and TRKSTOP runs, in the same step (R232, 60_exceptions.md R396). The operations
of the number format are log entry 4's, its code of the number 0 log entry 37's. -/
def Obligations.SampleTicksTheTimer : Prop :=
  ∀ (s : State) (bits : BitVec 32), f32Finite bits = true → streamReady s →
    let fp := s.cfg.fp
    let x := fpOfReal fp (f32Value bits)
    let old := s.clk.e[s.clk.pos]
    let ring := s.clk.e.set s.clk.pos (fpAdd fp old (fpMul fp (fpOfReal fp (1 / 30)) (fpSub fp (fpAbs fp x) old)))
    let integ := fpAdd fp s.clk.integ x
    ∃ v t : State, exec (.sample bits) s = .next t ∧
      (s.clk.pos ≠ s.clk.syncPos → v = s.setClk { s.clk with e := ring, integ := integ }) ∧
      (s.clk.pos = s.clk.syncPos →
        exec (.sym (fpLt fp 0 integ))
          (s.setClk { s.clk with e := ring, integ := 0, syncPos := s.clk.nextSyncPos }) = .next v) ∧
      t.clk.pos = s.clk.pos + 1 ∧
      (s.clk.pos ≠ s.clk.maxPos → t.clk = { v.clk with pos := s.clk.pos + 1 }) ∧
      let w := (v.setClk t.clk).setDfr
        (if s.clk.detected = true ∧ t.clk.detected = false then ⟨0, 0, false, false⟩ else v.dfr)
      (w.timer.count = 0 → t = w) ∧
      (2 ≤ w.timer.count → t = w.setTimer ⟨w.timer.count - 1, w.timer.running⟩) ∧
      (w.timer.count = 1 → exec .trkstop (w.setTimer ⟨0, false⟩) = .next t ∧
        t.timer = ⟨0, false⟩ ∧ t.cur = none ∧ t.pre = ⟨0, 0, false⟩)

/-- Over the real numbers the energies stay non-negative under every operation (R223). The real numbers are the model's
format `exact` (log entry 4). -/
def Obligations.EnergiesStayNonnegative : Prop :=
  ∀ (i : Instr) (s t : State), s.cfg.fp = .exact → (∀ j : Fin 8, 0 ≤ s.clk.e[j]) → exec i s = .next t →
    ∀ j : Fin 8, 0 ≤ t.clk.e[j]

/-- ATF: tone 3 adds one to the open Track's count; tone 2, or no open Track, changes nothing; a sealed Track is not
written (R230, 45_block_track.md R293). The refusal on a sealed Track is the model's reading of R293 (log entry 16). -/
def Obligations.AtfCountsToneThree : Prop :=
  (∀ (s : State) (tr : Track), trackOpen s tr →
    exec (.atf .tone3) s = .next (s.setCur (some { tr with atf3Cnt := tr.atf3Cnt + 1 }))) ∧
  (∀ s : State, s.cur = none → exec (.atf .tone3) s = .next s) ∧
  (∀ s : State, exec (.atf .tone2) s = .next s) ∧
  (∀ (s : State) (tr : Track), s.cur = some tr → tr.isSealed = true → exec (.atf .tone3) s = .refused .trackSealed)

/-- CLKEV 0 runs deframer_reset: sr, bit_cnt, synced and prev_sym, and nothing else; CLKEV 1 changes nothing (R228,
44_deframer.md R256). -/
def Obligations.ClockLossResetsDeframer : Prop :=
  (∀ s : State, exec (.clkev false) s =
    .next { s with dfr := { sr := 0, bitCnt := 0, synced := false, prevSym := false } }) ∧
  ∀ s : State, exec (.clkev true) s = .next s

/-! ### The deframer (44_deframer.md) -/

/-- SYM: the symbol is kept, and BIT runs with 1 iff it differs from the one before (R251). -/
def Obligations.SymIsNrzi : Prop :=
  ∀ (s : State) (v : Bool), curUnsealed s →
    ∃ t, exec (.sym v) s = .next t ∧
      exec (.bit (decide (v ≠ s.dfr.prevSym))) (s.setDfr { s.dfr with prevSym := v }) = .next t

/-- BIT: the shift, the sync match on the low nine bits, the word every ten bits while synced, WORD with the tap, and
the preamble check with its TRKSTART after eleven good checks (R252 to R255, 60_exceptions.md R396, R413). The record of
outputs, where the word tap stands, is the model's own (log entries 13, 34). -/
def Obligations.BitFramesWordsAndPreamble : Prop :=
  ∀ (s : State) (b : Bool), curUnsealed s →
    let sr : LineWord := BitVec.ofNat 10 (2 * s.dfr.sr.toNat + b.toNat)
    let hit : Bool := decide (sr.toNat % 512 = 0x111)
    let d : Deframer := ⟨sr, if hit then 0 else s.dfr.bitCnt + 1, s.dfr.synced || hit, s.dfr.prevSym⟩
    let ones : Bool := decide (s.pre.cnt = 9) && decide (sr = 0x3FF)
    let starts : Bool := ones && decide (10 ≤ s.pre.run) && !s.pre.present
    let p : Preamble := ⟨s.pre.cnt + 1,
      if s.pre.cnt = 9 then (if ones then (if s.pre.run ≤ 10 then s.pre.run + 1 else s.pre.run) else 0) else s.pre.run,
      s.pre.present || starts⟩
    ∃ u t, exec (.bit b) s = .next t ∧
      (hit = true ∨ (s.dfr.bitCnt = 9 ∧ s.dfr.synced = true) →
        exec (.word hit sr) ((s.setDfr d).setOut (s.out ++ [.wordTap hit sr])) = .next u) ∧
      (hit = false ∧ ¬ (s.dfr.bitCnt = 9 ∧ s.dfr.synced = true) → u = s.setDfr d) ∧
      (starts = true → exec .trkstart (u.setPre p) = .next t) ∧
      (starts = false → t = u.setPre p)

/-! ### The block and track assembler (45_block_track.md) -/

/-- WORD stores the word at the index, a sync word at 0, and advances it; the 36th word runs BLOCK (R271). -/
def Obligations.WordFillsTheBlock : Prop :=
  ∀ (s : State) (sync : Bool) (w : LineWord),
    let i : Fin 36 := if sync then 0 else s.asm.widx
    (i.val < 35 → exec (.word sync w) s = .next (s.setAsm ⟨s.asm.words.set i w, i + 1⟩)) ∧
    (i.val = 35 → curUnsealed s →
      ∃ t, exec (.word sync w) s = .next t ∧
        exec .block (s.setAsm ⟨s.asm.words.set i w, 0⟩) = .next t)

/-- BLOCK with a good header: the block is placed at its declared number with its header marked valid, and becomes the
predecessor (R274, R276, R279). -/
def Obligations.BlockWithGoodHeaderIsPlaced : Prop :=
  ∀ (s : State) (tr : Track), trackOpen s tr → TrackOk tr → headerGood s →
    ∃ tr', exec .block s = .next ((s.setCur (some tr')).setLastBlk
        (some (blknoOf s.cfg (blockByte s 0).v (blockByte s 1).v))) ∧
      placedAt s tr tr' (blknoOf s.cfg (blockByte s 0).v (blockByte s 1).v).val true

/-- BLOCK with a bad header: placed at k+1 with its header marked invalid iff the block before it was admitted with a
good header at k and k, k+1 lie in one range; else dropped; with no open Track dropped too (R276 to R278, R280). -/
def Obligations.BlockWithBadHeaderIsGuessedOrDropped : Prop :=
  (∀ s : State, s.cur = none → exec .block s = .next (s.setLastBlk none)) ∧
  (∀ (s : State) (tr : Track), trackOpen s tr → TrackOk tr → ¬ headerGood s →
    (∀ k, s.lastBlk = some k → sameRange k.val →
      ∃ tr', exec .block s = .next ((s.setCur (some tr')).setLastBlk none) ∧ placedAt s tr tr' (k.val + 1) false) ∧
    ((∀ k, s.lastBlk = some k → ¬ sameRange k.val) → exec .block s = .next (s.setLastBlk none)))

/-- TRKSTART: the timer is loaded with 592704, a new empty Track is open, there is no predecessor block (R281, R231,
10_state.md R56). -/
def Obligations.TrkstartOpensEmptyTrack : Prop :=
  ∀ s : State, ∃ tr, exec .trkstart s =
      .next { s with timer := ⟨592704, true⟩, cur := some tr, lastBlk := none } ∧
    (∀ b i, tr.cell b i = ⟨0, false⟩) ∧ (∀ b, tr.hdr b = ⟨false, false, 0⟩) ∧
    tr.head = .unknown ∧ tr.atf3Cnt = 0 ∧ tr.isSealed = false ∧
    (∀ j : Fin 16, tr.pack[j] = none) ∧ (∀ j : Fin 7, tr.sig[j] = none) ∧ tr.ctlId = none ∧ tr.dataId = none ∧
    tr.c1Corr = 0 ∧ tr.c1Unc = 0 ∧ tr.c2Corr = 0 ∧ tr.c2Unc = 0

/-- TRKSTOP: timer and preamble state cleared; an open Track gets head A iff its count is above 10, else UNKNOWN, is
completed by TRKCPL and delivered by TRACK (R282, R283). -/
def Obligations.TrkstopSealsAndDelivers : Prop :=
  (∀ s : State, s.cur = none →
    exec .trkstop s = .next ((s.setTimer ⟨0, false⟩).setPre ⟨0, 0, false⟩)) ∧
  (∀ (s : State) (tr : Track), trackOpen s tr → imagesOk s →
    ∃ u k t, exec .trkcpl (((s.setTimer ⟨0, false⟩).setPre ⟨0, 0, false⟩).setCur
          (some { tr with head := if 10 < tr.atf3Cnt then .a else .unknown })) = .next u ∧
      u.cur = some k ∧ k.isSealed = true ∧ k.head = (if 10 < tr.atf3Cnt then .a else .unknown) ∧
      exec .track (((u.setCur none).setLastBlk none).setTransit { u.transit with track := some k }) = .next t ∧
      exec .trkstop s = .next t ∧
      t.cur = none ∧ t.lastBlk = none ∧ t.timer = ⟨0, false⟩ ∧ t.pre = ⟨0, 0, false⟩)

/-- TRKCPL runs C1PASS, C2PASS and SUBX in this order and seals the Track, whose flags then are uniform per C2 vector, and
per C1 vector outside the C2 vectors (R284, R287, R293, R294). -/
def Obligations.TrkcplCompletesTheTrack : Prop :=
  ∀ (s : State) (tr : Track), trackOpen s tr → TrackOk tr →
    ∃ (u v w : State) (k : Track), exec .c1pass s = .next u ∧ exec .c2pass u = .next v ∧ exec .subx v = .next w ∧
      w.cur = some k ∧ exec .trkcpl s = .next (w.setCur (some { k with isSealed := true })) ∧
      w = (s.setRs w.rs).setCur w.cur ∧
      k.head = tr.head ∧ k.atf3Cnt = tr.atf3Cnt ∧ k.hdrs = tr.hdrs ∧
      tr.c1Corr ≤ k.c1Corr ∧ tr.c1Unc ≤ k.c1Unc ∧ k.c1Corr + k.c1Unc ≤ tr.c1Corr + tr.c1Unc + 144 ∧
      tr.c2Corr ≤ k.c2Corr ∧ tr.c2Unc ≤ k.c2Unc ∧ k.c2Corr + k.c2Unc ≤ tr.c2Corr + tr.c2Unc + 112 ∧
      c2Uniform k.cells ∧ c1UniformOutsideC2 k.cells

/-- SUBX: an empty pack slot 1 to 15 takes the first good item with its identifier in walk order, an empty signature slot
the first good item met there, Control ID and Data ID come from the first even subcode block with a good header; nothing
else changes (R288 to R292). -/
def Obligations.SubxLatchesFirstGoodItems : Prop :=
  ∀ (s : State) (tr : Track), trackOpen s tr →
    ∃ k : Track, exec .subx s = .next (s.setCur (some k)) ∧
      k = { tr with pack := k.pack, sig := k.sig, ctlId := k.ctlId, dataId := k.dataId } ∧
      k.pack[0] = tr.pack[0] ∧
      (∀ id : Fin 16, id ≠ 0 →
        (∀ q, tr.pack[id] = some q → k.pack[id] = some q) ∧
        (tr.pack[id] = none → k.pack[id] =
          (itemsInOrder.find? fun bj => goodItem tr bj && decide (itemIdOf tr bj = id.val)).map (itemPackOf tr))) ∧
      (∀ slot : Fin 7,
        (∀ q, tr.sig[slot] = some q → k.sig[slot] = some q) ∧
        (tr.sig[slot] = none → k.sig[slot] =
          (itemsInOrder.find? fun bj => goodItem tr bj && decide (slotIndex bj = slot.val)).map
            fun bj => BitVec.ofNat 4 (itemIdOf tr bj))) ∧
      (∀ b, ([128, 130, 132, 134, 136, 138, 140, 142].find? fun b => (tr.hdr b).present && (tr.hdr b).hdrOk) = some b →
        k.ctlId = some (BitVec.ofNat 4 ((tr.hdr b).id.toNat / 16)) ∧
        k.dataId = some (BitVec.ofNat 4 ((tr.hdr b).id.toNat % 16))) ∧
      (([128, 130, 132, 134, 136, 138, 140, 142].find? fun b => (tr.hdr b).present && (tr.hdr b).hdrOk) = none →
        k.ctlId = tr.ctlId ∧ k.dataId = tr.dataId)

/-! ### The framer and the frame deinterleaver (46_framer_frame.md) -/

/-- The two IsFrame rules (R321, R322). -/
def Obligations.IsFrameRules : Prop :=
  ∀ l n : Track,
    (isFrame .dat l n = true ↔ (∃ p, l.pack[2] = some p ∧ n.pack[2] = some p) ∧ l.head ≠ .b ∧ n.head ≠ .a) ∧
    (isFrame .dds l n = true ↔ ∃ p, l.pack[3] = some p ∧ n.pack[3] = some p)

/-- TRACK: stored when none is held, paired with the older one when IsFrame holds, else kept in its place (R320). -/
def Obligations.TrackPairsOrKeepsNewer : Prop :=
  ∀ (s : State) (t : Track), s.transit.track = some t →
    (s.last = none →
      exec .track s = .next ((s.setTransit { s.transit with track := none }).setLast (some t))) ∧
    (∀ l, s.last = some l → isFrame s.mode l t = false →
      exec .track s = .next ((s.setTransit { s.transit with track := none }).setLast (some t))) ∧
    (∀ l, s.last = some l → isFrame s.mode l t = true → imagesOk s →
      ∃ u, exec .track s = .next u ∧
        exec .pair ((s.setTransit { s.transit with track := none, pair := some (l, t) }).setLast none) = .next u ∧
        u.last = none)

/-- PAIR builds the wired frame of the pair and delivers it at the DAT output or to G3DEC (R325 to R331). The place
where the frame is handed on is the model's own (log entries 12, 13). -/
def Obligations.PairWiresTheFrame : Prop :=
  ∀ (s : State) (a b : Track), s.transit.pair = some (a, b) →
    ∃ f, wiredFrame s.cfg a b f ∧
      (s.mode = .dat → exec .pair s =
        .next ((s.setTransit { s.transit with pair := none }).setOut (s.out ++ [.datFrame f]))) ∧
      (s.mode = .dds → imagesOk s →
        ∃ t, exec .pair s = .next t ∧
          exec .g3dec (s.setTransit { s.transit with pair := none, frame := some f }) = .next t)

/-! ### DDS (47_dds.md) -/

/-- SESS: EOD in DATA goes to EOT; another area in EOT counts a session and goes back to DATA (R353). -/
def Obligations.SessFollowsTheArea : Prop :=
  ∀ (s : State) (g : Group3), s.transit.g3 = some g →
    (s.sess.state = .data → g.fields.area = .eod → exec .sess s = .next (s.setSess ⟨.eot, s.sess.cnt⟩)) ∧
    (s.sess.state = .eot → g.fields.area ≠ .eod → exec .sess s = .next (s.setSess ⟨.data, s.sess.cnt + 1⟩)) ∧
    ((s.sess.state = .data ∧ g.fields.area ≠ .eod) ∨ (s.sess.state = .eot ∧ g.fields.area = .eod) →
      exec .sess s = .next s)

/-- DEWHT: byte i of the group-1 is the payload byte in row order XORed with WHITEN(i), its flag unchanged (R351). -/
def Obligations.DewhtWhitensThePayload : Prop :=
  ∀ (s : State) (f : Frame), s.transit.frame = some f →
    ∃ g1, exec .dewht s = .next (s.setTransit { s.transit with g1 := some g1 }) ∧
      ∀ i : Fin 5756, sread blankCell g1 i.val =
        ⟨(f.cell (1 + i.val / 4) (i.val % 4)).v ^^^ whitenOf s.cfg i, (f.cell (1 + i.val / 4) (i.val % 4)).ok⟩

/-- G3DEC rejects, in this order, a frame without packs 1 to 4 in both Tracks, with packs that do not parse, or of the
data area with two logical frames; the session does not move (R341 to R344, R392). The report register and the
AFN_MISMATCH flag in it are the model's reading (log entries 17, 18). -/
def Obligations.G3decRejectsBeforeSession : Prop :=
  ∀ (s : State) (f : Frame), s.transit.frame = some f →
    (lacksPack f.a ∨ lacksPack f.b → exec .g3dec s = .next (reported s .missingPack false none)) ∧
    (∀ pa pb, hasPacks f.a pa → hasPacks f.b pb →
      (parseDdsOf s.cfg pa = none ∨ parseDdsOf s.cfg pb = none →
        exec .g3dec s = .next (reported s .badField false none)) ∧
      (∀ fa fb, parseDdsOf s.cfg pa = some fa → parseDdsOf s.cfg pb = some fb → fa.area = .data → fa.lfid ≠ fb.lfid →
        exec .g3dec s = .next (reported s .lfidMismatch (decide (fa.afn ≠ fb.afn)) none)))

/-- G3DEC past those checks runs SESS; a frame of another area ends there with OK or C2_ERRORS_PRESENT, a data frame
with a bad header row is rejected (R341, R346 to R349). The report register and the AFN_MISMATCH flag in it are the
model's reading (log entries 17, 18). -/
def Obligations.G3decStopsAfterSession : Prop :=
  ∀ (s : State) (f : Frame) (pa pb : Packs) (fa fb : DdsFields), s.transit.frame = some f →
    hasPacks f.a pa → hasPacks f.b pb → parseDdsOf s.cfg pa = some fa → parseDdsOf s.cfg pb = some fb →
    (fa.area = .data → fa.lfid = fb.lfid) →
    ∃ u, exec .sess (s.setTransit { s.transit with g3 := some ⟨fa, none, false⟩ }) = .next u ∧
      (fa.area ≠ .data → frameInvalid f →
        exec .g3dec s = .next (reported u .c2ErrorsPresent (decide (fa.afn ≠ fb.afn)) (some ⟨fa, none, false⟩))) ∧
      (fa.area ≠ .data → ¬ frameInvalid f →
        exec .g3dec s = .next (reported u .ok (decide (fa.afn ≠ fb.afn)) (some ⟨fa, none, false⟩))) ∧
      (fa.area = .data → ¬ headerZeros f →
        exec .g3dec s = .next (reported u .headerNonzero (decide (fa.afn ≠ fb.afn)) (some ⟨fa, none, false⟩))) ∧
      (fa.area = .data → headerZeros f → ¬ headerIsLfid f fa →
        exec .g3dec s = .next (reported u .headerLfidMismatch (decide (fa.afn ≠ fb.afn)) (some ⟨fa, none, false⟩)))

/-- G3DEC on a data frame with a good header row: the checksums are computed and compared, DEWHT runs, and BGMERGE runs
iff the session counter equals SESSION_SEL; OK or C2_ERRORS_PRESENT is reported (R341, R346, R350, R354). The report
register and when the objects in transit go are the model's reading (log entries 12, 17, 18, 32). -/
def Obligations.G3decPassesDataOn : Prop :=
  ∀ (s : State) (f : Frame) (pa pb : Packs) (fa fb : DdsFields), s.transit.frame = some f → imagesOk s →
    hasPacks f.a pa → hasPacks f.b pb → parseDdsOf s.cfg pa = some fa → parseDdsOf s.cfg pb = some fb →
    fa.area = .data → fa.lfid = fb.lfid → headerZeros f → headerIsLfid f fa →
    let ck : Vector Byte 4 := Vector.ofFn fun k =>
      xorSum ((cksumSetOf s.cfg k).map fun rc => (f.cell rc.1.val rc.2.val).v)
    let g3 : Group3 := ⟨fa, some ck, decide (ck = fa.cksum)⟩
    ∃ (kind : G3Kind) (u v w : State),
      (frameInvalid f → kind = .c2ErrorsPresent) ∧ (¬ frameInvalid f → kind = .ok) ∧
      exec .sess (s.setTransit { s.transit with g3 := some ⟨fa, none, false⟩ }) = .next u ∧
      exec .dewht ((u.setTransit { u.transit with g3 := some g3 }).setReport
        (some ⟨kind, decide (fa.afn ≠ fb.afn), some g3⟩)) = .next v ∧
      (v.sess.cnt = v.sessionSel → exec .bgmerge v = .next w) ∧
      (v.sess.cnt ≠ v.sessionSel → w = v) ∧
      exec .g3dec s = .next (w.setTransit { w.transit with frame := none, g3 := none, g1 := none })

/-- BGMERGE into the active group of the same ID, not the last sub-group: the group-1 is merged into the ECC region,
into the slice of sub-group 1 to 22, or nowhere, and each disagreement of two valid cells is counted (R360, R362, R363).
When the objects in transit go is the model's reading (log entry 32). -/
def Obligations.BgmergeMergesOneSlice : Prop :=
  ∀ (s : State) (g : BasicGroup) (g1 : Store Flagged) (g3 : Group3),
    s.transit.g1 = some g1 → s.transit.g3 = some g3 → s.bg = some g → GroupOk g → g.id = g3.fields.bgId → g3.fields.isLast = false →
    ∃ g', exec .bgmerge s = .next ((s.setBg (some g')).setTransit { s.transit with g1 := none, g3 := none }) ∧
      g'.id = g.id ∧
      (g3.fields.isEcc3 = true → mergedInto 0 g.ecc g1 g'.ecc ∧ g'.main = g.main ∧
        g'.diffLog = g.diffLog + disagreements 0 g.ecc g1) ∧
      (g3.fields.isEcc3 = false → 1 ≤ g3.fields.lfid.toNat → g3.fields.lfid.toNat ≤ 22 →
        mergedInto ((g3.fields.lfid.toNat - 1) * 5756) g.main g1 g'.main ∧ g'.ecc = g.ecc ∧
        g'.diffLog = g.diffLog + disagreements ((g3.fields.lfid.toNat - 1) * 5756) g.main g1) ∧
      (g3.fields.isEcc3 = false → g3.fields.lfid.toNat = 0 ∨ 23 ≤ g3.fields.lfid.toNat → g' = g)

/-- BGMERGE begins a group when none is active, from the host's image if it has one, and is refused on an image of a wrong
length or with a wrong validity byte (R361, R373, R374, U11, U12); it finalizes a group with another ID first, and its own
after a last sub-group (R360, R364). That the host's answers to BG_LOAD stand in the state, and the record of requests, are
the model's choice (log entries 13, 14). -/
def Obligations.BgmergeBeginsAndFinalizes : Prop :=
  ∀ (s : State) (g1 : Store Flagged) (g3 : Group3), s.transit.g1 = some g1 → s.transit.g3 = some g3 →
    let id := g3.fields.bgId
    let lengthsOk := fun img : Image => img.main.length = 126632 ∧ img.mainVal.length = 126632 ∧
      img.ecc.length = 5756 ∧ img.eccVal.length = 5756
    let validityOk := fun img : Image => ∀ b ∈ img.mainVal ++ img.eccVal, b = 0xFF ∨ b = 0x00
    (s.bg = none → (∀ img, s.images.lookup id = some img → lengthsOk img ∧ validityOk img) →
      ∃ g0 t, g0.id = id ∧ g0.diffLog = 0 ∧
        (s.images.lookup id = none → ∀ k, g0.mainCell k = blankCell ∧ g0.eccCell k = blankCell) ∧
        (∀ img, s.images.lookup id = some img →
          (∀ k < 126632, g0.mainCell k = ⟨img.main.getD k 0, decide (img.mainVal.getD k 0 = 0xFF)⟩) ∧
          (∀ k < 5756, g0.eccCell k = ⟨img.ecc.getD k 0, decide (img.eccVal.getD k 0 = 0xFF)⟩)) ∧
        exec .bgmerge ((s.setOut (s.out ++ [.bgLoad id])).setBg (some g0)) = .next t ∧
        exec .bgmerge s = .next t) ∧
    (∀ img, s.bg = none → s.images.lookup id = some img →
      (¬ lengthsOk img → exec .bgmerge s = .refused .imageLength) ∧
      (lengthsOk img → ¬ validityOk img → exec .bgmerge s = .refused .imageValidity)) ∧
    (∀ g, s.bg = some g → g.id ≠ id →
      ∃ u, exec .bgfin s = .next u ∧ u.bg = none ∧ u.images = s.images ∧ u.transit = s.transit ∧
        exec .bgmerge s = exec .bgmerge u) ∧
    (∀ g, s.bg = some g → g.id = id → g3.fields.isLast = true →
      ∃ u t, exec .bgmerge (s.setTransit { s.transit with
            g3 := some { g3 with fields := { g3.fields with isLast := false } } }) = .next u ∧
        exec .bgfin u = .next t ∧ exec .bgmerge s = .next t ∧ t.bg = none)

/-- BGFIN: nothing without an active group; else C3PASS, then all cells and flags sent to the host under the group's ID,
and no active group (R370 to R372, R375). The record of outputs is the model's own, and what the host keeps is the host's
(log entries 13, 14). -/
def Obligations.BgfinPersistsTheGroup : Prop :=
  (∀ s : State, s.bg = none → exec .bgfin s = .next s) ∧
  (∀ (s : State) (g : BasicGroup), s.bg = some g →
    ∃ (u : State) (g' : BasicGroup) (img : Image),
      exec .c3pass s = .next u ∧ u.bg = some g' ∧ g'.id = g.id ∧ imageHolds img g' ∧
      exec .bgfin s = .next ((u.setOut (s.out ++ [.bgPersist g.id img])).setBg none))

/-- STOP discards the open and the held Track, stops the timer, finalizes the basic group in DDS mode, flushes the sink
and ends the run (R376, 70_reset_and_hazards.md R430). The run flag, and how MODE DAT stops BGFIN, are the model's
choices (log entries 19, 29). -/
def Obligations.StopEndsTheRun : Prop :=
  ∀ s : State,
    let c := (((s.setCur none).setLastBlk none).setLast none).setTimer ⟨0, false⟩
    (s.mode = .dat → exec .stop s = .next ((c.setOut (s.out ++ [.sinkFlush])).setRunning false)) ∧
    (s.mode = .dds → ∃ u, exec .bgfin c = .next u ∧
      exec .stop s = .next ((u.setOut (u.out ++ [.sinkFlush])).setRunning false))

/-! ### Invariants and whole-machine rules -/

/-- The reset state meets both invariants (10_state.md R55). The values of what R55 leaves unspecified are the model's
(log entry 5). -/
def Obligations.ResetMeetsInvariant : Prop := PipelineInv State.reset

/-- Every step keeps the storage invariant, whatever inputs wait (20_memory.md R60 to R66, 10_state.md R34, R37, R38). -/
def Obligations.StepKeepsStorageInvariant : Prop :=
  ∀ s t : State, StorageInv s → step s = .next t → StorageInv t

/-- Every step keeps the pipeline invariant (10_state.md R22, 20_memory.md R77, 70_reset_and_hazards.md R430). -/
def Obligations.StepKeepsPipelineInvariant : Prop :=
  ∀ s t : State, PipelineInv s → step s = .next t → PipelineInv t

/-- No operation changes the configuration, the host's answers to BG_LOAD, the waiting inputs or the sample window, none
but STOP ends the run, none but the GF operations writes GFR, and outputs are only appended (10_state.md R32, R35, R50,
R51, R53, 60_exceptions.md R405). That no operation writes the sample window is the model's reading (log entry 21). -/
def Obligations.OperationsKeepTheHostSide : Prop :=
  ∀ (i : Instr) (s t : State), exec i s = .next t →
    t.cfg = s.cfg ∧ t.mode = s.mode ∧ t.sessionSel = s.sessionSel ∧ t.images = s.images ∧ t.port = s.port ∧
    t.win = s.win ∧ (i ≠ .stop → t.running = s.running) ∧
    ((∀ a b, i ≠ .gfmul a b) → (∀ n, i ≠ .gfpowa n) → (∀ a, i ≠ .gfinv a) → (∀ c x, i ≠ .gfpeval c x) →
      t.gfr = s.gfr) ∧
    ∃ more, t.out = s.out ++ more

/-- On a state whose stream can run, a class H operation is refused exactly where the spec refuses it, except a read of a
register that nothing has written since reset: the spec refuses that too (40_gf256.md R137, 70_reset_and_hazards.md R421,
R426, U4), the model runs it at the register's value, by its own choice (log entry 5). Otherwise the operation answers a next
state. A codec shell or pass is refused on every state exactly there: a selector out of range, no open Track, a sealed one,
no active basic group (R390, 42_codec_shells.md R183, R186, R197, 20_memory.md R77, 93_implementation_defined.md U1 to U3,
U5). How a refusal ends a model run is log entry 10's. -/
def Obligations.RefusalsAreTheSpecs : Prop :=
  (∀ (s : State) (i : Instr), streamReady s → i.eventOnly = false →
    (∀ r, exec i s = .refused r ↔ specRefuses i s r) ∧
    ((∀ r, ¬ specRefuses i s r) → ∃ t, exec i s = .next t)) ∧
  ∀ (s : State) (i : Instr) (r : Refusal), isShell i = true → (exec i s = .refused r ↔ specRefuses i s r)
end

