-- ==== Sys2Proof/Laws/State.lean ====
section
/-! SUPPORT. What each named update of one field of State does to every field: one lemma per field per update. -/

namespace Sys2Proof.Machine

section
variable (s : State) (x : RsFile)
@[simp] theorem State.setRs_rs : (s.setRs x).rs = x := rfl
@[simp] theorem State.setRs_gfr : (s.setRs x).gfr = s.gfr := rfl
@[simp] theorem State.setRs_clk : (s.setRs x).clk = s.clk := rfl
@[simp] theorem State.setRs_timer : (s.setRs x).timer = s.timer := rfl
@[simp] theorem State.setRs_win : (s.setRs x).win = s.win := rfl
@[simp] theorem State.setRs_dfr : (s.setRs x).dfr = s.dfr := rfl
@[simp] theorem State.setRs_pre : (s.setRs x).pre = s.pre := rfl
@[simp] theorem State.setRs_asm : (s.setRs x).asm = s.asm := rfl
@[simp] theorem State.setRs_cur : (s.setRs x).cur = s.cur := rfl
@[simp] theorem State.setRs_lastBlk : (s.setRs x).lastBlk = s.lastBlk := rfl
@[simp] theorem State.setRs_last : (s.setRs x).last = s.last := rfl
@[simp] theorem State.setRs_transit : (s.setRs x).transit = s.transit := rfl
@[simp] theorem State.setRs_report : (s.setRs x).report = s.report := rfl
@[simp] theorem State.setRs_sess : (s.setRs x).sess = s.sess := rfl
@[simp] theorem State.setRs_bg : (s.setRs x).bg = s.bg := rfl
@[simp] theorem State.setRs_mode : (s.setRs x).mode = s.mode := rfl
@[simp] theorem State.setRs_sessionSel : (s.setRs x).sessionSel = s.sessionSel := rfl
@[simp] theorem State.setRs_cfg : (s.setRs x).cfg = s.cfg := rfl
@[simp] theorem State.setRs_images : (s.setRs x).images = s.images := rfl
@[simp] theorem State.setRs_running : (s.setRs x).running = s.running := rfl
@[simp] theorem State.setRs_port : (s.setRs x).port = s.port := rfl
@[simp] theorem State.setRs_out : (s.setRs x).out = s.out := rfl
end

section
variable (s : State) (x : Byte)
@[simp] theorem State.setGfr_rs : (s.setGfr x).rs = s.rs := rfl
@[simp] theorem State.setGfr_gfr : (s.setGfr x).gfr = x := rfl
@[simp] theorem State.setGfr_clk : (s.setGfr x).clk = s.clk := rfl
@[simp] theorem State.setGfr_timer : (s.setGfr x).timer = s.timer := rfl
@[simp] theorem State.setGfr_win : (s.setGfr x).win = s.win := rfl
@[simp] theorem State.setGfr_dfr : (s.setGfr x).dfr = s.dfr := rfl
@[simp] theorem State.setGfr_pre : (s.setGfr x).pre = s.pre := rfl
@[simp] theorem State.setGfr_asm : (s.setGfr x).asm = s.asm := rfl
@[simp] theorem State.setGfr_cur : (s.setGfr x).cur = s.cur := rfl
@[simp] theorem State.setGfr_lastBlk : (s.setGfr x).lastBlk = s.lastBlk := rfl
@[simp] theorem State.setGfr_last : (s.setGfr x).last = s.last := rfl
@[simp] theorem State.setGfr_transit : (s.setGfr x).transit = s.transit := rfl
@[simp] theorem State.setGfr_report : (s.setGfr x).report = s.report := rfl
@[simp] theorem State.setGfr_sess : (s.setGfr x).sess = s.sess := rfl
@[simp] theorem State.setGfr_bg : (s.setGfr x).bg = s.bg := rfl
@[simp] theorem State.setGfr_mode : (s.setGfr x).mode = s.mode := rfl
@[simp] theorem State.setGfr_sessionSel : (s.setGfr x).sessionSel = s.sessionSel := rfl
@[simp] theorem State.setGfr_cfg : (s.setGfr x).cfg = s.cfg := rfl
@[simp] theorem State.setGfr_images : (s.setGfr x).images = s.images := rfl
@[simp] theorem State.setGfr_running : (s.setGfr x).running = s.running := rfl
@[simp] theorem State.setGfr_port : (s.setGfr x).port = s.port := rfl
@[simp] theorem State.setGfr_out : (s.setGfr x).out = s.out := rfl
end

section
variable (s : State) (x : Clock)
@[simp] theorem State.setClk_rs : (s.setClk x).rs = s.rs := rfl
@[simp] theorem State.setClk_gfr : (s.setClk x).gfr = s.gfr := rfl
@[simp] theorem State.setClk_clk : (s.setClk x).clk = x := rfl
@[simp] theorem State.setClk_timer : (s.setClk x).timer = s.timer := rfl
@[simp] theorem State.setClk_win : (s.setClk x).win = s.win := rfl
@[simp] theorem State.setClk_dfr : (s.setClk x).dfr = s.dfr := rfl
@[simp] theorem State.setClk_pre : (s.setClk x).pre = s.pre := rfl
@[simp] theorem State.setClk_asm : (s.setClk x).asm = s.asm := rfl
@[simp] theorem State.setClk_cur : (s.setClk x).cur = s.cur := rfl
@[simp] theorem State.setClk_lastBlk : (s.setClk x).lastBlk = s.lastBlk := rfl
@[simp] theorem State.setClk_last : (s.setClk x).last = s.last := rfl
@[simp] theorem State.setClk_transit : (s.setClk x).transit = s.transit := rfl
@[simp] theorem State.setClk_report : (s.setClk x).report = s.report := rfl
@[simp] theorem State.setClk_sess : (s.setClk x).sess = s.sess := rfl
@[simp] theorem State.setClk_bg : (s.setClk x).bg = s.bg := rfl
@[simp] theorem State.setClk_mode : (s.setClk x).mode = s.mode := rfl
@[simp] theorem State.setClk_sessionSel : (s.setClk x).sessionSel = s.sessionSel := rfl
@[simp] theorem State.setClk_cfg : (s.setClk x).cfg = s.cfg := rfl
@[simp] theorem State.setClk_images : (s.setClk x).images = s.images := rfl
@[simp] theorem State.setClk_running : (s.setClk x).running = s.running := rfl
@[simp] theorem State.setClk_port : (s.setClk x).port = s.port := rfl
@[simp] theorem State.setClk_out : (s.setClk x).out = s.out := rfl
end

section
variable (s : State) (x : Timer)
@[simp] theorem State.setTimer_rs : (s.setTimer x).rs = s.rs := rfl
@[simp] theorem State.setTimer_gfr : (s.setTimer x).gfr = s.gfr := rfl
@[simp] theorem State.setTimer_clk : (s.setTimer x).clk = s.clk := rfl
@[simp] theorem State.setTimer_timer : (s.setTimer x).timer = x := rfl
@[simp] theorem State.setTimer_win : (s.setTimer x).win = s.win := rfl
@[simp] theorem State.setTimer_dfr : (s.setTimer x).dfr = s.dfr := rfl
@[simp] theorem State.setTimer_pre : (s.setTimer x).pre = s.pre := rfl
@[simp] theorem State.setTimer_asm : (s.setTimer x).asm = s.asm := rfl
@[simp] theorem State.setTimer_cur : (s.setTimer x).cur = s.cur := rfl
@[simp] theorem State.setTimer_lastBlk : (s.setTimer x).lastBlk = s.lastBlk := rfl
@[simp] theorem State.setTimer_last : (s.setTimer x).last = s.last := rfl
@[simp] theorem State.setTimer_transit : (s.setTimer x).transit = s.transit := rfl
@[simp] theorem State.setTimer_report : (s.setTimer x).report = s.report := rfl
@[simp] theorem State.setTimer_sess : (s.setTimer x).sess = s.sess := rfl
@[simp] theorem State.setTimer_bg : (s.setTimer x).bg = s.bg := rfl
@[simp] theorem State.setTimer_mode : (s.setTimer x).mode = s.mode := rfl
@[simp] theorem State.setTimer_sessionSel : (s.setTimer x).sessionSel = s.sessionSel := rfl
@[simp] theorem State.setTimer_cfg : (s.setTimer x).cfg = s.cfg := rfl
@[simp] theorem State.setTimer_images : (s.setTimer x).images = s.images := rfl
@[simp] theorem State.setTimer_running : (s.setTimer x).running = s.running := rfl
@[simp] theorem State.setTimer_port : (s.setTimer x).port = s.port := rfl
@[simp] theorem State.setTimer_out : (s.setTimer x).out = s.out := rfl
end

section
variable (s : State) (x : Deframer)
@[simp] theorem State.setDfr_rs : (s.setDfr x).rs = s.rs := rfl
@[simp] theorem State.setDfr_gfr : (s.setDfr x).gfr = s.gfr := rfl
@[simp] theorem State.setDfr_clk : (s.setDfr x).clk = s.clk := rfl
@[simp] theorem State.setDfr_timer : (s.setDfr x).timer = s.timer := rfl
@[simp] theorem State.setDfr_win : (s.setDfr x).win = s.win := rfl
@[simp] theorem State.setDfr_dfr : (s.setDfr x).dfr = x := rfl
@[simp] theorem State.setDfr_pre : (s.setDfr x).pre = s.pre := rfl
@[simp] theorem State.setDfr_asm : (s.setDfr x).asm = s.asm := rfl
@[simp] theorem State.setDfr_cur : (s.setDfr x).cur = s.cur := rfl
@[simp] theorem State.setDfr_lastBlk : (s.setDfr x).lastBlk = s.lastBlk := rfl
@[simp] theorem State.setDfr_last : (s.setDfr x).last = s.last := rfl
@[simp] theorem State.setDfr_transit : (s.setDfr x).transit = s.transit := rfl
@[simp] theorem State.setDfr_report : (s.setDfr x).report = s.report := rfl
@[simp] theorem State.setDfr_sess : (s.setDfr x).sess = s.sess := rfl
@[simp] theorem State.setDfr_bg : (s.setDfr x).bg = s.bg := rfl
@[simp] theorem State.setDfr_mode : (s.setDfr x).mode = s.mode := rfl
@[simp] theorem State.setDfr_sessionSel : (s.setDfr x).sessionSel = s.sessionSel := rfl
@[simp] theorem State.setDfr_cfg : (s.setDfr x).cfg = s.cfg := rfl
@[simp] theorem State.setDfr_images : (s.setDfr x).images = s.images := rfl
@[simp] theorem State.setDfr_running : (s.setDfr x).running = s.running := rfl
@[simp] theorem State.setDfr_port : (s.setDfr x).port = s.port := rfl
@[simp] theorem State.setDfr_out : (s.setDfr x).out = s.out := rfl
end

section
variable (s : State) (x : Preamble)
@[simp] theorem State.setPre_rs : (s.setPre x).rs = s.rs := rfl
@[simp] theorem State.setPre_gfr : (s.setPre x).gfr = s.gfr := rfl
@[simp] theorem State.setPre_clk : (s.setPre x).clk = s.clk := rfl
@[simp] theorem State.setPre_timer : (s.setPre x).timer = s.timer := rfl
@[simp] theorem State.setPre_win : (s.setPre x).win = s.win := rfl
@[simp] theorem State.setPre_dfr : (s.setPre x).dfr = s.dfr := rfl
@[simp] theorem State.setPre_pre : (s.setPre x).pre = x := rfl
@[simp] theorem State.setPre_asm : (s.setPre x).asm = s.asm := rfl
@[simp] theorem State.setPre_cur : (s.setPre x).cur = s.cur := rfl
@[simp] theorem State.setPre_lastBlk : (s.setPre x).lastBlk = s.lastBlk := rfl
@[simp] theorem State.setPre_last : (s.setPre x).last = s.last := rfl
@[simp] theorem State.setPre_transit : (s.setPre x).transit = s.transit := rfl
@[simp] theorem State.setPre_report : (s.setPre x).report = s.report := rfl
@[simp] theorem State.setPre_sess : (s.setPre x).sess = s.sess := rfl
@[simp] theorem State.setPre_bg : (s.setPre x).bg = s.bg := rfl
@[simp] theorem State.setPre_mode : (s.setPre x).mode = s.mode := rfl
@[simp] theorem State.setPre_sessionSel : (s.setPre x).sessionSel = s.sessionSel := rfl
@[simp] theorem State.setPre_cfg : (s.setPre x).cfg = s.cfg := rfl
@[simp] theorem State.setPre_images : (s.setPre x).images = s.images := rfl
@[simp] theorem State.setPre_running : (s.setPre x).running = s.running := rfl
@[simp] theorem State.setPre_port : (s.setPre x).port = s.port := rfl
@[simp] theorem State.setPre_out : (s.setPre x).out = s.out := rfl
end

section
variable (s : State) (x : BlockAsm)
@[simp] theorem State.setAsm_rs : (s.setAsm x).rs = s.rs := rfl
@[simp] theorem State.setAsm_gfr : (s.setAsm x).gfr = s.gfr := rfl
@[simp] theorem State.setAsm_clk : (s.setAsm x).clk = s.clk := rfl
@[simp] theorem State.setAsm_timer : (s.setAsm x).timer = s.timer := rfl
@[simp] theorem State.setAsm_win : (s.setAsm x).win = s.win := rfl
@[simp] theorem State.setAsm_dfr : (s.setAsm x).dfr = s.dfr := rfl
@[simp] theorem State.setAsm_pre : (s.setAsm x).pre = s.pre := rfl
@[simp] theorem State.setAsm_asm : (s.setAsm x).asm = x := rfl
@[simp] theorem State.setAsm_cur : (s.setAsm x).cur = s.cur := rfl
@[simp] theorem State.setAsm_lastBlk : (s.setAsm x).lastBlk = s.lastBlk := rfl
@[simp] theorem State.setAsm_last : (s.setAsm x).last = s.last := rfl
@[simp] theorem State.setAsm_transit : (s.setAsm x).transit = s.transit := rfl
@[simp] theorem State.setAsm_report : (s.setAsm x).report = s.report := rfl
@[simp] theorem State.setAsm_sess : (s.setAsm x).sess = s.sess := rfl
@[simp] theorem State.setAsm_bg : (s.setAsm x).bg = s.bg := rfl
@[simp] theorem State.setAsm_mode : (s.setAsm x).mode = s.mode := rfl
@[simp] theorem State.setAsm_sessionSel : (s.setAsm x).sessionSel = s.sessionSel := rfl
@[simp] theorem State.setAsm_cfg : (s.setAsm x).cfg = s.cfg := rfl
@[simp] theorem State.setAsm_images : (s.setAsm x).images = s.images := rfl
@[simp] theorem State.setAsm_running : (s.setAsm x).running = s.running := rfl
@[simp] theorem State.setAsm_port : (s.setAsm x).port = s.port := rfl
@[simp] theorem State.setAsm_out : (s.setAsm x).out = s.out := rfl
end

section
variable (s : State) (x : Option Track)
@[simp] theorem State.setCur_rs : (s.setCur x).rs = s.rs := rfl
@[simp] theorem State.setCur_gfr : (s.setCur x).gfr = s.gfr := rfl
@[simp] theorem State.setCur_clk : (s.setCur x).clk = s.clk := rfl
@[simp] theorem State.setCur_timer : (s.setCur x).timer = s.timer := rfl
@[simp] theorem State.setCur_win : (s.setCur x).win = s.win := rfl
@[simp] theorem State.setCur_dfr : (s.setCur x).dfr = s.dfr := rfl
@[simp] theorem State.setCur_pre : (s.setCur x).pre = s.pre := rfl
@[simp] theorem State.setCur_asm : (s.setCur x).asm = s.asm := rfl
@[simp] theorem State.setCur_cur : (s.setCur x).cur = x := rfl
@[simp] theorem State.setCur_lastBlk : (s.setCur x).lastBlk = s.lastBlk := rfl
@[simp] theorem State.setCur_last : (s.setCur x).last = s.last := rfl
@[simp] theorem State.setCur_transit : (s.setCur x).transit = s.transit := rfl
@[simp] theorem State.setCur_report : (s.setCur x).report = s.report := rfl
@[simp] theorem State.setCur_sess : (s.setCur x).sess = s.sess := rfl
@[simp] theorem State.setCur_bg : (s.setCur x).bg = s.bg := rfl
@[simp] theorem State.setCur_mode : (s.setCur x).mode = s.mode := rfl
@[simp] theorem State.setCur_sessionSel : (s.setCur x).sessionSel = s.sessionSel := rfl
@[simp] theorem State.setCur_cfg : (s.setCur x).cfg = s.cfg := rfl
@[simp] theorem State.setCur_images : (s.setCur x).images = s.images := rfl
@[simp] theorem State.setCur_running : (s.setCur x).running = s.running := rfl
@[simp] theorem State.setCur_port : (s.setCur x).port = s.port := rfl
@[simp] theorem State.setCur_out : (s.setCur x).out = s.out := rfl
end

section
variable (s : State) (x : Option (Fin 144))
@[simp] theorem State.setLastBlk_rs : (s.setLastBlk x).rs = s.rs := rfl
@[simp] theorem State.setLastBlk_gfr : (s.setLastBlk x).gfr = s.gfr := rfl
@[simp] theorem State.setLastBlk_clk : (s.setLastBlk x).clk = s.clk := rfl
@[simp] theorem State.setLastBlk_timer : (s.setLastBlk x).timer = s.timer := rfl
@[simp] theorem State.setLastBlk_win : (s.setLastBlk x).win = s.win := rfl
@[simp] theorem State.setLastBlk_dfr : (s.setLastBlk x).dfr = s.dfr := rfl
@[simp] theorem State.setLastBlk_pre : (s.setLastBlk x).pre = s.pre := rfl
@[simp] theorem State.setLastBlk_asm : (s.setLastBlk x).asm = s.asm := rfl
@[simp] theorem State.setLastBlk_cur : (s.setLastBlk x).cur = s.cur := rfl
@[simp] theorem State.setLastBlk_lastBlk : (s.setLastBlk x).lastBlk = x := rfl
@[simp] theorem State.setLastBlk_last : (s.setLastBlk x).last = s.last := rfl
@[simp] theorem State.setLastBlk_transit : (s.setLastBlk x).transit = s.transit := rfl
@[simp] theorem State.setLastBlk_report : (s.setLastBlk x).report = s.report := rfl
@[simp] theorem State.setLastBlk_sess : (s.setLastBlk x).sess = s.sess := rfl
@[simp] theorem State.setLastBlk_bg : (s.setLastBlk x).bg = s.bg := rfl
@[simp] theorem State.setLastBlk_mode : (s.setLastBlk x).mode = s.mode := rfl
@[simp] theorem State.setLastBlk_sessionSel : (s.setLastBlk x).sessionSel = s.sessionSel := rfl
@[simp] theorem State.setLastBlk_cfg : (s.setLastBlk x).cfg = s.cfg := rfl
@[simp] theorem State.setLastBlk_images : (s.setLastBlk x).images = s.images := rfl
@[simp] theorem State.setLastBlk_running : (s.setLastBlk x).running = s.running := rfl
@[simp] theorem State.setLastBlk_port : (s.setLastBlk x).port = s.port := rfl
@[simp] theorem State.setLastBlk_out : (s.setLastBlk x).out = s.out := rfl
end

section
variable (s : State) (x : Option Track)
@[simp] theorem State.setLast_rs : (s.setLast x).rs = s.rs := rfl
@[simp] theorem State.setLast_gfr : (s.setLast x).gfr = s.gfr := rfl
@[simp] theorem State.setLast_clk : (s.setLast x).clk = s.clk := rfl
@[simp] theorem State.setLast_timer : (s.setLast x).timer = s.timer := rfl
@[simp] theorem State.setLast_win : (s.setLast x).win = s.win := rfl
@[simp] theorem State.setLast_dfr : (s.setLast x).dfr = s.dfr := rfl
@[simp] theorem State.setLast_pre : (s.setLast x).pre = s.pre := rfl
@[simp] theorem State.setLast_asm : (s.setLast x).asm = s.asm := rfl
@[simp] theorem State.setLast_cur : (s.setLast x).cur = s.cur := rfl
@[simp] theorem State.setLast_lastBlk : (s.setLast x).lastBlk = s.lastBlk := rfl
@[simp] theorem State.setLast_last : (s.setLast x).last = x := rfl
@[simp] theorem State.setLast_transit : (s.setLast x).transit = s.transit := rfl
@[simp] theorem State.setLast_report : (s.setLast x).report = s.report := rfl
@[simp] theorem State.setLast_sess : (s.setLast x).sess = s.sess := rfl
@[simp] theorem State.setLast_bg : (s.setLast x).bg = s.bg := rfl
@[simp] theorem State.setLast_mode : (s.setLast x).mode = s.mode := rfl
@[simp] theorem State.setLast_sessionSel : (s.setLast x).sessionSel = s.sessionSel := rfl
@[simp] theorem State.setLast_cfg : (s.setLast x).cfg = s.cfg := rfl
@[simp] theorem State.setLast_images : (s.setLast x).images = s.images := rfl
@[simp] theorem State.setLast_running : (s.setLast x).running = s.running := rfl
@[simp] theorem State.setLast_port : (s.setLast x).port = s.port := rfl
@[simp] theorem State.setLast_out : (s.setLast x).out = s.out := rfl
end

section
variable (s : State) (x : Transit)
@[simp] theorem State.setTransit_rs : (s.setTransit x).rs = s.rs := rfl
@[simp] theorem State.setTransit_gfr : (s.setTransit x).gfr = s.gfr := rfl
@[simp] theorem State.setTransit_clk : (s.setTransit x).clk = s.clk := rfl
@[simp] theorem State.setTransit_timer : (s.setTransit x).timer = s.timer := rfl
@[simp] theorem State.setTransit_win : (s.setTransit x).win = s.win := rfl
@[simp] theorem State.setTransit_dfr : (s.setTransit x).dfr = s.dfr := rfl
@[simp] theorem State.setTransit_pre : (s.setTransit x).pre = s.pre := rfl
@[simp] theorem State.setTransit_asm : (s.setTransit x).asm = s.asm := rfl
@[simp] theorem State.setTransit_cur : (s.setTransit x).cur = s.cur := rfl
@[simp] theorem State.setTransit_lastBlk : (s.setTransit x).lastBlk = s.lastBlk := rfl
@[simp] theorem State.setTransit_last : (s.setTransit x).last = s.last := rfl
@[simp] theorem State.setTransit_transit : (s.setTransit x).transit = x := rfl
@[simp] theorem State.setTransit_report : (s.setTransit x).report = s.report := rfl
@[simp] theorem State.setTransit_sess : (s.setTransit x).sess = s.sess := rfl
@[simp] theorem State.setTransit_bg : (s.setTransit x).bg = s.bg := rfl
@[simp] theorem State.setTransit_mode : (s.setTransit x).mode = s.mode := rfl
@[simp] theorem State.setTransit_sessionSel : (s.setTransit x).sessionSel = s.sessionSel := rfl
@[simp] theorem State.setTransit_cfg : (s.setTransit x).cfg = s.cfg := rfl
@[simp] theorem State.setTransit_images : (s.setTransit x).images = s.images := rfl
@[simp] theorem State.setTransit_running : (s.setTransit x).running = s.running := rfl
@[simp] theorem State.setTransit_port : (s.setTransit x).port = s.port := rfl
@[simp] theorem State.setTransit_out : (s.setTransit x).out = s.out := rfl
end

section
variable (s : State) (x : Option G3Report)
@[simp] theorem State.setReport_rs : (s.setReport x).rs = s.rs := rfl
@[simp] theorem State.setReport_gfr : (s.setReport x).gfr = s.gfr := rfl
@[simp] theorem State.setReport_clk : (s.setReport x).clk = s.clk := rfl
@[simp] theorem State.setReport_timer : (s.setReport x).timer = s.timer := rfl
@[simp] theorem State.setReport_win : (s.setReport x).win = s.win := rfl
@[simp] theorem State.setReport_dfr : (s.setReport x).dfr = s.dfr := rfl
@[simp] theorem State.setReport_pre : (s.setReport x).pre = s.pre := rfl
@[simp] theorem State.setReport_asm : (s.setReport x).asm = s.asm := rfl
@[simp] theorem State.setReport_cur : (s.setReport x).cur = s.cur := rfl
@[simp] theorem State.setReport_lastBlk : (s.setReport x).lastBlk = s.lastBlk := rfl
@[simp] theorem State.setReport_last : (s.setReport x).last = s.last := rfl
@[simp] theorem State.setReport_transit : (s.setReport x).transit = s.transit := rfl
@[simp] theorem State.setReport_report : (s.setReport x).report = x := rfl
@[simp] theorem State.setReport_sess : (s.setReport x).sess = s.sess := rfl
@[simp] theorem State.setReport_bg : (s.setReport x).bg = s.bg := rfl
@[simp] theorem State.setReport_mode : (s.setReport x).mode = s.mode := rfl
@[simp] theorem State.setReport_sessionSel : (s.setReport x).sessionSel = s.sessionSel := rfl
@[simp] theorem State.setReport_cfg : (s.setReport x).cfg = s.cfg := rfl
@[simp] theorem State.setReport_images : (s.setReport x).images = s.images := rfl
@[simp] theorem State.setReport_running : (s.setReport x).running = s.running := rfl
@[simp] theorem State.setReport_port : (s.setReport x).port = s.port := rfl
@[simp] theorem State.setReport_out : (s.setReport x).out = s.out := rfl
end

section
variable (s : State) (x : Session)
@[simp] theorem State.setSess_rs : (s.setSess x).rs = s.rs := rfl
@[simp] theorem State.setSess_gfr : (s.setSess x).gfr = s.gfr := rfl
@[simp] theorem State.setSess_clk : (s.setSess x).clk = s.clk := rfl
@[simp] theorem State.setSess_timer : (s.setSess x).timer = s.timer := rfl
@[simp] theorem State.setSess_win : (s.setSess x).win = s.win := rfl
@[simp] theorem State.setSess_dfr : (s.setSess x).dfr = s.dfr := rfl
@[simp] theorem State.setSess_pre : (s.setSess x).pre = s.pre := rfl
@[simp] theorem State.setSess_asm : (s.setSess x).asm = s.asm := rfl
@[simp] theorem State.setSess_cur : (s.setSess x).cur = s.cur := rfl
@[simp] theorem State.setSess_lastBlk : (s.setSess x).lastBlk = s.lastBlk := rfl
@[simp] theorem State.setSess_last : (s.setSess x).last = s.last := rfl
@[simp] theorem State.setSess_transit : (s.setSess x).transit = s.transit := rfl
@[simp] theorem State.setSess_report : (s.setSess x).report = s.report := rfl
@[simp] theorem State.setSess_sess : (s.setSess x).sess = x := rfl
@[simp] theorem State.setSess_bg : (s.setSess x).bg = s.bg := rfl
@[simp] theorem State.setSess_mode : (s.setSess x).mode = s.mode := rfl
@[simp] theorem State.setSess_sessionSel : (s.setSess x).sessionSel = s.sessionSel := rfl
@[simp] theorem State.setSess_cfg : (s.setSess x).cfg = s.cfg := rfl
@[simp] theorem State.setSess_images : (s.setSess x).images = s.images := rfl
@[simp] theorem State.setSess_running : (s.setSess x).running = s.running := rfl
@[simp] theorem State.setSess_port : (s.setSess x).port = s.port := rfl
@[simp] theorem State.setSess_out : (s.setSess x).out = s.out := rfl
end

section
variable (s : State) (x : Option BasicGroup)
@[simp] theorem State.setBg_rs : (s.setBg x).rs = s.rs := rfl
@[simp] theorem State.setBg_gfr : (s.setBg x).gfr = s.gfr := rfl
@[simp] theorem State.setBg_clk : (s.setBg x).clk = s.clk := rfl
@[simp] theorem State.setBg_timer : (s.setBg x).timer = s.timer := rfl
@[simp] theorem State.setBg_win : (s.setBg x).win = s.win := rfl
@[simp] theorem State.setBg_dfr : (s.setBg x).dfr = s.dfr := rfl
@[simp] theorem State.setBg_pre : (s.setBg x).pre = s.pre := rfl
@[simp] theorem State.setBg_asm : (s.setBg x).asm = s.asm := rfl
@[simp] theorem State.setBg_cur : (s.setBg x).cur = s.cur := rfl
@[simp] theorem State.setBg_lastBlk : (s.setBg x).lastBlk = s.lastBlk := rfl
@[simp] theorem State.setBg_last : (s.setBg x).last = s.last := rfl
@[simp] theorem State.setBg_transit : (s.setBg x).transit = s.transit := rfl
@[simp] theorem State.setBg_report : (s.setBg x).report = s.report := rfl
@[simp] theorem State.setBg_sess : (s.setBg x).sess = s.sess := rfl
@[simp] theorem State.setBg_bg : (s.setBg x).bg = x := rfl
@[simp] theorem State.setBg_mode : (s.setBg x).mode = s.mode := rfl
@[simp] theorem State.setBg_sessionSel : (s.setBg x).sessionSel = s.sessionSel := rfl
@[simp] theorem State.setBg_cfg : (s.setBg x).cfg = s.cfg := rfl
@[simp] theorem State.setBg_images : (s.setBg x).images = s.images := rfl
@[simp] theorem State.setBg_running : (s.setBg x).running = s.running := rfl
@[simp] theorem State.setBg_port : (s.setBg x).port = s.port := rfl
@[simp] theorem State.setBg_out : (s.setBg x).out = s.out := rfl
end

section
variable (s : State) (x : Bool)
@[simp] theorem State.setRunning_rs : (s.setRunning x).rs = s.rs := rfl
@[simp] theorem State.setRunning_gfr : (s.setRunning x).gfr = s.gfr := rfl
@[simp] theorem State.setRunning_clk : (s.setRunning x).clk = s.clk := rfl
@[simp] theorem State.setRunning_timer : (s.setRunning x).timer = s.timer := rfl
@[simp] theorem State.setRunning_win : (s.setRunning x).win = s.win := rfl
@[simp] theorem State.setRunning_dfr : (s.setRunning x).dfr = s.dfr := rfl
@[simp] theorem State.setRunning_pre : (s.setRunning x).pre = s.pre := rfl
@[simp] theorem State.setRunning_asm : (s.setRunning x).asm = s.asm := rfl
@[simp] theorem State.setRunning_cur : (s.setRunning x).cur = s.cur := rfl
@[simp] theorem State.setRunning_lastBlk : (s.setRunning x).lastBlk = s.lastBlk := rfl
@[simp] theorem State.setRunning_last : (s.setRunning x).last = s.last := rfl
@[simp] theorem State.setRunning_transit : (s.setRunning x).transit = s.transit := rfl
@[simp] theorem State.setRunning_report : (s.setRunning x).report = s.report := rfl
@[simp] theorem State.setRunning_sess : (s.setRunning x).sess = s.sess := rfl
@[simp] theorem State.setRunning_bg : (s.setRunning x).bg = s.bg := rfl
@[simp] theorem State.setRunning_mode : (s.setRunning x).mode = s.mode := rfl
@[simp] theorem State.setRunning_sessionSel : (s.setRunning x).sessionSel = s.sessionSel := rfl
@[simp] theorem State.setRunning_cfg : (s.setRunning x).cfg = s.cfg := rfl
@[simp] theorem State.setRunning_images : (s.setRunning x).images = s.images := rfl
@[simp] theorem State.setRunning_running : (s.setRunning x).running = x := rfl
@[simp] theorem State.setRunning_port : (s.setRunning x).port = s.port := rfl
@[simp] theorem State.setRunning_out : (s.setRunning x).out = s.out := rfl
end

section
variable (s : State) (x : List HostOut)
@[simp] theorem State.setOut_rs : (s.setOut x).rs = s.rs := rfl
@[simp] theorem State.setOut_gfr : (s.setOut x).gfr = s.gfr := rfl
@[simp] theorem State.setOut_clk : (s.setOut x).clk = s.clk := rfl
@[simp] theorem State.setOut_timer : (s.setOut x).timer = s.timer := rfl
@[simp] theorem State.setOut_win : (s.setOut x).win = s.win := rfl
@[simp] theorem State.setOut_dfr : (s.setOut x).dfr = s.dfr := rfl
@[simp] theorem State.setOut_pre : (s.setOut x).pre = s.pre := rfl
@[simp] theorem State.setOut_asm : (s.setOut x).asm = s.asm := rfl
@[simp] theorem State.setOut_cur : (s.setOut x).cur = s.cur := rfl
@[simp] theorem State.setOut_lastBlk : (s.setOut x).lastBlk = s.lastBlk := rfl
@[simp] theorem State.setOut_last : (s.setOut x).last = s.last := rfl
@[simp] theorem State.setOut_transit : (s.setOut x).transit = s.transit := rfl
@[simp] theorem State.setOut_report : (s.setOut x).report = s.report := rfl
@[simp] theorem State.setOut_sess : (s.setOut x).sess = s.sess := rfl
@[simp] theorem State.setOut_bg : (s.setOut x).bg = s.bg := rfl
@[simp] theorem State.setOut_mode : (s.setOut x).mode = s.mode := rfl
@[simp] theorem State.setOut_sessionSel : (s.setOut x).sessionSel = s.sessionSel := rfl
@[simp] theorem State.setOut_cfg : (s.setOut x).cfg = s.cfg := rfl
@[simp] theorem State.setOut_images : (s.setOut x).images = s.images := rfl
@[simp] theorem State.setOut_running : (s.setOut x).running = s.running := rfl
@[simp] theorem State.setOut_port : (s.setOut x).port = s.port := rfl
@[simp] theorem State.setOut_out : (s.setOut x).out = x := rfl
end

/-- At reset no container exists, so no storage array does: the canonical form holds of all there are (10_state.md R55). -/
theorem reset_holds_no_store :
    State.reset.cur = none ∧ State.reset.last = none ∧ State.reset.bg = none ∧ State.reset.transit = Transit.none :=
  ⟨rfl, rfl, rfl, rfl⟩

end Sys2Proof.Machine
end

