-- ==== Sys2Proof/Laws/Regs.lean ====
section
/-! SUPPORT. Laws of registers, register files, containers and outcomes: each shared operation of Machine/Ops.lean said once. -/

namespace Sys2Proof.Machine

open Sys2Proof

variable {α : Type}

/-! ### Outcomes -/

@[simp] theorem settle_ok (s : State) : settle (.ok s) = .next s := rfl

@[simp] theorem settle_error (r : Refusal) : settle (.error r) = .refused r := rfl

/-- An operation answers a next state exactly when it is not refused. -/
theorem settle_eq_next {x : Res} {t : State} : settle x = .next t ↔ x = .ok t := by
  cases x <;> simp [settle]

/-- An operation is refused exactly when its result is the refusal. -/
theorem settle_eq_refused {x : Res} {r : Refusal} : settle x = .refused r ↔ x = .error r := by
  cases x <;> simp [settle]

/-- The two outcomes: a fault has no reason to exist. -/
theorem outcome_cases (x : Host.Outcome State Fault Refusal) : (∃ t, x = .next t) ∨ ∃ r, x = .refused r := by
  cases x with
  | next s => exact .inl ⟨s, rfl⟩
  | fault f => cases f
  | refused r => exact .inr ⟨r, rfl⟩

/-- A sequence answers a state exactly when its first part does and its second part does from there. -/
theorem bind_eq_ok {ε β γ : Type} {x : Except ε β} {f : β → Except ε γ} {c : γ} :
    (x >>= f) = .ok c ↔ ∃ b, x = .ok b ∧ f b = .ok c := by
  cases x with
  | error e => simp [Bind.bind, Except.bind]
  | ok b => simp [Bind.bind, Except.bind]

/-- A sequence is refused exactly when its first part is, or its second part is after it. -/
theorem bind_eq_error {ε β γ : Type} {x : Except ε β} {f : β → Except ε γ} {e : ε} :
    (x >>= f) = .error e ↔ x = .error e ∨ ∃ b, x = .ok b ∧ f b = .error e := by
  cases x with
  | error e' => simp [Bind.bind, Except.bind]
  | ok b => simp [Bind.bind, Except.bind]

@[simp] theorem ok_bind {ε β γ : Type} (b : β) (f : β → Except ε γ) : ((Except.ok b : Except ε β) >>= f) = f b := rfl

@[simp] theorem error_bind {ε β γ : Type} (e : ε) (f : β → Except ε γ) :
    ((Except.error e : Except ε β) >>= f) = .error e := rfl

/-! ### Register files -/

/-- The values of a file by index. -/
theorem fileValues_getElem? {m : Nat} (v : Vector α m) (n i : Nat) :
    (fileValues v n)[i]? = if i < n then v[i]? else none := by
  simp [fileValues, List.getElem?_take]

theorem fileValues_length {m : Nat} (v : Vector α m) {n : Nat} (h : n ≤ m) : (fileValues v n).length = n := by
  simp [fileValues, h]

/-! ### Writing registers -/

/-- What a file holds after a list is written to its first registers. -/
theorem writeFile_getElem {m : Nat} (v : Vector α m) (xs : List α) (i : Nat) (h : i < m) :
    (writeFile v xs)[i] = if h' : i < xs.length then xs[i] else v[i] := by
  simp only [writeFile, Vector.getElem_ofFn]
  split
  · next h' => simp [List.getElem?_eq_getElem h']
  · next h' => simp [List.getElem?_eq_none (Nat.le_of_not_lt h')]

/-- Reading back what was written. -/
theorem fileValues_writeFile {m : Nat} (v : Vector α m) (xs : List α) (h : xs.length ≤ m) :
    fileValues (writeFile v xs) xs.length = xs := by
  apply List.ext_getElem?
  intro i
  rw [fileValues_getElem?]
  by_cases hi : i < xs.length
  · rw [if_pos hi, Vector.getElem?_eq_getElem (by omega), writeFile_getElem, dif_pos hi]
    simp [hi]
  · rw [if_neg hi, List.getElem?_eq_none (by omega)]

/-! ### Containers -/

theorem openTrack_of_open {s : State} {t : Track} (h : trackOpen s t) : openTrack s = .ok t := by
  simp [openTrack, h.1, h.2]

theorem openTrack_eq_ok {s : State} {t : Track} : openTrack s = .ok t ↔ trackOpen s t := by
  unfold openTrack trackOpen
  cases h : s.cur with
  | none => simp [refuse]
  | some u =>
    cases hu : u.isSealed
    · simp only [hu, Bool.false_eq_true, if_false, Except.ok.injEq, Option.some.injEq]
      constructor
      · rintro rfl; exact ⟨rfl, hu⟩
      · exact fun h => h.1
    · simp only [hu, if_true, refuse, Option.some.injEq]
      constructor
      · intro h; cases h
      · rintro ⟨rfl, h⟩; simp [hu] at h

theorem activeGroup_some {s : State} {g : BasicGroup} (h : s.bg = some g) : activeGroup s = .ok g := by
  simp [activeGroup, h]

theorem activeGroup_eq_ok {s : State} {g : BasicGroup} : activeGroup s = .ok g ↔ s.bg = some g := by
  unfold activeGroup
  cases h : s.bg <;> simp [refuse]

theorem object_some {o : Option α} {a : α} (h : o = some a) : object o = .ok a := by simp [object, h]

theorem object_eq_ok {o : Option α} {a : α} : object o = .ok a ↔ o = some a := by
  cases o <;> simp [object, refuse]

end Sys2Proof.Machine
end

