-- ==== Sys2Proof/Laws/Rs.lean ====
section
/-! SUPPORT. What each Reed-Solomon operation can do, said once, and that the correction sequence completes on a filled
vector (41_rs_solver.md R153 to R159). -/

namespace Sys2Proof.Machine

open Sys2Proof

/-! ### Sizes and positions -/

theorem codeLen_le (code : Code) : codeLen code ≤ 46 := by cases code <;> decide

theorem codePar_le (code : Code) : codePar code ≤ 6 := by cases code <;> decide

theorem codePar_pos (code : Code) : 0 < codePar code := by cases code <;> decide

theorem codePar_le_len (code : Code) : codePar code ≤ codeLen code := by cases code <;> decide

@[simp] theorem syndromes_length (cfg : Params) (code : Code) (v : List Byte) :
    (syndromes cfg code v).length = codePar code := by simp [syndromes]

@[simp] theorem polyPad_length (n : Nat) (a : List Byte) : (polyPad n a).length = n := by simp [polyPad]

@[simp] theorem codePositions_length (code : Code) : (codePositions code).length = codeLen code := by
  simp [codePositions, codeLen_le]

theorem codePositions_getElem (code : Code) (i : Nat) (h : i < (codePositions code).length) :
    ((codePositions code)[i]).val = i := by simp [codePositions]

theorem mem_codePositions {code : Code} {p : Fin 46} : p ∈ codePositions code ↔ p.val < codeLen code := by
  rw [List.mem_iff_getElem]
  constructor
  · rintro ⟨i, hi, rfl⟩
    rw [codePositions_getElem]
    simpa using hi
  · intro h
    refine ⟨p.val, by simpa using h, ?_⟩
    apply Fin.ext
    rw [codePositions_getElem]

theorem codePositions_pairwise (code : Code) : (codePositions code).Pairwise (· < ·) := by
  exact (List.pairwise_lt_finRange 46).sublist (List.take_sublist _ _)

/-! ### XOR sums -/

@[simp] theorem xorSum_nil : xorSum [] = 0 := rfl

@[simp] theorem xorSum_cons (x : Byte) (xs : List Byte) : xorSum (x :: xs) = x ^^^ xorSum xs := rfl

theorem xorSum_append (xs ys : List Byte) : xorSum (xs ++ ys) = xorSum xs ^^^ xorSum ys := by
  induction xs with
  | nil => simp
  | cons x xs ih => simp [ih, BitVec.xor_assoc]

/-- The fold of the machine is the XOR sum. -/
theorem foldl_xor (xs : List Byte) (a : Byte) : xs.foldl (· ^^^ ·) a = a ^^^ xorSum xs := by
  induction xs generalizing a with
  | nil => simp
  | cons x xs ih => simp [ih, BitVec.xor_assoc]

theorem foldl_xor_zero (xs : List Byte) : xs.foldl (· ^^^ ·) 0 = xorSum xs := by
  rw [foldl_xor]; simp

/-! ### RSSYN -/

/-- RSSYN writes the syndromes, the status and CODE, and nothing else. -/
theorem rsSyn_eq (cfg : Params) (code : Code) (rs : RsFile) :
    rsSyn cfg code rs = { rs with
      code := code
      syn := writeFile rs.syn (syndromes cfg code (fileValues rs.vec (codeLen code)))
      status := synStatus (syndromes cfg code (fileValues rs.vec (codeLen code))) } := rfl

/-- A syndrome of the machine is the parity sum of R152. -/
theorem syndromes_getElem (cfg : Params) (code : Code) (v : Vector Byte 46) (j : Nat) (h : j < codePar code) :
    (syndromes cfg code (fileValues v (codeLen code)))[j]'(by simpa using h) =
      paritySum cfg code (fun p => v[p]) j := by
  simp only [syndromes, List.getElem_map, List.getElem_range, weightedSum, foldl_xor_zero, paritySum, synWeight]
  congr 1
  apply List.ext_getElem
  · simp [fileValues_length _ (codeLen_le code)]
  · intro i h1 h2
    simp only [List.getElem_map, List.getElem_zip]
    congr 1
    have hi : i < codeLen code := by simpa using h2
    have h46 : i < 46 := lt_of_lt_of_le hi (codeLen_le code)
    have := codePositions_getElem code i (by simpa using hi)
    simp [fileValues, this]

theorem synStatus_noErrors (cfg : Params) (code : Code) (v : Vector Byte 46) :
    synStatus (syndromes cfg code (fileValues v (codeLen code))) = .noErrors ↔
      isCodeword cfg code (fun p => v[p]) := by
  unfold synStatus isCodeword
  have key : (syndromes cfg code (fileValues v (codeLen code))).all (· = 0) = true ↔
      ∀ j < codePar code, paritySum cfg code (fun p => v[p]) j = 0 := by
    rw [List.all_eq_true]
    constructor
    · intro h j hj
      rw [← syndromes_getElem cfg code v j hj]
      simpa using h _ (List.getElem_mem _)
    · intro h x hx
      obtain ⟨j, hj, rfl⟩ := List.mem_iff_getElem.1 hx
      rw [syndromes_getElem cfg code v j (by simpa using hj)]
      simpa using h j (by simpa using hj)
  split
  · next h => exact iff_of_true rfl (key.1 h)
  · next h => exact iff_of_false (by simp) (mt key.2 h)

/-! ### RSSOLVE -/

/-- RSSOLVE with the erasure count in range. -/
theorem rsSolve_solves (cfg : Params) (fe : Bool) (code : Code) {rs : RsFile} (hle : rs.nera ≤ codePar code) :
    rsSolve cfg fe code rs =
      match keySolve cfg code fe rs.nera rs.era (fileValues rs.syn (codePar code)) with
        | none => solveFail { rs with code := code }
        | some (l, w) => { rs with
            code := code
            sig := writeFile rs.sig (polyPad (codePar code + 1)
              (polyMul cfg.primPoly (erasureLocator cfg code rs.era) l))
            omg := writeFile rs.omg (polyPad (codePar code) w)
            solveOk := true } := by
  have hle' : ¬ codePar code < rs.nera := by omega
  refine (if_neg hle').trans ?_
  cases keySolve cfg code fe rs.nera rs.era (fileValues rs.syn (codePar code)) <;> rfl

/-- RSSOLVE with too many erasures. -/
theorem rsSolve_rejects (cfg : Params) (fe : Bool) (code : Code) {rs : RsFile} (h : codePar code < rs.nera) :
    rsSolve cfg fe code rs = solveFail (unspecifySolution code { rs with code := code }) := by
  simp only [rsSolve, if_pos h]

/-- The registers that free values are drawn for, and the others. -/
theorem unspecify_getElem {m : Nat} (v : Vector Byte m) (n k i : Nat) (h : i < m) :
    (unspecify v n k)[i] = if i < n then Config.freeByte (k + i) else v[i] := by
  simp only [unspecify, Vector.getElem_ofFn]
  rfl

/-! ### RSEVAL -/

theorem sigmaDeriv_eq (cfg : Params) (code : Code) (sig : List Byte) (p : Fin 46) :
    sigmaDeriv cfg.primPoly sig (locOf cfg code p) = derivativeAt cfg code sig p := by
  unfold sigmaDeriv derivativeAt
  rw [foldl_xor_zero]
  induction List.range sig.length with
  | nil => rfl
  | cons i l ih =>
    by_cases h : i % 2 = 1
    · rw [List.filter_cons_of_pos (by simpa using h)]
      simp only [List.map_cons, xorSum_cons, ih, if_pos h]
    · rw [List.filter_cons_of_neg (by simpa using h)]
      simp only [List.map_cons, xorSum_cons, ih, if_neg h]
      simp

theorem isRoot_eq (cfg : Params) (code : Code) (sig : List Byte) (p : Fin 46) :
    isRoot cfg code sig p = vanishesAt cfg code sig p := rfl

/-- The root search when no root is repeated. -/
theorem rootSearch_distinct (cfg : Params) (code : Code) (sig omg : List Byte) (ps : List (Fin 46))
    (acc : List (Fin 46 × Byte))
    (h : ∀ p ∈ ps.filter (vanishesAt cfg code sig), derivativeAt cfg code sig p ≠ 0) :
    rootSearch cfg code sig omg ps acc =
      (acc ++ (ps.filter (vanishesAt cfg code sig)).map fun p => (p, forneyValue cfg code sig omg p), true) := by
  induction ps generalizing acc with
  | nil => simp [rootSearch]
  | cons p ps ih =>
    unfold rootSearch
    rw [isRoot_eq]
    by_cases hp : vanishesAt cfg code sig p = true
    · rw [List.filter_cons_of_pos hp] at h ⊢
      have hd := h p (by simp)
      rw [← sigmaDeriv_eq] at hd
      simp only [hp, if_true, if_neg hd]
      rw [ih _ fun q hq => h q (by simp [hq])]
      simp [forney, forneyValue, sigmaDeriv_eq]
    · rw [List.filter_cons_of_neg hp] at h ⊢
      simp only [if_neg hp]
      exact ih acc h

/-- The root search when a root is repeated. -/
theorem rootSearch_repeated (cfg : Params) (code : Code) (sig omg : List Byte) (ps : List (Fin 46))
    (acc : List (Fin 46 × Byte))
    (h : ∃ p ∈ ps.filter (vanishesAt cfg code sig), derivativeAt cfg code sig p = 0) :
    (rootSearch cfg code sig omg ps acc).2 = false := by
  induction ps generalizing acc with
  | nil => simp at h
  | cons p ps ih =>
    unfold rootSearch
    rw [isRoot_eq]
    by_cases hp : vanishesAt cfg code sig p = true
    · rw [List.filter_cons_of_pos hp] at h
      simp only [hp, if_true]
      split
      · rfl
      · next hd =>
        rw [sigmaDeriv_eq] at hd
        apply ih
        obtain ⟨q, hq, hz⟩ := h
        rcases List.mem_cons.1 hq with rfl | hq
        · exact absurd hz hd
        · exact ⟨q, hq, hz⟩
    · rw [List.filter_cons_of_neg hp] at h
      simp only [if_neg hp]
      exact ih acc h

/-- What the root search lists comes from the positions searched. -/
theorem rootSearch_mem {cfg : Params} {code : Code} {sig omg : List Byte} (ps : List (Fin 46))
    (acc : List (Fin 46 × Byte)) {x : Fin 46 × Byte} (h : x ∈ (rootSearch cfg code sig omg ps acc).1) :
    x ∈ acc ∨ x.1 ∈ ps := by
  induction ps generalizing acc with
  | nil => exact .inl h
  | cons p ps ih =>
    unfold rootSearch at h
    split at h
    · simp only at h
      split at h
      · exact .inl h
      · rcases ih _ h with h | h
        · rcases List.mem_append.1 h with h | h
          · exact .inl h
          · simp only [List.mem_singleton] at h
            subst h
            exact .inr (by simp)
        · exact .inr (by simp [h])
    · rcases ih _ h with h | h
      · exact .inl h
      · exact .inr (by simp [h])

/-- The root search lists positions in ascending order. -/
theorem rootSearch_pairwise {cfg : Params} {code : Code} {sig omg : List Byte} (ps : List (Fin 46))
    (acc : List (Fin 46 × Byte)) (hps : ps.Pairwise (· < ·)) (ha : (acc.map (·.1)).Pairwise (· < ·))
    (hx : ∀ x ∈ acc, ∀ p ∈ ps, x.1 < p) :
    ((rootSearch cfg code sig omg ps acc).1.map (·.1)).Pairwise (· < ·) := by
  induction ps generalizing acc with
  | nil => exact ha
  | cons p ps ih =>
    have hps' := List.pairwise_cons.1 hps
    unfold rootSearch
    split
    · simp only
      split
      · exact ha
      · apply ih _ hps'.2
        · rw [List.map_append, List.pairwise_append]
          refine ⟨ha, by simp, ?_⟩
          intro a h1 b h2
          simp only [List.map_cons, List.map_nil, List.mem_singleton] at h2
          obtain ⟨x, hxa, rfl⟩ := List.mem_map.1 h1
          rw [h2]
          exact hx x hxa p (by simp)
        · intro x hxa q hq
          rcases List.mem_append.1 hxa with h | h
          · exact hx x h q (by simp [hq])
          · simp only [List.mem_singleton] at h
            subst h
            exact hps'.1 q hq
    · exact ih _ hps'.2 ha fun x hxa q hq => hx x hxa q (by simp [hq])

/-- RSEVAL after a failure. -/
theorem rsEval_failed (cfg : Params) (code : Code) {rs : RsFile} (h : rs.solveOk = false) :
    rsEval cfg code rs = rs := by
  simp [rsEval, h]

/-- RSEVAL after a solution: a list of positions with values; on success their number is the degree of sigma. -/
theorem rsEval_solved (cfg : Params) (code : Code) {rs : RsFile} (h : rs.solveOk = true) :
    rsEval cfg code rs =
      let sig := fileValues rs.sig (codePar code + 1)
      let found := rootSearch cfg code sig (fileValues rs.omg (codePar code)) (codePositions code) []
      if found.2 = false then { rs with cor := found.1, solveOk := false, status := .uncorrectable }
      else if (found.1.length : Int) = polyDeg sig then { rs with cor := found.1, ncor := found.1.length }
      else { rs with cor := found.1, ncor := found.1.length, solveOk := false, status := .uncorrectable } := by
  simp only [rsEval, h, Bool.not_true, Bool.false_eq_true, if_false, solveFail]
  cases (rootSearch cfg code (fileValues rs.sig (codePar code + 1)) (fileValues rs.omg (codePar code))
    (codePositions code) []).2 <;> simp

/-! ### RSVFY -/

/-- The residuals of R158, by index. -/
theorem residuals_getElem (cfg : Params) (code : Code) (syn : Vector Byte 6) (cor : List (Fin 46 × Byte)) (j : Nat)
    (h : j < codePar code) :
    (residuals cfg code (fileValues syn (codePar code)) cor)[j]'(by
        simpa [residuals, fileValues_length _ (codePar_le code)] using h) =
      syn[j]'(lt_of_lt_of_le h (codePar_le code)) ^^^ xorSum (cor.map fun pe =>
        gfMul cfg.primPoly pe.2 (gfPow cfg.primPoly (locOf cfg code pe.1 * (cfg.fcr + (j : Int))))) := by
  simp only [residuals, weightedSum, foldl_xor_zero, synWeight]
  simp [fileValues]

theorem residuals_length (cfg : Params) (code : Code) (syn : Vector Byte 6) (cor : List (Fin 46 × Byte)) :
    (residuals cfg code (fileValues syn (codePar code)) cor).length = codePar code := by
  simp [residuals, fileValues_length _ (codePar_le code)]

/-- XORing corrections into a vector: each position takes the XOR of its corrections. -/
theorem applyCor_getElem (cor : List (Fin 46 × Byte)) (v : Vector Byte 46) (p : Fin 46) :
    (applyCor cor v)[p] = v[p] ^^^ xorSum ((cor.filter (·.1 = p)).map (·.2)) := by
  induction cor generalizing v with
  | nil => simp [applyCor]
  | cons x cor ih =>
    obtain ⟨q, e⟩ := x
    have hstep : applyCor ((q, e) :: cor) v = applyCor cor (v.set q (v[q] ^^^ e)) := rfl
    rw [hstep, ih]
    by_cases hpq : q = p
    · subst hpq
      simp [BitVec.xor_assoc]
    · have : (q : Nat) ≠ p := fun h => hpq (Fin.ext h)
      rw [List.filter_cons_of_neg (by simpa using hpq)]
      simp [this]

/-- RSVFY after a failure. -/
theorem rsVfy_failed (cfg : Params) (code : Code) {rs : RsFile} (h : rs.solveOk = false) :
    rsVfy cfg code rs = { rs with status := .uncorrectable } := by
  simp [rsVfy, h]

/-- RSVFY when a residual is not zero. -/
theorem rsVfy_rejects (cfg : Params) (code : Code) {rs : RsFile} (h : rs.solveOk = true)
    (hr : (residuals cfg code (fileValues rs.syn (codePar code)) rs.cor).all (· = 0) ≠ true) :
    rsVfy cfg code rs = { rs with status := .uncorrectable } := by
  simp only [rsVfy, h, Bool.not_true, Bool.false_eq_true, if_false, if_neg hr, verifyStatus]

/-- RSVFY when every residual is zero. -/
theorem rsVfy_applies (cfg : Params) (code : Code) {rs : RsFile} (h : rs.solveOk = true)
    (hr : (residuals cfg code (fileValues rs.syn (codePar code)) rs.cor).all (· = 0) = true) :
    rsVfy cfg code rs = { rs with vec := applyCor rs.cor rs.vec, status := .corrected } := by
  simp only [rsVfy, h, Bool.not_true, Bool.false_eq_true, if_false, if_pos hr, verifyStatus]

end Sys2Proof.Machine
end

