-- ==== Sys2Proof/Laws/Store.lean ====
section
/-! SUPPORT. Laws of the storage arrays: read after write, the canonical form is kept, what the builders read as. -/

namespace Sys2Proof.Machine

variable {α : Type}

/-! ### Reading after one write -/

/-- A write leaves every other address as it was. -/
theorem sread_swrite_ne [DecidableEq α] (d : α) {a b : Nat} (h : b ≠ a) (v : α) (m : Store α) :
    sread d (swrite d m a v) b = sread d m b := by
  induction m with
  | nil => unfold swrite; split <;> simp [sread, h]
  | cons e m ih =>
    obtain ⟨k, w⟩ := e
    unfold swrite
    split
    · split <;> simp [sread, h]
    · split
      · next hk => subst hk; split <;> simp [sread, h]
      · simp [sread, ih]

/-- An address below every listed one reads as the default. -/
theorem sread_of_lt (d : α) {m : Store α} {a : Nat} (h : ∀ e ∈ m, a < e.1) : sread d m a = d := by
  induction m with
  | nil => rfl
  | cons e m ih =>
    have h0 := h e (by simp)
    have : a ≠ e.1 := by omega
    simp [sread, this, ih fun e he => h e (by simp [he])]

/-- A write to a store with rising addresses gives what it wrote. -/
theorem sread_swrite_self [DecidableEq α] (d : α) (a : Nat) (v : α) {m : Store α}
    (h : m.Pairwise fun x y => x.1 < y.1) : sread d (swrite d m a v) a = v := by
  induction m with
  | nil => unfold swrite; split <;> simp_all [sread]
  | cons e m ih =>
    obtain ⟨k, w⟩ := e
    rw [List.pairwise_cons] at h
    unfold swrite
    split
    · next hk =>
      split
      · next hv =>
        subst hv
        apply sread_of_lt
        intro e he
        rcases List.mem_cons.1 he with rfl | he
        · exact hk
        · exact lt_trans hk (h.1 e he)
      · simp [sread]
    · split
      · next hk =>
        subst hk
        split
        · next hv => subst hv; exact sread_of_lt _ fun e he => h.1 e he
        · simp [sread]
      · next hk => simp [sread, hk, ih h.2]

/-! ### The canonical form -/

/-- The canonical form, said as a proposition. -/
theorem swf_iff [DecidableEq α] {d : α} {n : Nat} {m : Store α} :
    swf d n m = true ↔ (m.Pairwise fun x y => x.1 < y.1) ∧ ∀ e ∈ m, e.1 < n ∧ e.2 ≠ d := by
  simp [swf]

/-- A canonical store has rising addresses. -/
theorem pairwise_of_swf [DecidableEq α] {d : α} {n : Nat} {m : Store α} (h : swf d n m = true) :
    m.Pairwise fun x y => x.1 < y.1 := (swf_iff.1 h).1

/-- Read after write on a canonical store. -/
theorem sread_swrite [DecidableEq α] {d : α} {n : Nat} {m : Store α} (h : swf d n m = true) (a b : Nat) (v : α) :
    sread d (swrite d m a v) b = if b = a then v else sread d m b := by
  split
  · next e => subst e; exact sread_swrite_self d _ v (pairwise_of_swf h)
  · next e => exact sread_swrite_ne d e v m

/-- What a write lists was listed before, or is the entry written. -/
theorem mem_swrite [DecidableEq α] {d : α} {m : Store α} {a : Nat} {v : α} {e : Nat × α}
    (h : e ∈ swrite d m a v) : e ∈ m ∨ (e = (a, v) ∧ v ≠ d) := by
  induction m with
  | nil => unfold swrite at h; split at h <;> simp_all
  | cons x m ih =>
    obtain ⟨k, w⟩ := x
    unfold swrite at h
    split at h
    · split at h
      · exact .inl h
      · rcases List.mem_cons.1 h with rfl | h
        · exact .inr ⟨rfl, by assumption⟩
        · exact .inl h
    · split at h
      · split at h
        · exact .inl (by simp [h])
        · rcases List.mem_cons.1 h with rfl | h
          · exact .inr ⟨rfl, by assumption⟩
          · exact .inl (by simp [h])
      · rcases List.mem_cons.1 h with rfl | h
        · exact .inl (by simp)
        · rcases ih h with h | h
          · exact .inl (by simp [h])
          · exact .inr h

/-- A write keeps the addresses rising. -/
theorem swrite_pairwise [DecidableEq α] {d : α} {m : Store α} (h : m.Pairwise fun x y => x.1 < y.1) (a : Nat) (v : α) :
    (swrite d m a v).Pairwise fun x y => x.1 < y.1 := by
  induction m with
  | nil => unfold swrite; split <;> simp
  | cons x m ih =>
    obtain ⟨k, w⟩ := x
    have h' := List.pairwise_cons.1 h
    unfold swrite
    split
    · next hk =>
      split
      · exact h
      · refine List.pairwise_cons.2 ⟨fun e he => ?_, h⟩
        rcases List.mem_cons.1 he with rfl | he
        · exact hk
        · exact lt_trans hk (h'.1 e he)
    · split
      · next hk =>
        subst hk
        split
        · exact h'.2
        · exact List.pairwise_cons.2 ⟨fun e he => h'.1 e he, h'.2⟩
      · next h1 h2 =>
        refine List.pairwise_cons.2 ⟨fun e he => ?_, ih h'.2⟩
        rcases mem_swrite he with he | ⟨rfl, -⟩
        · exact h'.1 e he
        · show k < a
          omega

/-- A write inside the bounds keeps the canonical form. -/
theorem swf_swrite [DecidableEq α] {d : α} {n : Nat} {m : Store α} (h : swf d n m = true) {a : Nat} (ha : a < n) (v : α) :
    swf d n (swrite d m a v) = true := by
  rw [swf_iff] at h ⊢
  refine ⟨swrite_pairwise h.1 a v, fun e he => ?_⟩
  rcases mem_swrite he with he | ⟨rfl, hv⟩
  · exact h.2 e he
  · exact ⟨ha, hv⟩

/-- The empty store is canonical. -/
@[simp] theorem swf_nil [DecidableEq α] (d : α) (n : Nat) : swf d n ([] : Store α) = true := rfl

/-- The empty store reads as the default. -/
@[simp] theorem sread_nil (d : α) (a : Nat) : sread d ([] : Store α) a = d := rfl

/-! ### Writing a list of cells -/

@[simp] theorem swriteAll_nil [DecidableEq α] (d : α) (m : Store α) : swriteAll d m [] = m := rfl

@[simp] theorem swriteAll_cons [DecidableEq α] (d : α) (m : Store α) (e : Nat × α) (es : List (Nat × α)) :
    swriteAll d m (e :: es) = swriteAll d (swrite d m e.1 e.2) es := rfl

/-- Addresses that are not written keep their contents. -/
theorem sread_swriteAll_ne [DecidableEq α] (d : α) {b : Nat} (kvs : List (Nat × α)) (m : Store α)
    (h : ∀ e ∈ kvs, e.1 ≠ b) : sread d (swriteAll d m kvs) b = sread d m b := by
  induction kvs generalizing m with
  | nil => rfl
  | cons e es ih =>
    rw [swriteAll_cons, ih _ fun x hx => h x (by simp [hx]), sread_swrite_ne d (Ne.symm (h e (by simp)))]

/-- Writes inside the bounds keep the canonical form. -/
theorem swf_swriteAll [DecidableEq α] {d : α} {n : Nat} (kvs : List (Nat × α)) {m : Store α} (h : swf d n m = true)
    (hk : ∀ e ∈ kvs, e.1 < n) : swf d n (swriteAll d m kvs) = true := by
  induction kvs generalizing m with
  | nil => exact h
  | cons e es ih => exact ih (swf_swrite h (hk e (by simp)) e.2) fun x hx => hk x (by simp [hx])

/-- A cell written by a list without repeated addresses holds what was written. -/
theorem sread_swriteAll_mem [DecidableEq α] {d : α} {n : Nat} (kvs : List (Nat × α)) {m : Store α} (h : swf d n m = true)
    (hk : ∀ e ∈ kvs, e.1 < n) (hn : (kvs.map (·.1)).Nodup) {e : Nat × α} (he : e ∈ kvs) :
    sread d (swriteAll d m kvs) e.1 = e.2 := by
  induction kvs generalizing m with
  | nil => simp at he
  | cons x xs ih =>
    rw [List.map_cons, List.nodup_cons] at hn
    rw [swriteAll_cons]
    rcases List.mem_cons.1 he with rfl | he
    · rw [sread_swriteAll_ne d xs _ fun y hy hye => hn.1 (List.mem_map.2 ⟨y, hy, hye⟩)]
      exact sread_swrite_self d _ _ (pairwise_of_swf h)
    · exact ih (swf_swrite h (hk x (by simp)) x.2) (fun y hy => hk y (by simp [hy])) hn.2 he

/-! ### Builders -/

/-- A list of entries without defaults reads the same as with them left in. -/
theorem sread_filter [DecidableEq α] (d : α) {m : Store α} (h : m.Pairwise fun x y => x.1 < y.1) (a : Nat) :
    sread d (m.filter fun e => e.2 ≠ d) a = sread d m a := by
  induction m with
  | nil => rfl
  | cons e m ih =>
    obtain ⟨k, w⟩ := e
    have h' := List.pairwise_cons.1 h
    by_cases hw : w = d
    · subst hw
      rw [List.filter_cons_of_neg (by simp), ih h'.2]
      simp only [sread]
      split
      · next e => subst e; exact sread_of_lt _ fun e he => h'.1 e he
      · rfl
    · rw [List.filter_cons_of_pos (by simpa using hw)]
      simp only [sread, ih h'.2]

/-- Reading an enumeration of a function. -/
theorem sread_map_range (d : α) (f : Nat → α) (n a : Nat) :
    sread d ((List.range n).map fun a => (a, f a)) a = if a < n then f a else d := by
  induction n generalizing f a with
  | zero => rfl
  | succ n ih =>
    have key : ∀ (m : Store α) (x : Nat × α) (a : Nat), (∀ e ∈ m, e.1 < x.1) →
        sread d (m ++ [x]) a = if a = x.1 then x.2 else sread d m a := by
      intro m x a hm
      induction m with
      | nil => simp [sread]
      | cons e m ihm =>
        have := hm e (by simp)
        simp only [List.cons_append, sread, ihm fun e he => hm e (by simp [he])]
        split
        · next hae => rw [if_neg (by omega)]
        · rfl
    rw [List.range_succ, List.map_append, List.map_singleton, key _ _ _ (by simp), ih]
    by_cases h1 : a = n
    · simp [h1]
    · by_cases h2 : a < n
      · simp [h1, h2, Nat.lt_succ_of_lt h2]
      · simp [h1, h2, show ¬ a < n + 1 by omega]

/-- An enumeration has rising addresses. -/
theorem pairwise_map_range (f : Nat → α) (n : Nat) :
    ((List.range n).map fun a => (a, f a)).Pairwise fun x y => x.1 < y.1 :=
  List.pairwise_map.2 (List.pairwise_lt_range)

/-- What a built array reads as. -/
theorem sread_sbuild [DecidableEq α] (d : α) (n : Nat) (f : Nat → α) (a : Nat) :
    sread d (sbuild d n f) a = if a < n then f a else d := by
  rw [sbuild, sread_filter d (pairwise_map_range f n), sread_map_range]

/-- A built array is canonical. -/
theorem swf_sbuild [DecidableEq α] (d : α) (n : Nat) (f : Nat → α) : swf d n (sbuild d n f) = true := by
  rw [swf_iff, sbuild]
  refine ⟨(pairwise_map_range f n).filter _, fun e he => ?_⟩
  rw [List.mem_filter, List.mem_map] at he
  obtain ⟨⟨a, ha, rfl⟩, h⟩ := he
  exact ⟨List.mem_range.1 ha, by simpa using h⟩

/-- A list with its indices is an enumeration. -/
theorem zipIdx_swap (d : α) (xs : List α) :
    (xs.zipIdx.map fun (v, a) => (a, v)) = (List.range xs.length).map fun a => (a, xs.getD a d) := by
  apply List.ext_getElem
  · simp
  · intro i h1 h2
    simp only [List.length_map, List.length_range] at h2
    simp [h2]

/-- What an array built from a list reads as. -/
theorem sread_sofList [DecidableEq α] (d : α) (xs : List α) (a : Nat) : sread d (sofList d xs) a = xs.getD a d := by
  rw [sofList, zipIdx_swap d, sread_filter d (pairwise_map_range _ _), sread_map_range]
  split
  · rfl
  · next h => rw [List.getD_eq_getElem?_getD, List.getElem?_eq_none (Nat.le_of_not_lt h)]; rfl

/-- An array built from a list is canonical. -/
theorem swf_sofList [DecidableEq α] (d : α) {n : Nat} (xs : List α) (h : xs.length ≤ n) : swf d n (sofList d xs) = true := by
  rw [swf_iff, sofList, zipIdx_swap d]
  refine ⟨(pairwise_map_range _ _).filter _, fun e he => ?_⟩
  rw [List.mem_filter, List.mem_map] at he
  obtain ⟨⟨a, ha, rfl⟩, h2⟩ := he
  exact ⟨lt_of_lt_of_le (List.mem_range.1 ha) h, by simpa using h2⟩

/-- A dump lists the contents in order. -/
theorem sdump_getElem? (d : α) (n : Nat) (m : Store α) (k : Nat) :
    (sdump d n m)[k]? = if k < n then some (sread d m k) else none := by
  unfold sdump
  split
  · next h => simp [h]
  · next h => simpa using h

@[simp] theorem sdump_length (d : α) (n : Nat) (m : Store α) : (sdump d n m).length = n := by simp [sdump]

end Sys2Proof.Machine
end

