-- ==== Sys2Proof/Laws/Correct.lean ====
section
/-! SUPPORT. What the correction sequence RSCORRECT does on a filled vector, said once (41_rs_solver.md R159). -/

namespace Sys2Proof.Machine

open Sys2Proof

/-- What RSCORRECT leaves of the working registers, and how VEC and RS_STATUS come out. -/
structure Corrected (cfg : Params) (code : Code) (rs rs' : RsFile) : Prop where
  valid : rs'.valid = rs.valid
  code_eq : rs'.code = code
  era : rs'.era = rs.era
  nera : rs'.nera = rs.nera
  draws : rs'.draws = rs.draws
  vecFrame : ∀ p : Fin 46, codeLen code ≤ p.val → rs'.vec[p] = rs.vec[p]
  synFrame : ∀ j : Fin 6, codePar code ≤ j.val → rs'.syn[j] = rs.syn[j]
  sigFrame : ∀ j : Fin 7, codePar code < j.val → rs'.sig[j] = rs.sig[j]
  omgFrame : ∀ j : Fin 6, codePar code ≤ j.val → rs'.omg[j] = rs.omg[j]
  corSorted : (rs.cor.map (·.1)).Pairwise (· < ·) → (rs'.cor.map (·.1)).Pairwise (· < ·)
  clean : rs'.status = .noErrors ↔ isCodeword cfg code (fun p => rs.vec[p])
  keep : rs'.status ≠ .corrected → rs'.vec = rs.vec
  fixed : rs'.status = .corrected →
    rs'.ncor = rs'.cor.length ∧ (rs'.cor.map (·.1)).Pairwise (· < ·) ∧ (∀ x ∈ rs'.cor, x.1.val < codeLen code) ∧
    (∀ j : Fin 6, j.val < codePar code → paritySum cfg code (fun p => rs.vec[p]) j.val ^^^ xorSum (rs'.cor.map fun pe =>
        gfMul cfg.primPoly pe.2 (gfPow cfg.primPoly (locOf cfg code pe.1 * (cfg.fcr + (j.val : Int))))) = 0) ∧
    (∀ p : Fin 46, rs'.vec[p] = rs.vec[p] ^^^ xorSum ((rs'.cor.filter (·.1 = p)).map (·.2)))

/-- A position without a correction keeps its byte. -/
theorem xorSum_no_correction {cor : List (Fin 46 × Byte)} {p : Fin 46} (h : ∀ pe ∈ cor, pe.1 ≠ p) :
    xorSum ((cor.filter (·.1 = p)).map (·.2)) = 0 := by
  rw [List.filter_eq_nil_iff.2 fun pe hpe => by simpa using h pe hpe]
  rfl

/-- The state after RSSYN of a vector that is not a codeword, and what every continuation of it keeps. -/
theorem rsVfy_corrected (cfg : Params) (code : Code) {rs rs3 : RsFile}
    (hcw : ¬ isCodeword cfg code (fun p => rs.vec[p]))
    (hk : rs3.vec = rs.vec ∧ rs3.valid = rs.valid ∧ rs3.code = code ∧ rs3.era = rs.era ∧ rs3.nera = rs.nera ∧
      rs3.draws = rs.draws ∧ rs3.syn = writeFile rs.syn (syndromes cfg code (fileValues rs.vec (codeLen code))))
    (hsig : ∀ j : Fin 7, codePar code < j.val → rs3.sig[j] = rs.sig[j])
    (homg : ∀ j : Fin 6, codePar code ≤ j.val → rs3.omg[j] = rs.omg[j])
    (hcs : (rs.cor.map (·.1)).Pairwise (· < ·) → (rs3.cor.map (·.1)).Pairwise (· < ·))
    (hcor : rs3.solveOk = true →
      rs3.ncor = rs3.cor.length ∧ (rs3.cor.map (·.1)).Pairwise (· < ·) ∧ ∀ x ∈ rs3.cor, x.1.val < codeLen code) :
    Corrected cfg code rs (rsVfy cfg code rs3) := by
  obtain ⟨h1, h2, h3, h4, h5, h6, h7⟩ := hk
  have hlen : (syndromes cfg code (fileValues rs.vec (codeLen code))).length = codePar code := by simp
  have hsynF : ∀ j : Fin 6, codePar code ≤ j.val → rs3.syn[j] = rs.syn[j] := by
    intro j hj
    rw [h7, Fin.getElem_fin, writeFile_getElem, dif_neg (by omega)]; rfl
  have hsynV : ∀ j (h : j < codePar code), rs3.syn[j]'(lt_of_lt_of_le h (codePar_le code)) =
      paritySum cfg code (fun p => rs.vec[p]) j := by
    intro j h
    simp only [h7]
    rw [writeFile_getElem, dif_pos (by omega)]
    exact syndromes_getElem cfg code rs.vec j h
  have fail : Corrected cfg code rs { rs3 with status := .uncorrectable } := by
    constructor <;> simp only [h1, h2, h3, h4, h5, h6]
    · intros; trivial
    · exact hsynF
    · exact hsig
    · exact homg
    · exact hcs
    · exact iff_of_false (by simp) hcw
    · intros; trivial
    · intro h; simp at h
  cases ho : rs3.solveOk
  · rw [rsVfy_failed cfg code ho]; exact fail
  · obtain ⟨hn, hs, hm⟩ := hcor ho
    by_cases hr : (residuals cfg code (fileValues rs3.syn (codePar code)) rs3.cor).all (· = 0) = true
    · rw [rsVfy_applies cfg code ho hr]
      have hap := applyCor_getElem rs3.cor rs3.vec
      rw [h1] at hap
      constructor <;> simp only [h1, h2, h3, h4, h5, h6]
      · intro p hp
        rw [hap, xorSum_no_correction fun pe hpe h => by have := hm pe hpe; rw [h] at this; omega]
        simp
      · exact hsynF
      · exact hsig
      · exact homg
      · exact hcs
      · exact iff_of_false (by simp) hcw
      · intro h; simp at h
      · intro _
        refine ⟨hn, hs, hm, ?_, hap⟩
        intro j hj
        rw [List.all_eq_true] at hr
        have hlt : j.val < (residuals cfg code (fileValues rs3.syn (codePar code)) rs3.cor).length := by
          rw [residuals_length]; exact hj
        have := hr _ (List.getElem_mem hlt)
        rw [residuals_getElem cfg code rs3.syn rs3.cor j.val hj, hsynV j.val hj] at this
        simpa using this
    · rw [rsVfy_rejects cfg code ho hr]; exact fail

/-- RSCORRECT with a prepared erasure list of at most 2t positions. -/
theorem rsCorrect_corrected (cfg : Params) (fe : Bool) (code : Code) {rs : RsFile} (hle : rs.nera ≤ codePar code) :
    Corrected cfg code rs (rsCorrect cfg fe code rs) := by
  rw [rsCorrect, rsSyn_eq]
  simp only
  split
  · next hst =>
    have hcw := (synStatus_noErrors cfg code rs.vec).1 hst
    constructor <;> simp only
    · intros; trivial
    · intro j hj
      rw [Fin.getElem_fin, writeFile_getElem, dif_neg (by simp; omega)]; rfl
    · intros; trivial
    · intros; trivial
    · exact id
    · exact iff_of_true hst hcw
    · intros; trivial
    · intro h; rw [hst] at h; cases h
  · next hst =>
    have hcw : ¬ isCodeword cfg code (fun p => rs.vec[p]) := fun h => hst ((synStatus_noErrors cfg code rs.vec).2 h)
    have hsolve := rsSolve_solves cfg fe code (rs := { rs with
      code := code
      syn := writeFile rs.syn (syndromes cfg code (fileValues rs.vec (codeLen code)))
      status := synStatus (syndromes cfg code (fileValues rs.vec (codeLen code))) }) hle
    rw [hsolve]
    split
    · rw [rsEval_failed cfg code rfl]
      exact rsVfy_corrected cfg code hcw ⟨rfl, rfl, rfl, rfl, rfl, rfl, rfl⟩ (fun _ _ => rfl) (fun _ _ => rfl) id
        (fun h => by cases h)
    · next l w _ =>
      rw [rsEval_solved cfg code rfl]
      have hsig : ∀ (b : List Byte) (j : Fin 7), codePar code < j.val →
          (writeFile rs.sig (polyPad (codePar code + 1) b))[j] = rs.sig[j] := by
        intro b j hj
        rw [Fin.getElem_fin, writeFile_getElem, dif_neg (by simp; omega)]; rfl
      have homg : ∀ (b : List Byte) (j : Fin 6), codePar code ≤ j.val →
          (writeFile rs.omg (polyPad (codePar code) b))[j] = rs.omg[j] := by
        intro b j hj
        rw [Fin.getElem_fin, writeFile_getElem, dif_neg (by simp; omega)]; rfl
      have hsort := rootSearch_pairwise (cfg := cfg) (code := code)
        (sig := fileValues (writeFile rs.sig (polyPad (codePar code + 1)
          (polyMul cfg.primPoly (erasureLocator cfg code rs.era) l))) (codePar code + 1))
        (omg := fileValues (writeFile rs.omg (polyPad (codePar code) w)) (codePar code))
        (codePositions code) [] (codePositions_pairwise code) (by simp) (by simp)
      have hmem := fun x => rootSearch_mem (cfg := cfg) (code := code)
        (sig := fileValues (writeFile rs.sig (polyPad (codePar code + 1)
          (polyMul cfg.primPoly (erasureLocator cfg code rs.era) l))) (codePar code + 1))
        (omg := fileValues (writeFile rs.omg (polyPad (codePar code) w)) (codePar code))
        (codePositions code) [] (x := x)
      simp only
      split
      · exact rsVfy_corrected cfg code hcw ⟨rfl, rfl, rfl, rfl, rfl, rfl, rfl⟩ (hsig _) (homg _) (fun _ => hsort)
          (fun h => by cases h)
      · split
        · refine rsVfy_corrected cfg code hcw ⟨rfl, rfl, rfl, rfl, rfl, rfl, rfl⟩ (hsig _) (homg _) (fun _ => hsort)
            (fun _ => ⟨rfl, hsort, ?_⟩)
          intro x hx
          rcases hmem x hx with h | h
          · simp at h
          · exact mem_codePositions.1 h
        · exact rsVfy_corrected cfg code hcw ⟨rfl, rfl, rfl, rfl, rfl, rfl, rfl⟩ (hsig _) (homg _) (fun _ => hsort)
            (fun h => by cases h)

end Sys2Proof.Machine
end

