-- ==== Sys2Proof/Laws/Shells.lean ====
section
/-! SUPPORT. What a codec shell does to the working registers and to the cells of its vector, said once (42_codec_shells.md
R180 to R198). -/

namespace Sys2Proof.Machine

open Sys2Proof

/-! ### Filling (R180) -/

/-- The registers `rs1` are `rs` with a vector filled in from `cells`. -/
structure Filled (code : Code) (cells : List Flagged) (rs rs1 : RsFile) : Prop where
  code_eq : rs1.code = code
  vec : ∀ p : Fin 46, p.val < codeLen code → rs1.vec[p] = (cells.getD p.val blankCell).v
  vecFrame : ∀ p : Fin 46, codeLen code ≤ p.val → rs1.vec[p] = rs.vec[p]
  valid : rs1.valid = writeFile rs.valid (cells.map (·.ok))
  syn : rs1.syn = rs.syn
  sig : rs1.sig = rs.sig
  omg : rs1.omg = rs.omg
  cor : rs1.cor = rs.cor
  draws : rs1.draws = rs.draws
  eraSame : (rs1.era = rs.era ∧ rs1.nera = rs.nera) ∨
    (rs1.nera = rs1.era.length ∧ rs1.era.Pairwise (· < ·))

theorem filled_fill (code : Code) (cells : List Flagged) (rs : RsFile) (h : cells.length = codeLen code) :
    Filled code cells rs (fillVector code cells rs) := by
  constructor <;> simp only [fillVector] <;> try rfl
  · intro p hp
    rw [Fin.getElem_fin, writeFile_getElem, dif_pos (by simpa [h] using hp)]
    simp [h, hp]
  · intro p hp
    rw [Fin.getElem_fin, writeFile_getElem, dif_neg (by simpa [h] using hp)]
    rfl
  · exact .inl ⟨trivial, trivial⟩

theorem filled_era {code : Code} {cells : List Flagged} {rs rs1 : RsFile} (h : Filled code cells rs rs1)
    (era : List (Fin 46)) (hs : era.Pairwise (· < ·)) : Filled code cells rs (setErasures era rs1) := by
  obtain ⟨h1, h2, h3, h4, h5, h6, h7, h8, h9, -⟩ := h
  exact ⟨h1, h2, h3, h4, h5, h6, h7, h8, h9, .inr ⟨rfl, hs⟩⟩

/-- The erased positions are in ascending order. -/
theorem erasures_pairwise (cells : List Flagged) : (erasures cells).Pairwise (· < ·) := by
  unfold erasures
  rw [List.pairwise_filterMap]
  apply List.Pairwise.imp (R := fun a b => a.1 < b.1)
  · intro a b hab x hx y hy
    split at hx <;> split at hy <;> simp_all
  · apply List.Pairwise.of_map (f := Prod.fst) (S := (· < ·)) (fun _ _ h => h)
    rw [List.zip_eq_zip_take_min, List.map_fst_zip (by simp)]
    exact (List.pairwise_lt_finRange 46).sublist (List.take_sublist _ _)

/-- There are as many erasures as bad flags. -/
theorem erasures_length (cells : List Flagged) (h : cells.length ≤ 46) : (erasures cells).length = badCount cells := by
  unfold erasures badCount
  have key : ∀ (ps : List (Fin 46)) (cs : List Flagged), cs.length ≤ ps.length →
      ((ps.zip cs).filterMap fun x => if x.2.ok then none else some x.1).length = cs.countP (!·.ok) := by
    intro ps cs
    induction cs generalizing ps with
    | nil => simp
    | cons c cs ih =>
      intro hl
      cases ps with
      | nil => simp at hl
      | cons p ps =>
        have := ih ps (by simpa using hl)
        cases hc : c.ok <;> simp [hc, this]
  exact key _ _ (by simpa using h)

/-! ### Correcting a filled vector -/

/-- What a shell has done to the working registers before the validity rule: `lim` is the largest count of bad flags that
is not UNCORRECTABLE at once. -/
structure ShellDone (cfg : Params) (code : Code) (lim : Nat) (cells : List Flagged) (rs rs' : RsFile) : Prop where
  code_eq : rs'.code = code
  draws : rs'.draws = rs.draws
  vecFrame : ∀ p : Fin 46, codeLen code ≤ p.val → rs'.vec[p] = rs.vec[p]
  valid : rs'.valid = writeFile rs.valid (cells.map (·.ok))
  synFrame : ∀ j : Fin 6, codePar code ≤ j.val → rs'.syn[j] = rs.syn[j]
  sigFrame : ∀ j : Fin 7, codePar code < j.val → rs'.sig[j] = rs.sig[j]
  omgFrame : ∀ j : Fin 6, codePar code ≤ j.val → rs'.omg[j] = rs.omg[j]
  eraSame : (rs'.era = rs.era ∧ rs'.nera = rs.nera) ∨
    (rs'.nera = rs'.era.length ∧ rs'.era.Pairwise (· < ·))
  corSorted : (rs.cor.map (·.1)).Pairwise (· < ·) → (rs'.cor.map (·.1)).Pairwise (· < ·)
  overLimit : lim < badCount cells → rs'.status = .uncorrectable
  clean : badCount cells ≤ lim →
    (rs'.status = .noErrors ↔ isCodeword cfg code (fun p => (cells.getD p.val blankCell).v))
  keep : rs'.status ≠ .corrected →
    ∀ p : Fin 46, p.val < codeLen code → rs'.vec[p] = (cells.getD p.val blankCell).v
  fixed : rs'.status = .corrected →
    rs'.ncor = rs'.cor.length ∧ (rs'.cor.map (·.1)).Pairwise (· < ·) ∧ (∀ x ∈ rs'.cor, x.1.val < codeLen code) ∧
    (∀ j : Fin 6, j.val < codePar code →
      paritySum cfg code (fun p => (cells.getD p.val blankCell).v) j.val ^^^ xorSum (rs'.cor.map fun pe =>
        gfMul cfg.primPoly pe.2 (gfPow cfg.primPoly (locOf cfg code pe.1 * (cfg.fcr + (j.val : Int))))) = 0) ∧
    (∀ p : Fin 46, p.val < codeLen code →
      rs'.vec[p] = (cells.getD p.val blankCell).v ^^^ xorSum ((rs'.cor.filter (·.1 = p)).map (·.2)))

/-- A parity sum reads the vector at the positions of the code only. -/
theorem paritySum_congr {cfg : Params} {code : Code} {v w : Fin 46 → Byte}
    (h : ∀ p : Fin 46, p.val < codeLen code → v p = w p) (j : Nat) : paritySum cfg code v j = paritySum cfg code w j := by
  unfold paritySum
  congr 1
  apply List.map_congr_left
  intro p hp
  rw [h p (mem_codePositions.1 hp)]

theorem isCodeword_congr {cfg : Params} {code : Code} {v w : Fin 46 → Byte}
    (h : ∀ p : Fin 46, p.val < codeLen code → v p = w p) : isCodeword cfg code v ↔ isCodeword cfg code w := by
  unfold isCodeword
  simp only [paritySum_congr h]

theorem shellDone_giveUp {cfg : Params} {code : Code} {lim : Nat} {cells : List Flagged} {rs rs1 : RsFile}
    (h : Filled code cells rs rs1) (hb : lim < badCount cells) : ShellDone cfg code lim cells rs (giveUp rs1) := by
  obtain ⟨h1, h2, h3, h4, h5, h6, h7, h8, h9, h10⟩ := h
  constructor <;> simp only [giveUp]
  · exact h1
  · exact h9
  · exact h3
  · exact h4
  · intro j _; show rs1.syn[j] = _; rw [h5]
  · intro j _; show rs1.sig[j] = _; rw [h6]
  · intro j _; show rs1.omg[j] = _; rw [h7]
  · exact h10
  · rw [h8]; exact id
  · intros; trivial
  · intro h'; omega
  · intro _ p hp; rw [h2 p hp]
  · intro h'; cases h'

theorem shellDone_correct {cfg : Params} (fe : Bool) {code : Code} {lim : Nat} {cells : List Flagged} {rs rs1 : RsFile}
    (h : Filled code cells rs rs1) (hb : badCount cells ≤ lim) (hle : rs1.nera ≤ codePar code) :
    ShellDone cfg code lim cells rs (rsCorrect cfg fe code rs1) := by
  obtain ⟨h1, h2, h3, h4, h5, h6, h7, h8, h9, h10⟩ := h
  have hc := rsCorrect_corrected cfg fe code (rs := rs1) hle
  constructor
  · exact hc.code_eq
  · rw [hc.draws, h9]
  · intro p hp; rw [hc.vecFrame p hp, h3 p hp]
  · rw [hc.valid, h4]
  · intro j hj; rw [hc.synFrame j hj, h5]
  · intro j hj; rw [hc.sigFrame j hj, h6]
  · intro j hj; rw [hc.omgFrame j hj, h7]
  · rw [hc.era, hc.nera]; exact h10
  · intro hs; exact hc.corSorted (by rw [h8]; exact hs)
  · intro h'; omega
  · intro _; rw [hc.clean, isCodeword_congr h2]
  · intro hs p hp; rw [hc.keep hs, h2 p hp]
  · intro hs
    obtain ⟨e2, e3, e4, e5, e6⟩ := hc.fixed hs
    refine ⟨e2, e3, e4, ?_, ?_⟩
    · intro j hj; rw [← e5 j hj, paritySum_congr h2]
    · intro p hp; rw [e6 p, h2 p hp]

/-! ### The three shells -/

/-- C1 on 32 cells (R183, R184). -/
theorem c1Vector_eq (cfg : Params) {cells : List Flagged} (rs : RsFile) (h : cells.length = 32) :
    ∃ rs1, c1Vector cfg cells rs = setValid (List.replicate 32 (c1Valid rs1.status rs1.ncor)) rs1 ∧
      ShellDone cfg .c1 4 cells rs rs1 := by
  have hf := filled_fill .c1 cells rs h
  unfold c1Vector
  by_cases hb : 4 < badCount cells
  · simp only [if_pos hb]
    exact ⟨_, rfl, shellDone_giveUp hf hb⟩
  · simp only [if_neg hb]
    exact ⟨_, rfl, shellDone_correct true (filled_era hf [] (by simp)) (by omega) (by simp [setErasures])⟩

/-- C2 on 32 cells (R186, R187). -/
theorem c2Vector_eq (cfg : Params) {cells : List Flagged} (rs : RsFile) (h : cells.length = 32) :
    ∃ rs1, c2Vector cfg cells rs = setValid (List.replicate 32 (c2Valid rs1.status)) rs1 ∧
      ShellDone cfg .c2 6 cells rs rs1 := by
  have hf := filled_era (filled_fill .c2 cells rs h) _ (erasures_pairwise cells)
  have hl := erasures_length cells (by omega)
  unfold c2Vector
  by_cases hb : 6 < (erasures cells).length
  · simp only [if_pos hb]
    exact ⟨_, rfl, shellDone_giveUp hf (by omega)⟩
  · simp only [if_neg hb]
    exact ⟨_, rfl, shellDone_correct false hf (by omega) (by simp only [setErasures, codePar]; omega)⟩

/-- C3 on 46 cells (R197, R198). -/
theorem c3Vector_eq (cfg : Params) {cells : List Flagged} (rs : RsFile) (h : cells.length = 46) :
    ∃ rs1, c3Vector cfg cells rs = setValid (cells.map fun c => c3Valid rs1.status c.ok) rs1 ∧
      ShellDone cfg .c3 2 cells rs rs1 := by
  have hf := filled_era (filled_fill .c3 cells rs h) _ (erasures_pairwise cells)
  have hl := erasures_length cells (by omega)
  unfold c3Vector
  by_cases hb : 2 < (erasures cells).length
  · simp only [if_pos hb]
    exact ⟨_, rfl, shellDone_giveUp hf (by omega)⟩
  · simp only [if_neg hb]
    exact ⟨_, rfl, shellDone_correct false hf (by omega) (by simp only [setErasures, codePar]; omega)⟩

/-! ### What is written back -/

/-- The cells written back from a vector, by position. -/
theorem vectorCells_getElem? (n : Nat) (rs : RsFile) (i : Nat) (h : n ≤ 46) :
    (vectorCells n rs)[i]? =
      if hi : i < n then some ⟨rs.vec[i]'(by omega), rs.valid[i]'(by omega)⟩ else none := by
  unfold vectorCells
  rw [List.getElem?_map, List.getElem?_take]
  split
  · next hi =>
    rw [List.getElem?_eq_getElem (by simp; omega)]
    simp
  · rfl

theorem vectorCells_length (n : Nat) (rs : RsFile) (h : n ≤ 46) : (vectorCells n rs).length = n := by
  simp [vectorCells, h]

@[simp] theorem setValid_vec (f : List Bool) (rs : RsFile) : (setValid f rs).vec = rs.vec := by
  simp only [setValid]
@[simp] theorem setValid_status (f : List Bool) (rs : RsFile) : (setValid f rs).status = rs.status := by
  simp only [setValid]
@[simp] theorem setValid_ncor (f : List Bool) (rs : RsFile) : (setValid f rs).ncor = rs.ncor := by
  simp only [setValid]
@[simp] theorem setValid_valid (f : List Bool) (rs : RsFile) : (setValid f rs).valid = writeFile rs.valid f := by
  simp only [setValid]
@[simp] theorem setValid_draws (f : List Bool) (rs : RsFile) : (setValid f rs).draws = rs.draws := by
  simp only [setValid]
@[simp] theorem setValid_code (f : List Bool) (rs : RsFile) : (setValid f rs).code = rs.code := by
  simp only [setValid]
@[simp] theorem setValid_syn (f : List Bool) (rs : RsFile) : (setValid f rs).syn = rs.syn := by
  simp only [setValid]
@[simp] theorem setValid_sig (f : List Bool) (rs : RsFile) : (setValid f rs).sig = rs.sig := by
  simp only [setValid]
@[simp] theorem setValid_omg (f : List Bool) (rs : RsFile) : (setValid f rs).omg = rs.omg := by
  simp only [setValid]

/-! ### A shell's outcome depends on its cells and the parameters alone (R180) -/

/-- Two register files show the same outcome of a vector: its status, the first bytes of VEC, and NCOR where it counts. -/
structure SameOutcome (code : Code) (a b : RsFile) : Prop where
  status : a.status = b.status
  vec : fileValues a.vec (codeLen code) = fileValues b.vec (codeLen code)
  ncor : a.status = .corrected → a.ncor = b.ncor

/-- Two files agree on their first `n` registers when the lists of values do. -/
theorem fileValues_eq_iff {α : Type} {m n : Nat} {v w : Vector α m} :
    fileValues v n = fileValues w n ↔ ∀ i : Fin m, i.val < n → v[i] = w[i] := by
  constructor
  · intro h i hi
    have := congrArg (·[i.val]?) h
    simpa [fileValues_getElem?, hi] using this
  · intro h
    apply List.ext_getElem?
    intro i
    rw [fileValues_getElem?, fileValues_getElem?]
    split
    · next hi =>
      by_cases him : i < m
      · simpa [him] using h ⟨i, him⟩ hi
      · simp [him]
    · rfl

theorem rsVfy_same (cfg : Params) (code : Code) {a b : RsFile}
    (hv : fileValues a.vec (codeLen code) = fileValues b.vec (codeLen code))
    (hs : fileValues a.syn (codePar code) = fileValues b.syn (codePar code)) (ho : a.solveOk = b.solveOk)
    (hc : a.solveOk = true → a.cor = b.cor ∧ a.ncor = b.ncor) :
    SameOutcome code (rsVfy cfg code a) (rsVfy cfg code b) := by
  cases hao : a.solveOk
  · rw [rsVfy_failed cfg code hao, rsVfy_failed cfg code (ho ▸ hao)]
    exact ⟨rfl, hv, fun h => by cases h⟩
  · obtain ⟨hc1, hc2⟩ := hc hao
    by_cases hr : (residuals cfg code (fileValues a.syn (codePar code)) a.cor).all (· = 0) = true
    · rw [rsVfy_applies cfg code hao hr, rsVfy_applies cfg code (ho ▸ hao) (hs ▸ hc1 ▸ hr)]
      refine ⟨rfl, ?_, fun _ => hc2⟩
      rw [fileValues_eq_iff] at hv ⊢
      intro i hi
      simp only [applyCor_getElem, hc1, hv i hi]
    · rw [rsVfy_rejects cfg code hao hr, rsVfy_rejects cfg code (ho ▸ hao) (hs ▸ hc1 ▸ hr)]
      exact ⟨rfl, hv, fun h => by cases h⟩

/-- RSCORRECT reads the vector and the erasures, and nothing else of the working registers. -/
theorem rsCorrect_same (cfg : Params) (fe : Bool) (code : Code) {a b : RsFile}
    (hv : fileValues a.vec (codeLen code) = fileValues b.vec (codeLen code)) (he : a.era = b.era) (hn : a.nera = b.nera)
    (hle : a.nera ≤ codePar code) : SameOutcome code (rsCorrect cfg fe code a) (rsCorrect cfg fe code b) := by
  have wr : ∀ {m : Nat} (v w : Vector Byte m) (xs : List Byte) (n : Nat), xs.length = n → n ≤ m →
      fileValues (writeFile v xs) n = fileValues (writeFile w xs) n := by
    intro m v w xs n h1 h2
    subst h1
    rw [fileValues_writeFile v xs h2, fileValues_writeFile w xs h2]
  have hsyn := wr a.syn b.syn (syndromes cfg code (fileValues b.vec (codeLen code))) (codePar code) (by simp)
    (codePar_le code)
  rw [rsCorrect, rsCorrect, rsSyn_eq, rsSyn_eq, hv]
  simp only
  split
  · exact ⟨rfl, hv, fun _ => by simp_all⟩
  · have h1 := rsSolve_solves cfg fe code (rs := { a with
      code := code
      syn := writeFile a.syn (syndromes cfg code (fileValues b.vec (codeLen code)))
      status := synStatus (syndromes cfg code (fileValues b.vec (codeLen code))) }) hle
    have h2 := rsSolve_solves cfg fe code (rs := { b with
      code := code
      syn := writeFile b.syn (syndromes cfg code (fileValues b.vec (codeLen code)))
      status := synStatus (syndromes cfg code (fileValues b.vec (codeLen code))) }) (hn ▸ hle)
    rw [h1, h2]
    simp only [hsyn, he, hn]
    cases keySolve cfg code fe b.nera b.era (fileValues (writeFile b.syn
      (syndromes cfg code (fileValues b.vec (codeLen code)))) (codePar code)) with
    | none =>
      simp only
      rw [rsEval_failed cfg code rfl, rsEval_failed cfg code rfl]
      exact rsVfy_same cfg code hv hsyn rfl fun h => by cases h
    | some lw =>
      obtain ⟨l, w⟩ := lw
      simp only
      rw [rsEval_solved cfg code rfl, rsEval_solved cfg code rfl]
      have hsig := wr a.sig b.sig (polyPad (codePar code + 1) (polyMul cfg.primPoly (erasureLocator cfg code b.era) l))
        (codePar code + 1) (by simp) (by have := codePar_le code; omega)
      have homg := wr a.omg b.omg (polyPad (codePar code) w) (codePar code) (by simp) (codePar_le code)
      simp only [hsig, homg]
      split
      · exact rsVfy_same cfg code hv hsyn rfl fun h => by cases h
      · split
        · exact rsVfy_same cfg code hv hsyn rfl fun _ => ⟨rfl, rfl⟩
        · exact rsVfy_same cfg code hv hsyn rfl fun h => by cases h

/-- The bytes and flags written back are those of VEC and VAL. -/
theorem vectorCells_eq (n : Nat) (rs : RsFile) (h : n ≤ 46) :
    vectorCells n rs = ((fileValues rs.vec n).zip (fileValues rs.valid n)).map fun x => ⟨x.1, x.2⟩ := by
  apply List.ext_getElem?
  intro i
  rw [vectorCells_getElem? n rs i h]
  split
  · next hi =>
    rw [List.getElem?_map, List.getElem?_eq_getElem (by simp [fileValues_length _ h, hi])]
    simp [fileValues]
  · next hi => rw [List.getElem?_eq_none (by simp [fileValues_length _ h]; omega)]

theorem vectorCells_same {code : Code} {a b : RsFile} {n : Nat} (hn : codeLen code = n) (h : SameOutcome code a b)
    (f : List Bool) (hf : f.length = n) : vectorCells n (setValid f a) = vectorCells n (setValid f b) := by
  subst hn
  rw [vectorCells_eq _ _ (codeLen_le code), vectorCells_eq _ _ (codeLen_le code)]
  simp only [setValid, ← hf]
  rw [fileValues_writeFile _ f (by rw [hf]; exact codeLen_le code),
    fileValues_writeFile _ f (by rw [hf]; exact codeLen_le code), hf, h.vec]

/-- Two fills with the same cells agree on the vector. -/
theorem fill_same (code : Code) {cells : List Flagged} (rs rs' : RsFile) (h : cells.length = codeLen code) :
    fileValues (fillVector code cells rs).vec (codeLen code) = fileValues (fillVector code cells rs').vec (codeLen code) := by
  rw [fileValues_eq_iff]
  intro i hi
  rw [(filled_fill code cells rs h).vec i hi, (filled_fill code cells rs' h).vec i hi]

theorem giveUp_same {code : Code} {a b : RsFile}
    (hv : fileValues a.vec (codeLen code) = fileValues b.vec (codeLen code)) : SameOutcome code (giveUp a) (giveUp b) :=
  ⟨rfl, hv, fun h => by cases h⟩

@[simp] theorem setErasures_vec (era : List (Fin 46)) (rs : RsFile) : (setErasures era rs).vec = rs.vec := rfl
@[simp] theorem setErasures_era (era : List (Fin 46)) (rs : RsFile) : (setErasures era rs).era = era := rfl
@[simp] theorem setErasures_nera (era : List (Fin 46)) (rs : RsFile) : (setErasures era rs).nera = era.length := rfl

/-- What C1 makes of its 32 cells does not depend on the working registers before it. -/
theorem c1Vector_same (cfg : Params) {cells : List Flagged} (rs rs' : RsFile) (h : cells.length = 32) :
    (c1Vector cfg cells rs).status = (c1Vector cfg cells rs').status ∧
      vectorCells 32 (c1Vector cfg cells rs) = vectorCells 32 (c1Vector cfg cells rs') := by
  have key : ∀ a b : RsFile, SameOutcome .c1 a b →
      (setValid (List.replicate 32 (c1Valid a.status a.ncor)) a).status =
        (setValid (List.replicate 32 (c1Valid b.status b.ncor)) b).status ∧
      vectorCells 32 (setValid (List.replicate 32 (c1Valid a.status a.ncor)) a) =
        vectorCells 32 (setValid (List.replicate 32 (c1Valid b.status b.ncor)) b) := by
    intro a b hab
    have hval : c1Valid a.status a.ncor = c1Valid b.status b.ncor := by
      have hn := hab.ncor
      rw [← hab.status]
      cases hst : a.status
      · rfl
      · rw [hn hst]
      · rfl
    rw [setValid_status, setValid_status, hval]
    exact ⟨hab.status, vectorCells_same rfl hab _ (List.length_replicate ..)⟩
  have hv := fill_same .c1 rs rs' h
  unfold c1Vector
  by_cases hb : 4 < badCount cells
  · simp only [if_pos hb]
    exact key _ _ (giveUp_same hv)
  · simp only [if_neg hb]
    exact key _ _ (rsCorrect_same cfg true .c1 (by simpa using hv) (by simp) (by simp) (by simp))

/-- What C2 makes of its 32 cells does not depend on the working registers before it. -/
theorem c2Vector_same (cfg : Params) {cells : List Flagged} (rs rs' : RsFile) (h : cells.length = 32) :
    (c2Vector cfg cells rs).status = (c2Vector cfg cells rs').status ∧
      vectorCells 32 (c2Vector cfg cells rs) = vectorCells 32 (c2Vector cfg cells rs') := by
  have key : ∀ a b : RsFile, SameOutcome .c2 a b →
      (setValid (List.replicate 32 (c2Valid a.status)) a).status = (setValid (List.replicate 32 (c2Valid b.status)) b).status ∧
      vectorCells 32 (setValid (List.replicate 32 (c2Valid a.status)) a) =
        vectorCells 32 (setValid (List.replicate 32 (c2Valid b.status)) b) :=
    fun a b hab => by
      rw [setValid_status, setValid_status, hab.status]
      exact ⟨rfl, vectorCells_same rfl hab _ (List.length_replicate ..)⟩
  have hv := fill_same .c2 rs rs' h
  unfold c2Vector
  by_cases hb : 6 < (erasures cells).length
  · simp only [if_pos hb]
    exact key _ _ (giveUp_same (by simpa using hv))
  · simp only [if_neg hb]
    exact key _ _ (rsCorrect_same cfg false .c2 (by simpa using hv) (by simp) (by simp) (by simp only [setErasures_nera, codePar]; omega))

/-- What C3 makes of its 46 cells does not depend on the working registers before it. -/
theorem c3Vector_same (cfg : Params) {cells : List Flagged} (rs rs' : RsFile) (h : cells.length = 46) :
    (c3Vector cfg cells rs).status = (c3Vector cfg cells rs').status ∧
      vectorCells 46 (c3Vector cfg cells rs) = vectorCells 46 (c3Vector cfg cells rs') := by
  have key : ∀ a b : RsFile, SameOutcome .c3 a b →
      (setValid (cells.map fun c => c3Valid a.status c.ok) a).status =
        (setValid (cells.map fun c => c3Valid b.status c.ok) b).status ∧
      vectorCells 46 (setValid (cells.map fun c => c3Valid a.status c.ok) a) =
        vectorCells 46 (setValid (cells.map fun c => c3Valid b.status c.ok) b) :=
    fun a b hab => by
      rw [setValid_status, setValid_status, hab.status]
      exact ⟨rfl, vectorCells_same rfl hab _ (by rw [List.length_map, h]; rfl)⟩
  have hv := fill_same .c3 rs rs' h
  unfold c3Vector
  by_cases hb : 2 < (erasures cells).length
  · simp only [if_pos hb]
    exact key _ _ (giveUp_same (by simpa using hv))
  · simp only [if_neg hb]
    exact key _ _ (rsCorrect_same cfg false .c3 (by simpa using hv) (by simp) (by simp) (by simp only [setErasures_nera, codePar]; omega))

end Sys2Proof.Machine
end

