-- ==== Sys2Proof/Laws/Passes.lean ====
section
/-! SUPPORT. The shells on the open Track: what one vector writes back, that vectors do not meet, and the passes as folds over
vectors (42_codec_shells.md R182 to R202). -/

namespace Sys2Proof.Machine

open Sys2Proof

/-! ### Geometry (R182, R185) -/

theorem c1Addr_lt {pr il p : Nat} (h1 : pr < 72) (h2 : il < 2) (h3 : p < 32) : c1Addr pr il p < 4608 := by
  unfold c1Addr; split <;> omega

/-- A C1 address names its vector and position. -/
theorem c1Addr_inj {pr il p pr' il' p' : Nat} (h2 : il < 2) (h3 : p < 32) (h2' : il' < 2) (h3' : p' < 32)
    (h : c1Addr pr il p = c1Addr pr' il' p') : pr = pr' ∧ il = il' ∧ p = p' := by
  unfold c1Addr at h
  split at h <;> split at h <;> omega

theorem c2Addr_lt {g sl p : Nat} (h1 : g < 4) (h2 : sl < 32) (h3 : p < 32) : c2Addr g sl p < 4608 := by
  unfold c2Addr; omega

/-- A C2 address names its vector and position. -/
theorem c2Addr_inj {g sl p g' sl' p' : Nat} (h1 : g < 4) (h2 : sl < 32) (h1' : g' < 4) (h2' : sl' < 32)
    (h : c2Addr g sl p = c2Addr g' sl' p') : g = g' ∧ sl = sl' ∧ p = p' := by
  unfold c2Addr at h; omega

theorem nodup_map_range {f : Nat → Nat} {n : Nat} (h : ∀ p < n, ∀ q < n, f p = f q → p = q) :
    ((List.range n).map f).Nodup := by
  rw [List.nodup_map_iff_inj_on List.nodup_range]
  intro p hp q hq
  exact h p (List.mem_range.1 hp) q (List.mem_range.1 hq)

theorem c1Addrs_nodup {pr il : Nat} (h : il < 2) : (c1Addrs pr il).Nodup :=
  nodup_map_range fun _ hp _ hq he => (c1Addr_inj h hp h hq he).2.2

theorem c2Addrs_nodup {g sl : Nat} (h1 : g < 4) (h2 : sl < 32) : (c2Addrs g sl).Nodup :=
  nodup_map_range fun _ _ _ _ he => (c2Addr_inj h1 h2 h1 h2 he).2.2

@[simp] theorem c1Addrs_length (pr il : Nat) : (c1Addrs pr il).length = 32 := by simp [c1Addrs]

@[simp] theorem c2Addrs_length (g sl : Nat) : (c2Addrs g sl).length = 32 := by simp [c2Addrs]

theorem mem_c1Addrs {pr il a : Nat} : a ∈ c1Addrs pr il ↔ ∃ p < 32, c1Addr pr il p = a := by simp [c1Addrs]

theorem mem_c2Addrs {g sl a : Nat} : a ∈ c2Addrs g sl ↔ ∃ p < 32, c2Addr g sl p = a := by simp [c2Addrs]

/-! ### Writing a vector back (R180) -/

/-- The cells of a Track after a vector of 32 is written back to a list of 32 different addresses. -/
theorem writeBack_spec {m : Store Flagged} {addrs : List Nat} (hm : swf blankCell 4608 m = true)
    (hl : addrs.length = 32) (hn : addrs.Nodup) (hb : ∀ a ∈ addrs, a < 4608) (rs : RsFile) :
    let m' := swriteAll blankCell m (addrs.zip (vectorCells 32 rs))
    swf blankCell 4608 m' = true ∧
    (∀ a, a ∉ addrs → sread blankCell m' a = sread blankCell m a) ∧
    ∀ p (hp : p < 32), sread blankCell m' (addrs[p]'(by omega)) = (vectorCells 32 rs).getD p blankCell := by
  have hmap : (addrs.zip (vectorCells 32 rs)).map (·.1) = addrs := by
    rw [List.map_fst_zip]; rw [vectorCells_length 32 rs (by decide)]; omega
  have hk : ∀ e ∈ addrs.zip (vectorCells 32 rs), e.1 < 4608 := by
    intro e he
    exact hb e.1 (hmap ▸ List.mem_map.2 ⟨e, he, rfl⟩)
  refine ⟨swf_swriteAll _ hm hk, ?_, ?_⟩
  · intro a ha
    apply sread_swriteAll_ne
    rintro e he rfl
    exact ha (hmap ▸ List.mem_map.2 ⟨e, he, rfl⟩)
  · intro p hp
    have hc := vectorCells_getElem? 32 rs p (by decide)
    rw [dif_pos hp, List.getElem?_eq_some_iff] at hc
    obtain ⟨h1, h2⟩ := hc
    have hmem : (addrs[p]'(by omega), (vectorCells 32 rs)[p]) ∈ addrs.zip (vectorCells 32 rs) := by
      rw [List.mem_iff_getElem]
      refine ⟨p, by simp [hl, vectorCells_length 32 rs (by decide), hp], by simp⟩
    have := sread_swriteAll_mem _ hm hk (hmap.symm ▸ hn) hmem
    simpa [h1] using this

/-- The flags written back after all 32 positions took one flag. -/
theorem vectorCells_replicate (f : Bool) (rs : RsFile) (p : Nat) (hp : p < 32) :
    ((vectorCells 32 (setValid (List.replicate 32 f) rs)).getD p blankCell).ok = f := by
  have h := vectorCells_getElem? 32 (setValid (List.replicate 32 f) rs) p (by decide)
  rw [dif_pos hp] at h
  rw [List.getD_eq_getElem?_getD, h]
  simp only [Option.getD_some, setValid_valid]
  rw [writeFile_getElem, dif_pos (by rw [List.length_replicate]; exact hp)]
  simp only [List.getElem_replicate]

/-- The cells read at a list of addresses, by position. -/
theorem readCells_getD (t : Track) (addrs : List Nat) (p : Nat) (h : p < addrs.length) :
    (readCells t addrs).getD p blankCell = sread blankCell t.cells addrs[p] := by
  simp [readCells, h]

@[simp] theorem readCells_length (t : Track) (addrs : List Nat) : (readCells t addrs).length = addrs.length := by
  simp [readCells]

theorem badCount_readCells (t : Track) (addrs : List Nat) :
    badCount (readCells t addrs) = addrs.countP fun a => !(sread blankCell t.cells a).ok := by
  unfold badCount readCells
  rw [List.countP_map]; rfl

/-! ### One vector -/

/-- C1DEC on an open Track. -/
theorem c1dec_eq {s : State} {tr : Track} (h : trackOpen s tr) (pr il : Nat) :
    c1dec pr il s =
      let rs := c1Vector s.cfg (readCells tr (c1Addrs pr il)) s.rs
      .ok ((s.setRs rs).setCur (some (tr.writeCells ((c1Addrs pr il).zip (vectorCells 32 rs))))) := by
  simp only [c1dec, openTrack_of_open h, ok_bind]
  rfl

/-- C2DEC on an open Track. -/
theorem c2dec_eq {s : State} {tr : Track} (h : trackOpen s tr) (g sl : Nat) :
    c2dec g sl s =
      let rs := c2Vector s.cfg (readCells tr (c2Addrs g sl)) s.rs
      .ok ((s.setRs rs).setCur (some (tr.writeCells ((c2Addrs g sl).zip (vectorCells 32 rs))))) := by
  simp only [c2dec, openTrack_of_open h, ok_bind]
  rfl

/-- What a whole shell leaves of the erasure and correction lists. -/
structure RsListsOk (rs : RsFile) : Prop where
  nera : rs.nera = rs.era.length
  era : rs.era.Pairwise (· < ·)
  cor : (rs.cor.map (·.1)).Pairwise (· < ·)

theorem RsListsOk.setValid {rs : RsFile} (h : RsListsOk rs) (f : List Bool) : RsListsOk (setValid f rs) := by
  obtain ⟨h1, h2, h3⟩ := h
  constructor <;> simpa only [Machine.setValid]

theorem ShellDone.lists {cfg : Params} {code : Code} {lim : Nat} {cells : List Flagged} {rs rs' : RsFile}
    (h : ShellDone cfg code lim cells rs rs') (hr : RsListsOk rs) : RsListsOk rs' := by
  refine ⟨?_, ?_, h.corSorted hr.cor⟩
  · rcases h.eraSame with ⟨h1, h2⟩ | ⟨h2, -⟩
    · rw [h1, h2]; exact hr.nera
    · exact h2
  · rcases h.eraSame with ⟨h1, -⟩ | ⟨-, h3⟩
    · rw [h1]; exact hr.era
    · exact h3

/-! ### The passes on the open Track (R200, R201) -/

/-- One step of a pass: shell `V` on the vector at `addrs x`, then `bump` adds to the two counters. -/
structure PassStep (V : Params → List Flagged → RsFile → RsFile) (addrs : Nat × Nat → List Nat)
    (bump : Nat → Nat → Track → Track) (f : State → Nat × Nat → Res) : Prop where
  step : ∀ (s : State) (tr : Track) (x : Nat × Nat), trackOpen s tr →
    f s x =
      let rs := V s.cfg (readCells tr (addrs x)) s.rs
      .ok ((s.setRs rs).setCur (some (bump (corrIncr rs.status) (uncIncr rs.status)
        (tr.writeCells ((addrs x).zip (vectorCells 32 rs))))))
  len : ∀ x, (addrs x).length = 32
  zero : ∀ t, bump 0 0 t = t
  isSealed : ∀ c u t, (bump c u t).isSealed = t.isSealed
  cells : ∀ c u t, (bump c u t).cells = t.cells
  add : ∀ c u c' u' m m' t, { bump c' u' (bump c u { t with cells := m }) with cells := m' } =
    { bump (c + c') (u + u') t with cells := m' }
  lists : ∀ cfg cells rs, cells.length = 32 → (RsListsOk rs → RsListsOk (V cfg cells rs)) ∧ (V cfg cells rs).draws = rs.draws
  same : ∀ cfg cells rs rs', cells.length = 32 → (V cfg cells rs).status = (V cfg cells rs').status ∧
    vectorCells 32 (V cfg cells rs) = vectorCells 32 (V cfg cells rs')

theorem swf_writeBack {m : Store Flagged} {addrs : List Nat} (hm : swf blankCell 4608 m = true)
    (hb : ∀ a ∈ addrs, a < 4608) (cs : List Flagged) :
    swf blankCell 4608 (swriteAll blankCell m (addrs.zip cs)) = true := by
  apply swf_swriteAll _ hm
  intro e he
  exact hb e.1 (List.of_mem_zip he).1

section
variable {V : Params → List Flagged → RsFile → RsFile} {addrs : Nat × Nat → List Nat}
  {bump : Nat → Nat → Track → Track} {f : State → Nat × Nat → Res}

/-- A pass over any list of vectors completes on an open Track; it changes the working registers, cells and counters. -/
theorem PassStep.completes (P : PassStep V addrs bump f) (sels : List (Nat × Nat)) {s : State} {tr : Track}
    (h : trackOpen s tr) :
    ∃ (rs : RsFile) (cells : Store Flagged) (c u : Nat),
      sels.foldlM f s = .ok ((s.setRs rs).setCur (some { bump c u tr with cells := cells })) ∧
      (RsListsOk s.rs → RsListsOk rs) ∧ rs.draws = s.rs.draws ∧
      ((∀ x ∈ sels, ∀ a ∈ addrs x, a < 4608) → swf blankCell 4608 tr.cells = true → swf blankCell 4608 cells = true) := by
  induction sels generalizing s tr with
  | nil =>
    refine ⟨s.rs, tr.cells, 0, 0, ?_, id, rfl, fun _ h => h⟩
    have : (s.setRs s.rs).setCur (some tr) = s := by
      have := h.1
      cases s; simp only [State.setRs, State.setCur] at *; rw [this]
    simp only [List.foldlM_nil, Pure.pure, Except.pure, P.zero]
    exact congrArg _ this.symm
  | cons x xs ih =>
    have hst := P.step s tr x h
    obtain ⟨r, hr⟩ : ∃ r, r = V s.cfg (readCells tr (addrs x)) s.rs := ⟨_, rfl⟩
    simp only [← hr] at hst
    obtain ⟨l1, l2⟩ := P.lists s.cfg (readCells tr (addrs x)) s.rs (by rw [readCells_length, P.len])
    rw [← hr] at l1 l2
    obtain ⟨tr1, htr1⟩ : ∃ t, t = bump (corrIncr r.status) (uncIncr r.status)
      (tr.writeCells ((addrs x).zip (vectorCells 32 r))) := ⟨_, rfl⟩
    rw [← htr1] at hst
    have hop : trackOpen ((s.setRs r).setCur (some tr1)) tr1 := ⟨rfl, by rw [htr1, P.isSealed]; exact h.2⟩
    obtain ⟨rs, cells, c, u, e1, e2, e3, e4⟩ := ih hop
    refine ⟨rs, cells, corrIncr r.status + c, uncIncr r.status + u, ?_, fun hl => e2 (l1 hl), e3.trans l2, ?_⟩
    · rw [List.foldlM_cons, hst, ok_bind, e1, htr1, Track.writeCells, P.add]
      rfl
    · intro hb hc
      apply e4 fun y hy => hb y (by simp [hy])
      rw [htr1, P.cells]
      exact swf_writeBack hc (hb x (by simp)) _

/-- A pass over vectors that do not meet: each ends as its shell alone leaves it, and the counters count the outcomes. -/
theorem PassStep.spec (P : PassStep V addrs bump f) (sels : List (Nat × Nat))
    (hn : ∀ x ∈ sels, (addrs x).Nodup) (hb : ∀ x ∈ sels, ∀ a ∈ addrs x, a < 4608)
    (hd : sels.Pairwise fun x y => ∀ a ∈ addrs y, a ∉ addrs x) {s : State} {tr : Track} (h : trackOpen s tr)
    (hc : swf blankCell 4608 tr.cells = true) :
    let out := fun x => V s.cfg (readCells tr (addrs x)) s.rs
    ∃ (rs : RsFile) (cells : Store Flagged),
      sels.foldlM f s = .ok ((s.setRs rs).setCur (some { bump
        (sels.countP fun x => decide ((out x).status = .corrected))
        (sels.countP fun x => decide ((out x).status = .uncorrectable)) tr with cells := cells })) ∧
      (∀ x ∈ sels, ∀ p (hp : p < 32),
        sread blankCell cells ((addrs x)[p]'(by rw [P.len]; exact hp)) = (vectorCells 32 (out x)).getD p blankCell) ∧
      (∀ a, (∀ x ∈ sels, a ∉ addrs x) → sread blankCell cells a = sread blankCell tr.cells a) := by
  induction sels generalizing s tr with
  | nil =>
    refine ⟨s.rs, tr.cells, ?_, by simp, fun _ _ => rfl⟩
    have : (s.setRs s.rs).setCur (some tr) = s := by
      have := h.1
      cases s; simp only [State.setRs, State.setCur] at *; rw [this]
    simp only [List.foldlM_nil, Pure.pure, Except.pure, List.countP_nil, P.zero]
    exact congrArg _ this.symm
  | cons x xs ih =>
    have hst := P.step s tr x h
    obtain ⟨r, hr⟩ : ∃ r, r = V s.cfg (readCells tr (addrs x)) s.rs := ⟨_, rfl⟩
    simp only [← hr] at hst
    obtain ⟨tr1, htr1⟩ : ∃ t, t = bump (corrIncr r.status) (uncIncr r.status)
      (tr.writeCells ((addrs x).zip (vectorCells 32 r))) := ⟨_, rfl⟩
    rw [← htr1] at hst
    have hop : trackOpen ((s.setRs r).setCur (some tr1)) tr1 := ⟨rfl, by rw [htr1, P.isSealed]; exact h.2⟩
    have htc : tr1.cells = swriteAll blankCell tr.cells ((addrs x).zip (vectorCells 32 r)) := by rw [htr1, P.cells]; rfl
    have hw := writeBack_spec hc (P.len x) (hn x (by simp)) (hb x (by simp)) r
    simp only [← htc] at hw
    obtain ⟨hw1, hw2, hw3⟩ := hw
    rw [List.pairwise_cons] at hd
    obtain ⟨rs, cells, e1, e2, e3⟩ := ih (fun y hy => hn y (by simp [hy])) (fun y hy => hb y (by simp [hy])) hd.2 hop hw1
    have hsame : ∀ y ∈ xs, readCells tr1 (addrs y) = readCells tr (addrs y) := by
      intro y hy
      unfold readCells
      exact List.map_congr_left fun a ha => hw2 a (hd.1 y hy a ha)
    have hout : ∀ y ∈ xs, (V ((s.setRs r).setCur (some tr1)).cfg (readCells tr1 (addrs y))
          ((s.setRs r).setCur (some tr1)).rs).status = (V s.cfg (readCells tr (addrs y)) s.rs).status ∧
        vectorCells 32 (V ((s.setRs r).setCur (some tr1)).cfg (readCells tr1 (addrs y))
          ((s.setRs r).setCur (some tr1)).rs) = vectorCells 32 (V s.cfg (readCells tr (addrs y)) s.rs) := by
      intro y hy
      rw [hsame y hy]
      exact P.same _ _ _ _ (by rw [readCells_length, P.len])
    have hcount : ∀ st : RsStatus, xs.countP (fun y => decide ((V ((s.setRs r).setCur (some tr1)).cfg
          (readCells tr1 (addrs y)) ((s.setRs r).setCur (some tr1)).rs).status = st)) =
        xs.countP fun y => decide ((V s.cfg (readCells tr (addrs y)) s.rs).status = st) := by
      intro st
      apply List.countP_congr
      intro y hy
      rw [(hout y hy).1]
    simp only [hcount] at e1
    refine ⟨rs, cells, ?_, ?_, ?_⟩
    · rw [List.foldlM_cons, hst, ok_bind, e1, htr1, Track.writeCells, P.add]
      have k1 : corrIncr r.status + xs.countP (fun y => decide ((V s.cfg (readCells tr (addrs y)) s.rs).status = .corrected))
          = (x :: xs).countP fun y => decide ((V s.cfg (readCells tr (addrs y)) s.rs).status = .corrected) := by
        rw [List.countP_cons, ← hr, Nat.add_comm]
        cases r.status <;> rfl
      have k2 : uncIncr r.status + xs.countP (fun y => decide ((V s.cfg (readCells tr (addrs y)) s.rs).status = .uncorrectable))
          = (x :: xs).countP fun y => decide ((V s.cfg (readCells tr (addrs y)) s.rs).status = .uncorrectable) := by
        rw [List.countP_cons, ← hr, Nat.add_comm]
        cases r.status <;> rfl
      rw [k1, k2]
      rfl
    · intro y hy p hp
      rcases List.mem_cons.1 hy with rfl | hy
      · rw [e3 _ fun z hz hm => hd.1 z hz _ hm (List.getElem_mem _), hw3 p hp, hr]
      · rw [e2 y hy p hp, (hout y hy).2]
    · intro a ha
      rw [e3 a fun y hy => ha y (by simp [hy])]
      exact hw2 a (ha x (by simp))
end

/-- C1PASS takes such steps. -/
theorem c1PassStep : PassStep c1Vector (fun x => c1Addrs x.1 x.2)
    (fun c u t => { t with c1Corr := t.c1Corr + c, c1Unc := t.c1Unc + u })
    (fun s sel => c1dec sel.1 sel.2 s >>= tallyC1) where
  step s tr x h := by
    simp only [c1dec_eq h, ok_bind, tallyC1]
    rw [openTrack_of_open (t := tr.writeCells _) ⟨rfl, h.2⟩, ok_bind]
    rfl
  len x := c1Addrs_length _ _
  zero _ := rfl
  isSealed _ _ _ := rfl
  cells _ _ _ := rfl
  add _ _ _ _ _ _ _ := by simp only [Nat.add_assoc]
  lists cfg cells rs h := by
    obtain ⟨rs1, e, hd⟩ := c1Vector_eq cfg rs h
    rw [e]
    exact ⟨fun hl => (hd.lists hl).setValid _, (setValid_draws _ _).trans hd.draws⟩
  same cfg cells rs rs' h := c1Vector_same cfg rs rs' h

/-- C2PASS takes such steps. -/
theorem c2PassStep : PassStep c2Vector (fun x => c2Addrs x.1 x.2)
    (fun c u t => { t with c2Corr := t.c2Corr + c, c2Unc := t.c2Unc + u })
    (fun s sel => c2dec sel.1 sel.2 s >>= tallyC2) where
  step s tr x h := by
    simp only [c2dec_eq h, ok_bind, tallyC2]
    rw [openTrack_of_open (t := tr.writeCells _) ⟨rfl, h.2⟩, ok_bind]
    rfl
  len x := c2Addrs_length _ _
  zero _ := rfl
  isSealed _ _ _ := rfl
  cells _ _ _ := rfl
  add _ _ _ _ _ _ _ := by simp only [Nat.add_assoc]
  lists cfg cells rs h := by
    obtain ⟨rs1, e, hd⟩ := c2Vector_eq cfg rs h
    rw [e]
    exact ⟨fun hl => (hd.lists hl).setValid _, (setValid_draws _ _).trans hd.draws⟩
  same cfg cells rs rs' h := c2Vector_same cfg rs rs' h

end Sys2Proof.Machine
end

