-- ==== Sys2Proof/Laws/Group.lean ====
section
/-! SUPPORT. The C3 shell on the active basic group: writing back through C3_CELL, one vector, the pass (42_codec_shells.md
R190 to R202). -/

namespace Sys2Proof.Machine

open Sys2Proof

/-! ### Writing back through cell references (R196) -/

theorem writeC3_ok {g : BasicGroup} (h : GroupOk g) (r : C3Ref) (c : Flagged) : GroupOk (writeC3 g r c) := by
  cases r with
  | main k => exact ⟨swf_swrite h.main k.isLt c, h.ecc⟩
  | ecc k => exact ⟨h.main, swf_swrite h.ecc k.isLt c⟩
  | fixed _ => exact h

theorem writeC3_id (g : BasicGroup) (r : C3Ref) (c : Flagged) :
    (writeC3 g r c).id = g.id ∧ (writeC3 g r c).diffLog = g.diffLog := by
  cases r <;> exact ⟨rfl, rfl⟩

theorem writeC3_mainCell {g : BasicGroup} (h : GroupOk g) (r : C3Ref) (c : Flagged) (k : Nat) :
    (writeC3 g r c).mainCell k = (match r with | .main m => if k = m.val then c else g.mainCell k | _ => g.mainCell k) := by
  cases r with
  | main m => exact sread_swrite h.main m.val k c
  | ecc m => rfl
  | fixed _ => rfl

theorem writeC3_eccCell {g : BasicGroup} (h : GroupOk g) (r : C3Ref) (c : Flagged) (k : Nat) :
    (writeC3 g r c).eccCell k = (match r with | .ecc m => if k = m.val then c else g.eccCell k | _ => g.eccCell k) := by
  cases r with
  | main m => rfl
  | ecc m => exact sread_swrite h.ecc m.val k c
  | fixed _ => rfl

/-- Writing back keeps the form, the ID and the difference count. -/
theorem writeGroup_ok (xs : List (C3Ref × Flagged)) {g : BasicGroup} (h : GroupOk g) :
    GroupOk (writeGroup g xs) ∧ (writeGroup g xs).id = g.id ∧ (writeGroup g xs).diffLog = g.diffLog := by
  induction xs generalizing g with
  | nil => exact ⟨h, rfl, rfl⟩
  | cons x xs ih =>
    have h1 := writeC3_id g x.1 x.2
    have h2 := ih (writeC3_ok h x.1 x.2)
    exact ⟨h2.1, h2.2.1.trans h1.1, h2.2.2.trans h1.2⟩

/-- A main cell after writing back: one of the cells written to it, or as it was when none is. -/
theorem writeGroup_main (xs : List (C3Ref × Flagged)) {g : BasicGroup} (h : GroupOk g) (k : Nat) :
    (∃ m c, (C3Ref.main m, c) ∈ xs ∧ m.val = k ∧ (writeGroup g xs).mainCell k = c) ∨
    ((∀ m c, (C3Ref.main m, c) ∈ xs → m.val ≠ k) ∧ (writeGroup g xs).mainCell k = g.mainCell k) := by
  induction xs generalizing g with
  | nil => exact .inr ⟨by simp, rfl⟩
  | cons x xs ih =>
    obtain ⟨r, c⟩ := x
    rcases ih (writeC3_ok h r c) with ⟨m, c', h1, h2, h3⟩ | ⟨h1, h2⟩
    · exact .inl ⟨m, c', by simp [h1], h2, h3⟩
    · rw [writeC3_mainCell h] at h2
      have step : (writeGroup g ((r, c) :: xs)).mainCell k = (writeGroup (writeC3 g r c) xs).mainCell k := rfl
      cases r with
      | main m =>
        by_cases hk : k = m.val
        · simp only [hk, if_true] at h2
          exact .inl ⟨m, c, by simp, hk.symm, by rw [step, hk]; exact h2⟩
        · simp only [if_neg hk] at h2
          refine .inr ⟨fun m' c' hm => ?_, by rw [step]; exact h2⟩
          rcases List.mem_cons.1 hm with he | hm
          · cases he; exact fun h => hk h.symm
          · exact h1 m' c' hm
      | ecc m =>
        refine .inr ⟨fun m' c' hm => ?_, by rw [step]; exact h2⟩
        rcases List.mem_cons.1 hm with he | hm
        · cases he
        · exact h1 m' c' hm
      | fixed _ =>
        refine .inr ⟨fun m' c' hm => ?_, by rw [step]; exact h2⟩
        rcases List.mem_cons.1 hm with he | hm
        · cases he
        · exact h1 m' c' hm

/-- An ECC cell after writing back. -/
theorem writeGroup_ecc (xs : List (C3Ref × Flagged)) {g : BasicGroup} (h : GroupOk g) (k : Nat) :
    (∃ m c, (C3Ref.ecc m, c) ∈ xs ∧ m.val = k ∧ (writeGroup g xs).eccCell k = c) ∨
    ((∀ m c, (C3Ref.ecc m, c) ∈ xs → m.val ≠ k) ∧ (writeGroup g xs).eccCell k = g.eccCell k) := by
  induction xs generalizing g with
  | nil => exact .inr ⟨by simp, rfl⟩
  | cons x xs ih =>
    obtain ⟨r, c⟩ := x
    rcases ih (writeC3_ok h r c) with ⟨m, c', h1, h2, h3⟩ | ⟨h1, h2⟩
    · exact .inl ⟨m, c', by simp [h1], h2, h3⟩
    · rw [writeC3_eccCell h] at h2
      have step : (writeGroup g ((r, c) :: xs)).eccCell k = (writeGroup (writeC3 g r c) xs).eccCell k := rfl
      cases r with
      | ecc m =>
        by_cases hk : k = m.val
        · simp only [hk, if_true] at h2
          exact .inl ⟨m, c, by simp, hk.symm, by rw [step, hk]; exact h2⟩
        · simp only [if_neg hk] at h2
          refine .inr ⟨fun m' c' hm => ?_, by rw [step]; exact h2⟩
          rcases List.mem_cons.1 hm with he | hm
          · cases he; exact fun h => hk h.symm
          · exact h1 m' c' hm
      | main m =>
        refine .inr ⟨fun m' c' hm => ?_, by rw [step]; exact h2⟩
        rcases List.mem_cons.1 hm with he | hm
        · cases he
        · exact h1 m' c' hm
      | fixed _ =>
        refine .inr ⟨fun m' c' hm => ?_, by rw [step]; exact h2⟩
        rcases List.mem_cons.1 hm with he | hm
        · cases he
        · exact h1 m' c' hm

/-! ### One vector (R197, R198) -/

@[simp] theorem c3Refs_length (cfg : Params) (sl : Fin 720) (tp il : Bool) : (c3Refs cfg sl tp il).length = 46 := by
  simp [c3Refs]

/-- C3DEC on an active basic group: what is written back at each reference. -/
theorem c3dec_ok {s : State} {g : BasicGroup} (h : s.bg = some g) (sl : Fin 720) (tp il : Bool) :
    ∃ rs1 rs, ShellDone s.cfg .c3 2 ((c3Refs s.cfg sl tp il).map (readC3 g)) s.rs rs1 ∧
      rs = setValid (((c3Refs s.cfg sl tp il).map (readC3 g)).map fun c => c3Valid rs1.status c.ok) rs1 ∧
      c3dec sl tp il s = .ok ((s.setRs rs).setBg
        (some (writeGroup g ((c3Refs s.cfg sl tp il).zip (vectorCells 46 rs))))) ∧
      ∀ x ∈ (c3Refs s.cfg sl tp il).zip (vectorCells 46 rs),
        (rs1.status = .uncorrectable → x.2 = readC3 g x.1) ∧ (rs1.status ≠ .uncorrectable → x.2.ok = true) := by
  obtain ⟨rs1, hok, hd⟩ := c3Vector_eq s.cfg s.rs (cells := (c3Refs s.cfg sl tp il).map (readC3 g)) (by simp)
  obtain ⟨rs, hrs⟩ : ∃ rs, rs =
    setValid (((c3Refs s.cfg sl tp il).map (readC3 g)).map fun c => c3Valid rs1.status c.ok) rs1 := ⟨_, rfl⟩
  rw [← hrs] at hok
  refine ⟨rs1, rs, hd, hrs, ?_, ?_⟩
  · simp only [c3dec, activeGroup_some h, ok_bind, hok]
    rfl
  · intro x hx
    obtain ⟨p, hp, rfl⟩ := List.mem_iff_getElem.1 hx
    have hp46 : p < 46 := by
      have := hp
      rw [List.length_zip, c3Refs_length] at this
      omega
    have hc := vectorCells_getElem? 46 rs p (le_refl 46)
    rw [dif_pos hp46, List.getElem?_eq_some_iff] at hc
    obtain ⟨hc1, hc2⟩ := hc
    rw [List.getElem_zip]
    simp only [hc2]
    have hval : rs.valid[p]'hp46 =
        c3Valid rs1.status (readC3 g ((c3Refs s.cfg sl tp il)[p]'(by simpa using hp46))).ok := by
      have hv : rs.valid = writeFile rs1.valid
          (((c3Refs s.cfg sl tp il).map (readC3 g)).map fun c => c3Valid rs1.status c.ok) := by
        rw [hrs, setValid_valid]
      simp only [hv]
      rw [writeFile_getElem, dif_pos (by simpa using hp46)]
      simp
    rw [hval]
    constructor
    · intro hu
      have hk := hd.keep (by rw [hu]; decide) ⟨p, hp46⟩ hp46
      have hv : rs.vec[p]'hp46 = (readC3 g ((c3Refs s.cfg sl tp il)[p]'(by simpa using hp46))).v := by
        have : rs.vec = rs1.vec := by rw [hrs, setValid_vec]
        simp only [this]
        rw [Fin.getElem_fin] at hk
        rw [hk]
        simp [hp46]
      rw [hv, hu]
      rfl
    · intro hu
      cases hs : rs1.status <;> simp_all [c3Valid]

/-- The C3 pass over a list of vectors: it completes, keeps the form of the group, and makes no valid cell invalid. -/
theorem c3fold_ok (sels : List (Fin 720 × Bool × Bool)) {s : State} {g : BasicGroup} (h : s.bg = some g)
    (hg : GroupOk g) :
    ∃ (rs : RsFile) (g' : BasicGroup),
      sels.foldlM (fun s sel => c3dec sel.1 sel.2.1 sel.2.2 s) s = .ok ((s.setRs rs).setBg (some g')) ∧
      (RsListsOk s.rs → RsListsOk rs) ∧ rs.draws = s.rs.draws ∧
      GroupOk g' ∧ g'.id = g.id ∧ g'.diffLog = g.diffLog ∧
      ∀ k, ((g.mainCell k).ok = true → (g'.mainCell k).ok = true) ∧
        ((g.eccCell k).ok = true → (g'.eccCell k).ok = true) := by
  induction sels generalizing s g with
  | nil =>
    refine ⟨s.rs, g, ?_, id, rfl, hg, rfl, rfl, fun k => ⟨id, id⟩⟩
    have : (s.setRs s.rs).setBg (some g) = s := by
      cases s; simp only [State.setRs, State.setBg] at *; rw [h]
    simp only [List.foldlM_nil, Pure.pure, Except.pure]
    exact congrArg _ this.symm
  | cons x xs ih =>
    obtain ⟨sl, tp, il⟩ := x
    obtain ⟨rs1, rs, hd, hrs, hok, hx⟩ := c3dec_ok h sl tp il
    obtain ⟨zs, hzs⟩ : ∃ zs, zs = (c3Refs s.cfg sl tp il).zip (vectorCells 46 rs) := ⟨_, rfl⟩
    rw [← hzs] at hok hx
    obtain ⟨w1, w2, w3⟩ := writeGroup_ok zs hg
    obtain ⟨rs', g', e1, e2, e3, e4, e5, e6, e7⟩ :=
      ih (s := (s.setRs rs).setBg (some (writeGroup g zs))) (g := writeGroup g zs) rfl w1
    refine ⟨rs', g', ?_, ?_, ?_, e4, e5.trans w2, e6.trans w3, fun k => ⟨fun hk => (e7 k).1 ?_, fun hk => (e7 k).2 ?_⟩⟩
    · rw [List.foldlM_cons]
      simp only
      rw [hok, ok_bind, e1]
      rfl
    · intro hl
      apply e2
      rw [State.setBg_rs, State.setRs_rs, hrs]
      exact (hd.lists hl).setValid _
    · rw [e3, State.setBg_rs, State.setRs_rs, hrs, setValid_draws, hd.draws]
    · rcases writeGroup_main zs hg k with ⟨m, c, h1, rfl, h3⟩ | ⟨-, h3⟩
      · rw [h3]
        by_cases hu : rs1.status = .uncorrectable
        · have := (hx _ h1).1 hu
          simp only at this
          rw [this]
          exact hk
        · exact (hx _ h1).2 hu
      · rw [h3]; exact hk
    · rcases writeGroup_ecc zs hg k with ⟨m, c, h1, rfl, h3⟩ | ⟨-, h3⟩
      · rw [h3]
        by_cases hu : rs1.status = .uncorrectable
        · have := (hx _ h1).1 hu
          simp only at this
          rw [this]
          exact hk
        · exact (hx _ h1).2 hu
      · rw [h3]; exact hk

end Sys2Proof.Machine
end

