-- ==== Sys2Proof/Laws/Dds.lean ====
section
/-! SUPPORT. The DDS operations (47_dds.md) and the framer (46_framer_frame.md): what they complete on and what they keep. -/

namespace Sys2Proof.Machine

open Sys2Proof

/-- What the DDS operations keep: they change no register outside the RS unit, the objects in transit, the report, the
session, the basic group and the outputs; outputs are appended; lists and the basic group keep their form. -/
structure DdsKeeps (s t : State) : Prop where
  frame : t = { s with
    rs := t.rs, transit := t.transit, report := t.report, sess := t.sess, bg := t.bg, out := t.out }
  out : ∃ more, t.out = s.out ++ more
  lists : RsListsOk s.rs → RsListsOk t.rs
  group : (∀ g, s.bg = some g → GroupOk g) → ∀ g, t.bg = some g → GroupOk g

theorem DdsKeeps.refl (s : State) : DdsKeeps s s :=
  ⟨rfl, ⟨[], by simp⟩, id, id⟩

theorem DdsKeeps.trans {s t u : State} (h1 : DdsKeeps s t) (h2 : DdsKeeps t u) : DdsKeeps s u := by
  obtain ⟨m1, e1⟩ := h1.out
  obtain ⟨m2, e2⟩ := h2.out
  refine ⟨?_, ⟨m1 ++ m2, by rw [e2, e1, List.append_assoc]⟩, fun h => h2.lists (h1.lists h),
    fun h => h2.group (h1.group h)⟩
  have a := h1.frame
  have b := h2.frame
  rw [a] at b
  exact b

/-- The operations changed neither configuration nor front end. -/
theorem DdsKeeps.front {s t : State} (h : DdsKeeps s t) :
    t.cfg = s.cfg ∧ t.mode = s.mode ∧ t.sessionSel = s.sessionSel ∧ t.port = s.port ∧ t.win = s.win ∧ t.gfr = s.gfr ∧
    t.running = s.running ∧ t.clk = s.clk ∧ t.timer = s.timer ∧ t.dfr = s.dfr ∧ t.pre = s.pre ∧ t.asm = s.asm ∧
    t.cur = s.cur ∧ t.lastBlk = s.lastBlk ∧ t.last = s.last := by
  rw [h.frame]
  exact ⟨rfl, rfl, rfl, rfl, rfl, rfl, rfl, rfl, rfl, rfl, rfl, rfl, rfl, rfl, rfl⟩

/-- The operations leave the host's answers alone (R374). -/
theorem DdsKeeps.images_eq {s t : State} (h : DdsKeeps s t) : t.images = s.images := by
  rw [h.frame]

theorem DdsKeeps.images {s t : State} (h : DdsKeeps s t) (hi : imagesOk s) : imagesOk t := by
  unfold imagesOk
  rw [h.images_eq]
  exact hi

theorem DdsKeeps.setTransit (s : State) (x : Transit) : DdsKeeps s (s.setTransit x) :=
  ⟨rfl, ⟨[], by simp⟩, id, id⟩

theorem DdsKeeps.setReport (s : State) (x : Option G3Report) : DdsKeeps s (s.setReport x) :=
  ⟨rfl, ⟨[], by simp⟩, id, id⟩

theorem DdsKeeps.setSess (s : State) (x : Session) : DdsKeeps s (s.setSess x) :=
  ⟨rfl, ⟨[], by simp⟩, id, id⟩

theorem DdsKeeps.emitOut (s : State) (o : HostOut) : DdsKeeps s (emitOut s o) :=
  ⟨rfl, ⟨[o], rfl⟩, id, id⟩

/-! ### C3PASS on any active group -/

theorem writeGroup_id (xs : List (C3Ref × Flagged)) (g : BasicGroup) : (writeGroup g xs).id = g.id := by
  induction xs generalizing g with
  | nil => rfl
  | cons x xs ih => exact (ih (writeC3 g x.1 x.2)).trans (writeC3_id g x.1 x.2).1

theorem c3fold_completes (sels : List (Fin 720 × Bool × Bool)) {s : State} {g : BasicGroup} (h : s.bg = some g) :
    ∃ (rs : RsFile) (g' : BasicGroup),
      sels.foldlM (fun s sel => c3dec sel.1 sel.2.1 sel.2.2 s) s = .ok ((s.setRs rs).setBg (some g')) ∧
      (RsListsOk s.rs → RsListsOk rs) ∧ g'.id = g.id ∧ (GroupOk g → GroupOk g') := by
  induction sels generalizing s g with
  | nil =>
    refine ⟨s.rs, g, ?_, id, rfl, id⟩
    have : (s.setRs s.rs).setBg (some g) = s := by
      cases s; simp only [State.setRs, State.setBg] at *; rw [h]
    simp only [List.foldlM_nil, Pure.pure, Except.pure]
    exact congrArg _ this.symm
  | cons x xs ih =>
    obtain ⟨sl, tp, il⟩ := x
    obtain ⟨rs1, rs2, hd, hrs, hok, -⟩ := c3dec_ok h sl tp il
    obtain ⟨kvs, hk⟩ : ∃ k, k = (c3Refs s.cfg sl tp il).zip (vectorCells 46 rs2) := ⟨_, rfl⟩
    rw [← hk] at hok
    obtain ⟨rs, g', e1, e2, e3, e4⟩ := ih (s := (s.setRs rs2).setBg (some (writeGroup g kvs))) rfl
    refine ⟨rs, g', ?_, ?_, ?_, ?_⟩
    · rw [List.foldlM_cons, hok, ok_bind, e1]
      rfl
    · intro hl
      apply e2
      rw [State.setBg_rs, State.setRs_rs, hrs]
      exact (hd.lists hl).setValid _
    · rw [e3, writeGroup_id]
    · intro hg
      exact e4 (writeGroup_ok _ hg).1

/-- C3PASS on an active group completes. -/
theorem c3pass_completes {s : State} {g : BasicGroup} (h : s.bg = some g) :
    ∃ (rs : RsFile) (g' : BasicGroup), c3pass s = .ok ((s.setRs rs).setBg (some g')) ∧
      (RsListsOk s.rs → RsListsOk rs) ∧ g'.id = g.id ∧ (GroupOk g → GroupOk g') := by
  obtain ⟨rs, g', e1, e2, e3, e4⟩ := c3fold_completes c3Selectors h
  refine ⟨rs, g', ?_, e2, e3, e4⟩
  rw [c3pass, activeGroup_some h, ok_bind, e1]

/-! ### The host's images (R375) -/

theorem imageOf_lengthOk (g : BasicGroup) : imageLengthOk (imageOf g) = true := by
  simp only [imageLengthOk, imageOf, sdump, List.length_map, List.length_range, decide_true, Bool.and_self]

theorem imageOf_validityOk (g : BasicGroup) : imageValidityOk (imageOf g) = true := by
  rw [imageValidityOk, List.all_eq_true]
  intro b hb
  simp only [imageOf, List.mem_append, List.mem_map] at hb
  rcases hb with ⟨c, -, rfl⟩ | ⟨c, -, rfl⟩ <;> (unfold validityByte; split <;> decide)

theorem lookup_mem {α β : Type} [BEq α] [LawfulBEq α] {l : List (α × β)} {a : α} {b : β} (h : l.lookup a = some b) :
    (a, b) ∈ l := by
  induction l with
  | nil => simp at h
  | cons x xs ih =>
    obtain ⟨k, v⟩ := x
    rw [List.lookup_cons] at h
    by_cases e : (a == k) = true
    · simp only [e, Option.some.injEq] at h
      rw [eq_of_beq e, h]
      exact List.mem_cons_self
    · have e' : (a == k) = false := by simpa using e
      simp only [e'] at h
      exact List.mem_cons_of_mem _ (ih h)

/-! ### BGFIN (R370) -/

/-- BGFIN on an active group. -/
theorem bgfin_some {s : State} {g : BasicGroup} (h : s.bg = some g) :
    ∃ (rs : RsFile) (g' : BasicGroup), c3pass s = .ok ((s.setRs rs).setBg (some g')) ∧ g'.id = g.id ∧
      bgfin s = .ok (((s.setRs rs).setOut (s.out ++ [.bgPersist g.id (imageOf g')])).setBg none) ∧
      (RsListsOk s.rs → RsListsOk rs) := by
  obtain ⟨rs, g', e1, e2, e3, -⟩ := c3pass_completes h
  refine ⟨rs, g', e1, e3, ?_, e2⟩
  unfold bgfin
  rw [h]
  simp only
  rw [e1, ok_bind, activeGroup_some (g := g') rfl, ok_bind, bgPersist, e3]
  rfl

theorem bgfin_none {s : State} (h : s.bg = none) : bgfin s = .ok s := by
  unfold bgfin
  rw [h]

/-- BGFIN completes, and leaves no active group. -/
theorem bgfin_completes (s : State) : ∃ t, bgfin s = .ok t ∧ t.bg = none ∧ t.transit = s.transit ∧ DdsKeeps s t := by
  cases h : s.bg with
  | none => exact ⟨s, bgfin_none h, h, rfl, .refl s⟩
  | some g =>
    obtain ⟨rs, g', -, -, e, hl⟩ := bgfin_some h
    exact ⟨_, e, rfl, rfl, rfl, ⟨_, rfl⟩, hl, fun _ _ h => by cases h⟩

/-! ### BGMERGE (R360) -/

theorem swf_mergeFold {n base : Nat} (hb : base + 5756 ≤ n) (g1 : Store Flagged) (xs : List Nat) (hx : ∀ i ∈ xs, i < 5756)
    {m : Store Flagged × Nat} (hm : swf blankCell n m.1 = true) :
    swf blankCell n (xs.foldl (fun m i =>
      let r := mergeCell (sread blankCell m.1 (base + i)) (sread blankCell g1 i)
      (swrite blankCell m.1 (base + i) r.1, m.2 + r.2)) m).1 = true := by
  induction xs generalizing m with
  | nil => exact hm
  | cons i xs ih =>
    apply ih (fun j hj => hx j (by simp [hj]))
    have := hx i (by simp)
    exact swf_swrite hm (by omega) _

theorem swf_mergeRange {n base : Nat} (hb : base + 5756 ≤ n) (g1 : Store Flagged) {m : Store Flagged × Nat}
    (hm : swf blankCell n m.1 = true) : swf blankCell n (mergeRange base g1 m).1 = true :=
  swf_mergeFold hb g1 _ (fun _ h => List.mem_range.1 h) hm

theorem placeGroup_ok {g : BasicGroup} (h : GroupOk g) (d : DdsFields) (g1 : Store Flagged) : GroupOk (placeGroup d g1 g) := by
  obtain ⟨r0, h0⟩ : ∃ r, r = mergeRange 0 g1 (g.ecc, g.diffLog) := ⟨_, rfl⟩
  obtain ⟨r1, h1⟩ : ∃ r, r = mergeRange ((d.lfid.toNat - 1) * 5756) g1 (g.main, g.diffLog) := ⟨_, rfl⟩
  have w0 : swf blankCell 5756 r0.1 = true := by
    rw [h0]; exact swf_mergeRange (n := 5756) (base := 0) (by decide) g1 h.ecc
  unfold placeGroup
  rw [← h0, ← h1]
  split
  · exact ⟨h.main, w0⟩
  · split
    · next hr =>
      have hb : (d.lfid.toNat - 1) * 5756 + 5756 ≤ 126632 := by omega
      refine ⟨?_, h.ecc⟩
      simp only
      rw [h1]
      exact swf_mergeRange hb g1 h.main
    · exact h

/-- The image that a BEGIN takes has the lengths and validity bytes of R110, if there is one (R361). -/
def imageFits (s : State) (id : Nat) : Prop :=
  ∀ img, s.images.lookup id = some img → imageLengthOk img = true ∧ imageValidityOk img = true

theorem imagesOk.fits {s : State} (h : imagesOk s) (id : Nat) : imageFits s id := fun _ hl => h _ (lookup_mem hl)

/-- BEGIN of a group completes exactly when the image it takes fits. -/
theorem beginGroup_completes {s : State} {id : Nat} (h : imageFits s id) : ∃ t, beginGroup id s = .ok t := by
  unfold beginGroup
  simp only [emitOut, State.setOut_images]
  cases hl : s.images.lookup id with
  | none => exact ⟨_, rfl⟩
  | some img =>
    obtain ⟨h1, h2⟩ := h img hl
    simp only [h1, h2, Bool.not_true, Bool.false_eq_true, if_false]
    exact ⟨_, rfl⟩

/-- BEGIN of a group, when it is not refused: the request, and a group with the given ID in canonical form. -/
theorem beginGroup_cases {s t : State} {id : Nat} (h : beginGroup id s = .ok t) :
    ∃ g, g.id = id ∧ t = (s.setOut (s.out ++ [.bgLoad id])).setBg (some g) ∧ GroupOk g := by
  unfold beginGroup at h
  simp only at h
  split at h
  · cases h
    exact ⟨_, rfl, rfl, rfl, rfl⟩
  · next img _ =>
    split at h
    · cases h
    · next hl =>
      split at h
      · cases h
      · cases h
        refine ⟨_, rfl, rfl, ?_⟩
        simp only [Bool.not_eq_true, Bool.not_eq_false', imageLengthOk, Bool.and_eq_true, decide_eq_true_eq] at hl
        refine ⟨swf_sofList _ _ ?_, swf_sofList _ _ ?_⟩ <;> simp only [List.length_map, List.length_zip] <;> omega

theorem closeOther_completes (s : State) (id : Nat) :
    ∃ t, closeOther id s = .ok t ∧ t.transit = s.transit ∧ DdsKeeps s t ∧ (∀ g, t.bg = some g → g.id = id) := by
  unfold closeOther
  cases h : s.bg with
  | none => exact ⟨s, rfl, rfl, .refl s, by simp [h]⟩
  | some g =>
    simp only
    split
    · obtain ⟨t, e1, e2, e3, e4⟩ := bgfin_completes s
      exact ⟨t, e1, e3, e4, by simp [e2]⟩
    · next hne => exact ⟨s, rfl, rfl, .refl s, by simp only [h, Option.some.injEq]; rintro _ rfl; simpa using hne⟩

theorem ensureGroup_completes {s : State} {id : Nat} (hi : imageFits s id) :
    ∃ t g, ensureGroup id s = .ok t ∧ t.bg = some g ∧ t.transit = s.transit ∧ DdsKeeps s t := by
  unfold ensureGroup
  cases h : s.bg with
  | none =>
    obtain ⟨t, e1⟩ := beginGroup_completes hi
    obtain ⟨g, -, e4, e5⟩ := beginGroup_cases e1
    refine ⟨t, g, e1, by rw [e4]; rfl, by rw [e4]; rfl, ?_⟩
    rw [e4]
    refine ⟨rfl, ⟨_, rfl⟩, fun h => h, ?_⟩
    intro _ g1 hg1
    rw [State.setBg_bg, Option.some.injEq] at hg1
    exact hg1 ▸ e5
  | some g => exact ⟨s, g, rfl, h, rfl, .refl s⟩

/-- BGMERGE completes when its objects are there and the image it may take fits. -/
theorem bgmerge_completes {s : State} {g1 : Store Flagged} {g3 : Group3} (h1 : s.transit.g1 = some g1)
    (h3 : s.transit.g3 = some g3) (hi : imageFits s g3.fields.bgId) :
    ∃ t, bgmerge s = .ok t ∧ t.transit = { s.transit with g1 := none, g3 := none } ∧ DdsKeeps s t := by
  obtain ⟨u, a1, a2, a3, -⟩ := closeOther_completes s g3.fields.bgId
  obtain ⟨v, g, b1, b2, b3, b4⟩ := ensureGroup_completes (s := u) (id := g3.fields.bgId)
    (by unfold imageFits; rw [a3.images_eq]; exact hi)
  obtain ⟨w, hw⟩ : ∃ w, w = (v.setBg (some (placeGroup g3.fields g1 g))).setTransit { v.transit with g1 := none, g3 := none } :=
    ⟨_, rfl⟩
  have hvw : DdsKeeps v w := by
    rw [hw]
    refine ⟨rfl, ⟨[], by simp⟩, fun h => h, ?_⟩
    intro hg k hk
    rw [State.setTransit_bg, State.setBg_bg, Option.some.injEq] at hk
    exact hk ▸ placeGroup_ok (hg g b2) _ _
  have htr : w.transit = { s.transit with g1 := none, g3 := none } := by
    rw [hw, State.setTransit_transit, b3, a2]
  have hb : bgmerge s = if g3.fields.isLast then bgfin w else .ok w := by
    rw [bgmerge, object_some h1, ok_bind, object_some h3, ok_bind]
    simp only
    rw [a1, ok_bind, b1, ok_bind, activeGroup_some b2, ok_bind, hw]
    rfl
  rw [hb]
  split
  · obtain ⟨t, c1, -, c3, c4⟩ := bgfin_completes w
    exact ⟨t, c1, c3.trans htr, (a3.trans (b4.trans hvw)).trans c4⟩
  · exact ⟨w, rfl, htr, a3.trans (b4.trans hvw)⟩

/-! ### G3DEC (R341) -/

/-- G3DEC completes on a frame in transit; frame, group-3 and group-1 end with it. -/
theorem g3dec_completes {s : State} {f : Frame} (hf : s.transit.frame = some f) (hi : imagesOk s) :
    ∃ t, g3dec s = .ok t ∧ t.transit = { s.transit with frame := none, g3 := none, g1 := none } ∧ DdsKeeps s t := by
  rw [g3dec, object_some hf, ok_bind]
  split
  · exact ⟨_, rfl, rfl, (DdsKeeps.setReport s _).trans (.setTransit _ _)⟩
  · next d mism _ =>
    obtain ⟨u, hu⟩ : ∃ u, u = (s.setTransit { s.transit with g3 := some ⟨d, none, false⟩ }).setSess (sessNext s.sess d.area) :=
      ⟨_, rfl⟩
    have hs : sess (s.setTransit { s.transit with g3 := some ⟨d, none, false⟩ }) = .ok u := by rw [hu]; rfl
    have hk : DdsKeeps s u := by rw [hu]; exact (DdsKeeps.setTransit s _).trans (.setSess _ _)
    have ht : u.transit = { s.transit with g3 := some ⟨d, none, false⟩ } := by rw [hu]; rfl
    simp only
    rw [hs, ok_bind]
    have hend : ∀ kind g, ∃ t, (.ok (dropFrame (putReport u kind mism g)) : Res) = .ok t ∧
        t.transit = { s.transit with frame := none, g3 := none, g1 := none } ∧ DdsKeeps s t := by
      intro kind g
      refine ⟨_, rfl, ?_, (hk.trans (.setReport _ _)).trans (.setTransit _ _)⟩
      simp only [dropFrame, putReport, State.setTransit_transit, State.setReport_transit, ht]
    by_cases harea : d.area ≠ .data
    · simp only [harea, if_true, ne_eq, not_false_eq_true]
      exact hend _ _
    · simp only [harea, if_false]
      cases hh : headerCheck f d with
      | some kind => exact hend _ _
      | none =>
        simp only [g3Accept]
        obtain ⟨g, hg⟩ : ∃ g : Group3, g = ⟨d, some (cksumComputed u.cfg f), decide (cksumComputed u.cfg f = d.cksum)⟩ := ⟨_, rfl⟩
        rw [← hg]
        obtain ⟨v, hv⟩ : ∃ v, v = putReport (u.setTransit { u.transit with g3 := some g }) (g3Status f) mism (some g) := ⟨_, rfl⟩
        have hkv : DdsKeeps s v := by rw [hv]; exact (hk.trans (.setTransit _ _)).trans (.setReport _ _)
        have htv : v.transit = { s.transit with g3 := some g } := by
          rw [hv]; simp only [putReport, State.setTransit_transit, State.setReport_transit, ht]
        rw [← hv]
        obtain ⟨w, hw⟩ : ∃ w, w = v.setTransit { v.transit with g1 := some (dewhiten v.cfg f) } := ⟨_, rfl⟩
        have hd : dewht v = .ok w := by
          rw [dewht, object_some (a := f) (by rw [htv]; exact hf), ok_bind, hw]; rfl
        have hkw : DdsKeeps s w := by rw [hw]; exact hkv.trans (.setTransit _ _)
        have htw : w.transit = { s.transit with g3 := some g, g1 := some (dewhiten v.cfg f) } := by
          rw [hw, State.setTransit_transit, htv]
        rw [hd, ok_bind]
        split
        · obtain ⟨x, c1, c2, c3⟩ := bgmerge_completes (s := w) (g1 := dewhiten v.cfg f) (g3 := g) (by rw [htw]) (by rw [htw])
            ((hkw.images hi).fits _)
          rw [c1, ok_bind]
          refine ⟨_, rfl, ?_, (hkw.trans c3).trans (.setTransit _ _)⟩
          simp only [dropFrame, State.setTransit_transit, c2, htw]
        · rw [ok_bind]
          refine ⟨_, rfl, ?_, hkw.trans (.setTransit _ _)⟩
          simp only [dropFrame, State.setTransit_transit, htw]

end Sys2Proof.Machine
end

