-- ==== Sys2Proof/Laws/Gf.lean ====
section
/-! SUPPORT. The tables of the GF unit against the field defined by polynomial arithmetic (40_gf256.md R131, R132): EXP lists
the powers of alpha, and for a primitive PRIM_POLY LOG inverts it. -/

namespace Sys2Proof.Machine

open Sys2Proof

/-! ### ROM words -/

theorem romByte_zero_add {a x : Nat} (ha : a < 256) : romByte (a + 256 * x) 0 = a := by
  simp only [romByte, Nat.mul_zero, Nat.shiftRight_zero]
  omega

theorem romByte_succ_add {a x : Nat} (ha : a < 256) (i : Nat) : romByte (a + 256 * x) (i + 1) = romByte x i := by
  simp only [romByte, Nat.shiftRight_eq_div_pow]
  rw [show 8 * (i + 1) = 8 + 8 * i by ring, Nat.pow_add, ← Nat.div_div_eq_div_mul]
  congr 2
  omega

theorem expStep_lt {p a : Nat} (ha : a < 256) : expStep p a < 256 := by
  unfold expStep
  split <;> omega

/-- Entry `i` of EXP is the i-th step from its first entry (R132). -/
theorem romByte_expRomFrom (p : Nat) {n a i : Nat} (ha : a < 256) (hi : i < n) :
    romByte (expRomFrom p n a) i = (expStep p)^[i] a := by
  induction n generalizing a i with
  | zero => omega
  | succ n ih =>
    rw [expRomFrom]
    cases i with
    | zero => exact romByte_zero_add ha
    | succ i => rw [romByte_succ_add ha, ih (expStep_lt ha) (by omega), Function.iterate_succ_apply]

/-! ### EXP lists the powers of alpha -/

/-- One step of EXP is the multiplication by z (R131, R132). -/
theorem expStep_timesZ (p : BitVec 9) (a : Byte) : expStep p.toNat a.toNat = (timesZ p a).toNat := by
  have ha := a.isLt
  unfold expStep timesZ
  rw [BitVec.msb_eq_decide]
  by_cases h : a.toNat < 128
  · have : ¬ 2 ^ (8 - 1) ≤ a.toNat := by omega
    have hz : a <<< 1 ^^^ (0 : Byte) = a <<< 1 := BitVec.xor_zero
    simp only [h, if_true, this, decide_false, Bool.false_eq_true, if_false]
    rw [hz, BitVec.toNat_shiftLeft, Nat.shiftLeft_eq]
    omega
  · have h2 : 2 ^ (8 - 1) ≤ a.toNat := by omega
    simp only [h, if_false, h2, decide_true, if_true, BitVec.toNat_xor, BitVec.toNat_shiftLeft, BitVec.toNat_setWidth,
      Nat.shiftLeft_eq, Nat.pow_one]
    rw [show (256 : Nat) = 2 ^ 8 from rfl, Nat.xor_mod_two_pow, Nat.mul_comm]

theorem expStep_iterate (p : BitVec 9) (n : Nat) : (expStep p.toNat)^[n] 1 = (alphaPow p n).toNat := by
  induction n with
  | zero => rfl
  | succ n ih => rw [Function.iterate_succ_apply', ih, expStep_timesZ]; rfl

theorem romByte_expRom (p : BitVec 9) {i : Nat} (hi : i < 255) : romByte (expRom p.toNat) i = (alphaPow p i).toNat := by
  rw [expRom, romByte_expRomFrom _ (by decide) hi, expStep_iterate]

/-- EXP[i mod 255] is the power i mod 255 of alpha (R132, R135). -/
theorem gfExp_eq (p : BitVec 9) (i : Nat) : gfExp p i = alphaPow p (i % 255) := by
  rw [gfExp, romByte_expRom p (Nat.mod_lt _ (by decide)), BitVec.ofNat_toNat, BitVec.setWidth_eq]

/-! ### LOG inverts EXP -/

theorem romByte_or (x y i : Nat) : romByte (x ||| y) i = romByte x i ||| romByte y i := by
  simp only [romByte, Nat.shiftRight_or_distrib]
  rw [show (256 : Nat) = 2 ^ 8 from rfl, Nat.or_mod_two_pow]

theorem romByte_shift {k : Nat} (hk : k < 256) (b i : Nat) : romByte (k <<< (8 * b)) i = if i = b then k else 0 := by
  simp only [romByte, Nat.shiftLeft_eq, Nat.shiftRight_eq_div_pow]
  split
  · next h => rw [h, Nat.mul_div_cancel _ (Nat.two_pow_pos _), Nat.mod_eq_of_lt hk]
  · next h =>
    rcases Nat.lt_or_gt_of_ne h with h | h
    · rw [show 8 * b = 8 * i + 8 * (b - i) by omega, Nat.pow_add, ← Nat.mul_assoc, Nat.mul_right_comm,
        Nat.mul_div_cancel _ (Nat.two_pow_pos _), show 8 * (b - i) = 8 + 8 * (b - i - 1) by omega, Nat.pow_add,
        Nat.mul_left_comm]
      exact Nat.mul_mod_right _ _
    · rw [show 8 * i = 8 * b + 8 * (i - b) by omega, Nat.pow_add, ← Nat.div_div_eq_div_mul,
        Nat.mul_div_cancel _ (Nat.two_pow_pos _)]
      have : k < 2 ^ (8 * (i - b)) := Nat.lt_of_lt_of_le hk (by
        rw [show (256 : Nat) = 2 ^ 8 from rfl]
        exact Nat.pow_le_pow_right (by decide) (by omega))
      rw [Nat.div_eq_of_lt this]

/-- Entry `e` of LOG over the first `n` entries of EXP, when they are different. -/
theorem romByte_logRomFrom {rom n e : Nat} (hn : n ≤ 255)
    (hd : ∀ i < n, ∀ j < n, romByte rom i = romByte rom j → i = j) :
    romByte (logRomFrom rom n) e = if h : ∃ i < n, romByte rom i = e then h.choose else 0 := by
  induction n with
  | zero => simp [logRomFrom, romByte]
  | succ n ih =>
    rw [logRomFrom, romByte_or, romByte_shift (by omega), ih (by omega) fun i hi j hj => hd i (by omega) j (by omega)]
    by_cases hm : ∃ i < n + 1, romByte rom i = e
    · have hs := hm.choose_spec
      rw [dif_pos hm]
      by_cases he : e = romByte rom n
      · have hc : hm.choose = n := hd _ hs.1 _ (by omega) (by rw [hs.2, he])
        have hno : ¬ ∃ i < n, romByte rom i = e := by
          rintro ⟨i, hi, h⟩
          have := hd i (by omega) n (by omega) (by rw [h, he])
          omega
        rw [if_pos he, dif_neg hno, hc, Nat.or_zero]
      · have hlt : hm.choose < n := by
          rcases Nat.lt_succ_iff_lt_or_eq.1 hs.1 with h | h
          · exact h
          · exact absurd (by rw [← hs.2, h]) he
        have hm' : ∃ i < n, romByte rom i = e := ⟨_, hlt, hs.2⟩
        have hs' := hm'.choose_spec
        rw [if_neg he, dif_pos hm', Nat.zero_or]
        exact hd _ (by omega) _ hs.1 (by rw [hs.2, hs'.2])
    · have hm' : ¬ ∃ i < n, romByte rom i = e := fun ⟨i, hi, h⟩ => hm ⟨i, by omega, h⟩
      have he : ¬ e = romByte rom n := fun h => hm ⟨n, by omega, h.symm⟩
      rw [if_neg he, dif_neg hm', dif_neg hm, Nat.or_zero]

/-- The powers of alpha below 255 are different for a primitive PRIM_POLY (R131). -/
theorem alphaPow_inj {p : BitVec 9} (hp : primitive p) {i j : Nat} (hi : i < 255) (hj : j < 255)
    (h : alphaPow p i = alphaPow p j) : i = j := by
  have := List.inj_on_of_nodup_map hp.2.2 (List.mem_range.2 hi) (List.mem_range.2 hj) h
  exact this

/-- LOG[EXP[i]] = i (R132). -/
theorem gfLog_alphaPow {p : BitVec 9} (hp : primitive p) {i : Nat} (hi : i < 255) : gfLog p (alphaPow p i) = i := by
  have hd : ∀ a < 255, ∀ b < 255, romByte (expRom p.toNat) a = romByte (expRom p.toNat) b → a = b := by
    intro a ha b hb h
    rw [romByte_expRom p ha, romByte_expRom p hb] at h
    exact alphaPow_inj hp ha hb (BitVec.eq_of_toNat_eq h)
  rw [gfLog, logRom, romByte_logRomFrom (Nat.le_refl _) hd]
  have hm : ∃ k < 255, romByte (expRom p.toNat) k = (alphaPow p i).toNat := ⟨i, hi, romByte_expRom p hi⟩
  rw [dif_pos hm]
  exact hd _ hm.choose_spec.1 _ hi (by rw [hm.choose_spec.2, romByte_expRom p hi])

/-- A check of PRIM_POLY that its tables make: EXP followed by LOG is the identity on 0 to 254. -/
theorem primitive_of_tables {p : BitVec 9} (h8 : p.getLsbD 8 = true) (h0 : p.getLsbD 0 = true)
    (h : ∀ i < 255, romByte (logRom p.toNat) (romByte (expRom p.toNat) i) = i) : primitive p := by
  refine ⟨h8, h0, ?_⟩
  rw [List.nodup_map_iff_inj_on List.nodup_range]
  intro i hi j hj hij
  have hi := List.mem_range.1 hi
  have hj := List.mem_range.1 hj
  rw [← h i hi, ← h j hj, romByte_expRom p hi, romByte_expRom p hj, hij]

end Sys2Proof.Machine
end

