-- ==== Sys2Proof/Laws/Track.lean ====
section
/-! SUPPORT. Completing, sealing and delivering a Track; placing blocks; subcode extraction (45_block_track.md). Each lemma
says what the operation answers and what it keeps. -/

namespace Sys2Proof.Machine

open Sys2Proof

/-! ### The selectors of the passes (R200, R201) -/

theorem mem_c1Selectors {x : Nat × Nat} : x ∈ c1Selectors ↔ x.1 < 72 ∧ x.2 < 2 := by
  obtain ⟨a, b⟩ := x
  simp only [c1Selectors, List.mem_flatMap, List.mem_range, List.mem_cons, Prod.mk.injEq, List.not_mem_nil, or_false]
  constructor
  · rintro ⟨p, hp, ⟨rfl, rfl⟩ | ⟨rfl, rfl⟩⟩ <;> omega
  · rintro ⟨h1, h2⟩
    refine ⟨a, h1, ?_⟩
    omega

theorem mem_c2Selectors {x : Nat × Nat} :
    x ∈ c2Selectors ↔ x.1 < 4 ∧ x.2 < (if x.1 % 2 = 0 then 32 else 24) := by
  obtain ⟨a, b⟩ := x
  simp only [c2Selectors, List.mem_flatMap, List.mem_range, List.mem_map, Prod.mk.injEq]
  constructor
  · rintro ⟨p, hp, q, hq, rfl, rfl⟩
    exact ⟨hp, hq⟩
  · rintro ⟨h1, h2⟩
    exact ⟨a, h1, b, h2, rfl, rfl⟩

theorem c2Selectors_lt {x : Nat × Nat} (h : x ∈ c2Selectors) : x.1 < 4 ∧ x.2 < 32 := by
  have := mem_c2Selectors.1 h
  split at this <;> omega

theorem c1Addrs_lt {x : Nat × Nat} (h : x ∈ c1Selectors) : ∀ a ∈ c1Addrs x.1 x.2, a < 4608 := by
  intro a ha
  obtain ⟨p, hp, rfl⟩ := mem_c1Addrs.1 ha
  exact c1Addr_lt (mem_c1Selectors.1 h).1 (mem_c1Selectors.1 h).2 hp

theorem c2Addrs_lt {x : Nat × Nat} (h : x ∈ c2Selectors) : ∀ a ∈ c2Addrs x.1 x.2, a < 4608 := by
  intro a ha
  obtain ⟨p, hp, rfl⟩ := mem_c2Addrs.1 ha
  exact c2Addr_lt (c2Selectors_lt h).1 (c2Selectors_lt h).2 hp

/-- The C1 vectors of the pass do not meet (R182). -/
theorem c1Selectors_disjoint : c1Selectors.Pairwise fun x y => ∀ a ∈ c1Addrs y.1 y.2, a ∉ c1Addrs x.1 x.2 := by
  have hnd : c1Selectors.Nodup := by decide +kernel
  apply List.Pairwise.imp_of_mem _ hnd
  intro x y hx hy hne a hay hax
  obtain ⟨p, hp, rfl⟩ := mem_c1Addrs.1 hay
  obtain ⟨q, hq, he⟩ := mem_c1Addrs.1 hax
  obtain ⟨h1, h2, -⟩ := c1Addr_inj (mem_c1Selectors.1 hx).2 hq (mem_c1Selectors.1 hy).2 hp he
  exact hne (Prod.ext h1 h2)

/-- The C2 vectors of the pass do not meet (R185). -/
theorem c2Selectors_disjoint : c2Selectors.Pairwise fun x y => ∀ a ∈ c2Addrs y.1 y.2, a ∉ c2Addrs x.1 x.2 := by
  have hnd : c2Selectors.Nodup := by decide +kernel
  apply List.Pairwise.imp_of_mem _ hnd
  intro x y hx hy hne a hay hax
  obtain ⟨p, hp, rfl⟩ := mem_c2Addrs.1 hay
  obtain ⟨q, hq, he⟩ := mem_c2Addrs.1 hax
  obtain ⟨h1, h2, -⟩ := c2Addr_inj (c2Selectors_lt hx).1 (c2Selectors_lt hx).2 (c2Selectors_lt hy).1
    (c2Selectors_lt hy).2 he
  exact hne (Prod.ext h1 h2)

/-! ### Subcode extraction changes no cell and no header (R288) -/

/-- A Track with the same cells, headers, head, counters and seal: subcode extraction changes nothing else. -/
def sameButSubcode (t t' : Track) : Prop :=
  t' = { t with pack := t'.pack, sig := t'.sig, ctlId := t'.ctlId, dataId := t'.dataId } ∧ t'.pack[0] = t.pack[0]

theorem sameButSubcode.refl (t : Track) : sameButSubcode t t := ⟨rfl, rfl⟩

theorem sameButSubcode.trans {t u v : Track} (h1 : sameButSubcode t u) (h2 : sameButSubcode u v) : sameButSubcode t v := by
  obtain ⟨a, b⟩ := h1
  obtain ⟨c, d⟩ := h2
  refine ⟨?_, d.trans b⟩
  rw [c, a]

theorem latchSig_same (t : Track) (slot : Nat) (id : BitVec 4) : sameButSubcode t (latchSig t slot id) := by
  unfold latchSig
  split
  · exact ⟨rfl, rfl⟩
  · exact .refl t

theorem latchPack_same (t : Track) (id : BitVec 4) (p : Pack) : sameButSubcode t (latchPack t id p) := by
  unfold latchPack
  split
  · next h =>
    refine ⟨rfl, ?_⟩
    have hne : id.toNat ≠ 0 := by
      intro h0
      apply h.1
      exact BitVec.eq_of_toNat_eq (by simpa using h0)
    simp [hne]
  · exact .refl t

theorem subItem_same (t : Track) (bj : Nat × Nat) : sameButSubcode t (subItem t bj) := by
  unfold subItem
  simp only
  split
  · exact (latchSig_same _ _ _).trans (latchPack_same _ _ _)
  · exact .refl t

theorem latchIds_same (t : Track) : sameButSubcode t (latchIds t) := by
  unfold latchIds
  split
  · exact ⟨rfl, rfl⟩
  · exact .refl t

theorem subFold_same (l : List (Nat × Nat)) (t : Track) : sameButSubcode t (l.foldl subItem t) := by
  induction l generalizing t with
  | nil => exact .refl t
  | cons x l ih => exact (subItem_same t x).trans (ih _)

theorem extractSubcode_same (t : Track) : sameButSubcode t (extractSubcode t) :=
  (subFold_same _ _).trans (latchIds_same _)

theorem subx_ok {s : State} {tr : Track} (h : trackOpen s tr) : subx s = .ok (s.setCur (some (extractSubcode tr))) := by
  simp only [subx, openTrack_of_open h, ok_bind]
  rfl

/-! ### Track Complete (R284, R293) -/

theorem c1pass_completes {s : State} {tr : Track} (h : trackOpen s tr) :
    ∃ (rs : RsFile) (cells : Store Flagged) (c u : Nat),
      c1pass s = .ok ((s.setRs rs).setCur
        (some { tr with cells := cells, c1Corr := tr.c1Corr + c, c1Unc := tr.c1Unc + u })) ∧
      (RsListsOk s.rs → RsListsOk rs) ∧ (TrackOk tr → swf blankCell 4608 cells = true) := by
  obtain ⟨rs, cells, c, u, e1, e2, -, e3⟩ := c1PassStep.completes c1Selectors h
  refine ⟨rs, cells, c, u, ?_, e2, fun ht => e3 (fun x hx => c1Addrs_lt hx) ht.cells⟩
  rw [c1pass, openTrack_of_open h, ok_bind, e1]

theorem c2pass_completes {s : State} {tr : Track} (h : trackOpen s tr) :
    ∃ (rs : RsFile) (cells : Store Flagged) (c u : Nat),
      c2pass s = .ok ((s.setRs rs).setCur
        (some { tr with cells := cells, c2Corr := tr.c2Corr + c, c2Unc := tr.c2Unc + u })) ∧
      (RsListsOk s.rs → RsListsOk rs) ∧ (TrackOk tr → swf blankCell 4608 cells = true) := by
  obtain ⟨rs, cells, c, u, e1, e2, -, e3⟩ := c2PassStep.completes c2Selectors h
  refine ⟨rs, cells, c, u, ?_, e2, fun ht => e3 (fun x hx => c2Addrs_lt hx) ht.cells⟩
  rw [c2pass, openTrack_of_open h, ok_bind, e1]

/-- What C1PASS leaves: each vector as C1 alone makes it, each outcome counted. -/
theorem c1pass_spec {s : State} {tr : Track} (h : trackOpen s tr) (hc : swf blankCell 4608 tr.cells = true) :
    let out := fun x : Nat × Nat => c1Vector s.cfg (readCells tr (c1Addrs x.1 x.2)) s.rs
    ∃ (rs : RsFile) (cells : Store Flagged),
      c1pass s = .ok ((s.setRs rs).setCur (some { tr with
        cells := cells
        c1Corr := tr.c1Corr + c1Selectors.countP fun x => decide ((out x).status = .corrected)
        c1Unc := tr.c1Unc + c1Selectors.countP fun x => decide ((out x).status = .uncorrectable) })) ∧
      (∀ x ∈ c1Selectors, ∀ p (hp : p < 32),
        sread blankCell cells ((c1Addrs x.1 x.2)[p]'(by simpa using hp)) = (vectorCells 32 (out x)).getD p blankCell) ∧
      (∀ a, (∀ x ∈ c1Selectors, a ∉ c1Addrs x.1 x.2) → sread blankCell cells a = sread blankCell tr.cells a) := by
  obtain ⟨rs, cells, e1, e2, e3⟩ := c1PassStep.spec c1Selectors (fun x hx => c1Addrs_nodup (mem_c1Selectors.1 hx).2)
    (fun x hx => c1Addrs_lt hx) c1Selectors_disjoint h hc
  refine ⟨rs, cells, ?_, e2, e3⟩
  rw [c1pass, openTrack_of_open h, ok_bind, e1]

/-- What C2PASS leaves: each vector as C2 alone makes it, each outcome counted. -/
theorem c2pass_spec {s : State} {tr : Track} (h : trackOpen s tr) (hc : swf blankCell 4608 tr.cells = true) :
    let out := fun x : Nat × Nat => c2Vector s.cfg (readCells tr (c2Addrs x.1 x.2)) s.rs
    ∃ (rs : RsFile) (cells : Store Flagged),
      c2pass s = .ok ((s.setRs rs).setCur (some { tr with
        cells := cells
        c2Corr := tr.c2Corr + c2Selectors.countP fun x => decide ((out x).status = .corrected)
        c2Unc := tr.c2Unc + c2Selectors.countP fun x => decide ((out x).status = .uncorrectable) })) ∧
      (∀ x ∈ c2Selectors, ∀ p (hp : p < 32),
        sread blankCell cells ((c2Addrs x.1 x.2)[p]'(by simpa using hp)) = (vectorCells 32 (out x)).getD p blankCell) ∧
      (∀ a, (∀ x ∈ c2Selectors, a ∉ c2Addrs x.1 x.2) → sread blankCell cells a = sread blankCell tr.cells a) := by
  obtain ⟨rs, cells, e1, e2, e3⟩ := c2PassStep.spec c2Selectors
    (fun x hx => c2Addrs_nodup (c2Selectors_lt hx).1 (c2Selectors_lt hx).2)
    (fun x hx => c2Addrs_lt hx) c2Selectors_disjoint h hc
  refine ⟨rs, cells, ?_, e2, e3⟩
  rw [c2pass, openTrack_of_open h, ok_bind, e1]

/-- TRKCPL completes on an open Track: the working registers and the Track change, which ends sealed. -/
theorem trkcpl_completes {s : State} {tr : Track} (h : trackOpen s tr) :
    ∃ (rs : RsFile) (k : Track), trkcpl s = .ok ((s.setRs rs).setCur (some k)) ∧ k.isSealed = true ∧
      k.head = tr.head ∧ k.atf3Cnt = tr.atf3Cnt ∧ k.hdrs = tr.hdrs ∧
      (RsListsOk s.rs → RsListsOk rs) ∧ (TrackOk tr → TrackOk k) := by
  obtain ⟨rs1, cells1, c1, u1, e1, e2, e3⟩ := c1pass_completes h
  obtain ⟨tr1, htr1⟩ : ∃ t : Track, t = { tr with cells := cells1, c1Corr := tr.c1Corr + c1, c1Unc := tr.c1Unc + u1 } :=
    ⟨_, rfl⟩
  rw [← htr1] at e1
  have hop1 : trackOpen ((s.setRs rs1).setCur (some tr1)) tr1 := ⟨rfl, by rw [htr1]; exact h.2⟩
  have hok1 : TrackOk tr → TrackOk tr1 := by
    intro ht
    rw [htr1]
    exact ⟨e3 ht, ht.hdrs, ht.pack0, ht.head⟩
  obtain ⟨rs2, cells2, c2, u2, f1, f2, f3⟩ := c2pass_completes hop1
  obtain ⟨tr2, htr2⟩ : ∃ t : Track, t = { tr1 with cells := cells2, c2Corr := tr1.c2Corr + c2, c2Unc := tr1.c2Unc + u2 } :=
    ⟨_, rfl⟩
  rw [← htr2] at f1
  have hop2 : trackOpen ((((s.setRs rs1).setCur (some tr1)).setRs rs2).setCur (some tr2)) tr2 :=
    ⟨rfl, by rw [htr2, htr1]; exact h.2⟩
  have hok2 : TrackOk tr → TrackOk tr2 := by
    intro ht
    have := hok1 ht
    rw [htr2]
    exact ⟨f3 this, this.hdrs, this.pack0, this.head⟩
  obtain ⟨g1, g2⟩ := extractSubcode_same tr2
  obtain ⟨k0, hk0⟩ : ∃ t : Track, t = extractSubcode tr2 := ⟨_, rfl⟩
  rw [← hk0] at g1 g2
  have hop3 : trackOpen (((((s.setRs rs1).setCur (some tr1)).setRs rs2).setCur (some tr2)).setCur (some k0)) k0 :=
    ⟨rfl, by rw [g1]; exact hop2.2⟩
  refine ⟨rs2, { k0 with isSealed := true }, ?_, rfl, ?_, ?_, ?_, ?_, ?_⟩
  · rw [trkcpl, e1, ok_bind, f1, ok_bind, subx_ok hop2, ok_bind, ← hk0]
    simp only [sealTrack, openTrack_of_open hop3, ok_bind]
    rfl
  · show k0.head = _; rw [g1, htr2, htr1]
  · show k0.atf3Cnt = _; rw [g1, htr2, htr1]
  · show k0.hdrs = _; rw [g1, htr2, htr1]
  · intro hl
    exact f2 (e2 hl)
  · intro ht
    have := hok2 ht
    refine ⟨?_, ?_, ?_, ?_⟩
    · show swf blankCell 4608 k0.cells = true; rw [g1]; exact this.cells
    · show swf _ 144 k0.hdrs = true; rw [g1]; exact this.hdrs
    · show k0.pack[0] = none; rw [g2]; exact this.pack0
    · show k0.head ≠ _; rw [g1]; exact this.head

end Sys2Proof.Machine
end

