-- ==== Sys2Proof/Laws/Stream.lean ====
section
/-! SUPPORT. The framer, track stop, blocks, words, bits, symbols and samples (43_clock_recovery.md to 46_framer_frame.md):
what each completes on and what it keeps. -/

namespace Sys2Proof.Machine

open Sys2Proof

/-! ### PAIR and TRACK (46_framer_frame.md R320, R325) -/

theorem frameOf_cells_ok (cfg : Params) (a b : Track) : swf blankCell 5824 (frameOf cfg a b).cells = true := by
  simp only [frameOf]
  exact swf_sbuild _ _ _

/-- PAIR completes; its pair is consumed, and in DDS mode the frame too. -/
theorem pair_completes {s : State} {a b : Track} (hp : s.transit.pair = some (a, b)) (hi : imagesOk s) :
    ∃ t, pair s = .ok t ∧ DdsKeeps s t ∧
      (s.mode = .dat → t.transit = { s.transit with pair := none }) ∧
      (s.mode = .dds → t.transit = { s.transit with pair := none, frame := none, g3 := none, g1 := none }) := by
  rw [pair, object_some hp, ok_bind]
  cases hm : s.mode with
  | dat =>
    simp only [State.setTransit_mode, hm]
    exact ⟨_, rfl, (DdsKeeps.setTransit s _).trans (.emitOut _ _), fun _ => rfl, by simp⟩
  | dds =>
    simp only [State.setTransit_mode, hm]
    obtain ⟨u, hu⟩ : ∃ u, u = (s.setTransit { s.transit with pair := none }).setTransit
        { s.transit with pair := none, frame := some (frameOf s.cfg a b) } := ⟨_, rfl⟩
    have hk : DdsKeeps s u := by rw [hu]; exact (DdsKeeps.setTransit s _).trans (.setTransit _ _)
    obtain ⟨t, e1, e2, e3⟩ := g3dec_completes (s := u) (f := frameOf s.cfg a b) (by rw [hu]; rfl) (hk.images hi)
    refine ⟨t, ?_, hk.trans e3, by simp, ?_⟩
    · rw [← e1, hu]; rfl
    · intro _
      rw [e2, hu]
      rfl

/-- TRACK completes; its Track is consumed, and the framer ends holding it or nothing. -/
theorem track_completes {s : State} {k : Track} (hk : s.transit.track = some k) (hi : imagesOk s) :
    ∃ (t : State) (l : Option Track), track s = .ok t ∧ (l = none ∨ l = some k) ∧ DdsKeeps (s.setLast l) t ∧
      (t.transit = { s.transit with track := none } ∨
       t.transit = { s.transit with track := none, pair := none } ∨
       t.transit = { s.transit with track := none, pair := none, frame := none, g3 := none, g1 := none }) := by
  rw [track, object_some hk, ok_bind]
  simp only [State.setTransit_last]
  cases hl : s.last with
  | none => exact ⟨_, some k, rfl, .inr rfl, .setTransit (s.setLast (some k)) _, .inl rfl⟩
  | some l =>
    simp only
    by_cases hf : isFrame s.mode l k = true
    · rw [if_pos (by simpa using hf)]
      obtain ⟨u, hu⟩ : ∃ u, u = ((s.setTransit { s.transit with track := none }).setLast none).setTransit
          { s.transit with track := none, pair := some (l, k) } := ⟨_, rfl⟩
      have hku : DdsKeeps (s.setLast none) u := by
        rw [hu]; exact (DdsKeeps.setTransit (s.setLast none) _).trans (.setTransit _ _)
      obtain ⟨t, e1, e2, e3, e4⟩ := pair_completes (s := u) (a := l) (b := k) (by rw [hu]; rfl) (hku.images hi)
      refine ⟨t, none, ?_, .inl rfl, hku.trans e2, ?_⟩
      · rw [← e1, hu]; rfl
      · cases hm : u.mode with
        | dat => right; left; rw [e3 hm, hu]; rfl
        | dds => right; right; rw [e4 hm, hu]; rfl
    · rw [if_neg (by simpa using hf)]
      exact ⟨_, some k, rfl, .inr rfl, .setTransit (s.setLast (some k)) _, .inl rfl⟩

/-! ### TRKSTOP (45_block_track.md R282) -/

/-- TRKSTOP with an open Track: the Track it completes, and the state TRACK starts from. -/
theorem trkstop_open {s : State} {tr : Track} (h : trackOpen s tr) (hi : imagesOk s) :
    ∃ (rs : RsFile) (k : Track) (l : Option Track) (t : State),
      trkcpl ((trackIdle s).setCur (some { tr with head := headOf tr.atf3Cnt })) =
        .ok (((trackIdle s).setRs rs).setCur (some k)) ∧
      k.isSealed = true ∧ k.head = headOf tr.atf3Cnt ∧ (TrackOk tr → TrackOk k) ∧ (RsListsOk s.rs → RsListsOk rs) ∧
      trkstop s = .ok t ∧
      track (((((trackIdle s).setRs rs).setCur none).setLastBlk none).setTransit { s.transit with track := some k }) = .ok t ∧
      (l = none ∨ l = some k) ∧
      DdsKeeps ((((((trackIdle s).setRs rs).setCur none).setLastBlk none).setTransit
        { s.transit with track := some k }).setLast l) t ∧
      (t.transit = { s.transit with track := none } ∨
       t.transit = { s.transit with track := none, pair := none } ∨
       t.transit = { s.transit with track := none, pair := none, frame := none, g3 := none, g1 := none }) := by
  have hop : trackOpen ((trackIdle s).setCur (some { tr with head := headOf tr.atf3Cnt })) { tr with head := headOf tr.atf3Cnt } :=
    ⟨rfl, h.2⟩
  obtain ⟨rs, k, e1, e2, e3, -, -, e6, e7⟩ := trkcpl_completes hop
  obtain ⟨u, hu⟩ : ∃ u, u = ((((trackIdle s).setRs rs).setCur none).setLastBlk none).setTransit
      { s.transit with track := some k } := ⟨_, rfl⟩
  obtain ⟨t, l, f1, f2, f3, f4⟩ := track_completes (s := u) (k := k) (by rw [hu]; rfl) (by rw [hu]; exact hi)
  refine ⟨rs, k, l, t, ?_, e2, e3, ?_, e6, ?_, ?_, f2, ?_, ?_⟩
  · rw [e1]; rfl
  · intro ht
    apply e7
    refine ⟨ht.cells, ht.hdrs, ht.pack0, ?_⟩
    show headOf tr.atf3Cnt ≠ .b
    unfold headOf; split <;> decide
  · have hc : (trackIdle s).cur = some tr := h.1
    rw [trkstop]
    simp only [hc]
    rw [e1, ok_bind]
    rw [← f1, hu]
    rfl
  · rw [← hu]; exact f1
  · rw [← hu]; exact f3
  · rw [hu] at f4; exact f4

theorem trkstop_closed {s : State} (h : s.cur = none) : trkstop s = .ok (trackIdle s) := by
  have hc : (trackIdle s).cur = none := h
  rw [trkstop]
  simp only [hc]

/-! ### BLOCK (R276 to R280) -/

theorem mem_blockCells {y : List Flagged} {b : Nat} {e : Nat × Flagged} :
    e ∈ blockCells y b ↔ ∃ i < 32, e = (32 * b + i, y.getD (i + 3) blankCell) := by
  simp only [blockCells, List.mem_map, List.mem_range]
  exact ⟨fun ⟨i, h, e⟩ => ⟨i, h, e.symm⟩, fun ⟨i, h, e⟩ => ⟨i, h, e.symm⟩⟩

@[simp] theorem placeBlock_cells (t : Track) (y : List Flagged) (b : Nat) (ok : Bool) :
    (placeBlock t y b ok).cells = swriteAll blankCell t.cells (blockCells y b) := by
  simp only [placeBlock, Track.writeHdr, Track.writeCells]

@[simp] theorem placeBlock_hdrs (t : Track) (y : List Flagged) (b : Nat) (ok : Bool) :
    (placeBlock t y b ok).hdrs = swrite ⟨false, false, 0⟩ t.hdrs b ⟨true, ok, (y.getD 0 blankCell).v⟩ := by
  simp only [placeBlock, Track.writeHdr, Track.writeCells]

theorem placeBlock_rest (t : Track) (y : List Flagged) (b : Nat) (ok : Bool) :
    placeBlock t y b ok = { t with cells := (placeBlock t y b ok).cells, hdrs := (placeBlock t y b ok).hdrs } := by
  simp only [placeBlock, Track.writeHdr, Track.writeCells]

@[simp] theorem placeBlock_isSealed (t : Track) (y : List Flagged) (b : Nat) (ok : Bool) :
    (placeBlock t y b ok).isSealed = t.isSealed := by
  simp only [placeBlock, Track.writeHdr, Track.writeCells]

theorem placeBlock_ok {t : Track} (h : TrackOk t) (y : List Flagged) {b : Nat} (hb : b < 144) (ok : Bool) :
    TrackOk (placeBlock t y b ok) := by
  refine ⟨?_, ?_, ?_, ?_⟩
  · rw [placeBlock_cells]
    apply swf_swriteAll _ h.cells
    intro e he
    obtain ⟨i, hi, rfl⟩ := mem_blockCells.1 he
    simp only
    omega
  · rw [placeBlock_hdrs]
    exact swf_swrite h.hdrs hb _
  · simp only [placeBlock, Track.writeHdr, Track.writeCells]
    exact h.pack0
  · simp only [placeBlock, Track.writeHdr, Track.writeCells]
    exact h.head

/-- A block placed on a Track: its 32 cells, its header record, nothing else (R279). -/
theorem placeBlock_cell {t : Track} (h : TrackOk t) (y : List Flagged) {b : Nat} (hb : b < 144) (ok : Bool) :
    (∀ i < 32, (placeBlock t y b ok).cell b i = y.getD (i + 3) blankCell) ∧
    (∀ a, a / 32 ≠ b → sread blankCell (placeBlock t y b ok).cells a = sread blankCell t.cells a) := by
  constructor
  · intro i hi
    rw [Track.cell, placeBlock_cells]
    apply sread_swriteAll_mem (blockCells y b) h.cells (e := (32 * b + i, y.getD (i + 3) blankCell))
    · intro e he
      obtain ⟨j, hj, rfl⟩ := mem_blockCells.1 he
      simp only
      omega
    · simp only [blockCells, List.map_map]
      refine List.Nodup.map ?_ List.nodup_range
      intro i j hij
      simp only [Function.comp_apply] at hij
      omega
    · exact mem_blockCells.2 ⟨i, hi, rfl⟩
  · intro a ha
    rw [placeBlock_cells]
    apply sread_swriteAll_ne
    intro e he
    obtain ⟨i, hi, rfl⟩ := mem_blockCells.1 he
    simp only
    omega

theorem placeBlock_hdr {t : Track} (h : TrackOk t) (y : List Flagged) (b : Nat) (ok : Bool) (b' : Nat) :
    (placeBlock t y b ok).hdr b' = if b' = b then ⟨true, ok, (y.getD 0 blankCell).v⟩ else t.hdr b' := by
  rw [Track.hdr, placeBlock_hdrs]
  exact sread_swrite h.hdrs b b' _

theorem legalSucc_iff (k : Fin 144) : legalSucc k.val = true ↔ k.val ≤ 0x7E ∨ (0x80 ≤ k.val ∧ k.val ≤ 0x8E) := by
  simp only [legalSucc, Bool.or_eq_true, decide_eq_true_eq]
  omega

theorem guessFor_lt {l : Option (Fin 144)} {b : Nat} (h : guessFor l = some b) : b < 144 := by
  unfold guessFor at h
  cases l with
  | none => simp at h
  | some k =>
    simp only [Option.bind_some] at h
    split at h
    · next hk => rw [legalSucc_iff] at hk; simp only [Option.some.injEq] at h; omega
    · simp at h

/-- BLOCK, whatever it does: it is refused, or it changes the predecessor and at most cells and headers of the open Track. -/
theorem block_cases {s t : State} (h : block s = .ok t) :
    (s.cur = none ∧ t = s.setLastBlk none) ∨
    ∃ (tr tr' : Track) (l : Option (Fin 144)), s.cur = some tr ∧ tr'.isSealed = tr.isSealed ∧ (TrackOk tr → TrackOk tr') ∧
      t = (s.setCur (some tr')).setLastBlk l := by
  rw [block] at h
  simp only at h
  cases hc : s.cur with
  | none =>
    rw [hc] at h
    cases h
    exact .inl ⟨rfl, rfl⟩
  | some tr =>
    right
    rw [hc] at h
    simp only at h
    split at h
    · obtain ⟨u, hu, h⟩ := bind_eq_ok.1 h
      rw [place] at hu
      obtain ⟨tr0, ho, hu⟩ := bind_eq_ok.1 hu
      have ho := openTrack_eq_ok.1 ho
      cases hu
      cases h
      have : tr0 = tr := by have := ho.1; rw [hc] at this; simpa using this.symm
      subst this
      exact ⟨tr0, _, _, rfl, placeBlock_isSealed _ _ _ _, fun ht => placeBlock_ok ht _ (Fin.isLt _) _, rfl⟩
    · split at h
      · next b hb =>
        obtain ⟨u, hu, h⟩ := bind_eq_ok.1 h
        rw [place] at hu
        obtain ⟨tr0, ho, hu⟩ := bind_eq_ok.1 hu
        have ho := openTrack_eq_ok.1 ho
        cases hu
        cases h
        have : tr0 = tr := by have := ho.1; rw [hc] at this; simpa using this.symm
        subst this
        exact ⟨tr0, _, _, rfl, placeBlock_isSealed _ _ _ _, fun ht => placeBlock_ok ht _ (guessFor_lt hb) _, rfl⟩
      · cases h
        exact ⟨tr, tr, none, rfl, rfl, id, by rw [← hc]; rfl⟩

/-- BLOCK completes when no open Track is sealed. -/
theorem block_completes {s : State} (hc : curUnsealed s) : ∃ t, block s = .ok t := by
  rw [block]
  simp only
  cases h : s.cur with
  | none => exact ⟨_, rfl⟩
  | some tr =>
    simp only
    have ho := openTrack_of_open (s := s) ⟨h, hc tr h⟩
    split
    · simp only [place, ho, ok_bind]; exact ⟨_, rfl⟩
    · split
      · simp only [place, ho, ok_bind]; exact ⟨_, rfl⟩
      · exact ⟨_, rfl⟩

/-! ### WORD (R271) -/

/-- Where WORD stores: a sync word at 0, any other at the index. -/
def wordIndex (sync : Bool) (s : State) : Fin 36 := if sync then 0 else s.asm.widx

theorem word_eq (sync : Bool) (w : LineWord) (s : State) :
    word sync w s =
      if h : (wordIndex sync s).val + 1 < 36 then
        .ok (s.setAsm ⟨s.asm.words.set (wordIndex sync s) w, ⟨(wordIndex sync s).val + 1, h⟩⟩)
      else block (s.setAsm ⟨s.asm.words.set (wordIndex sync s) w, 0⟩) := rfl

theorem word_short {s : State} {sync : Bool} {w : LineWord} (h : (wordIndex sync s).val < 35) :
    word sync w s = .ok (s.setAsm ⟨s.asm.words.set (wordIndex sync s) w, wordIndex sync s + 1⟩) := by
  rw [word_eq]
  rw [dif_pos (show (wordIndex sync s).val + 1 < 36 by omega)]
  have : wordIndex sync s + 1 = ⟨(wordIndex sync s).val + 1, by omega⟩ := by
    apply Fin.ext
    rw [Fin.val_add_one_of_lt]
    show _ < (Fin.last 35).val
    simpa using h
  rw [this]

theorem word_full {s : State} {sync : Bool} {w : LineWord} (h : (wordIndex sync s).val = 35) :
    word sync w s = block (s.setAsm ⟨s.asm.words.set (wordIndex sync s) w, 0⟩) := by
  rw [word_eq]
  rw [dif_neg (show ¬ (wordIndex sync s).val + 1 < 36 by omega)]

/-- WORD completes when no open Track is sealed. -/
theorem word_completes {s : State} (hc : curUnsealed s) (sync : Bool) (w : LineWord) : ∃ t, word sync w s = .ok t := by
  by_cases h : (wordIndex sync s).val < 35
  · exact ⟨_, word_short h⟩
  · rw [word_full (by omega)]
    exact block_completes hc

/-- WORD, whatever it does: block words and index, and then what BLOCK does. -/
theorem word_cases {s t : State} {sync : Bool} {w : LineWord} (h : word sync w s = .ok t) :
    ∃ a : BlockAsm, t = s.setAsm a ∨ block (s.setAsm a) = .ok t := by
  by_cases h0 : (wordIndex sync s).val < 35
  · rw [word_short h0] at h
    exact ⟨_, .inl (Except.ok.inj h).symm⟩
  · rw [word_full (by omega)] at h
    exact ⟨_, .inr h⟩

/-! ### BIT, SYM (44_deframer.md R251, R252) -/

theorem emitWord_cases {s t : State} {o : Option (Bool × LineWord)} (h : emitWord s o = .ok t) :
    ∃ (a : BlockAsm) (more : List HostOut),
      t = (s.setOut (s.out ++ more)).setAsm a ∨ block ((s.setOut (s.out ++ more)).setAsm a) = .ok t := by
  cases o with
  | none => cases h; exact ⟨s.asm, [], .inl (by cases s; simp [State.setOut, State.setAsm])⟩
  | some x =>
    obtain ⟨a, h⟩ := word_cases (s := emitOut s _) h
    exact ⟨a, _, h⟩

/-- What a block leaves alone besides the Track and the predecessor. -/
theorem block_frame {s t : State} (h : block s = .ok t) : t = (s.setCur t.cur).setLastBlk t.lastBlk := by
  rcases block_cases h with ⟨h1, rfl⟩ | ⟨tr, tr', l, h1, -, -, rfl⟩
  · cases s; rfl
  · rfl

/-- BIT completes when no open Track is sealed. -/
theorem bit_completes {s : State} (hc : curUnsealed s) (b : Bool) : ∃ t, bit b s = .ok t := by
  rw [bit]
  obtain ⟨r, hr⟩ : ∃ r, r = frameBit s.dfr b := ⟨_, rfl⟩
  rw [← hr]
  obtain ⟨d, o⟩ := r
  have : ∃ u, emitWord (s.setDfr d) o = .ok u := by
    cases o with
    | none => exact ⟨_, rfl⟩
    | some x => exact word_completes (s := emitOut (s.setDfr d) _) hc x.1 x.2
  obtain ⟨u, hu⟩ := this
  exact ⟨_, by simp only; rw [hu, ok_bind]; rfl⟩

/-- SYM completes when no open Track is sealed. -/
theorem sym_completes {s : State} (hc : curUnsealed s) (v : Bool) : ∃ t, sym v s = .ok t :=
  bit_completes (s := s.setDfr { s.dfr with prevSym := v }) hc _

end Sys2Proof.Machine
end

