-- ==== Sys2Proof/Laws/Keeps.lean ====
section
/-! SUPPORT. What each operation keeps, from an equation that it answers a next state: the host's side of the state and the
canonical form of storage. -/

namespace Sys2Proof.Machine

open Sys2Proof

/-- What every operation besides the GF unit and STOP keeps. -/
structure OpKeeps (s t : State) : Prop where
  cfg : t.cfg = s.cfg
  mode : t.mode = s.mode
  sel : t.sessionSel = s.sessionSel
  images : t.images = s.images
  port : t.port = s.port
  win : t.win = s.win
  gfr : t.gfr = s.gfr
  running : t.running = s.running
  out : ∃ more, t.out = s.out ++ more
  storage : StorageInv s → StorageInv t

theorem OpKeeps.refl (s : State) : OpKeeps s s := ⟨rfl, rfl, rfl, rfl, rfl, rfl, rfl, rfl, ⟨[], by simp⟩, id⟩

theorem OpKeeps.trans {s t u : State} (h1 : OpKeeps s t) (h2 : OpKeeps t u) : OpKeeps s u := by
  obtain ⟨m1, e1⟩ := h1.out
  obtain ⟨m2, e2⟩ := h2.out
  exact ⟨h2.cfg.trans h1.cfg, h2.mode.trans h1.mode, h2.sel.trans h1.sel, h2.images.trans h1.images,
    h2.port.trans h1.port, h2.win.trans h1.win,
    h2.gfr.trans h1.gfr, h2.running.trans h1.running, ⟨m1 ++ m2, by rw [e2, e1, List.append_assoc]⟩,
    fun h => h2.storage (h1.storage h)⟩

/-- An update that leaves the host's side alone and keeps storage. -/
theorem OpKeeps.of_storage {s t : State} (h1 : t.cfg = s.cfg) (h2 : t.mode = s.mode) (h3 : t.sessionSel = s.sessionSel)
    (hi : t.images = s.images) (h4 : t.port = s.port) (h5 : t.win = s.win) (h6 : t.gfr = s.gfr) (h7 : t.running = s.running) (h8 : t.out = s.out)
    (h9 : StorageInv s → StorageInv t) : OpKeeps s t :=
  ⟨h1, h2, h3, hi, h4, h5, h6, h7, ⟨[], by simp [h8]⟩, h9⟩

/-! ### Registers of the RS unit -/

theorem StorageInv.lists {s : State} (h : StorageInv s) : RsListsOk s.rs := ⟨h.nera, h.era, h.cor⟩

theorem StorageInv.setRs {s : State} (h : StorageInv s) {rs : RsFile} (hr : RsListsOk rs) : StorageInv (s.setRs rs) :=
  ⟨h.cur, h.last, h.transitTrack, h.transitPair, h.transitFrame, h.transitG1, h.bg, h.timerRange,
    h.timerRunning, h.timerTrack, h.preRun, h.lastBlk, hr.nera, hr.era, hr.cor⟩

theorem opKeeps_setRs (s : State) {rs : RsFile} (h : RsListsOk s.rs → RsListsOk rs) : OpKeeps s (s.setRs rs) :=
  .of_storage rfl rfl rfl rfl rfl rfl rfl rfl rfl fun hs => hs.setRs (h hs.lists)

theorem rsSyn_lists (cfg : Params) (code : Code) {rs : RsFile} (hl : RsListsOk rs) : RsListsOk (rsSyn cfg code rs) :=
  ⟨hl.nera, hl.era, hl.cor⟩

theorem rsSolve_lists (cfg : Params) (fe : Bool) (code : Code) {rs : RsFile} (hl : RsListsOk rs) :
    RsListsOk (rsSolve cfg fe code rs) := by
  by_cases h : codePar code < rs.nera
  · rw [rsSolve_rejects cfg fe code h]; exact ⟨hl.nera, hl.era, hl.cor⟩
  · rw [rsSolve_solves cfg fe code (by omega)]
    split <;> exact ⟨hl.nera, hl.era, hl.cor⟩

theorem rsEval_lists (cfg : Params) (code : Code) {rs : RsFile} (hl : RsListsOk rs) : RsListsOk (rsEval cfg code rs) := by
  cases h : rs.solveOk
  · rw [rsEval_failed cfg code h]; exact hl
  · rw [rsEval_solved cfg code h]
    have := rootSearch_pairwise (cfg := cfg) (code := code) (sig := fileValues rs.sig (codePar code + 1))
      (omg := fileValues rs.omg (codePar code)) (codePositions code) [] (codePositions_pairwise code) (by simp) (by simp)
    simp only
    split
    · exact ⟨hl.nera, hl.era, this⟩
    · split <;> exact ⟨hl.nera, hl.era, this⟩

theorem rsVfy_lists (cfg : Params) (code : Code) {rs : RsFile} (hl : RsListsOk rs) : RsListsOk (rsVfy cfg code rs) := by
  cases h : rs.solveOk
  · rw [rsVfy_failed cfg code h]; exact ⟨hl.nera, hl.era, hl.cor⟩
  · by_cases hr : (residuals cfg code (fileValues rs.syn (codePar code)) rs.cor).all (· = 0) = true
    · rw [rsVfy_applies cfg code h hr]; exact ⟨hl.nera, hl.era, hl.cor⟩
    · rw [rsVfy_rejects cfg code h hr]; exact ⟨hl.nera, hl.era, hl.cor⟩

theorem onRs_keeps {f : Params → RsFile → RsFile} (hf : ∀ cfg rs, RsListsOk rs → RsListsOk (f cfg rs)) (s : State) :
    OpKeeps s (onRs f s) := opKeeps_setRs s (hf s.cfg s.rs)

/-! ### The open Track -/

theorem StorageInv.setCur {s : State} (h : StorageInv s) {t t' : Track} (hc : s.cur = some t) (ht : TrackOk t → TrackOk t') :
    StorageInv (s.setCur (some t')) := by
  refine ⟨?_, h.last, h.transitTrack, h.transitPair, h.transitFrame, h.transitG1, h.bg, h.timerRange,
    h.timerRunning, ?_, h.preRun, fun _ => rfl, h.nera, h.era, h.cor⟩
  · intro x hx
    rw [State.setCur_cur, Option.some.injEq] at hx
    exact hx ▸ ht (h.cur t hc)
  · have := h.timerTrack
    rw [hc] at this
    exact this

theorem opKeeps_setCur {s : State} {t t' : Track} (hc : s.cur = some t) (ht : TrackOk t → TrackOk t') :
    OpKeeps s (s.setCur (some t')) :=
  .of_storage rfl rfl rfl rfl rfl rfl rfl rfl rfl fun hs => hs.setCur hc ht

theorem StorageInv.setLastBlk {s : State} (h : StorageInv s) {l : Option (Fin 144)} (hl : l.isSome = true → s.cur.isSome = true) :
    StorageInv (s.setLastBlk l) :=
  ⟨h.cur, h.last, h.transitTrack, h.transitPair, h.transitFrame, h.transitG1, h.bg, h.timerRange,
    h.timerRunning, h.timerTrack, h.preRun, hl, h.nera, h.era, h.cor⟩

theorem c1dec_keeps {s t : State} {pr il : Nat} (hp : pr < 72) (hi : il < 2) (h : c1dec pr il s = .ok t) : OpKeeps s t := by
  have h0 := h
  rw [c1dec] at h0
  obtain ⟨tr, ho, -⟩ := bind_eq_ok.1 h0
  have ho := openTrack_eq_ok.1 ho
  have hl := (c1PassStep.lists s.cfg (readCells tr (c1Addrs pr il)) s.rs (by simp)).1
  rw [c1dec_eq ho] at h
  simp only at h
  generalize c1Vector s.cfg (readCells tr (c1Addrs pr il)) s.rs = rs at h hl
  cases h
  refine (opKeeps_setRs s hl).trans (opKeeps_setCur (s := s.setRs rs) ho.1 ?_)
  intro ht
  refine ⟨?_, ht.hdrs, ht.pack0, ht.head⟩
  apply swf_writeBack ht.cells
  intro a ha
  obtain ⟨p, hp', rfl⟩ := mem_c1Addrs.1 ha
  exact c1Addr_lt hp hi hp'

theorem c2dec_keeps {s t : State} {g sl : Nat} (hp : g < 4) (hi : sl < 32) (h : c2dec g sl s = .ok t) : OpKeeps s t := by
  have h0 := h
  rw [c2dec] at h0
  obtain ⟨tr, ho, -⟩ := bind_eq_ok.1 h0
  have ho := openTrack_eq_ok.1 ho
  have hl := (c2PassStep.lists s.cfg (readCells tr (c2Addrs g sl)) s.rs (by simp)).1
  rw [c2dec_eq ho] at h
  simp only at h
  generalize c2Vector s.cfg (readCells tr (c2Addrs g sl)) s.rs = rs at h hl
  cases h
  refine (opKeeps_setRs s hl).trans (opKeeps_setCur (s := s.setRs rs) ho.1 ?_)
  intro ht
  refine ⟨?_, ht.hdrs, ht.pack0, ht.head⟩
  apply swf_writeBack ht.cells
  intro a ha
  obtain ⟨p, hp', rfl⟩ := mem_c2Addrs.1 ha
  exact c2Addr_lt hp hi hp'

theorem c1pass_keeps {s t : State} (h : c1pass s = .ok t) : OpKeeps s t := by
  have h0 := h
  rw [c1pass] at h0
  obtain ⟨tr, ho, -⟩ := bind_eq_ok.1 h0
  have ho := openTrack_eq_ok.1 ho
  obtain ⟨rs, cells, c, u, e1, e2, e3⟩ := c1pass_completes ho
  rw [e1] at h
  cases h
  exact (opKeeps_setRs s e2).trans (opKeeps_setCur (s := s.setRs rs) ho.1 fun ht => ⟨e3 ht, ht.hdrs, ht.pack0, ht.head⟩)

theorem c2pass_keeps {s t : State} (h : c2pass s = .ok t) : OpKeeps s t := by
  have h0 := h
  rw [c2pass] at h0
  obtain ⟨tr, ho, -⟩ := bind_eq_ok.1 h0
  have ho := openTrack_eq_ok.1 ho
  obtain ⟨rs, cells, c, u, e1, e2, e3⟩ := c2pass_completes ho
  rw [e1] at h
  cases h
  exact (opKeeps_setRs s e2).trans (opKeeps_setCur (s := s.setRs rs) ho.1 fun ht => ⟨e3 ht, ht.hdrs, ht.pack0, ht.head⟩)

theorem subx_keeps {s t : State} (h : subx s = .ok t) : OpKeeps s t := by
  have h0 := h
  rw [subx] at h0
  obtain ⟨tr, ho, -⟩ := bind_eq_ok.1 h0
  have ho := openTrack_eq_ok.1 ho
  rw [subx_ok ho] at h
  cases h
  refine opKeeps_setCur ho.1 fun ht => ?_
  obtain ⟨g1, g2⟩ := extractSubcode_same tr
  generalize extractSubcode tr = k at g1 g2 ⊢
  refine ⟨?_, ?_, by rw [g2]; exact ht.pack0, ?_⟩ <;> rw [g1]
  · exact ht.cells
  · exact ht.hdrs
  · exact ht.head

theorem trkcpl_keeps {s t : State} (h : trkcpl s = .ok t) : OpKeeps s t := by
  have h0 := h
  rw [trkcpl] at h0
  obtain ⟨_, h0, -⟩ := bind_eq_ok.1 h0
  obtain ⟨_, h0, -⟩ := bind_eq_ok.1 h0
  obtain ⟨_, h0, -⟩ := bind_eq_ok.1 h0
  rw [c1pass] at h0
  obtain ⟨tr, ho, -⟩ := bind_eq_ok.1 h0
  have ho := openTrack_eq_ok.1 ho
  obtain ⟨rs, k, e1, e2, -, -, -, e6, e7⟩ := trkcpl_completes ho
  rw [e1] at h
  cases h
  exact (opKeeps_setRs s e6).trans (opKeeps_setCur (s := s.setRs rs) ho.1 e7)

theorem atf_keeps {s t : State} {tone : Tone} (h : atf tone s = .ok t) : OpKeeps s t := by
  unfold atf at h
  split at h
  · next tr hc =>
    split at h
    · cases h
    · cases h
      exact opKeeps_setCur hc fun ht => ⟨ht.cells, ht.hdrs, ht.pack0, ht.head⟩
  · cases h; exact .refl _
  · cases h; exact .refl _

/-! ### Blocks and words -/

theorem block_keeps {s t : State} (h : block s = .ok t) : OpKeeps s t := by
  rcases block_cases h with ⟨-, rfl⟩ | ⟨tr, tr', l, hc, -, ht, rfl⟩
  · exact .of_storage rfl rfl rfl rfl rfl rfl rfl rfl rfl fun hs => hs.setLastBlk (by simp)
  · exact (opKeeps_setCur hc ht).trans
      (.of_storage rfl rfl rfl rfl rfl rfl rfl rfl rfl fun hs => hs.setLastBlk fun _ => rfl)

theorem setAsm_keeps (s : State) (a : BlockAsm) : OpKeeps s (s.setAsm a) :=
  .of_storage rfl rfl rfl rfl rfl rfl rfl rfl rfl fun hs =>
    ⟨hs.cur, hs.last, hs.transitTrack, hs.transitPair, hs.transitFrame, hs.transitG1, hs.bg,
      hs.timerRange, hs.timerRunning, hs.timerTrack, hs.preRun, hs.lastBlk, hs.nera, hs.era, hs.cor⟩

theorem word_keeps {s t : State} {sync : Bool} {w : LineWord} (h : word sync w s = .ok t) : OpKeeps s t := by
  obtain ⟨a, rfl | h2⟩ := word_cases h
  · exact setAsm_keeps _ _
  · exact (setAsm_keeps _ _).trans (block_keeps h2)

theorem emitOut_keeps (s : State) (o : HostOut) : OpKeeps s (emitOut s o) :=
  ⟨rfl, rfl, rfl, rfl, rfl, rfl, rfl, rfl, ⟨[o], rfl⟩, fun hs =>
    ⟨hs.cur, hs.last, hs.transitTrack, hs.transitPair, hs.transitFrame, hs.transitG1, hs.bg,
      hs.timerRange, hs.timerRunning, hs.timerTrack, hs.preRun, hs.lastBlk, hs.nera, hs.era, hs.cor⟩⟩

theorem setDfr_keeps (s : State) (d : Deframer) : OpKeeps s (s.setDfr d) :=
  .of_storage rfl rfl rfl rfl rfl rfl rfl rfl rfl fun hs =>
    ⟨hs.cur, hs.last, hs.transitTrack, hs.transitPair, hs.transitFrame, hs.transitG1, hs.bg,
      hs.timerRange, hs.timerRunning, hs.timerTrack, hs.preRun, hs.lastBlk, hs.nera, hs.era, hs.cor⟩

theorem setClk_keeps (s : State) (c : Clock) : OpKeeps s (s.setClk c) :=
  .of_storage rfl rfl rfl rfl rfl rfl rfl rfl rfl fun hs =>
    ⟨hs.cur, hs.last, hs.transitTrack, hs.transitPair, hs.transitFrame, hs.transitG1, hs.bg,
      hs.timerRange, hs.timerRunning, hs.timerTrack, hs.preRun, hs.lastBlk, hs.nera, hs.era, hs.cor⟩

theorem setPre_keeps {s : State} {p : Preamble} (h : s.pre.run ≤ 11 → p.run ≤ 11) : OpKeeps s (s.setPre p) :=
  .of_storage rfl rfl rfl rfl rfl rfl rfl rfl rfl fun hs =>
    ⟨hs.cur, hs.last, hs.transitTrack, hs.transitPair, hs.transitFrame, hs.transitG1, hs.bg,
      hs.timerRange, hs.timerRunning, hs.timerTrack, h hs.preRun, hs.lastBlk, hs.nera, hs.era, hs.cor⟩

/-! ### Bits, symbols -/

theorem trackNew_ok : TrackOk Track.new := ⟨rfl, rfl, rfl, by decide⟩

theorem trkstart_keeps (s : State) : OpKeeps s (trkstart s) :=
  .of_storage rfl rfl rfl rfl rfl rfl rfl rfl rfl fun hs =>
    ⟨fun t ht => by cases ht; exact trackNew_ok, hs.last, hs.transitTrack, hs.transitPair, hs.transitFrame, hs.transitG1,
      hs.bg, Nat.le_refl _, rfl, rfl, hs.preRun, fun h => absurd h (by simp [trkstart]), hs.nera,
      hs.era, hs.cor⟩

theorem preambleBit_run {p : Preamble} (sr : LineWord) (h : p.run ≤ 11) : (preambleBit p sr).1.run ≤ 11 := by
  have hc : Config.preambleRun = 10 := rfl
  unfold preambleBit
  split
  · exact h
  · split
    · have : (if p.run ≤ Config.preambleRun then p.run + 1 else p.run) ≤ 11 := by split <;> omega
      simp only
      generalize (if p.run ≤ Config.preambleRun then p.run + 1 else p.run) = r at this ⊢
      split <;> exact this
    · exact Nat.zero_le _

theorem preambleCheck_keeps (s : State) : OpKeeps s (preambleCheck s) := by
  have h : OpKeeps s (s.setPre (preambleBit s.pre s.dfr.sr).1) := setPre_keeps (preambleBit_run _)
  unfold preambleCheck
  simp only
  split
  · exact h.trans (trkstart_keeps _)
  · exact h

theorem bit_keeps {s t : State} {b : Bool} (h : bit b s = .ok t) : OpKeeps s t := by
  rw [bit] at h
  obtain ⟨u, hu, h⟩ := bind_eq_ok.1 h
  cases h
  refine ((setDfr_keeps s (frameBit s.dfr b).1).trans ?_).trans (preambleCheck_keeps u)
  generalize (frameBit s.dfr b).2 = o at hu
  cases o with
  | none => cases hu; exact .refl _
  | some x => exact (emitOut_keeps _ _).trans (word_keeps hu)

theorem sym_keeps {s t : State} {v : Bool} (h : sym v s = .ok t) : OpKeeps s t :=
  (setDfr_keeps s _).trans (bit_keeps (s := s.setDfr { s.dfr with prevSym := v }) h)

theorem clkev_keeps (s : State) (d : Bool) : OpKeeps s (clkev d s) := by
  cases d
  · exact setDfr_keeps s _
  · exact .refl s

/-! ### DDS and framer -/

/-- The objects in transit in canonical form. -/
structure TransitOk (x : Transit) : Prop where
  track : ∀ t, x.track = some t → TrackOk t ∧ t.isSealed = true
  pair : ∀ a b, x.pair = some (a, b) → TrackOk a ∧ a.isSealed = true ∧ TrackOk b ∧ b.isSealed = true
  frame : ∀ f, x.frame = some f → FrameOk f
  g1 : ∀ g, x.g1 = some g → swf blankCell 5756 g = true

theorem StorageInv.transitOk {s : State} (h : StorageInv s) : TransitOk s.transit :=
  ⟨h.transitTrack, h.transitPair, h.transitFrame, h.transitG1⟩

theorem dds_keeps {s t : State} (h : DdsKeeps s t) (ht : StorageInv s → TransitOk t.transit) : OpKeeps s t := by
  obtain ⟨f1, f2, f3, f4, f5, f6, f7, f8, f9, f10, f11, f12, f13, f14, f15⟩ := h.front
  refine ⟨f1, f2, f3, h.images_eq, f4, f5, f6, f7, h.out, fun hs => ?_⟩
  have hl := h.lists hs.lists
  have htr := ht hs
  refine ⟨?_, ?_, htr.track, htr.pair, htr.frame, htr.g1, h.group hs.bg, ?_,
    ?_, ?_, ?_, ?_, hl.nera, hl.era, hl.cor⟩
  · rw [f13]; exact hs.cur
  · rw [f15]; exact hs.last
  · rw [f9]; exact hs.timerRange
  · rw [f9]; exact hs.timerRunning
  · rw [f9, f13]; exact hs.timerTrack
  · rw [f11]; exact hs.preRun
  · rw [f13, f14]; exact hs.lastBlk

theorem sess_keeps {s t : State} (h : sess s = .ok t) : OpKeeps s t := by
  rw [sess] at h
  obtain ⟨g, -, h⟩ := bind_eq_ok.1 h
  cases h
  exact dds_keeps (.setSess _ _) fun hs => hs.transitOk

theorem dewht_keeps {s t : State} (h : dewht s = .ok t) : OpKeeps s t := by
  rw [dewht] at h
  obtain ⟨f, -, h⟩ := bind_eq_ok.1 h
  cases h
  refine dds_keeps (.setTransit _ _) fun hs => ⟨hs.transitTrack, hs.transitPair, hs.transitFrame, ?_⟩
  intro g hg
  simp only [State.setTransit_transit, Option.some.injEq] at hg
  rw [← hg, dewhiten]
  exact swf_sbuild _ _ _

theorem c3fold_keeps {s t : State} {sels : List (Fin 720 × Bool × Bool)} {g : BasicGroup} (hg : s.bg = some g)
    (h : sels.foldlM (fun s sel => c3dec sel.1 sel.2.1 sel.2.2 s) s = .ok t) : OpKeeps s t := by
  obtain ⟨rs, g', e1, e2, -, e4⟩ := c3fold_completes sels hg
  rw [e1] at h
  cases h
  refine dds_keeps ⟨rfl, ⟨[], by simp⟩, e2, fun h x hx => ?_⟩ fun hs => hs.transitOk
  rw [State.setBg_bg, Option.some.injEq] at hx
  exact hx ▸ e4 (h g hg)

theorem c3dec_keeps {s t : State} {sl : Fin 720} {tp il : Bool} (h : c3dec sl tp il s = .ok t) : OpKeeps s t := by
  have h0 := h
  rw [c3dec] at h0
  obtain ⟨g, hg, -⟩ := bind_eq_ok.1 h0
  apply c3fold_keeps (sels := [(sl, tp, il)]) (activeGroup_eq_ok.1 hg)
  simp only [List.foldlM_cons, List.foldlM_nil, h, ok_bind]
  rfl

theorem c3pass_keeps {s t : State} (h : c3pass s = .ok t) : OpKeeps s t := by
  rw [c3pass] at h
  obtain ⟨g, hg, h⟩ := bind_eq_ok.1 h
  exact c3fold_keeps (activeGroup_eq_ok.1 hg) h

theorem bgfin_keeps {s t : State} (h : bgfin s = .ok t) : OpKeeps s t := by
  obtain ⟨u, e1, -, e3, e4⟩ := bgfin_completes s
  rw [e1] at h
  cases h
  exact dds_keeps e4 fun hs => by rw [e3]; exact hs.transitOk

/-- BEGIN, when it is not refused. -/
theorem beginGroup_dds {s t : State} {id : Nat} (h : beginGroup id s = .ok t) : t.transit = s.transit ∧ DdsKeeps s t := by
  obtain ⟨g, -, rfl, hg⟩ := beginGroup_cases h
  refine ⟨rfl, rfl, ⟨_, rfl⟩, fun h => h, fun _ x hx => ?_⟩
  rw [State.setBg_bg, Option.some.injEq] at hx
  exact hx ▸ hg

/-- BGMERGE, when it is not refused. -/
theorem bgmerge_dds {s t : State} (h : bgmerge s = .ok t) :
    t.transit = { s.transit with g1 := none, g3 := none } ∧ DdsKeeps s t := by
  rw [bgmerge] at h
  obtain ⟨g1, h1, h⟩ := bind_eq_ok.1 h
  obtain ⟨g3, h3, h⟩ := bind_eq_ok.1 h
  simp only at h
  obtain ⟨u, hu, h⟩ := bind_eq_ok.1 h
  obtain ⟨v, hv, h⟩ := bind_eq_ok.1 h
  obtain ⟨g, hg, h⟩ := bind_eq_ok.1 h
  have hg := activeGroup_eq_ok.1 hg
  obtain ⟨u', a1, a2, a3, -⟩ := closeOther_completes s g3.fields.bgId
  rw [a1] at hu
  cases hu
  have hvv : v.transit = u.transit ∧ DdsKeeps u v := by
    unfold ensureGroup at hv
    split at hv
    · exact beginGroup_dds hv
    · cases hv; exact ⟨rfl, .refl _⟩
  obtain ⟨w, hw⟩ : ∃ w, w = (v.setBg (some (placeGroup g3.fields g1 g))).setTransit { v.transit with g1 := none, g3 := none } :=
    ⟨_, rfl⟩
  have hvw : DdsKeeps v w := by
    rw [hw]
    refine ⟨rfl, ⟨[], by simp⟩, fun h => h, ?_⟩
    intro hg' k hk
    rw [State.setTransit_bg, State.setBg_bg, Option.some.injEq] at hk
    exact hk ▸ placeGroup_ok (hg' g hg) _ _
  have htr : w.transit = { s.transit with g1 := none, g3 := none } := by
    rw [hw, State.setTransit_transit, hvv.1, a2]
  have h : (if g3.fields.isLast then bgfin w else .ok w) = .ok t := by rw [hw]; exact h
  split at h
  · obtain ⟨t', c1, -, c3, c4⟩ := bgfin_completes w
    rw [c1] at h
    cases h
    exact ⟨c3.trans htr, (a3.trans (hvv.2.trans hvw)).trans c4⟩
  · cases h
    exact ⟨htr, a3.trans (hvv.2.trans hvw)⟩

theorem bgmerge_keeps {s t : State} (h : bgmerge s = .ok t) : OpKeeps s t := by
  obtain ⟨h1, h2⟩ := bgmerge_dds h
  refine dds_keeps h2 fun hs => ?_
  rw [h1]
  exact ⟨hs.transitTrack, hs.transitPair, hs.transitFrame, fun _ h => by cases h⟩

/-- G3DEC, when it is not refused. -/
theorem g3dec_dds {s t : State} (h : g3dec s = .ok t) :
    t.transit = { s.transit with frame := none, g3 := none, g1 := none } ∧ DdsKeeps s t := by
  rw [g3dec] at h
  obtain ⟨f, hf, h⟩ := bind_eq_ok.1 h
  have hf := object_eq_ok.1 hf
  split at h
  · cases h
    exact ⟨rfl, (DdsKeeps.setReport s _).trans (.setTransit _ _)⟩
  · next d mism _ =>
    simp only at h
    obtain ⟨u, hu, h⟩ := bind_eq_ok.1 h
    cases hu
    generalize hu : (s.setTransit { s.transit with g3 := some ⟨d, none, false⟩ }).setSess (sessNext s.sess d.area) = u at h
    have hu' : u = (s.setTransit { s.transit with g3 := some ⟨d, none, false⟩ }).setSess (sessNext s.sess d.area) := hu.symm
    have hk : DdsKeeps s u := by rw [hu']; exact (DdsKeeps.setTransit s _).trans (.setSess _ _)
    have ht : u.transit = { s.transit with g3 := some ⟨d, none, false⟩ } := by rw [hu']; rfl
    have hend : ∀ kind g, (dropFrame (putReport u kind mism g)).transit = { s.transit with frame := none, g3 := none, g1 := none } ∧
        DdsKeeps s (dropFrame (putReport u kind mism g)) := by
      intro kind g
      refine ⟨?_, (hk.trans (.setReport _ _)).trans (.setTransit _ _)⟩
      simp only [dropFrame, putReport, State.setTransit_transit, State.setReport_transit, ht]
    have h : (if d.area ≠ .data then .ok (dropFrame (putReport u (g3Status f) mism (some ⟨d, none, false⟩)))
        else match headerCheck f d with
          | some kind => .ok (dropFrame (putReport u kind mism (some ⟨d, none, false⟩)))
          | none => g3Accept f d mism u : Res) = .ok t := by rw [← hu]; exact h
    split at h
    · cases h; exact hend _ _
    · split at h
      · cases h; exact hend _ _
      · rw [g3Accept] at h
        simp only at h
        obtain ⟨w, hw, h⟩ := bind_eq_ok.1 h
        rw [dewht] at hw
        obtain ⟨f', -, hw⟩ := bind_eq_ok.1 hw
        have hkw : DdsKeeps s w := by
          cases hw
          exact ((hk.trans (.setTransit _ _)).trans (.setReport _ _)).trans (.setTransit _ _)
        have htw : { w.transit with frame := none, g3 := none, g1 := none } =
            { s.transit with frame := none, g3 := none, g1 := none } := by
          cases hw
          simp only [putReport, State.setTransit_transit, State.setReport_transit, ht]
        split at h
        · obtain ⟨x, hx, h⟩ := bind_eq_ok.1 h
          cases h
          obtain ⟨c1, c2⟩ := bgmerge_dds hx
          refine ⟨?_, (hkw.trans c2).trans (.setTransit _ _)⟩
          simp only [dropFrame, State.setTransit_transit, c1]
          exact htw
        · cases h
          exact ⟨htw, hkw.trans (.setTransit _ _)⟩

theorem g3dec_keeps {s t : State} (h : g3dec s = .ok t) : OpKeeps s t := by
  obtain ⟨h1, h2⟩ := g3dec_dds h
  refine dds_keeps h2 fun hs => ?_
  rw [h1]
  exact ⟨hs.transitTrack, hs.transitPair, fun _ h => (by cases h), fun _ h => (by cases h)⟩

/-- PAIR, when it is not refused. -/
theorem pair_dds {s t : State} (h : pair s = .ok t) :
    DdsKeeps s t ∧ (t.transit = { s.transit with pair := none } ∨
      t.transit = { s.transit with pair := none, frame := none, g3 := none, g1 := none }) := by
  rw [pair] at h
  obtain ⟨ab, -, h⟩ := bind_eq_ok.1 h
  simp only at h
  split at h
  · cases h
    exact ⟨(DdsKeeps.setTransit s _).trans (.emitOut _ _), .inl rfl⟩
  · obtain ⟨h1, h2⟩ := g3dec_dds h
    exact ⟨((DdsKeeps.setTransit s _).trans (.setTransit _ _)).trans h2, .inr h1⟩

theorem pair_keeps {s t : State} (h : pair s = .ok t) : OpKeeps s t := by
  obtain ⟨h1, h2⟩ := pair_dds h
  refine dds_keeps h1 fun hs => ?_
  rcases h2 with h2 | h2 <;> rw [h2]
  · exact ⟨hs.transitTrack, fun _ _ h => (by cases h), hs.transitFrame, hs.transitG1⟩
  · exact ⟨hs.transitTrack, fun _ _ h => (by cases h), fun _ h => (by cases h), fun _ h => (by cases h)⟩

theorem StorageInv.setLast {s : State} (h : StorageInv s) {l : Option Track} (hl : ∀ t, l = some t → TrackOk t ∧ t.isSealed = true) :
    StorageInv (s.setLast l) :=
  ⟨h.cur, hl, h.transitTrack, h.transitPair, h.transitFrame, h.transitG1, h.bg, h.timerRange,
    h.timerRunning, h.timerTrack, h.preRun, h.lastBlk, h.nera, h.era, h.cor⟩

theorem StorageInv.setTransit {s : State} (h : StorageInv s) {x : Transit} (hx : TransitOk x) : StorageInv (s.setTransit x) :=
  ⟨h.cur, h.last, hx.track, hx.pair, hx.frame, hx.g1, h.bg, h.timerRange, h.timerRunning, h.timerTrack,
    h.preRun, h.lastBlk, h.nera, h.era, h.cor⟩

/-- TRACK, when it is not refused: what the framer then holds, and the rest. -/
theorem track_keeps {s t : State} (h : track s = .ok t) :
    OpKeeps s t ∧ t.cur = s.cur ∧ t.lastBlk = s.lastBlk ∧ t.timer = s.timer ∧ t.pre = s.pre ∧ t.clk = s.clk ∧ t.dfr = s.dfr ∧
    (s.transit = { Transit.none with track := s.transit.track } → t.transit = Transit.none) := by
  rw [track] at h
  obtain ⟨k, hk, h⟩ := bind_eq_ok.1 h
  have hk := object_eq_ok.1 hk
  have hst : ∀ l, (StorageInv s → ∀ t, l = some t → TrackOk t ∧ t.isSealed = true) →
      OpKeeps s ((s.setTransit { s.transit with track := none }).setLast l) := fun l hl =>
    .of_storage rfl rfl rfl rfl rfl rfl rfl rfl rfl fun hs =>
      (hs.setTransit (x := { s.transit with track := none })
        ⟨fun _ h => (by cases h), hs.transitPair, hs.transitFrame, hs.transitG1⟩).setLast (hl hs)
  have hkeep : OpKeeps s ((s.setTransit { s.transit with track := none }).setLast (some k)) := by
    apply hst
    intro hs t ht
    rw [Option.some.injEq] at ht
    exact ht ▸ hs.transitTrack k hk
  simp only at h
  split at h
  · cases h
    refine ⟨hkeep, rfl, rfl, rfl, rfl, rfl, rfl, fun hx => ?_⟩
    show ({ s.transit with track := none } : Transit) = _
    rw [hx]; rfl
  · next l hl =>
    have hl : s.last = some l := hl
    split at h
    · obtain ⟨u, hu⟩ : ∃ u, u = ((s.setTransit { s.transit with track := none }).setLast none).setTransit
          { s.transit with track := none, pair := some (l, k) } := ⟨_, rfl⟩
      have h : pair u = .ok t := by rw [hu]; exact h
      have hku : OpKeeps s u := by
        rw [hu]
        refine .of_storage rfl rfl rfl rfl rfl rfl rfl rfl rfl fun hs => ?_
        have ha := hs.last l hl
        have hb := hs.transitTrack k hk
        refine ((hs.setTransit (x := { s.transit with track := none })
          ⟨fun _ h => (by cases h), hs.transitPair, hs.transitFrame, hs.transitG1⟩).setLast (l := none)
            (fun _ h => by cases h)).setTransit ⟨fun _ h => (by cases h), ?_, hs.transitFrame, hs.transitG1⟩
        intro a b hab
        simp only [Option.some.injEq, Prod.mk.injEq] at hab
        obtain ⟨rfl, rfl⟩ := hab
        exact ⟨ha.1, ha.2, hb.1, hb.2⟩
      obtain ⟨c1, c2⟩ := pair_dds h
      obtain ⟨f1, f2, f3, f4, f5, f6, f7, f8, f9, f10, f11, f12, f13, f14, f15⟩ := c1.front
      refine ⟨hku.trans (pair_keeps h), ?_, ?_, ?_, ?_, ?_, ?_, ?_⟩
      · rw [f13, hu]; rfl
      · rw [f14, hu]; rfl
      · rw [f9, hu]; rfl
      · rw [f11, hu]; rfl
      · rw [f8, hu]; rfl
      · rw [f10, hu]; rfl
      · intro hx
        have : u.transit = { s.transit with track := none, pair := some (l, k) } := by rw [hu]; rfl
        rw [this, hx] at c2
        rcases c2 with c2 | c2 <;> exact c2
    · cases h
      refine ⟨hkeep, rfl, rfl, rfl, rfl, rfl, rfl, fun hx => ?_⟩
      show ({ s.transit with track := none } : Transit) = _
      rw [hx]; rfl

/-! ### TRKSTOP, the timer, SAMPLE -/

/-- The state TRKSTOP starts from once the Track is out of the pipeline. -/
theorem StorageInv.idle {s : State} (h : StorageInv s) {rs : RsFile} (hr : RsListsOk rs) {x : Transit} (hx : TransitOk x) :
    StorageInv (((((trackIdle s).setRs rs).setCur none).setLastBlk none).setTransit x) :=
  ⟨fun _ h => (by cases h), h.last, hx.track, hx.pair, hx.frame, hx.g1, h.bg, Nat.zero_le _, rfl, rfl,
    Nat.zero_le _, fun h => absurd h (by simp), hr.nera, hr.era, hr.cor⟩

/-- TRKSTOP, when it is not refused: nothing of the track is left in the pipeline. -/
theorem trkstop_keeps {s t : State} (h : trkstop s = .ok t) :
    OpKeeps s t ∧ t.cur = none ∧ t.timer = ⟨0, false⟩ ∧ t.pre = ⟨0, 0, false⟩ ∧ t.clk = s.clk ∧ t.dfr = s.dfr ∧
    (s.transit = Transit.none → t.transit = Transit.none) := by
  cases hc : s.cur with
  | none =>
    rw [trkstop_closed hc] at h
    cases h
    refine ⟨.of_storage rfl rfl rfl rfl rfl rfl rfl rfl rfl fun hs => ?_, hc, rfl, rfl, rfl, rfl, id⟩
    have hl : s.lastBlk = none := by
      have := hs.lastBlk
      rw [hc] at this
      cases hb : s.lastBlk with
      | none => rfl
      | some b => rw [hb] at this; exact absurd (this rfl) (by simp)
    exact ⟨hs.cur, hs.last, hs.transitTrack, hs.transitPair, hs.transitFrame, hs.transitG1, hs.bg,
      Nat.zero_le _, rfl, by show false = s.cur.isSome; rw [hc]; rfl, Nat.zero_le _, hs.lastBlk, hs.nera, hs.era,
      hs.cor⟩
  | some tr =>
    have h0 := h
    have hci : (trackIdle s).cur = some tr := hc
    rw [trkstop] at h0
    simp only [hci] at h0
    obtain ⟨u, hu, h0⟩ := bind_eq_ok.1 h0
    have hun : trackOpen ((trackIdle s).setCur (some { tr with head := headOf tr.atf3Cnt }))
        { tr with head := headOf tr.atf3Cnt } := by
      have hu' := hu
      rw [trkcpl] at hu'
      obtain ⟨_, hu', -⟩ := bind_eq_ok.1 hu'
      obtain ⟨_, hu', -⟩ := bind_eq_ok.1 hu'
      obtain ⟨_, hu', -⟩ := bind_eq_ok.1 hu'
      rw [c1pass] at hu'
      obtain ⟨t0, ho, -⟩ := bind_eq_ok.1 hu'
      have ho := openTrack_eq_ok.1 ho
      have h1 := ho.1
      rw [State.setCur_cur, Option.some.injEq] at h1
      exact h1 ▸ ho
    obtain ⟨rs, k, e1, e2, e3, -, -, e6, e7⟩ := trkcpl_completes hun
    rw [e1] at hu
    cases hu
    obtain ⟨v, hv⟩ : ∃ v, v = ((((trackIdle s).setRs rs).setCur none).setLastBlk none).setTransit
        { s.transit with track := some k } := ⟨_, rfl⟩
    have h0 : track v = .ok t := by rw [hv]; exact h0
    obtain ⟨c1, c2, -, c4, c5, c6, c7, c8⟩ := track_keeps h0
    have hsv : OpKeeps s v := by
      rw [hv]
      refine .of_storage rfl rfl rfl rfl rfl rfl rfl rfl rfl fun hs => ?_
      refine hs.idle (e6 hs.lists) ⟨?_, hs.transitPair, hs.transitFrame, hs.transitG1⟩
      intro x hx
      rw [Option.some.injEq] at hx
      have ht := hs.cur tr hc
      refine hx ▸ ⟨e7 ⟨ht.cells, ht.hdrs, ht.pack0, ?_⟩, e2⟩
      show headOf tr.atf3Cnt ≠ .b
      unfold headOf; split <;> decide
    refine ⟨hsv.trans c1, ?_, ?_, ?_, ?_, ?_, ?_⟩
    · rw [c2, hv]; rfl
    · rw [c4, hv]; rfl
    · rw [c5, hv]; rfl
    · rw [c6, hv]; rfl
    · rw [c7, hv]; rfl
    · intro hx
      apply c8
      rw [hv]
      show ({ s.transit with track := some k } : Transit) = _
      rw [hx]
      rfl

theorem trackIdle_setTimer (s : State) (x : Timer) : trackIdle (s.setTimer x) = trackIdle s := rfl

/-- TRKSTOP starts by stopping the timer, so it does not matter what the timer was. -/
theorem trkstop_setTimer (s : State) (x : Timer) : trkstop (s.setTimer x) = trkstop s := by
  rw [trkstop, trkstop, trackIdle_setTimer]

theorem timerTick_keeps {s t : State} (h : timerTick s = .ok t) :
    OpKeeps s t ∧ (s.transit = Transit.none → t.transit = Transit.none) ∧ t.clk = s.clk := by
  unfold timerTick at h
  split at h
  · cases h; exact ⟨.refl _, id, rfl⟩
  · rw [trkstop_setTimer] at h
    obtain ⟨h1, -, -, -, h5, -, h7⟩ := trkstop_keeps h
    exact ⟨h1, h7, h5⟩
  · next n hn =>
    cases h
    refine ⟨.of_storage rfl rfl rfl rfl rfl rfl rfl rfl rfl fun hs => ?_, id, rfl⟩
    have hr := hs.timerRange
    have h1 := hs.timerRunning
    have hp : 0 < s.timer.count := by rw [hn]; omega
    exact ⟨hs.cur, hs.last, hs.transitTrack, hs.transitPair, hs.transitFrame, hs.transitG1, hs.bg,
      by show n + 1 ≤ 592704; omega, by show s.timer.running = decide (0 < n + 1); rw [h1]; simp [hn], hs.timerTrack, hs.preRun,
      hs.lastBlk, hs.nera, hs.era, hs.cor⟩

/-- What a stream operation below SAMPLE keeps of the front end: the clock, the objects in transit and the timer, unless it
opens a Track. -/
structure LineKeeps (s t : State) : Prop where
  clk : t.clk = s.clk
  transit : t.transit = s.transit
  bg : t.bg = s.bg
  last : t.last = s.last
  rs : t.rs = s.rs
  images : t.images = s.images
  sealedness : curUnsealed s → curUnsealed t
  timer : t.timer = s.timer ∨ t.timer = ⟨592704, true⟩

theorem LineKeeps.refl (s : State) : LineKeeps s s := ⟨rfl, rfl, rfl, rfl, rfl, rfl, id, .inl rfl⟩

theorem LineKeeps.trans {s t u : State} (h1 : LineKeeps s t) (h2 : LineKeeps t u) : LineKeeps s u := by
  refine ⟨h2.clk.trans h1.clk, h2.transit.trans h1.transit, h2.bg.trans h1.bg, h2.last.trans h1.last, h2.rs.trans h1.rs,
    h2.images.trans h1.images, fun h => h2.sealedness (h1.sealedness h), ?_⟩
  rcases h2.timer with h | h
  · rw [h]; exact h1.timer
  · exact .inr h

theorem block_line {s t : State} (h : block s = .ok t) : LineKeeps s t := by
  rcases block_cases h with ⟨-, rfl⟩ | ⟨tr, tr', l, hc, hs, -, rfl⟩
  · exact ⟨rfl, rfl, rfl, rfl, rfl, rfl, id, .inl rfl⟩
  · refine ⟨rfl, rfl, rfl, rfl, rfl, rfl, ?_, .inl rfl⟩
    intro hu x hx
    rw [State.setLastBlk_cur, State.setCur_cur, Option.some.injEq] at hx
    rw [← hx, hs]
    exact hu tr hc

theorem word_line {s t : State} {sync : Bool} {w : LineWord} (h : word sync w s = .ok t) : LineKeeps s t := by
  obtain ⟨a, h2⟩ := word_cases h
  have h1 : LineKeeps s (s.setAsm a) := ⟨rfl, rfl, rfl, rfl, rfl, rfl, id, .inl rfl⟩
  rcases h2 with rfl | h2
  · exact h1
  · exact h1.trans (block_line h2)

theorem preambleCheck_line (s : State) : LineKeeps s (preambleCheck s) := by
  unfold preambleCheck
  simp only
  split
  · exact ⟨rfl, rfl, rfl, rfl, rfl, rfl, fun _ t ht => by cases ht; rfl, .inr rfl⟩
  · exact ⟨rfl, rfl, rfl, rfl, rfl, rfl, id, .inl rfl⟩

theorem bit_line {s t : State} {b : Bool} (h : bit b s = .ok t) : LineKeeps s t := by
  rw [bit] at h
  obtain ⟨u, hu, h⟩ := bind_eq_ok.1 h
  cases h
  have h0 : LineKeeps s (s.setDfr (frameBit s.dfr b).1) := ⟨rfl, rfl, rfl, rfl, rfl, rfl, id, .inl rfl⟩
  refine (h0.trans ?_).trans (preambleCheck_line u)
  generalize (frameBit s.dfr b).2 = o at hu
  cases o with
  | none => cases hu; exact .refl _
  | some x =>
    have h1 : LineKeeps (s.setDfr (frameBit s.dfr b).1) (emitOut (s.setDfr (frameBit s.dfr b).1) (.wordTap x.1 x.2)) :=
      ⟨rfl, rfl, rfl, rfl, rfl, rfl, id, .inl rfl⟩
    exact h1.trans (word_line hu)

theorem sym_line {s t : State} {v : Bool} (h : sym v s = .ok t) : LineKeeps s t :=
  LineKeeps.trans (t := s.setDfr { s.dfr with prevSym := v }) ⟨rfl, rfl, rfl, rfl, rfl, rfl, id, .inl rfl⟩ (bit_line h)

/-- The timer tick completes on a stream that can run. -/
theorem timerTick_completes {s : State} (hc : curUnsealed s) (hi : imagesOk s) : ∃ t, timerTick s = .ok t := by
  unfold timerTick
  split
  · exact ⟨_, rfl⟩
  · rw [trkstop_setTimer]
    cases h : s.cur with
    | none => exact ⟨_, trkstop_closed h⟩
    | some tr =>
      obtain ⟨_, _, _, t, -, -, -, -, -, h6, -⟩ := trkstop_open (s := s) ⟨h, hc tr h⟩ hi
      exact ⟨t, h6⟩
  · exact ⟨_, rfl⟩

theorem scanStep_cases (s : State) :
    (scanStep s = s.setClk (scanRing s.cfg.fp s.clk).1 ∨
     scanStep s = (s.setClk (scanRing s.cfg.fp s.clk).1).setDfr ⟨0, 0, false, false⟩) := by
  unfold scanStep
  simp only
  cases h : (scanRing s.cfg.fp s.clk).2 with
  | none => exact .inl rfl
  | some d => cases d; exacts [.inr rfl, .inl rfl]

/-- The scan and its event: the clock registers, and a deframer that is reset iff the clock is lost. -/
theorem scanStep_eq (s : State) :
    scanStep s = (s.setClk (scanRing s.cfg.fp s.clk).1).setDfr
      (if s.clk.detected = true ∧ (scanRing s.cfg.fp s.clk).1.detected = false then ⟨0, 0, false, false⟩ else s.dfr) := by
  unfold scanStep scanRing
  by_cases hp : s.clk.pos = s.clk.maxPos
  · simp only [if_pos hp]
    cases hd : s.clk.detected <;> cases clockDetected s.cfg.fp s.clk.e <;> rfl
  · simp only [if_neg hp]
    cases hd : s.clk.detected <;> rfl

/-- A sample step up to the timer: the symbol, the scan and the position. -/
theorem sampleReal_cases {s t : State} {x : Rat} (h : sampleReal x s = .ok t) :
    ∃ u, emitSym (s.setClk (closeSymbol s.cfg.fp (takeSample s.cfg.fp x s.clk)).1)
        (closeSymbol s.cfg.fp (takeSample s.cfg.fp x s.clk)).2 = .ok u ∧
      timerTick (advance (scanStep u)) = .ok t := by
  rw [sampleReal] at h
  obtain ⟨u, hu, h⟩ := bind_eq_ok.1 h
  exact ⟨u, hu, h⟩

theorem emitSym_keeps {s t : State} {o : Option Bool} (h : emitSym s o = .ok t) : OpKeeps s t ∧ LineKeeps s t := by
  cases o with
  | none => cases h; exact ⟨.refl _, .refl _⟩
  | some v => exact ⟨sym_keeps h, sym_line h⟩

theorem scanStep_keeps (s : State) : OpKeeps s (scanStep s) := by
  rcases scanStep_cases s with h | h <;> rw [h]
  · exact setClk_keeps _ _
  · exact (setClk_keeps _ _).trans (setDfr_keeps _ _)

theorem sampleReal_keeps {s t : State} {x : Rat} (h : sampleReal x s = .ok t) :
    OpKeeps s t ∧ (s.transit = Transit.none → t.transit = Transit.none) := by
  obtain ⟨u, hu, h⟩ := sampleReal_cases h
  obtain ⟨h1, h2⟩ := emitSym_keeps hu
  obtain ⟨h3, h4, -⟩ := timerTick_keeps h
  refine ⟨((((setClk_keeps s _).trans h1).trans (scanStep_keeps u)).trans (setClk_keeps _ _)).trans h3, fun hx => h4 ?_⟩
  have hu' : u.transit = Transit.none := by rw [h2.transit]; exact hx
  show (scanStep u).transit = _
  rcases scanStep_cases u with h | h <;> rw [h] <;> exact hu'

/-- SAMPLE completes on a stream that can run. -/
theorem sampleReal_completes {s : State} (h : streamReady s) (x : Rat) : ∃ t, sampleReal x s = .ok t := by
  rw [sampleReal]
  have : ∃ u, emitSym (s.setClk (closeSymbol s.cfg.fp (takeSample s.cfg.fp x s.clk)).1)
      (closeSymbol s.cfg.fp (takeSample s.cfg.fp x s.clk)).2 = .ok u := by
    cases (closeSymbol s.cfg.fp (takeSample s.cfg.fp x s.clk)).2 with
    | none => exact ⟨_, rfl⟩
    | some v =>
      exact sym_completes (s := s.setClk (closeSymbol s.cfg.fp (takeSample s.cfg.fp x s.clk)).1) h.1 v
  obtain ⟨u, hu⟩ := this
  rw [hu, ok_bind]
  obtain ⟨-, h2⟩ := emitSym_keeps hu
  have hc : curUnsealed u := h2.sealedness h.1
  have hi : imagesOk u := by unfold imagesOk; rw [h2.images]; exact h.2
  apply timerTick_completes
  · show curUnsealed (scanStep u)
    rcases scanStep_cases u with h | h <;> rw [h] <;> exact hc
  · show imagesOk (scanStep u)
    rcases scanStep_cases u with h | h <;> rw [h] <;> exact hi

end Sys2Proof.Machine
end

