-- ==== Sys2Proof/Laws/PerInstr.lean ====
section
/-! SUPPORT. Statements made per instruction. EncodingFits: the encoder's word for an instruction lies in that instruction's
row of spec/opcode_table.json, given by a mask and the match under it. -/

namespace Sys2Proof.Laws

open Sys2Proof

/-- The field `mask` of an instruction's row in spec/opcode_table.json. -/
def rowMask : Instr → CmdWord
  | .gfmul _ _ => 0xFFFFFF0000
  | .gfpowa _ => 0xFF00000000
  | .gfinv _ => 0xFFFFFFFF00
  | .gfpeval _ _ => 0xFFFFFFFC00
  | .rssyn _ => 0xFFFFFFFFFC
  | .rssolve _ _ => 0xFFFFFFFEFC
  | .rseval _ => 0xFFFFFFFFFC
  | .rsvfy _ => 0xFFFFFFFFFC
  | .c1dec _ _ => 0xFFFFFFFF00
  | .c2dec _ _ => 0xFFFFFFFF80
  | .c3dec _ _ _ => 0xFFFFFFF000
  | .c1pass => 0xFFFFFFFFFF
  | .c2pass => 0xFFFFFFFFFF
  | .c3pass => 0xFFFFFFFFFF
  | .sample _ => 0xFF00000000
  | .atf _ => 0xFFFFFFFFFC
  | .stop => 0xFFFFFFFFFF
  | .clkev _ => 0xFFFFFFFFFE
  | .sym _ => 0xFFFFFFFFFE
  | .bit _ => 0xFFFFFFFFFE
  | .word _ _ => 0xFFFFFFF800
  | .block => 0xFFFFFFFFFF
  | .trkstart => 0xFFFFFFFFFF
  | .trkstop => 0xFFFFFFFFFF
  | .trkcpl => 0xFFFFFFFFFF
  | .subx => 0xFFFFFFFFFF
  | .track => 0xFFFFFFFFFF
  | .pair => 0xFFFFFFFFFF
  | .g3dec => 0xFFFFFFFFFF
  | .dewht => 0xFFFFFFFFFF
  | .sess => 0xFFFFFFFFFF
  | .bgmerge => 0xFFFFFFFFFF
  | .bgfin => 0xFFFFFFFFFF

/-- The field `match` of an instruction's row in spec/opcode_table.json. -/
def rowMatch : Instr → CmdWord
  | .gfmul _ _ => 0x1000000000
  | .gfpowa _ => 0x1100000000
  | .gfinv _ => 0x1200000000
  | .gfpeval _ _ => 0x1300000000
  | .rssyn _ => 0x2000000000
  | .rssolve _ _ => 0x2100000000
  | .rseval _ => 0x2200000000
  | .rsvfy _ => 0x2300000000
  | .c1dec _ _ => 0x3000000000
  | .c2dec _ _ => 0x3100000000
  | .c3dec _ _ _ => 0x3200000000
  | .c1pass => 0x3300000000
  | .c2pass => 0x3400000000
  | .c3pass => 0x3500000000
  | .sample _ => 0x4000000000
  | .atf _ => 0x4100000000
  | .stop => 0x4200000000
  | .clkev _ => 0x4800000000
  | .sym _ => 0x4900000000
  | .bit _ => 0x4A00000000
  | .word _ _ => 0x4B00000000
  | .block => 0x4C00000000
  | .trkstart => 0x4D00000000
  | .trkstop => 0x4E00000000
  | .trkcpl => 0x5000000000
  | .subx => 0x5100000000
  | .track => 0x5200000000
  | .pair => 0x5300000000
  | .g3dec => 0x6000000000
  | .dewht => 0x6100000000
  | .sess => 0x6200000000
  | .bgmerge => 0x6300000000
  | .bgfin => 0x6400000000

/-- The encoding of `i` has the bits that its row fixes. -/
def EncodingFits.Statement (i : Instr) : Prop := encode i &&& rowMask i = rowMatch i

/-- An operand word that is zero under the mask's low 32 bits makes the encoding fit its row. -/
theorem fits_of_arg {i : Instr} (m : BitVec 32) (hm : rowMask i = 0xFF#8 ++ m) (hx : rowMatch i = opcode i ++ 0#32)
    (h : argOf i &&& m = 0#32) : EncodingFits.Statement i := by
  rw [EncodingFits.Statement, hm, hx, encode, BitVec.and_append, h, show (0xFF#8 : BitVec 8) = BitVec.allOnes 8 from rfl,
    BitVec.and_allOnes]

theorem EncodingFits.gfmul (a : Byte) (b : Byte) : EncodingFits.Statement (.gfmul a b) := by
  apply fits_of_arg (0xFFFF#16 ++ 0#8 ++ 0#8) rfl (by simp only [rowMatch, opcode]; decide)
  show (0#16 ++ a ++ b) &&& (0xFFFF#16 ++ 0#8 ++ 0#8) = 0#32
  rw [BitVec.and_append, BitVec.and_append, BitVec.zero_and, BitVec.and_zero, BitVec.and_zero]
  rfl

theorem EncodingFits.gfpowa (i : BitVec 32) : EncodingFits.Statement (.gfpowa i) :=
  fits_of_arg 0#32 rfl (by simp only [rowMatch, opcode]; decide) BitVec.and_zero

theorem EncodingFits.gfinv (a : Byte) : EncodingFits.Statement (.gfinv a) := by
  apply fits_of_arg (0xFFFFFF#24 ++ 0#8) rfl (by simp only [rowMatch, opcode]; decide)
  show (0#24 ++ a) &&& (0xFFFFFF#24 ++ 0#8) = 0#32
  rw [BitVec.and_append, BitVec.zero_and, BitVec.and_zero]
  rfl

theorem EncodingFits.gfpeval (src : PolySrc) (x : Byte) : EncodingFits.Statement (.gfpeval src x) := by
  apply fits_of_arg (0x3FFFFF#22 ++ 0#2 ++ 0#8) rfl (by simp only [rowMatch, opcode]; decide)
  show (0#22 ++ srcBits src ++ x) &&& (0x3FFFFF#22 ++ 0#2 ++ 0#8) = 0#32
  rw [BitVec.and_append, BitVec.and_append, BitVec.zero_and, BitVec.and_zero, BitVec.and_zero]
  rfl

theorem EncodingFits.rssyn (code : Code) : EncodingFits.Statement (.rssyn code) := by
  cases code <;> rfl

theorem EncodingFits.rssolve (fe : Bool) (code : Code) : EncodingFits.Statement (.rssolve fe code) := by
  cases fe <;> cases code <;> rfl

theorem EncodingFits.rseval (code : Code) : EncodingFits.Statement (.rseval code) := by
  cases code <;> rfl

theorem EncodingFits.rsvfy (code : Code) : EncodingFits.Statement (.rsvfy code) := by
  cases code <;> rfl

theorem EncodingFits.c1dec (blocks : BitVec 7) (il : Bool) : EncodingFits.Statement (.c1dec blocks il) := by
  apply fits_of_arg (0xFFFFFF#24 ++ 0#7 ++ 0#1) rfl (by simp only [rowMatch, opcode]; decide)
  show (0#24 ++ blocks ++ BitVec.ofBool il) &&& (0xFFFFFF#24 ++ 0#7 ++ 0#1) = 0#32
  rw [BitVec.and_append, BitVec.and_append, BitVec.zero_and, BitVec.and_zero, BitVec.and_zero]
  rfl

theorem EncodingFits.c2dec (group : BitVec 2) (slice : BitVec 5) : EncodingFits.Statement (.c2dec group slice) := by
  apply fits_of_arg (0x1FFFFFF#25 ++ 0#2 ++ 0#5) rfl (by simp only [rowMatch, opcode]; decide)
  show (0#25 ++ group ++ slice) &&& (0x1FFFFFF#25 ++ 0#2 ++ 0#5) = 0#32
  rw [BitVec.and_append, BitVec.and_append, BitVec.zero_and, BitVec.and_zero, BitVec.and_zero]
  rfl

theorem EncodingFits.c3dec (slice : BitVec 10) (tp : Bool) (il : Bool) : EncodingFits.Statement (.c3dec slice tp il) := by
  apply fits_of_arg (0xFFFFF#20 ++ 0#10 ++ 0#1 ++ 0#1) rfl (by simp only [rowMatch, opcode]; decide)
  show (0#20 ++ slice ++ BitVec.ofBool tp ++ BitVec.ofBool il) &&& (0xFFFFF#20 ++ 0#10 ++ 0#1 ++ 0#1) = 0#32
  rw [BitVec.and_append, BitVec.and_append, BitVec.and_append, BitVec.zero_and, BitVec.and_zero, BitVec.and_zero, BitVec.and_zero]
  rfl

theorem EncodingFits.c1pass : EncodingFits.Statement (.c1pass) := rfl

theorem EncodingFits.c2pass : EncodingFits.Statement (.c2pass) := rfl

theorem EncodingFits.c3pass : EncodingFits.Statement (.c3pass) := rfl

theorem EncodingFits.sample (bits : BitVec 32) : EncodingFits.Statement (.sample bits) :=
  fits_of_arg 0#32 rfl (by simp only [rowMatch, opcode]; decide) BitVec.and_zero

theorem EncodingFits.atf (tone : Tone) : EncodingFits.Statement (.atf tone) := by
  cases tone <;> rfl

theorem EncodingFits.stop : EncodingFits.Statement (.stop) := rfl

theorem EncodingFits.clkev (d : Bool) : EncodingFits.Statement (.clkev d) := by
  cases d <;> rfl

theorem EncodingFits.sym (v : Bool) : EncodingFits.Statement (.sym v) := by
  cases v <;> rfl

theorem EncodingFits.bit (b : Bool) : EncodingFits.Statement (.bit b) := by
  cases b <;> rfl

theorem EncodingFits.word (sync : Bool) (w : LineWord) : EncodingFits.Statement (.word sync w) := by
  apply fits_of_arg (0x1FFFFF#21 ++ 0#1 ++ 0#10) rfl (by simp only [rowMatch, opcode]; decide)
  show (0#21 ++ BitVec.ofBool sync ++ w) &&& (0x1FFFFF#21 ++ 0#1 ++ 0#10) = 0#32
  rw [BitVec.and_append, BitVec.and_append, BitVec.zero_and, BitVec.and_zero, BitVec.and_zero]
  rfl

theorem EncodingFits.block : EncodingFits.Statement (.block) := rfl

theorem EncodingFits.trkstart : EncodingFits.Statement (.trkstart) := rfl

theorem EncodingFits.trkstop : EncodingFits.Statement (.trkstop) := rfl

theorem EncodingFits.trkcpl : EncodingFits.Statement (.trkcpl) := rfl

theorem EncodingFits.subx : EncodingFits.Statement (.subx) := rfl

theorem EncodingFits.track : EncodingFits.Statement (.track) := rfl

theorem EncodingFits.pair : EncodingFits.Statement (.pair) := rfl

theorem EncodingFits.g3dec : EncodingFits.Statement (.g3dec) := rfl

theorem EncodingFits.dewht : EncodingFits.Statement (.dewht) := rfl

theorem EncodingFits.sess : EncodingFits.Statement (.sess) := rfl

theorem EncodingFits.bgmerge : EncodingFits.Statement (.bgmerge) := rfl

theorem EncodingFits.bgfin : EncodingFits.Statement (.bgfin) := rfl

end Sys2Proof.Laws
end

