-- ==== Sys2Proof/Tests/Slice0.lean ====
section
/-! SUPPORT. Tests of single steps on small states, with results taken from 95_test_vectors.md or worked out from the rules
by hand, and for every statement with hypotheses a state that meets them. -/

namespace Sys2Proof.Tests

open Sys2Proof Sys2Proof.Machine

/-! ### Helpers -/

/-- The next state of an outcome, if it is one. -/
def nextOf (x : Host.Outcome State Fault Refusal) : Option State :=
  match x with
  | .next s => some s
  | .fault _ => none
  | .refused _ => none

/-- A Boolean property that evaluates to true on an outcome's next state holds of it. -/
theorem next_of {x : Host.Outcome State Fault Refusal} {P : State → Bool} (h : (nextOf x).map P = some true) :
    ∃ t, x = .next t ∧ P t = true := by
  cases x with
  | next s => exact ⟨s, rfl, by simpa [nextOf] using h⟩
  | fault _ => simp [nextOf] at h
  | refused _ => simp [nextOf] at h

/-- Reset with inputs waiting. -/
def onPort (xs : List PortInput) : State := { State.reset with port := xs }

/-- Reset with RS registers. -/
def withRs (rs : RsFile) : State := State.reset.setRs rs

/-- Reset with an open Track. -/
def withTrack (t : Track) : State := State.reset.setCur (some t)

/-- A Track whose blocks 0 and 1 hold valid zeros but for the listed (address, byte) pairs, and whose first `bad` cells of
block 0 are invalid. -/
def blockPair (bytes : List (Nat × Byte)) (bad : Nat) : Track :=
  { Track.new with
    cells := (List.range 64).map fun k => (k, ⟨(bytes.lookup k).getD 0, decide (bad ≤ k)⟩) }

/-- RS registers with a syndrome, erasures and the solver's last answer. -/
def rsWith (syn : List Byte) (era : List (Fin 46)) (ok : Bool) (sig omg : List Byte) (cor : List (Fin 46 × Byte)) : RsFile :=
  { RsFile.initial with
    vec := writeFile RsFile.initial.vec (List.replicate 32 0)
    syn := writeFile RsFile.initial.syn syn
    era := era
    nera := era.length
    solveOk := ok
    sig := writeFile RsFile.initial.sig sig
    omg := writeFile RsFile.initial.omg omg
    cor := cor
    code := .c1 }

/-- PRIM_POLY 0x11D is primitive (R131). -/
theorem test_primitive_default : primitive 0x11D :=
  primitive_of_tables (by decide) (by decide) (by decide +kernel)

/-- The zero vector is a codeword of every code (41_rs_solver.md R152). -/
theorem zero_isCodeword (cfg : Params) (code : Code) : isCodeword cfg code fun _ => 0 := by
  intro j _
  unfold paritySum
  induction codePositions code with
  | nil => rfl
  | cons p ps ih =>
    rw [List.map_cons, xorSum_cons, ih]
    simp [gfMul]

/-! ### WellFormed: each check refuses an ill-formed term (30_encoding.md R91, R94) -/

theorem test_wf_refuses_pair_72 : (Instr.c1dec 72 false).wf = false ∧ (Instr.c1dec 71 false).wf = true := by decide

theorem test_wf_refuses_slice_24_of_group_1 :
    (Instr.c2dec 1 24).wf = false ∧ (Instr.c2dec 3 24).wf = false ∧ (Instr.c2dec 1 23).wf = true ∧
      (Instr.c2dec 2 31).wf = true := by decide

theorem test_wf_refuses_slice_720 : (Instr.c3dec 720 false false).wf = false ∧ (Instr.c3dec 719 true true).wf = true := by
  decide

/-! ### Decoding: words written out from 30_encoding.md R91, R92 -/

theorem test_decode_gf :
    decode 0x100000FF80 = .ok (.gfmul 0xFF 0x80) ∧ decode 0x1100000100 = .ok (.gfpowa 0x100) ∧
    decode 0x120000008F = .ok (.gfinv 0x8F) ∧ decode 0x1300000212 = .ok (.gfpeval .omg 0x12) := by decide

theorem test_decode_rs :
    decode 0x2000000002 = .ok (.rssyn .c3) ∧ decode 0x2100000101 = .ok (.rssolve true .c2) ∧
    decode 0x2100000000 = .ok (.rssolve false .c1) ∧ decode 0x2200000001 = .ok (.rseval .c2) ∧
    decode 0x2300000000 = .ok (.rsvfy .c1) := by decide

theorem test_decode_shells :
    decode 0x3000000003 = .ok (.c1dec 1 true) ∧ decode 0x310000005F = .ok (.c2dec 2 31) ∧
    decode 0x3200000006 = .ok (.c3dec 1 true false) ∧ decode 0x3300000000 = .ok .c1pass ∧
    decode 0x3400000000 = .ok .c2pass ∧ decode 0x3500000000 = .ok .c3pass := by decide

theorem test_decode_stream :
    decode 0x40BF800000 = .ok (.sample 0xBF800000) ∧ decode 0x4100000002 = .ok (.atf .tone2) ∧
    decode 0x4200000000 = .ok .stop ∧ decode 0x4800000001 = .ok (.clkev true) ∧
    decode 0x4900000000 = .ok (.sym false) ∧ decode 0x4A00000001 = .ok (.bit true) ∧
    decode 0x4B000002A2 = .ok (.word false 0x2A2) := by decide

theorem test_decode_tracks :
    decode 0x4C00000000 = .ok .block ∧ decode 0x4D00000000 = .ok .trkstart ∧ decode 0x4E00000000 = .ok .trkstop ∧
    decode 0x5000000000 = .ok .trkcpl ∧ decode 0x5100000000 = .ok .subx ∧ decode 0x5200000000 = .ok .track ∧
    decode 0x5300000000 = .ok .pair := by decide

theorem test_decode_dds :
    decode 0x6000000000 = .ok .g3dec ∧ decode 0x6100000000 = .ok .dewht ∧ decode 0x6200000000 = .ok .sess ∧
    decode 0x6300000000 = .ok .bgmerge ∧ decode 0x6400000000 = .ok .bgfin := by decide

theorem test_decode_reserved :
    decode 0x1000010000 = .error (.reservedBits 0x10) ∧ decode 0x2000000003 = .error (.reservedField 0x20) ∧
    decode 0x4100000001 = .error (.reservedField 0x41) ∧ decode 0x3000000090 = .error (.reservedField 0x30) ∧
    decode 0x6400000001 = .error (.reservedBits 0x64) ∧ decode 0x1400000000 = .error (.reservedOpcode 0x14) := by decide

theorem test_decode_table_word : decodeTableWord 40 0x300000008F = some (.c1dec 71 true) := by decide

/-! ### The GF unit and the solver: 95_test_vectors.md V-GF-2 to V-GF-5, V-C1-4, V-C1-7 -/

theorem test_gfmul : (nextOf (exec (.gfmul 0x53 0xCA) State.reset)).map (·.gfr) = some 0x8F := by decide +kernel

theorem test_gfpowa_wraps : (nextOf (exec (.gfpowa 255) State.reset)).map (·.gfr) = some 0x01 := by decide +kernel

theorem test_gfinv : (nextOf (exec (.gfinv 0x53) State.reset)).map (·.gfr) = some 0x8C := by decide +kernel

theorem test_gfpeval :
    (nextOf (exec (.gfpeval .sig 0x02) (withRs (rsWith [] [] true [0x01, 0xC1, 0xC0, 0, 0] [] [])))).map (·.gfr) =
      some 0xB9 := by decide +kernel

theorem test_rssyn :
    (nextOf (exec (.rssyn .c1) (withRs { RsFile.initial with
      vec := writeFile RsFile.initial.vec (List.replicate 31 0 ++ [1]) }))).map
        (fun t => (fileValues t.rs.syn 4, t.rs.status)) = some ([1, 1, 1, 1], .uncorrectable) := by decide +kernel

theorem test_rssolve :
    (nextOf (exec (.rssolve true .c1) (withRs (rsWith [1, 1, 1, 1] [] false [] [] [])))).map
      (fun t => (fileValues t.rs.sig 5, fileValues t.rs.omg 4)) = some ([1, 1, 0, 0, 0], [1, 0, 0, 0]) := by decide +kernel

theorem test_rseval :
    (nextOf (exec (.rseval .c1) (withRs (rsWith [] [] true [1, 1, 0, 0, 0] [1, 0, 0, 0] [])))).map
      (fun t => (t.rs.cor, t.rs.ncor)) = some ([(31, 1)], 1) := by decide +kernel

theorem test_rsvfy :
    (nextOf (exec (.rsvfy .c1) (withRs (rsWith [1, 1, 1, 1] [] true [] [] [(31, 1)])))).map
      (fun t => (t.rs.vec[31], t.rs.status)) = some (1, .corrected) := by decide +kernel

/-! ### The shells (42_codec_shells.md R182 to R187) -/

/-- One error in the even vector of pair 0 (position 31 is byte 30 of block 1): corrected, all flags true. -/
theorem test_c1dec_one_error :
    (nextOf (exec (.c1dec 0 false) (withTrack (blockPair [(62, 1)] 0)))).map
      (fun t => (t.rs.status, t.rs.ncor, t.cur.map fun k => (k.cell 1 30, k.cell 0 0))) =
        some (.corrected, 1, some (⟨0, true⟩, ⟨0, true⟩)) := by decide +kernel

/-- Two errors (V-C1-6: positions 29 and 30): corrected, and all flags of the vector false. -/
theorem test_c1dec_two_errors :
    (nextOf (exec (.c1dec 0 false) (withTrack (blockPair [(58, 1), (60, 0x80)] 0)))).map
      (fun t => (t.rs.status, t.rs.ncor, t.cur.map fun k => (k.cell 1 26, k.cell 1 28, k.cell 0 1))) =
        some (.corrected, 2, some (⟨0, false⟩, ⟨0, false⟩, ⟨0, true⟩)) := by decide +kernel

/-- Seven erasures: uncorrectable (V-C2-5). -/
theorem test_c2dec_too_many :
    (nextOf (exec (.c2dec 0 0) (withTrack Track.new))).map (fun t => (t.rs.status, t.rs.nera)) =
      some (.uncorrectable, 32) := by decide +kernel

/-! ### The stream (43_clock_recovery.md to 45_block_track.md): V-CLK-2, V-CLK-3, V-DFR-1, V-DFR-2 -/

theorem test_sample_zero :
    (nextOf (exec (.sample 0) State.reset)).map (fun t => (t.clk.pos, t.clk.maxPos, t.clk.nextSyncPos, t.clk.detected)) =
      some (1, 0, 4, false) := by decide +kernel

theorem test_sample_nan : exec (.sample 0x7FC00000) State.reset = .refused .nonFiniteSample := by
  simp only [exec, execSample]
  rw [if_neg (by decide)]

theorem test_bit_finds_sync :
    (nextOf (exec (.bit true) (State.reset.setDfr ⟨0x088, 3, false, false⟩))).map
      (fun t => (t.dfr, t.out, t.asm.widx)) = some (⟨0x111, 0, true, false⟩, [.wordTap true 0x111], 1) := by decide +kernel

theorem test_bit_declares_preamble :
    (nextOf (exec (.bit true) ((State.reset.setDfr ⟨0x1FF, 9, false, false⟩).setPre ⟨9, 10, false⟩))).map
      (fun t => (t.pre, t.timer, t.cur)) = some (⟨0, 11, true⟩, ⟨592704, true⟩, some Track.new) := by decide +kernel

theorem test_sym_is_a_change :
    (nextOf (exec (.sym true) State.reset)).map (fun t => (t.dfr.sr, t.dfr.prevSym)) = some (1, true) := by decide +kernel

theorem test_atf :
    (nextOf (exec (.atf .tone3) (withTrack Track.new))).map (fun t => t.cur.map (·.atf3Cnt)) = some (some 1) := by
  decide +kernel

theorem test_guess_rule :
    guessFor (some 5) = some 6 ∧ guessFor (some 127) = none ∧ guessFor (some 0x87) = some 0x88 ∧
      guessFor (some 143) = none ∧ guessFor none = none := by decide

theorem test_blkno_default : blknoDefault 0x7F = 127 ∧ blknoDefault 0x87 = 135 ∧ blknoDefault 0x8F = 143 := by decide

/-- A subcode block with one good item: identifier 1, its pack, its signature slot (R288 to R291). -/
theorem test_subx_latches_item :
    (nextOf (exec .subx (withTrack { Track.new with
      cells := (List.range 8).map fun m =>
        (32 * 128 + m, ⟨[0x10, 0x11, 0x12, 0x13, 0x14, 0x15, 0x16, 0x17].getD m 0, true⟩) }))).map
          (fun t => t.cur.map fun k => (k.pack[1].isSome, k.pack[0].isSome, k.sig[0])) =
        some (some (true, false, some 1)) := by decide +kernel

/-! ### The framer and DDS: V-FRM-2, V-SESS-1, V-BG-1 -/

theorem test_track_without_packs_is_kept :
    (nextOf (exec .track ((State.reset.setLast (some Track.new)).setTransit
      { Transit.none with track := some { Track.new with isSealed := true, atf3Cnt := 7 } }))).map
        (fun t => (t.last.map (·.atf3Cnt), t.transit)) = some (some 7, Transit.none) := by decide +kernel

theorem test_sess_eot_to_data :
    sessNext ⟨.eot, 0⟩ .data = ⟨.data, 1⟩ ∧ sessNext ⟨.data, 1⟩ .system = ⟨.data, 1⟩ ∧ sessNext ⟨.data, 1⟩ .eod = ⟨.eot, 1⟩ ∧
      sessNext ⟨.eot, 1⟩ .eod = ⟨.eot, 1⟩ := by decide

theorem test_merge_laws :
    mergeCell ⟨0x00, false⟩ ⟨0x5A, true⟩ = (⟨0x5A, true⟩, 0) ∧ mergeCell ⟨0x5A, true⟩ ⟨0x5A, true⟩ = (⟨0x5A, true⟩, 0) ∧
    mergeCell ⟨0x5A, true⟩ ⟨0x5B, true⟩ = (⟨0x5A, true⟩, 1) ∧ mergeCell ⟨0x5A, true⟩ ⟨0x77, false⟩ = (⟨0x5A, true⟩, 0) ∧
    mergeCell ⟨0x33, false⟩ ⟨0x77, false⟩ = (⟨0x77, false⟩, 0) := by decide

theorem test_lfid_byte :
    lfidByte ⟨0, .data, 0, 7, 5, true, true, 0, 0, 0, Vector.replicate 4 0⟩ = 0xC5 := by decide

theorem test_stop_ends_run :
    (nextOf (exec .stop { State.reset with running := true, timer := ⟨5, true⟩ })).map (fun t => (t.running, t.timer, t.out)) =
      some (false, ⟨0, false⟩, [.sinkFlush]) := by decide +kernel

theorem test_step_runs_table_word :
    (nextOf (step (State.reset.withFetchWord 40 0x4D00000000))).map (fun t => (t.timer, t.port, t.running)) =
      some (⟨592704, true⟩, [], true) := by decide +kernel

theorem test_step_refuses_host_event :
    step (onPort [.command .host 0x6400000000]) = .refused .eventFromHost := rfl

/-! ### Witnesses: for every statement of Certificates/Slice0/Obligations.lean with hypotheses, a state and operands that meet
them; where its clauses differ by a range or a case, one for each -/

theorem test_witness_DecodeEncodeRoundTrip :
    (Instr.c1dec 71 true).wf = true ∧ (Instr.c2dec 3 23).wf = true ∧ (Instr.c2dec 2 31).wf = true ∧
      (Instr.c3dec 719 true true).wf = true ∧ decode 0x3200000B3F = .ok (.c3dec 719 true true) := by decide

theorem test_witness_ReservedWordsAreRefused :
    decode 0x3000000090 = .error (.reservedField 0x30) ∧
    (onPort [.command .host 0x3000000090]).port = .command .host 0x3000000090 :: [] ∧
    (Instr.bgfin ∈ [Instr.block, .trkcpl, .subx, .track, .pair, .g3dec, .dewht, .sess, .bgmerge, .bgfin] ∧
      (onPort [.command .host (encode .bgfin)]).port = .command .host (encode .bgfin) :: []) ∧
    ∀ i : Instr, opcode i ≠ opField 0x6500000000 := by
  refine ⟨by decide, rfl, ⟨by decide, rfl⟩, fun i => ?_⟩
  cases i <;> simp only [opcode] <;> decide

theorem test_witness_StepRunsDecodedCommand :
    (onPort [.command .host 0x4D00000000, .reset]).port = .command .host 0x4D00000000 :: [.reset] ∧
    decode 0x4D00000000 = .ok .trkstart ∧ Instr.trkstart.eventOnly = false ∧
    (onPort [.command .rule 0x4C00000000]).port = .command .rule 0x4C00000000 :: [] ∧
    decode 0x4C00000000 = .ok .block := ⟨rfl, by decide, rfl, rfl, by decide⟩

theorem test_witness_ConfigurationWrites :
    State.reset.port = [] ∧
    (∃ s : State, s.port = .writeMode .dds :: [] ∧ s.cur = none ∧ s.last = none ∧ s.running = false) ∧
    (∃ s : State, s.port = .writeMode .dds :: [] ∧ s.cur.isSome = true) ∧
    (∃ s : State, s.port = .writeMode .dds :: [] ∧ s.last.isSome = true) ∧
    (∃ s : State, s.port = .writeMode .dds :: [] ∧ s.cur = none ∧ s.last = none ∧ s.running = true) ∧
    (∃ s : State, s.port = .writeSessionSel 1 :: [] ∧ s.running = false) ∧
    (∃ s : State, s.port = .writeSessionSel 1 :: [] ∧ s.running = true) ∧
    (∃ s : State, s.port = .supply Config.defaults :: [] ∧ s.running = false) ∧
    (∃ s : State, s.port = .supply Config.defaults :: [] ∧ s.running = true) ∧
    (∃ s : State, s.port = .images [] :: []) :=
  ⟨rfl, ⟨onPort [.writeMode .dds], rfl, rfl, rfl, rfl⟩,
    ⟨(onPort [.writeMode .dds]).setCur (some Track.new), rfl, rfl⟩,
    ⟨(onPort [.writeMode .dds]).setLast (some Track.new), rfl, rfl⟩,
    ⟨(onPort [.writeMode .dds]).setRunning true, rfl, rfl, rfl, rfl⟩,
    ⟨onPort [.writeSessionSel 1], rfl, rfl⟩, ⟨(onPort [.writeSessionSel 1]).setRunning true, rfl, rfl⟩,
    ⟨onPort [.supply Config.defaults], rfl, rfl⟩, ⟨(onPort [.supply Config.defaults]).setRunning true, rfl, rfl⟩,
    ⟨onPort [.images []], rfl⟩⟩

theorem test_witness_ResetInputRestoresResetValues :
    ({ withTrack Track.new with port := [.reset], running := true } : State).port = .reset :: [] := rfl

theorem test_witness_GfmulGfpowaGfinvFollowTheField : primitive State.reset.cfg.primPoly ∧ (0xFF : Byte) ≠ 0 :=
  ⟨test_primitive_default, by decide⟩

theorem test_witness_GfpevalEvaluatesPolynomial : primitive State.reset.cfg.primPoly := test_primitive_default

theorem test_witness_FieldLaws : primitive 0x11D := test_primitive_default

theorem test_witness_RssynComputesSyndrome :
    (isCodeword State.reset.cfg .c1 fun p => State.reset.rs.vec[p]) ∧
    (let s := withRs { RsFile.initial with vec := writeFile RsFile.initial.vec (List.replicate 31 0 ++ [1]) }
     ¬ isCodeword s.cfg .c2 fun p => s.rs.vec[p]) := by
  simp only [isCodeword]
  decide +kernel

/-- Five erasures in a code with 2t = 4, and three in one with 2t = 2. -/
theorem test_witness_RssolveRejectsTooManyErasures :
    codePar .c1 < (withRs (rsWith [] [0, 1, 2, 3, 4] false [] [] [])).rs.nera ∧
    codePar .c3 < (withRs (rsWith [] [0, 1, 2] false [] [] [])).rs.nera := by decide

/-- The largest number of erasures, 2t = 6 in C2. -/
theorem test_witness_RssolveErasuresOnly :
    (let s := withRs (rsWith [1, 2, 3, 4, 5, 6] [0, 1, 2, 3, 4, 31] false [] [] [])
     primitive s.cfg.primPoly ∧ s.rs.nera = s.rs.era.length ∧ s.rs.era.length ≤ codePar .c2) :=
  ⟨test_primitive_default, rfl, by decide⟩

/-- The syndrome 1 1 1 1 without erasures, which Lambda = 1 + x solves; the syndrome 0 1 with none, which no Lambda of degree 1
solves. -/
theorem test_witness_RssolveFindsErrorLocator :
    (let s := withRs (rsWith [1, 1, 1, 1] [] false [] [] [])
     primitive s.cfg.primPoly ∧ s.rs.nera = s.rs.era.length ∧ s.rs.era.length ≤ codePar .c1 ∧
      keyLocator s.cfg .c1 s.rs.era (fileValues s.rs.syn (codePar .c1)) [1, 1]) ∧
    (let s := withRs (rsWith [0, 1] [] false [] [] [])
     s.rs.nera = s.rs.era.length ∧ s.rs.era.length ≤ codePar .c3 ∧
      ∀ lam, ¬ keyLocator s.cfg .c3 s.rs.era (fileValues s.rs.syn (codePar .c3)) lam) := by
  refine ⟨⟨test_primitive_default, rfl, by decide, ?_⟩, rfl, by decide, ?_⟩
  · unfold keyLocator
    decide +kernel
  · rintro lam ⟨h0, -, h2⟩
    have h := h2 1 (by decide) (by decide)
    have e0 : productCoeff Config.defaults.primPoly (gammaPoly Config.defaults .c3 []) lam 0 = 1 := by
      show xorSum [gfMul Config.defaults.primPoly 1 (lam.getD 0 0)] = 1
      rw [h0]
      decide +kernel
    have hz : ∀ a, gfMul Config.defaults.primPoly a 0 = 0 := by intro a; simp [gfMul]
    have e1 : productCoeff Config.defaults.primPoly
        ((List.range (codePar .c3 + 1)).map (productCoeff Config.defaults.primPoly (gammaPoly Config.defaults .c3 []) lam))
        [0, 1] 1 = 1 := by
      show xorSum [gfMul Config.defaults.primPoly
          (productCoeff Config.defaults.primPoly (gammaPoly Config.defaults .c3 []) lam 0) 1,
        gfMul Config.defaults.primPoly (productCoeff Config.defaults.primPoly (gammaPoly Config.defaults .c3 []) lam 1) 0] = 1
      rw [e0, hz]
      decide +kernel
    have h' : productCoeff Config.defaults.primPoly
        ((List.range (codePar .c3 + 1)).map (productCoeff Config.defaults.primPoly (gammaPoly Config.defaults .c3 []) lam))
        [0, 1] 1 = 0 := h
    rw [e1] at h'
    exact absurd h' (by decide)

/-- A failed solve; a locator with the simple root 31; one of degree 2 whose roots are no positions; the square 1 + x^2, whose
root is repeated. -/
theorem test_witness_RsevalFindsRootsAndValues :
    (withRs (rsWith [] [] false [] [] [])).rs.solveOk = false ∧
    (let s := withRs (rsWith [] [] true [1, 1, 0, 0, 0] [1, 0, 0, 0] [])
     let sig := fileValues s.rs.sig (codePar .c1 + 1)
     s.rs.solveOk = true ∧ (codePositions .c1).filter (vanishesAt s.cfg .c1 sig) = [31] ∧
      derivativeAt s.cfg .c1 sig 31 ≠ 0 ∧ sig.getD 1 0 ≠ 0 ∧ sig.drop 2 = [0, 0, 0]) ∧
    (let s := withRs (rsWith [] [] true [1, 0, 0, 0, 1] [1, 0, 0, 0] [])
     s.rs.solveOk = true ∧ (fileValues s.rs.sig (codePar .c1 + 1)).getD 4 0 ≠ 0) ∧
    (let s := withRs (rsWith [] [] true [1, 0, 1, 0, 0] [1, 0, 0, 0] [])
     let sig := fileValues s.rs.sig (codePar .c1 + 1)
     s.rs.solveOk = true ∧ ∃ p ∈ (codePositions .c1).filter (vanishesAt s.cfg .c1 sig), derivativeAt s.cfg .c1 sig p = 0) := by
  decide +kernel

/-- The residual of syndrome `j` after the predicted corrections, as the statement writes it. -/
def residualOf (s : State) (j : Fin 6) : Byte :=
  s.rs.syn[j] ^^^ xorSum (s.rs.cor.map fun pe =>
    gfMul s.cfg.primPoly pe.2 (gfPow s.cfg.primPoly (locOf s.cfg .c1 pe.1 * (s.cfg.fcr + (j.val : Int)))))

/-- V-C1-4 after RSEVAL: the correction (31, 01) for the syndrome 01 01 01 01. -/
def vfyGood : State := withRs (rsWith [1, 1, 1, 1] [] true [] [] [(31, 1)])

/-- The same syndrome with no correction. -/
def vfyBad : State := withRs (rsWith [1, 1, 1, 1] [] true [] [] [])

/-- A failed solve; a correction that takes the residual to zero; none where the syndrome is not zero. -/
theorem test_witness_RsvfyVerifiesThenApplies :
    (withRs (rsWith [] [] false [] [] [])).rs.solveOk = false ∧
    (vfyGood.rs.solveOk = true ∧ ∀ j : Fin 6, j.val < codePar .c1 → residualOf vfyGood j = 0) ∧
    (vfyBad.rs.solveOk = true ∧ ∃ j : Fin 6, j.val < codePar .c1 ∧ residualOf vfyBad j ≠ 0) := by
  refine ⟨rfl, ⟨rfl, ?_⟩, rfl, 0, by decide, by decide +kernel⟩
  decide +kernel

/-! #### Tracks -/

/-- A blank Track has 32 bad flags in every vector; a pair of valid zero blocks has none and is a codeword. -/
theorem test_witness_C1decDecodesOneVector :
    (trackOpen (withTrack Track.new) Track.new ∧ TrackOk Track.new ∧ (71 : BitVec 7).toNat ≤ 71 ∧
      4 < ((List.range 32).map (c1Addr 71 1)).countP fun a => !(sread blankCell Track.new.cells a).ok) ∧
    (trackOpen (withTrack (blockPair [] 0)) (blockPair [] 0) ∧ TrackOk (blockPair [] 0) ∧
      ((List.range 32).map (c1Addr 0 0)).countP (fun a => !(sread blankCell (blockPair [] 0).cells a).ok) ≤ 4 ∧
      isCodeword State.reset.cfg .c1 fun p => (sread blankCell (blockPair [] 0).cells (c1Addr 0 0 p.val)).v) := by
  refine ⟨⟨⟨rfl, rfl⟩, trackNew_ok, by decide, by decide⟩, ⟨rfl, rfl⟩, ⟨by decide +kernel, rfl, rfl, by decide⟩, by decide +kernel, ?_⟩
  simp only [isCodeword]
  decide +kernel

/-- The last slice of group 3, and of group 2. -/
theorem test_witness_C2decDecodesOneVector :
    trackOpen (withTrack Track.new) Track.new ∧ TrackOk Track.new ∧
    ((3 : BitVec 2).toNat % 2 = 0 ∨ (23 : BitVec 5).toNat ≤ 23) ∧ ((2 : BitVec 2).toNat % 2 = 0 ∨ (31 : BitVec 5).toNat ≤ 23) ∧
    6 < ((List.range 32).map (c2Addr 3 23)).countP fun a => !(sread blankCell Track.new.cells a).ok :=
  ⟨⟨rfl, rfl⟩, trackNew_ok, by decide, by decide, by decide⟩

/-- f of selector (719, 1, 1) given by the host: 0 for even positions, 1 for odd ones, and no fixed position. -/
def c3Given : Params :=
  { Config.defaults with
    c3offset := [(⟨719, true, true, false⟩, 0), (⟨719, true, true, true⟩, 1)]
    c3fixed := (List.finRange 46).map fun p => (⟨719, true, true, p⟩, none) }

/-- The geometry of R190: position 43 is in sub-group 21, positions 44 and 45 in the ECC region. -/
theorem test_c3_geometry :
    c3CellOf c3Given ⟨719, true, true, 0⟩ = .main 0 ∧ c3CellOf c3Given ⟨719, true, true, 43⟩ = .main 120877 ∧
    c3CellOf c3Given ⟨719, true, true, 44⟩ = .ecc 0 ∧ c3CellOf c3Given ⟨719, true, true, 45⟩ = .ecc 1 := by decide +kernel

theorem test_witness_C3decDecodesOneVector :
    let s : State := { State.reset with cfg := c3Given, bg := some ⟨7, [], [], 0⟩ }
    s.bg = some ⟨7, [], [], 0⟩ ∧ GroupOk ⟨7, [], [], 0⟩ ∧ (719 : BitVec 10).toNat < 720 ∧
    2 < (c3Refs s.cfg 719 true true).countP fun r => !(readC3 ⟨7, [], [], 0⟩ r).ok :=
  ⟨rfl, ⟨rfl, rfl⟩, by decide, by decide +kernel⟩

/-- With valid zeros in those cells the vector is accepted. -/
theorem test_c3dec_accepts :
    let s : State := { State.reset with
      cfg := c3Given
      bg := some ⟨7, (List.range 44).map fun k => (k / 2 * 5756 + k % 2, ⟨0, true⟩), [(0, ⟨0, true⟩), (1, ⟨0, true⟩)], 0⟩ }
    (nextOf (exec (.c3dec 719 true true) s)).map (fun t => t.rs.status) = some .noErrors := by decide +kernel

theorem test_witness_AcceptedVectorsAreCodewords :
    let s := withTrack (blockPair [] 0)
    ∃ t k, primitive s.cfg.primPoly ∧ trackOpen s (blockPair [] 0) ∧ TrackOk (blockPair [] 0) ∧ t.cur = some k ∧
      t.rs.status ≠ .uncorrectable ∧ exec (.c1dec 0 false) s = .next t := by
  obtain ⟨t, h, hp⟩ := next_of (x := exec (.c1dec 0 false) (withTrack (blockPair [] 0)))
    (P := fun t => t.cur.isSome && decide (t.rs.status ≠ .uncorrectable)) (by decide +kernel)
  simp only [Bool.and_eq_true, decide_eq_true_eq] at hp
  obtain ⟨k, hk⟩ := Option.isSome_iff_exists.1 hp.1
  exact ⟨t, k, test_primitive_default, ⟨rfl, rfl⟩, ⟨by decide +kernel, rfl, rfl, by decide⟩, hk, hp.2, h⟩

theorem locators_default_c1 : locatorsDistinct State.reset.cfg .c1 := by
  intro p q hp hq hne
  have hv : p.val ≠ q.val := fun h => hne (Fin.ext h)
  show ((32 : Int) - 1 - (p.val : Int) - (32 - 1 - (q.val : Int))) % 255 ≠ 0
  have h1 : p.val < 32 := hp
  have h2 : q.val < 32 := hq
  omega

theorem locators_default_c2 : locatorsDistinct State.reset.cfg .c2 := by
  intro p q hp hq hne
  have hv : p.val ≠ q.val := fun h => hne (Fin.ext h)
  show ((32 : Int) - 1 - (p.val : Int) - (32 - 1 - (q.val : Int))) % 255 ≠ 0
  have h1 : p.val < 32 := hp
  have h2 : q.val < 32 := hq
  omega

theorem test_witness_C2KeepsUnerasedBytes :
    let s := withTrack (blockPair [] 0)
    ∃ t k, primitive s.cfg.primPoly ∧ locatorsDistinct s.cfg .c2 ∧ trackOpen s (blockPair [] 0) ∧ TrackOk (blockPair [] 0) ∧
      exec (.c2dec 0 0) s = .next t ∧ t.cur = some k ∧ (sread blankCell (blockPair [] 0).cells (c2Addr 0 0 0)).ok = true := by
  obtain ⟨t, h, hp⟩ := next_of (x := exec (.c2dec 0 0) (withTrack (blockPair [] 0))) (P := fun t => t.cur.isSome)
    (by decide +kernel)
  obtain ⟨k, hk⟩ := Option.isSome_iff_exists.1 hp
  exact ⟨t, k, test_primitive_default, locators_default_c2, ⟨rfl, rfl⟩, ⟨by decide +kernel, rfl, rfl, by decide⟩, h, hk,
    by decide⟩

/-- Zero vectors with no, one and two wrong bytes, and the zero codeword at those distances of them. -/
theorem test_witness_TwoByteErrorsAreCorrected :
    primitive State.reset.cfg.primPoly ∧ locatorsDistinct State.reset.cfg .c1 ∧ (0 : BitVec 7).toNat ≤ 71 ∧
    isCodeword State.reset.cfg .c1 (fun _ => 0) ∧
    ∀ x ∈ [(blockPair [] 0, 0), (blockPair [(0, 1)] 0, 1), (blockPair [(0, 1), (2, 7)] 0, 2)],
      trackOpen (withTrack x.1) x.1 ∧ TrackOk x.1 ∧
      (codePositions .c1).countP (fun p => !(sread blankCell x.1.cells (c1Addr 0 0 p.val)).ok) ≤ 4 ∧
      (codePositions .c1).countP (fun p => decide ((0 : Byte) ≠ (sread blankCell x.1.cells (c1Addr 0 0 p.val)).v)) = x.2 := by
  refine ⟨test_primitive_default, locators_default_c1, by decide, zero_isCodeword _ _, ?_⟩
  intro x hx
  simp only [List.mem_cons, List.not_mem_nil, or_false] at hx
  rcases hx with rfl | rfl | rfl <;>
    exact ⟨⟨rfl, rfl⟩, ⟨by decide +kernel, rfl, rfl, by decide⟩, by decide +kernel, by decide +kernel⟩

/-- A Track in which 26 cells of the C2 vector (0, 0) are valid zeros. -/
def sixErased : Track := { Track.new with cells := (List.range' 6 26).map fun p => (c2Addr 0 0 p, ⟨0, true⟩) }

theorem test_witness_ErasedBytesAreRecovered :
    primitive State.reset.cfg.primPoly ∧ locatorsDistinct State.reset.cfg .c2 ∧ trackOpen (withTrack sixErased) sixErased ∧
    TrackOk sixErased ∧ ((3 : BitVec 2).toNat % 2 = 0 ∨ (23 : BitVec 5).toNat ≤ 23) ∧
    (codePositions .c2).countP (fun p => !(sread blankCell sixErased.cells (c2Addr 0 0 p.val)).ok) = 6 ∧
    isCodeword State.reset.cfg .c2 (fun _ => 0) ∧
    ∀ p : Fin 46, p.val < 32 → (sread blankCell sixErased.cells (c2Addr 0 0 p.val)).ok = true →
      (0 : Byte) = (sread blankCell sixErased.cells (c2Addr 0 0 p.val)).v :=
  ⟨test_primitive_default, locators_default_c2, ⟨rfl, rfl⟩, ⟨by decide +kernel, rfl, rfl, by decide⟩, by decide,
    by decide +kernel, zero_isCodeword _ _, by decide +kernel⟩

theorem locators_default_c3 {cfg : Params} (h : cfg.loc = []) : locatorsDistinct cfg .c3 := by
  intro p q _ _ hne
  have hv : p.val ≠ q.val := fun h => hne (Fin.ext h)
  simp only [locOf, h, List.lookup_nil, Option.getD_none, codeLen]
  have h1 := p.isLt
  have h2 := q.isLt
  omega

/-- A number for each argument of f. -/
def c3Index (a : C3Arg) : Nat := 8 * a.slice.val + 4 * a.tp.toNat + 2 * a.il.toNat + a.odd.toNat

/-- The argument of f at a position. -/
def c3ArgOf (x : C3Sel) : C3Arg := ⟨x.slice, x.tp, x.il, decide (x.p.val % 2 = 1)⟩

/-- A whole legal `C3_CELL`: f numbers its arguments, and the positions of the four arguments too many are fixed. -/
def c3Legal : Params :=
  { Config.defaults with
    c3offset := c3Selectors.flatMap (fun s => [⟨s.1, s.2.1, s.2.2, false⟩, ⟨s.1, s.2.1, s.2.2, true⟩]) |>.map fun a =>
      (a, ⟨c3Index a % 5756, Nat.mod_lt _ (by decide)⟩)
    c3fixed := c3Selectors.flatMap (fun s => (List.finRange 46).map fun p => (⟨s.1, s.2.1, s.2.2, p⟩ : C3Sel)) |>.map fun x =>
      (x, if c3Index (c3ArgOf x) < 5756 then none else some blankCell) }

theorem lookup_graph {α β : Type} [BEq α] [LawfulBEq α] (g : α → β) {l : List α} {a : α} (h : a ∈ l) :
    (l.map fun x => (x, g x)).lookup a = some (g a) := by
  induction l with
  | nil => simp at h
  | cons x xs ih =>
    rw [List.map_cons, List.lookup_cons]
    by_cases e : (a == x) = true
    · rw [eq_of_beq e]; simp
    · have hne : a ≠ x := fun h => e (by simp [h])
      simp only [Bool.not_eq_true] at e
      rw [e]
      exact ih ((List.mem_cons.1 h).resolve_left hne)

theorem mem_c3Selectors (x : Fin 720 × Bool × Bool) : x ∈ c3Selectors := by
  obtain ⟨s, t, i⟩ := x
  simp only [c3Selectors, List.mem_flatMap]
  exact ⟨s, List.mem_finRange s, by cases t <;> cases i <;> simp⟩

theorem c3Legal_cell (x : C3Sel) :
    c3CellOf c3Legal x =
      if h : c3Index (c3ArgOf x) < 5756 then
        (if h' : x.p.val / 2 < 22 then .main ⟨x.p.val / 2 * 5756 + c3Index (c3ArgOf x), by omega⟩
          else .ecc ⟨c3Index (c3ArgOf x), h⟩)
      else .fixed blankCell := by
  obtain ⟨s, t, i, p⟩ := x
  have h1 : c3FixedOf c3Legal ⟨s, t, i, p⟩ =
      if c3Index (c3ArgOf ⟨s, t, i, p⟩) < 5756 then none else some blankCell := by
    simp only [c3FixedOf, c3Legal]
    rw [lookup_graph]
    · rfl
    · rw [List.mem_flatMap]
      exact ⟨(s, t, i), mem_c3Selectors _, List.mem_map.2 ⟨p, List.mem_finRange p, rfl⟩⟩
  have h2 : ∀ a, c3OffsetOf c3Legal a = ⟨c3Index a % 5756, Nat.mod_lt _ (by decide)⟩ := by
    intro a
    simp only [c3OffsetOf, c3Legal]
    rw [lookup_graph]
    · rfl
    · rw [List.mem_flatMap]
      refine ⟨(a.slice, a.tp, a.il), mem_c3Selectors _, ?_⟩
      obtain ⟨_, _, _, o⟩ := a
      cases o <;> simp
  simp only [c3CellOf, h1, h2]
  by_cases h : c3Index (c3ArgOf ⟨s, t, i, p⟩) < 5756
  · have hm : c3Index ⟨s, t, i, decide (p.val % 2 = 1)⟩ % 5756 = c3Index (c3ArgOf ⟨s, t, i, p⟩) := Nat.mod_eq_of_lt h
    simp only [if_pos h, dif_pos h, hm]
  · simp only [if_neg h, dif_neg h]

/-- The map is one to one on stored cells. -/
theorem c3Legal_injective : c3Injective c3Legal := by
  have key : ∀ x y : C3Sel, c3Index (c3ArgOf x) = c3Index (c3ArgOf y) → x.p.val / 2 = y.p.val / 2 → x = y := by
    rintro ⟨s, t, i, p⟩ ⟨s', t', i', p'⟩ h hp
    simp only [c3Index, c3ArgOf] at h hp
    have hs := s.isLt
    have hs' := s'.isLt
    have : s.val = s'.val ∧ t = t' ∧ i = i' ∧ p.val % 2 = p'.val % 2 := by
      by_cases h1 : p.val % 2 = 1 <;> by_cases h2 : p'.val % 2 = 1 <;> simp only [h1, h2, decide_true, decide_false] at h <;>
        cases t <;> cases t' <;> cases i <;> cases i' <;> simp at h ⊢ <;> omega
    obtain ⟨a, b, c, d⟩ := this
    have e : p = p' := Fin.ext (by omega)
    rw [Fin.ext a, b, c, e]
  constructor
  · intro x y k hx hy
    rw [c3Legal_cell] at hx hy
    split at hx <;> [skip; cases hx]
    split at hx <;> [skip; cases hx]
    split at hy <;> [skip; cases hy]
    split at hy <;> [skip; cases hy]
    have e := (C3Ref.main.inj hx).trans (C3Ref.main.inj hy).symm
    simp only [Fin.mk.injEq] at e
    exact key x y (by omega) (by omega)
  · intro x y k hx hy
    rw [c3Legal_cell] at hx hy
    split at hx <;> [skip; cases hx]
    split at hx <;> [cases hx; skip]
    split at hy <;> [skip; cases hy]
    split at hy <;> [cases hy; skip]
    have e := (C3Ref.ecc.inj hx).trans (C3Ref.ecc.inj hy).symm
    simp only [Fin.mk.injEq] at e
    have := x.p.isLt
    have := y.p.isLt
    exact key x y e (by omega)

/-- Valid zeros in the main buffer but for sub-group 0, which is blank. -/
def blankMain : Store Flagged := sbuild blankCell 126632 fun k => if 5756 ≤ k then ⟨0, true⟩ else blankCell

/-- Valid zeros in the ECC region. -/
def validEcc : Store Flagged := sbuild blankCell 5756 fun _ => ⟨0, true⟩

/-- A group with those cells: of each vector, two bytes are invalid. -/
def blankFirst : BasicGroup := ⟨7, blankMain, validEcc, 0⟩

theorem blankMain_ok : swf blankCell 126632 blankMain = true := by
  rw [blankMain]
  exact swf_sbuild _ _ _

theorem validEcc_ok : swf blankCell 5756 validEcc = true := by
  rw [validEcc]
  exact swf_sbuild _ _ _

theorem groupOk_mk {id d : Nat} {m e : Store Flagged} (hm : swf blankCell 126632 m = true) (he : swf blankCell 5756 e = true) :
    GroupOk ⟨id, m, e, d⟩ := ⟨hm, he⟩

theorem blankFirst_ok : GroupOk blankFirst := by
  rw [blankFirst]
  exact groupOk_mk blankMain_ok validEcc_ok

theorem blankFirst_before (p : Fin 46) :
    c3Cell blankFirst (c3CellOf c3Legal ⟨0, false, false, p⟩) = ⟨0, decide (2 ≤ p.val)⟩ := by
  have hp := p.isLt
  have hi : c3Index (c3ArgOf ⟨0, false, false, p⟩) = p.val % 2 := by
    simp only [c3Index, c3ArgOf]
    by_cases h : p.val % 2 = 1
    · simp [h]
    · simp [h]; omega
  rw [c3Legal_cell, dif_pos (by omega)]
  simp only
  split
  · simp only [c3Cell, BasicGroup.mainCell, blankFirst, blankMain, sread_sbuild, hi]
    rw [if_pos (by omega)]
    by_cases h : 2 ≤ p.val
    · rw [if_pos (by omega), decide_eq_true h]
    · rw [if_neg (by omega), decide_eq_false h]; rfl
  · simp only [c3Cell, BasicGroup.eccCell, blankFirst, validEcc, sread_sbuild, hi]
    rw [if_pos (by omega), decide_eq_true (by omega)]

theorem test_witness_C3ErasuresAreRecovered :
    let s : State := { State.reset with cfg := c3Legal, bg := some blankFirst }
    primitive s.cfg.primPoly ∧ locatorsDistinct s.cfg .c3 ∧ c3Injective s.cfg ∧ s.bg = some blankFirst ∧ GroupOk blankFirst ∧
    (0 : BitVec 10).toNat < 720 ∧
    (codePositions .c3).countP (fun p => !(c3Cell blankFirst (c3CellOf s.cfg ⟨0, false, false, p⟩)).ok) = 2 ∧
    isCodeword s.cfg .c3 (fun _ => 0) ∧
    ∀ p : Fin 46, (c3Cell blankFirst (c3CellOf s.cfg ⟨0, false, false, p⟩)).ok = true →
      (0 : Byte) = (c3Cell blankFirst (c3CellOf s.cfg ⟨0, false, false, p⟩)).v := by
  refine ⟨test_primitive_default, locators_default_c3 rfl, c3Legal_injective, rfl, blankFirst_ok, by decide, ?_, ?_, ?_⟩
  · simp only [blankFirst_before]
    decide
  · exact zero_isCodeword _ _
  · intro p _
    simp only [blankFirst_before]

theorem test_witness_VectorsPartitionTheTrack :
    (4607 : Nat) < 4608 ∧ inSomeC2 0 = true ∧ inSomeC2 4087 = true ∧ inSomeC2 4088 = false ∧ inSomeC2 4096 = false := by decide

theorem test_witness_C1passDecodesEveryVector :
    trackOpen (withTrack Track.new) Track.new ∧ TrackOk Track.new ∧ (71 : BitVec 7).toNat ≤ 71 :=
  ⟨⟨rfl, rfl⟩, trackNew_ok, by decide⟩

theorem test_witness_C2passDecodesEveryVector :
    trackOpen (withTrack Track.new) Track.new ∧ TrackOk Track.new ∧
    ((3 : BitVec 2).toNat % 2 = 0 ∨ (23 : BitVec 5).toNat ≤ 23) ∧ ((2 : BitVec 2).toNat % 2 = 0 ∨ (31 : BitVec 5).toNat ≤ 23) ∧
    inSomeC2 4088 = false := ⟨⟨rfl, rfl⟩, trackNew_ok, by decide, by decide, by decide⟩

/-- A group, and one under a legal map in which cell 126631 belongs to a position. -/
theorem test_witness_C3passNeverDemotes :
    (State.reset.setBg (some blankFirst)).bg = some blankFirst ∧ GroupOk blankFirst ∧ c3Injective c3Legal ∧
    (719 : BitVec 10).toNat < 720 := ⟨rfl, blankFirst_ok, c3Legal_injective, by decide⟩

/-! #### The stream -/

theorem streamReady_reset : streamReady State.reset :=
  ⟨fun _ h => (by cases h), fun _ h => (by cases h)⟩

/-- Reset with the positions of clock recovery and the timer's count. -/
def clocked (pos sync max : Fin 8) (count : Nat) : State :=
  { State.reset with
    clk := { State.reset.clk with pos := pos, syncPos := sync, maxPos := max }
    timer := ⟨count, decide (0 < count)⟩ }

theorem test_witness_SampleQuietStep :
    f32Finite 0x7F800000 = false ∧ f32Finite 0x7F7FFFFF = true ∧
    (clocked 7 0 6 2).clk.pos ≠ (clocked 7 0 6 2).clk.syncPos ∧ (clocked 7 0 6 2).clk.pos ≠ (clocked 7 0 6 2).clk.maxPos ∧
    (clocked 7 0 6 2).timer.count ≠ 1 := by decide

theorem test_witness_SampleClockRecovery :
    State.reset.cfg.fp = .exact ∧ f32Finite 0x3F800000 = true ∧ streamReady State.reset ∧
    State.reset.clk.pos = State.reset.clk.syncPos ∧ State.reset.clk.pos = State.reset.clk.maxPos ∧
    streamReady (clocked 7 0 6 0) ∧ (clocked 7 0 6 0).clk.pos ≠ (clocked 7 0 6 0).clk.syncPos ∧
    (clocked 7 0 6 0).clk.pos ≠ (clocked 7 0 6 0).clk.maxPos :=
  ⟨rfl, by decide, streamReady_reset, rfl, rfl, streamReady_reset, by decide, by decide⟩

theorem test_witness_SampleEmitsSymbolAndClockEvent :
    f32Finite 0x3F800000 = true ∧
    (let s := clocked 7 7 6 2
     s.cfg.fp = .exact ∧ streamReady s ∧ s.timer.count ≠ 1 ∧ s.clk.pos = s.clk.syncPos ∧ s.clk.pos ≠ s.clk.maxPos) ∧
    (let s := clocked 7 6 7 0
     s.cfg.fp = .exact ∧ streamReady s ∧ s.timer.count ≠ 1 ∧ s.clk.pos ≠ s.clk.syncPos ∧ s.clk.pos = s.clk.maxPos) ∧
    (State.reset.cfg.fp = .exact ∧ streamReady State.reset ∧ State.reset.timer.count ≠ 1 ∧
      State.reset.clk.pos = State.reset.clk.syncPos ∧ State.reset.clk.pos = State.reset.clk.maxPos) :=
  ⟨by decide, ⟨rfl, streamReady_reset, by decide, by decide, by decide⟩,
    ⟨rfl, streamReady_reset, by decide, by decide, by decide⟩, rfl, streamReady_reset, by decide, rfl, rfl⟩

/-- Timer counts 0, 1 and 2, away from the sync position and at it; a symbol that fills no word leaves the timer. -/
theorem test_witness_SampleTicksTheTimer :
    f32Finite 0x3F800000 = true ∧ (∀ p n, streamReady (clocked p 0 0 n)) ∧
    (∀ n, (clocked 1 0 0 n).clk.pos ≠ (clocked 1 0 0 n).clk.syncPos ∧
      (clocked 1 0 0 n).clk.pos ≠ (clocked 1 0 0 n).clk.maxPos) ∧
    (∀ n, (clocked 0 0 0 n).clk.pos = (clocked 0 0 0 n).clk.syncPos) ∧
    ∀ n ∈ [0, 1, 2], (nextOf (exec (.sym false) (clocked 0 0 0 n))).map (fun t => t.timer.count) = some n :=
  ⟨by decide, fun _ _ => streamReady_reset, fun _ => (by show (1 : Fin 8) ≠ 0 ∧ (1 : Fin 8) ≠ 0; decide), fun _ => rfl,
    by decide +kernel⟩

/-- A SAMPLE at the sync position with the timer at one: the symbol is taken, the clock is lost and TRKSTOP runs, in one
step (R222, R228, R232). -/
theorem test_sample_ends_the_timer :
    let s := { clocked 0 0 0 1 with dfr := ⟨5, 3, true, true⟩, pre := ⟨3, 4, true⟩ }
    (nextOf (exec (.sample 0) (s.setClk { s.clk with detected := true }))).map
      (fun t => (t.timer, t.pre, t.dfr, t.clk.pos, t.clk.syncPos)) =
        some (⟨0, false⟩, ⟨0, 0, false⟩, ⟨0, 0, false, false⟩, 1, 0) := by decide +kernel

theorem test_witness_EnergiesStayNonnegative :
    State.reset.cfg.fp = .exact ∧ (∀ j : Fin 8, 0 ≤ State.reset.clk.e[j]) ∧
    exec .trkstart State.reset = .next (trkstart State.reset) := ⟨rfl, by decide +kernel, rfl⟩

theorem test_witness_AtfCountsToneThree :
    trackOpen (withTrack Track.new) Track.new ∧ State.reset.cur = none ∧
    (withTrack { Track.new with isSealed := true }).cur = some { Track.new with isSealed := true } ∧
    ({ Track.new with isSealed := true } : Track).isSealed = true := ⟨⟨rfl, rfl⟩, rfl, rfl, rfl⟩

theorem test_witness_SymIsNrzi : curUnsealed State.reset := streamReady_reset.1

/-- A match at any bit; a tenth bit while synced; neither; the eleventh good preamble check, and none. -/
theorem test_witness_BitFramesWordsAndPreamble :
    (∀ d p, curUnsealed ((State.reset.setDfr d).setPre p)) ∧
    (BitVec.ofNat 10 (2 * (0x088 : LineWord).toNat + true.toNat)).toNat % 512 = 0x111 ∧
    ((State.reset.setDfr ⟨0, 9, true, false⟩).dfr.bitCnt = 9 ∧ (State.reset.setDfr ⟨0, 9, true, false⟩).dfr.synced = true) ∧
    (¬ (BitVec.ofNat 10 (2 * (0 : LineWord).toNat + true.toNat)).toNat % 512 = 0x111 ∧
      ¬ (State.reset.dfr.bitCnt = 9 ∧ State.reset.dfr.synced = true)) ∧
    (let s := (State.reset.setDfr ⟨0x1FF, 9, false, false⟩).setPre ⟨9, 10, false⟩
     s.pre.cnt = 9 ∧ BitVec.ofNat 10 (2 * s.dfr.sr.toNat + true.toNat) = (0x3FF : LineWord) ∧ 10 ≤ s.pre.run ∧
      s.pre.present = false) :=
  ⟨fun _ _ => streamReady_reset.1, by decide, by decide, by decide, by decide⟩

/-- Reset with zeros in the block, the index at `i`, the decoder's answer for zero given, and a
Track and predecessor. -/
def blockState (i : Fin 36) (ok : Bool) (cur : Option Track) (l : Option (Fin 144)) : State :=
  { State.reset with
    asm := ⟨Vector.replicate 36 0, i⟩
    cfg := { Config.defaults with dec10 := [(0, ⟨0, ok⟩)] }
    cur := cur
    lastBlk := l }

theorem blockState_byte (i : Fin 36) (ok : Bool) (cur : Option Track) (l : Option (Fin 144)) (j : Nat) (hj : j < 35) :
    blockByte (blockState i ok cur l) j = ⟨0, ok⟩ := by
  have h : (List.replicate 36 (0 : LineWord)).getD (j + 1) 0 = 0 := by
    rw [List.getD_eq_getElem?_getD, List.getElem?_replicate, if_pos (by omega)]; rfl
  simp only [blockByte, blockState, Vector.toList_replicate, h]
  rfl

theorem test_witness_WordFillsTheBlock :
    (34 : Fin 36).val < 35 ∧ (blockState 35 true none none).asm.widx.val = 35 ∧ curUnsealed (blockState 35 true none none) :=
  ⟨by decide, rfl, fun _ h => (by cases h)⟩

theorem test_witness_BlockWithGoodHeaderIsPlaced :
    let s := blockState 0 true (some Track.new) none
    trackOpen s Track.new ∧ TrackOk Track.new ∧ headerGood s := by
  refine ⟨⟨rfl, rfl⟩, trackNew_ok, ?_⟩
  simp only [headerGood, blockState_byte _ _ _ _ _ (show 0 < 35 by decide), blockState_byte _ _ _ _ _ (show 1 < 35 by decide),
    blockState_byte _ _ _ _ _ (show 2 < 35 by decide)]
  decide

/-- No open Track; a bad header after block 0x7E, 0x80, 0x87 and 0x8E, which have a successor, and after 0x7F and 0x8F, which
have none. -/
theorem test_witness_BlockWithBadHeaderIsGuessedOrDropped :
    (blockState 0 true none none).cur = none ∧
    (∀ l, trackOpen (blockState 0 false (some Track.new) l) Track.new ∧ TrackOk Track.new ∧
      ¬ headerGood (blockState 0 false (some Track.new) l)) ∧
    (sameRange 0x7E ∧ sameRange 0x80 ∧ sameRange 0x87 ∧ sameRange 0x8E) ∧ (¬ sameRange 0x7F ∧ ¬ sameRange 0x8F) := by
  refine ⟨rfl, fun l => ⟨⟨rfl, rfl⟩, trackNew_ok, ?_⟩, ?_, ?_⟩
  · intro h
    have := h.1
    rw [blockState_byte _ _ _ _ _ (show 0 < 35 by decide)] at this
    exact absurd this (by decide)
  · unfold sameRange; decide
  · unfold sameRange; decide

theorem test_witness_TrkstopSealsAndDelivers :
    State.reset.cur = none ∧ trackOpen (withTrack Track.new) Track.new ∧ imagesOk (withTrack Track.new) ∧
    10 < ({ Track.new with atf3Cnt := 11 } : Track).atf3Cnt :=
  ⟨rfl, ⟨rfl, rfl⟩, streamReady_reset.2, by decide⟩

theorem test_witness_TrkcplCompletesTheTrack : trackOpen (withTrack Track.new) Track.new ∧ TrackOk Track.new :=
  ⟨⟨rfl, rfl⟩, trackNew_ok⟩

/-- A Track with pack 15 and signature slot 6 latched and one empty, and one with a good header at block 142. -/
theorem test_witness_SubxLatchesFirstGoodItems :
    let t : Track := { Track.new with
      pack := Track.new.pack.set 15 (some (Vector.replicate 7 0)), sig := Track.new.sig.set 6 (some 3)
      hdrs := [(142, ⟨true, true, 0x21⟩)] }
    trackOpen (withTrack t) t ∧ t.pack[15] = some (Vector.replicate 7 0) ∧ t.pack[1] = none ∧ t.sig[6] = some 3 ∧
    t.sig[0] = none ∧
    ([128, 130, 132, 134, 136, 138, 140, 142].find? fun b => (t.hdr b).present && (t.hdr b).hdrOk) = some 142 ∧
    ([128, 130, 132, 134, 136, 138, 140, 142].find? fun b => (Track.new.hdr b).present && (Track.new.hdr b).hdrOk) = none :=
  ⟨⟨rfl, rfl⟩, by decide, by decide, by decide, by decide, by decide, by decide⟩

/-! #### The framer and DDS -/

/-- A sealed Track with packs 1 to 4 all `p`. -/
def packed (p : Byte) : Track :=
  { Track.new with
    isSealed := true
    pack := Vector.ofFn fun j => if 1 ≤ j.val ∧ j.val ≤ 4 then some (Vector.replicate 7 p) else none }

/-- Packs 1 to 4 of `packed p`. -/
def packsOf (p : Byte) : Packs := ⟨Vector.replicate 7 p, Vector.replicate 7 p, Vector.replicate 7 p, Vector.replicate 7 p⟩

theorem packed_has (p : Byte) : hasPacks (packed p) (packsOf p) := by
  simp [hasPacks, packed, packsOf]

/-- A state with one object in transit. -/
def carrying (x : Transit) : State := State.reset.setTransit x

theorem test_witness_TrackPairsOrKeepsNewer :
    (carrying { Transit.none with track := some (packed 1) }).transit.track = some (packed 1) ∧
    (carrying { Transit.none with track := some (packed 1) }).last = none ∧
    isFrame .dat (packed 2) (packed 1) = false ∧ isFrame .dds (packed 1) (packed 1) = true ∧
    isFrame .dat (packed 1) (packed 1) = true ∧
    imagesOk (carrying { Transit.none with track := some (packed 1) }) :=
  ⟨rfl, rfl, by decide, by decide, by decide, streamReady_reset.2⟩

theorem test_witness_PairWiresTheFrame :
    let s := carrying { Transit.none with pair := some (packed 1, packed 1) }
    s.transit.pair = some (packed 1, packed 1) ∧ s.mode = .dat ∧ ({ s with mode := .dds } : State).mode = .dds ∧ imagesOk s :=
  ⟨rfl, rfl, rfl, streamReady_reset.2⟩

/-- Fields with an area, a logical frame and the two flags. -/
def fieldsOf (area : Area) (lfid : BitVec 6) (isLast isEcc3 : Bool) : DdsFields :=
  ⟨0, area, 0x123, 7, lfid, isLast, isEcc3, 0, 0, 0, Vector.replicate 4 0⟩

/-- A group-3 with those fields. -/
def g3Of (area : Area) (lfid : BitVec 6) (isLast isEcc3 : Bool) : Group3 := ⟨fieldsOf area lfid isLast isEcc3, none, false⟩

theorem test_witness_SessFollowsTheArea :
    (let s := carrying { Transit.none with g3 := some (g3Of .eod 0 false false) }
     s.transit.g3 = some (g3Of .eod 0 false false) ∧ s.sess.state = .data ∧ (g3Of .eod 0 false false).fields.area = .eod) ∧
    (let s := (carrying { Transit.none with g3 := some (g3Of .system 0 false false) }).setSess ⟨.eot, 3⟩
     s.transit.g3 = some (g3Of .system 0 false false) ∧ s.sess.state = .eot ∧ (g3Of .system 0 false false).fields.area ≠ .eod) ∧
    (let s := carrying { Transit.none with g3 := some (g3Of .data 0 false false) }
     s.transit.g3 = some (g3Of .data 0 false false) ∧ s.sess.state = .data ∧ (g3Of .data 0 false false).fields.area ≠ .eod) ∧
    (let s := (carrying { Transit.none with g3 := some (g3Of .eod 0 false false) }).setSess ⟨.eot, 3⟩
     s.transit.g3 = some (g3Of .eod 0 false false) ∧ s.sess.state = .eot) :=
  ⟨⟨rfl, rfl, rfl⟩, ⟨rfl, rfl, by decide⟩, ⟨rfl, rfl, by decide⟩, rfl, rfl⟩

/-- The frame of two packed Tracks with the given cells. -/
def frameWith (a b : Byte) (cells : Store Flagged) : Frame := ⟨packed a, packed b, cells, 0, 0, 0, 0⟩

theorem test_witness_DewhtWhitensThePayload :
    (carrying { Transit.none with frame := some (frameWith 1 1 []) }).transit.frame = some (frameWith 1 1 []) := rfl

/-- A state carrying a frame, with the host's answers for the packs of the two Tracks. -/
def parsing (f : Frame) (pa pb : Option DdsFields) : State :=
  { carrying { Transit.none with frame := some f } with
    cfg := { Config.defaults with parse := [(packsOf 1, pa), (packsOf 2, pb)] } }

theorem parsing_one (f : Frame) (pa pb : Option DdsFields) : parseDdsOf (parsing f pa pb).cfg (packsOf 1) = pa := by
  have h : (packsOf 1 == packsOf 1) = true := by decide
  simp only [parseDdsOf, parsing, List.lookup, h, Option.getD_some]

theorem parsing_two (f : Frame) (pa pb : Option DdsFields) : parseDdsOf (parsing f pa pb).cfg (packsOf 2) = pb := by
  have h : (packsOf 2 == packsOf 1) = false := by decide
  have h2 : (packsOf 2 == packsOf 2) = true := by decide
  simp only [parseDdsOf, parsing, List.lookup, h, h2, Option.getD_some]

theorem test_witness_G3decRejectsBeforeSession :
    (parsing ⟨Track.new, packed 2, [], 0, 0, 0, 0⟩ none none).transit.frame = some ⟨Track.new, packed 2, [], 0, 0, 0, 0⟩ ∧
    lacksPack Track.new ∧ hasPacks (frameWith 1 2 []).a (packsOf 1) ∧ hasPacks (frameWith 1 2 []).b (packsOf 2) ∧
    parseDdsOf (parsing (frameWith 1 2 []) none none).cfg (packsOf 1) = none ∧
    parseDdsOf (parsing (frameWith 1 2 []) (some (fieldsOf .data 5 false false)) (some (fieldsOf .data 6 false false))).cfg
      (packsOf 1) = some (fieldsOf .data 5 false false) ∧
    parseDdsOf (parsing (frameWith 1 2 []) (some (fieldsOf .data 5 false false)) (some (fieldsOf .data 6 false false))).cfg
      (packsOf 2) = some (fieldsOf .data 6 false false) ∧
    (fieldsOf .data 5 false false).area = .data ∧ (fieldsOf .data 5 false false).lfid ≠ (fieldsOf .data 6 false false).lfid :=
  ⟨rfl, .inl rfl, packed_has 1, packed_has 2, parsing_one _ _ _, parsing_one _ _ _, parsing_two _ _ _, rfl, by decide⟩

/-- Cells of a whole valid frame of zeros. -/
def allValid : Store Flagged := sbuild blankCell 5824 fun _ => ⟨0, true⟩

theorem allValid_cell (w c : Nat) (hw : w < 1456) (hc : c < 4) : (frameWith 1 2 allValid).cell w c = ⟨0, true⟩ := by
  simp only [Frame.cell, frameWith]
  rw [allValid, sread_sbuild, if_pos (by omega)]

theorem test_witness_G3decStopsAfterSession :
    (∀ cells pa pb, (parsing (frameWith 1 2 cells) pa pb).transit.frame = some (frameWith 1 2 cells)) ∧
    hasPacks (packed 1) (packsOf 1) ∧ hasPacks (packed 2) (packsOf 2) ∧
    (∀ cells, parseDdsOf (parsing (frameWith 1 2 cells) (some (fieldsOf .device 1 false false)) (some (fieldsOf .device 2 true true))).cfg
      (packsOf 1) = some (fieldsOf .device 1 false false)) ∧
    (fieldsOf .device 1 false false).area ≠ .data ∧ frameInvalid (frameWith 1 2 []) ∧ ¬ frameInvalid (frameWith 1 2 allValid) ∧
    (fieldsOf .data 63 true true).area = .data ∧ ¬ headerZeros (frameWith 1 2 [(2, ⟨1, false⟩)]) ∧
    headerZeros (frameWith 1 2 []) ∧ ¬ headerIsLfid (frameWith 1 2 []) (fieldsOf .data 63 true true) := by
  refine ⟨fun _ _ _ => rfl, packed_has 1, packed_has 2, fun _ => parsing_one _ _ _, by decide, ⟨1455, 3, by decide, by decide, rfl⟩, ?_, rfl,
    fun h => absurd h.2 (by decide), ⟨rfl, rfl⟩, fun h => absurd (h 1 (.inl rfl)) (by decide)⟩
  rintro ⟨w, c, hw, hc, h⟩
  rw [allValid_cell w c hw hc] at h
  exact absurd h (by decide)

/-- A data frame with logical frame 0: an invalid one, and a valid one. -/
theorem test_witness_G3decPassesDataOn :
    let s := fun cells => parsing (frameWith 1 2 cells) (some (fieldsOf .data 0 false false)) (some (fieldsOf .data 0 true true))
    (∀ cells, (s cells).transit.frame = some (frameWith 1 2 cells) ∧ imagesOk (s cells) ∧
      parseDdsOf (s cells).cfg (packsOf 1) = some (fieldsOf .data 0 false false) ∧
      parseDdsOf (s cells).cfg (packsOf 2) = some (fieldsOf .data 0 true true) ∧ (s cells).sess.cnt = (s cells).sessionSel) ∧
    hasPacks (packed 1) (packsOf 1) ∧ hasPacks (packed 2) (packsOf 2) ∧
    (fieldsOf .data 0 false false).area = .data ∧ (fieldsOf .data 0 false false).lfid = (fieldsOf .data 0 true true).lfid ∧
    headerZeros (frameWith 1 2 []) ∧ headerIsLfid (frameWith 1 2 []) (fieldsOf .data 0 false false) ∧
    frameInvalid (frameWith 1 2 []) ∧ headerZeros (frameWith 1 2 allValid) ∧
    headerIsLfid (frameWith 1 2 allValid) (fieldsOf .data 0 false false) := by
  refine ⟨fun _ => ⟨rfl, streamReady_reset.2, parsing_one _ _ _, parsing_two _ _ _, rfl⟩, packed_has 1, packed_has 2, rfl, rfl, ⟨rfl, rfl⟩, ?_,
    ⟨0, 0, by decide, by decide, rfl⟩, ?_, ?_⟩
  · rintro c (rfl | rfl) <;> decide
  · exact ⟨by rw [allValid_cell 0 0 (by decide) (by decide)], by rw [allValid_cell 0 2 (by decide) (by decide)]⟩
  · rintro c (rfl | rfl)
    · rw [allValid_cell 0 1 (by decide) (by decide)]; decide
    · rw [allValid_cell 0 3 (by decide) (by decide)]; decide

/-- A state carrying a group-1 and a group-3, with an active group. -/
def merging (d : Group3) (bg : Option BasicGroup) : State :=
  (carrying { Transit.none with g1 := some [(5, ⟨1, true⟩)], g3 := some d }).setBg bg

/-- The ECC region, sub-groups 1 and 22, and 0 and 23, which go nowhere. -/
theorem test_witness_BgmergeMergesOneSlice :
    (∀ d, (merging d (some ⟨7, [], [], 0⟩)).transit.g1 = some [(5, ⟨1, true⟩)] ∧
      (merging d (some ⟨7, [], [], 0⟩)).transit.g3 = some d ∧ (merging d (some ⟨7, [], [], 0⟩)).bg = some ⟨7, [], [], 0⟩) ∧
    GroupOk ⟨7, [], [], 0⟩ ∧ 7 = (g3Of .data 1 false false).fields.bgId ∧ (g3Of .data 1 false false).fields.isLast = false ∧
    (g3Of .data 1 false true).fields.isEcc3 = true ∧
    1 ≤ (g3Of .data 1 false false).fields.lfid.toNat ∧ (g3Of .data 22 false false).fields.lfid.toNat ≤ 22 ∧
    (g3Of .data 0 false false).fields.lfid.toNat = 0 ∧ 23 ≤ (g3Of .data 23 false false).fields.lfid.toNat :=
  ⟨fun _ => ⟨rfl, rfl, rfl⟩, ⟨rfl, rfl⟩, rfl, rfl, rfl, by decide, by decide, by decide, by decide⟩

/-- An image with four arrays of the right lengths: `flag` at the first main cell's validity, 0xFF elsewhere. -/
def imageWith (flag : Byte) : Image :=
  ⟨List.replicate 126632 0, flag :: List.replicate 126631 0xFF, List.replicate 5756 0, List.replicate 5756 0xFF⟩

/-- The lengths that the statement asks for. -/
theorem imageWith_lengths (flag : Byte) :
    (imageWith flag).main.length = 126632 ∧ (imageWith flag).mainVal.length = 126632 ∧ (imageWith flag).ecc.length = 5756 ∧
      (imageWith flag).eccVal.length = 5756 := by
  refine ⟨List.length_replicate .., ?_, List.length_replicate .., List.length_replicate ..⟩
  rw [imageWith, List.length_cons, List.length_replicate]

/-- A merging state whose host answers with one image for ID 7. -/
def mergingWith (img : Image) : State := { merging (g3Of .data 1 false false) none with images := [(7, img)] }

/-- No active group, without an image, with a good one, with one of a wrong length and with one of a wrong validity byte;
another group active; the group's own last sub-group. -/
theorem test_witness_BgmergeBeginsAndFinalizes :
    (∀ d bg, (merging d bg).transit.g1 = some [(5, ⟨1, true⟩)] ∧ (merging d bg).transit.g3 = some d) ∧
    ((merging (g3Of .data 1 false false) none).bg = none ∧ (merging (g3Of .data 1 false false) none).images.lookup 7 = none) ∧
    (∀ img, (mergingWith img).bg = none ∧ (mergingWith img).images.lookup 7 = some img) ∧
    (∀ b ∈ (imageWith 0).mainVal ++ (imageWith 0).eccVal, b = 0xFF ∨ b = 0x00) ∧
    (⟨[], [], [], []⟩ : Image).main.length ≠ 126632 ∧
    (0x01 : Byte) ∈ (imageWith 0x01).mainVal ++ (imageWith 0x01).eccVal ∧
    ((merging (g3Of .data 1 false false) (some ⟨8, [], [], 0⟩)).bg = some ⟨8, [], [], 0⟩ ∧
      8 ≠ (g3Of .data 1 false false).fields.bgId) ∧
    ((merging (g3Of .data 22 true false) (some ⟨7, [], [], 0⟩)).bg = some ⟨7, [], [], 0⟩ ∧
      7 = (g3Of .data 22 true false).fields.bgId ∧ (g3Of .data 22 true false).fields.isLast = true) := by
  refine ⟨fun _ _ => ⟨rfl, rfl⟩, ⟨rfl, rfl⟩, fun _ => ⟨rfl, rfl⟩, ?_, by decide, ?_, ⟨rfl, by decide⟩, rfl, rfl, rfl⟩
  · intro b hb
    rcases List.mem_append.1 hb with hb | hb
    · rcases List.mem_cons.1 hb with rfl | hb
      · exact .inr rfl
      · exact .inl (List.eq_of_mem_replicate hb)
    · exact .inl (List.eq_of_mem_replicate hb)
  · exact List.mem_append_left _ List.mem_cons_self

theorem test_witness_BgfinPersistsTheGroup :
    State.reset.bg = none ∧ (State.reset.setBg (some ⟨7, [], [], 0⟩)).bg = some ⟨7, [], [], 0⟩ := ⟨rfl, rfl⟩

theorem test_witness_StopEndsTheRun :
    State.reset.mode = .dat ∧ ({ State.reset with mode := .dds } : State).mode = .dds := ⟨rfl, rfl⟩

/-! #### Invariants -/

theorem storageInv_onPort (xs : List PortInput) : StorageInv (onPort xs) := by
  constructor <;> simp [onPort, State.reset, Transit.none, RsFile.initial]

theorem test_witness_StepKeepsStorageInvariant :
    StorageInv (onPort [.command .host 0x4D00000000]) ∧
    ∃ t, step (onPort [.command .host 0x4D00000000]) = .next t := ⟨storageInv_onPort _, _, rfl⟩

theorem test_witness_StepKeepsPipelineInvariant :
    PipelineInv (onPort [.command .host 0x4D00000000]) ∧
    ∃ t, step (onPort [.command .host 0x4D00000000]) = .next t := by
  refine ⟨⟨storageInv_onPort _, ?_, rfl, fun _ h => (by cases h), fun _ => rfl, fun _ => ⟨rfl, rfl, rfl⟩⟩, _, rfl⟩
  intro x hx w
  simp only [onPort, List.mem_singleton] at hx
  rw [hx]
  simp

theorem test_witness_OperationsKeepTheHostSide : exec .trkstart State.reset = .next (trkstart State.reset) := rfl

/-- A refused operation and a completing one where the stream can run; the shells without a Track, on a sealed one and without
a basic group. -/
theorem test_witness_RefusalsAreTheSpecs :
    streamReady State.reset ∧ (Instr.gfinv 0).eventOnly = false ∧ exec (.gfinv 0) State.reset = .refused .inverseOfZero ∧
    Instr.trkstart.eventOnly = false ∧ (∀ r, ¬ specRefuses .trkstart State.reset r) ∧
    isShell .c1pass = true ∧ isShell .c3pass = true ∧ refusesTrack State.reset .noTrack ∧
    refusesTrack (withTrack { Track.new with isSealed := true }) .trackSealed ∧ State.reset.bg = none :=
  ⟨streamReady_reset, rfl, rfl, rfl, fun _ h => h, rfl, rfl, .inl ⟨rfl, rfl⟩, .inr ⟨_, rfl, rfl, rfl⟩, rfl⟩

/-- A sealed Track is not written by a shell (20_memory.md R77). -/
theorem test_sealed_track_is_refused :
    exec .c1pass (withTrack { Track.new with isSealed := true }) = .refused .trackSealed := rfl

end Sys2Proof.Tests
end

section
/-! SUPPORT. The field of the GF unit for a primitive PRIM_POLY (40_gf256.md R130 to R138): multiplication by z is linear and
injective, every nonzero byte is a power of alpha, alpha^255 = 1, and GFMUL adds exponents. -/

namespace Sys2Proof.Machine

open Sys2Proof

/-! ### Multiplication by z -/

@[simp] theorem timesZ_zero (p : BitVec 9) : timesZ p 0 = 0 := by
  simp [timesZ]

/-- The subtracted multiple of PRIM_POLY is linear in the bit that selects it. -/
theorem select_xor (u v : Bool) (q : Byte) :
    (if u ^^ v then q else 0) = (if u then q else 0) ^^^ (if v then q else 0) := by
  cases u <;> cases v <;> simp

/-- Multiplication by z is linear over XOR. -/
theorem timesZ_xor (p : BitVec 9) (a b : Byte) : timesZ p (a ^^^ b) = timesZ p a ^^^ timesZ p b := by
  simp only [timesZ, BitVec.msb_xor, select_xor, BitVec.shiftLeft_xor_distrib]
  ac_rfl

/-- Bit 0 of z*a modulo PRIM_POLY tells whether z^8 appeared, as PRIM_POLY has bit 0. -/
theorem getLsbD_zero_timesZ {p : BitVec 9} (hp : primitive p) (a : Byte) : (timesZ p a).getLsbD 0 = a.msb := by
  obtain ⟨-, h0, -⟩ := hp
  cases h : a.msb <;> simp [timesZ, h, h0]

theorem timesZ_eq_zero {p : BitVec 9} (hp : primitive p) {a : Byte} (h : timesZ p a = 0) : a = 0 := by
  have hmsb : a.msb = false := by rw [← getLsbD_zero_timesZ hp, h]; rfl
  have hshift : a <<< 1 = 0 := by simpa [timesZ, hmsb] using h
  have hlt := BitVec.msb_eq_false_iff_two_mul_lt.1 hmsb
  have hnat : a.toNat <<< 1 % 2 ^ 8 = 0 := by rw [← BitVec.toNat_shiftLeft, hshift]; rfl
  rw [Nat.shiftLeft_eq] at hnat
  exact BitVec.eq_of_toNat_eq (show a.toNat = 0 by omega)

theorem timesZ_injective {p : BitVec 9} (hp : primitive p) : Function.Injective (timesZ p) := by
  intro a b h
  have hdiff : timesZ p (a ^^^ b) = 0 := by rw [timesZ_xor, h]; exact BitVec.xor_self
  exact BitVec.xor_eq_zero_iff.1 (timesZ_eq_zero hp hdiff)

@[simp] theorem iterate_timesZ_zero (p : BitVec 9) (n : Nat) : (timesZ p)^[n] 0 = 0 :=
  Function.iterate_fixed (timesZ_zero p) n

theorem iterate_timesZ_xor (p : BitVec 9) (n : Nat) (a b : Byte) :
    (timesZ p)^[n] (a ^^^ b) = (timesZ p)^[n] a ^^^ (timesZ p)^[n] b := by
  induction n with
  | zero => rfl
  | succ n ih => simp only [Function.iterate_succ_apply', ih, timesZ_xor]

/-! ### The powers of alpha -/

theorem alphaPow_eq_iterate (p : BitVec 9) (n : Nat) : alphaPow p n = (timesZ p)^[n] 1 := by
  induction n with
  | zero => rfl
  | succ n ih => rw [Function.iterate_succ_apply', ← ih, alphaPow]

/-- alpha^(m+n) is alpha^n multiplied m times by z. -/
theorem alphaPow_add (p : BitVec 9) (m n : Nat) : alphaPow p (m + n) = (timesZ p)^[m] (alphaPow p n) := by
  simp only [alphaPow_eq_iterate, Function.iterate_add_apply]

theorem alphaPow_ne_zero {p : BitVec 9} (hp : primitive p) (n : Nat) : alphaPow p n ≠ 0 := by
  induction n with
  | zero => exact (by decide : (1 : Byte) ≠ 0)
  | succ n ih => exact fun h => ih (timesZ_eq_zero hp h)

/-- The 255 different powers of alpha are all the nonzero bytes. -/
theorem exists_alphaPow {p : BitVec 9} (hp : primitive p) {a : Byte} (ha : a ≠ 0) : ∃ i < 255, alphaPow p i = a := by
  have hsub : (Finset.range 255).image (alphaPow p) ⊆ Finset.univ.erase 0 := by
    intro b hb
    obtain ⟨i, -, rfl⟩ := Finset.mem_image.1 hb
    exact Finset.mem_erase.2 ⟨alphaPow_ne_zero hp i, Finset.mem_univ _⟩
  have hcard : ((Finset.range 255).image (alphaPow p)).card = 255 := by
    rw [Finset.card_image_of_injOn, Finset.card_range]
    exact fun i hi j hj h => alphaPow_inj hp (Finset.mem_range.1 hi) (Finset.mem_range.1 hj) h
  have hall : (Finset.univ.erase (0 : Byte)).card = 255 := by
    rw [Finset.card_erase_of_mem (Finset.mem_univ _), Finset.card_univ, Fintype.card_congr BitVec.equivFin.toEquiv,
      Fintype.card_fin]
    rfl
  have hmem : a ∈ (Finset.range 255).image (alphaPow p) := by
    rw [Finset.eq_of_subset_of_card_le hsub (by rw [hcard, hall])]
    exact Finset.mem_erase.2 ⟨ha, Finset.mem_univ _⟩
  obtain ⟨i, hi, h⟩ := Finset.mem_image.1 hmem
  exact ⟨i, Finset.mem_range.1 hi, h⟩

/-- alpha^255 is a power below 255, and an exponent above 0 would make alpha^254 equal to a smaller power. -/
theorem alphaPow_255 {p : BitVec 9} (hp : primitive p) : alphaPow p 255 = 1 := by
  obtain ⟨i, hi, h⟩ := exists_alphaPow hp (alphaPow_ne_zero hp 255)
  cases i with
  | zero => exact h.symm
  | succ i =>
    have := alphaPow_inj hp (by omega) (by omega) (timesZ_injective hp h : alphaPow p i = alphaPow p 254)
    omega

theorem alphaPow_mod {p : BitVec 9} (hp : primitive p) (n : Nat) : alphaPow p (n % 255) = alphaPow p n := by
  have hper : Function.IsPeriodicPt (timesZ p) 255 1 := (alphaPow_eq_iterate p 255).symm.trans (alphaPow_255 hp)
  simp only [alphaPow_eq_iterate, hper.iterate_mod_apply]

theorem alphaPow_eq_iff {p : BitVec 9} (hp : primitive p) (m n : Nat) :
    alphaPow p m = alphaPow p n ↔ m % 255 = n % 255 := by
  rw [← alphaPow_mod hp m, ← alphaPow_mod hp n]
  exact ⟨alphaPow_inj hp (Nat.mod_lt _ (by decide)) (Nat.mod_lt _ (by decide)), congrArg _⟩

/-- A byte is 0 or a power of alpha: the two cases of every law of GFMUL. -/
theorem eq_zero_or_alphaPow {p : BitVec 9} (hp : primitive p) (a : Byte) : a = 0 ∨ ∃ n, a = alphaPow p n := by
  by_cases ha : a = 0
  · exact .inl ha
  · obtain ⟨n, -, h⟩ := exists_alphaPow hp ha
    exact .inr ⟨n, h.symm⟩

/-! ### GFMUL, GFINV and GFPOWA on powers of alpha -/

@[simp] theorem gfMul_zero (p : BitVec 9) (a : Byte) : gfMul p a 0 = 0 := by
  simp [gfMul]

@[simp] theorem zero_gfMul (p : BitVec 9) (a : Byte) : gfMul p 0 a = 0 := by
  simp [gfMul]

theorem gfLog_alphaPow_mod {p : BitVec 9} (hp : primitive p) (n : Nat) : gfLog p (alphaPow p n) = n % 255 := by
  rw [← alphaPow_mod hp, gfLog_alphaPow hp (Nat.mod_lt _ (by decide))]

/-- GFMUL adds the exponents. -/
theorem gfMul_alphaPow {p : BitVec 9} (hp : primitive p) (m n : Nat) :
    gfMul p (alphaPow p m) (alphaPow p n) = alphaPow p (m + n) := by
  rw [gfMul, if_neg (not_or.2 ⟨alphaPow_ne_zero hp m, alphaPow_ne_zero hp n⟩), gfExp_eq, gfLog_alphaPow_mod hp,
    gfLog_alphaPow_mod hp, Nat.mod_mod, ← Nat.add_mod, alphaPow_mod hp]

/-- GFMUL by alpha^n multiplies n times by z, so it is linear in the other factor. -/
theorem alphaPow_gfMul_eq_iterate {p : BitVec 9} (hp : primitive p) (n : Nat) (b : Byte) :
    gfMul p (alphaPow p n) b = (timesZ p)^[n] b := by
  rcases eq_zero_or_alphaPow hp b with rfl | ⟨m, rfl⟩
  · rw [gfMul_zero, iterate_timesZ_zero]
  · rw [gfMul_alphaPow hp, alphaPow_add]

theorem gfInv_alphaPow {p : BitVec 9} (hp : primitive p) (n : Nat) :
    gfInv p (alphaPow p n) = alphaPow p (255 - n % 255) := by
  rw [gfInv, gfExp_eq, gfLog_alphaPow_mod hp, Nat.mod_mod, alphaPow_mod hp]

theorem gfPow_eq (p : BitVec 9) (i : Int) : gfPow p i = alphaPow p (i % 255).toNat := by
  rw [gfPow, gfExp_eq, Nat.mod_eq_of_lt (by omega)]

/-! ### The laws of the field (R138) -/

theorem gfMul_comm {p : BitVec 9} (hp : primitive p) (a b : Byte) : gfMul p a b = gfMul p b a := by
  rcases eq_zero_or_alphaPow hp a with rfl | ⟨m, rfl⟩
  · rw [zero_gfMul, gfMul_zero]
  rcases eq_zero_or_alphaPow hp b with rfl | ⟨n, rfl⟩
  · rw [zero_gfMul, gfMul_zero]
  · rw [gfMul_alphaPow hp, gfMul_alphaPow hp, Nat.add_comm]

theorem gfMul_assoc {p : BitVec 9} (hp : primitive p) (a b c : Byte) :
    gfMul p a (gfMul p b c) = gfMul p (gfMul p a b) c := by
  rcases eq_zero_or_alphaPow hp a with rfl | ⟨m, rfl⟩
  · simp only [zero_gfMul]
  rcases eq_zero_or_alphaPow hp b with rfl | ⟨n, rfl⟩
  · simp only [zero_gfMul, gfMul_zero]
  · rw [gfMul_alphaPow hp m n]
    simp only [alphaPow_gfMul_eq_iterate hp, Function.iterate_add_apply]

theorem gfMul_xor {p : BitVec 9} (hp : primitive p) (a b c : Byte) :
    gfMul p a (b ^^^ c) = gfMul p a b ^^^ gfMul p a c := by
  rcases eq_zero_or_alphaPow hp a with rfl | ⟨n, rfl⟩
  · simp only [zero_gfMul]; rfl
  · simp only [alphaPow_gfMul_eq_iterate hp, iterate_timesZ_xor]

theorem gfMul_gfInv {p : BitVec 9} (hp : primitive p) {a : Byte} (ha : a ≠ 0) : gfMul p a (gfInv p a) = 1 := by
  obtain ⟨n, hn, rfl⟩ := exists_alphaPow hp ha
  rw [gfInv_alphaPow hp, gfMul_alphaPow hp, Nat.mod_eq_of_lt hn, Nat.add_sub_of_le hn.le, alphaPow_255 hp]

theorem gfMul_eq_zero {p : BitVec 9} (hp : primitive p) (a b : Byte) : gfMul p a b = 0 ↔ a = 0 ∨ b = 0 := by
  constructor
  · intro h
    by_contra hne
    rw [gfMul, if_neg hne, gfExp_eq] at h
    exact alphaPow_ne_zero hp _ h
  · rintro (rfl | rfl)
    · exact zero_gfMul p b
    · exact gfMul_zero p a

theorem gfPow_add {p : BitVec 9} (hp : primitive p) (i j : Int) : gfPow p (i + j) = gfMul p (gfPow p i) (gfPow p j) := by
  simp only [gfPow_eq, gfMul_alphaPow hp, alphaPow_eq_iff hp]
  omega

theorem gfPow_eq_iff {p : BitVec 9} (hp : primitive p) (i j : Int) : gfPow p i = gfPow p j ↔ i % 255 = j % 255 := by
  simp only [gfPow_eq, alphaPow_eq_iff hp]
  omega

/-- Settles O9: every nonzero byte is a power of alpha, where GFMUL is the addition of exponents modulo 255 and, as a repeated
multiplication by z, linear. -/
theorem fieldLaws : Obligations.FieldLaws := by
  intro p hp
  refine ⟨gfMul_comm hp, gfMul_assoc hp, gfMul_xor hp, gfPow_eq p 0, gfPow_eq p 255, ?_, gfMul_eq_zero hp, gfPow_add hp,
    gfPow_eq_iff hp⟩
  intro a ha
  exact ⟨(gfMul_comm hp _ _).trans (gfMul_gfInv hp ha), gfMul_gfInv hp ha⟩

end Sys2Proof.Machine
end

section
/-! The deframer (44_deframer.md): CLKEV is a write of the deframer record on loss, and no write on detection. -/

namespace Sys2Proof.Machine

open Sys2Proof

/-- CLKEV always completes, whatever the state (R228: exceptions, none). -/
theorem exec_clkev (d : Bool) (s : State) : exec (.clkev d) s = .next (clkev d s) := rfl

/-- Loss of the clock is one write of the deframer record, so the frame of R256 is that of `State.setDfr`. -/
@[simp] theorem clkev_false (s : State) : clkev false s = s.setDfr ⟨0, 0, false, false⟩ := rfl

@[simp] theorem clkev_true (s : State) : clkev true s = s := rfl

/-- Settles O34: CLKEV completes with `clkev`, which writes the deframer record on loss and nothing on detection. -/
theorem clockLossResetsDeframer : Obligations.ClockLossResetsDeframer := by
  refine ⟨fun s => ?lost, fun s => ?detected⟩
  case lost => rw [exec_clkev, clkev_false, State.setDfr]
  case detected => rw [exec_clkev, clkev_true]

end Sys2Proof.Machine
end

section
/-! The framer's pairing rules (46_framer_frame.md): "pack j present in both Tracks and equal" is one pack that both hold. -/

namespace Sys2Proof.Machine

open Sys2Proof

/-- The comparison of subcode packs that R321 and R322 share: it succeeds exactly when both sides hold one same pack. -/
theorem presentAndEqual_iff (x y : Option Pack) :
    (x.isSome && y.isSome && decide (x = y)) = true ↔ ∃ p, x = some p ∧ y = some p := by
  rw [Bool.and_eq_true, Bool.and_eq_true, decide_eq_true_iff]
  constructor
  · rintro ⟨⟨hx, -⟩, rfl⟩
    obtain ⟨p, hp⟩ := Option.isSome_iff_exists.1 hx
    exact ⟨p, hp, hp⟩
  · rintro ⟨p, rfl, rfl⟩
    exact ⟨⟨rfl, rfl⟩, rfl⟩

@[simp] theorem isFrame_dat (l n : Track) : isFrame .dat l n = isFrameDat l n := rfl

@[simp] theorem isFrame_dds (l n : Track) : isFrame .dds l n = isFrameDds l n := rfl

/-- R321: one common pack 2, and neither head tag speaks against the order of the two Tracks. -/
theorem isFrameDat_iff (l n : Track) :
    isFrameDat l n = true ↔ (∃ p, l.pack[2] = some p ∧ n.pack[2] = some p) ∧ l.head ≠ .b ∧ n.head ≠ .a := by
  rw [isFrameDat, Bool.and_eq_true, Bool.and_eq_true, presentAndEqual_iff, decide_eq_true_iff, decide_eq_true_iff, and_assoc]

/-- R322: one common pack 3; the head tags play no part. -/
theorem isFrameDds_iff (l n : Track) :
    isFrameDds l n = true ↔ ∃ p, l.pack[3] = some p ∧ n.pack[3] = some p :=
  presentAndEqual_iff l.pack[3] n.pack[3]

/-- Settles O44: MODE selects the rule, and each rule is the comparison of one pack, in DAT mode with the head conditions. -/
theorem isFrameRules : Obligations.IsFrameRules := by
  intro l n
  rw [isFrame_dat, isFrame_dds]
  exact ⟨isFrameDat_iff l n, isFrameDds_iff l n⟩

end Sys2Proof.Machine
end

section
/-! The command words (30_encoding.md R90 to R94): an operand word is the concatenation of its fields, each format accepts
exactly the words that its encoder writes, and so the decoder accepts exactly the encodings of well-formed instructions. -/

namespace Sys2Proof

/-! ### Words as concatenations of fields -/

/-- A word is a concatenation exactly when its two parts are the two fields. -/
theorem eq_append_iff {m n : Nat} (w : BitVec (m + n)) (x : BitVec m) (y : BitVec n) :
    w = x ++ y ↔ w.extractLsb' n m = x ∧ w.extractLsb' 0 n = y := by
  constructor
  · rintro rfl
    exact ⟨BitVec.extractLsb'_append_eq_left, BitVec.extractLsb'_append_eq_right⟩
  · rintro ⟨rfl, rfl⟩
    exact BitVec.extractLsb'_append_extractLsb'.symm

/-- A field of a field is a field of the word. -/
theorem extractLsb'_extractLsb' {w : Nat} (x : BitVec w) {i j len len' : Nat} (h : j + len ≤ len') :
    (x.extractLsb' i len').extractLsb' j len = x.extractLsb' (i + j) len := by
  ext k hk
  simp [show j + k < len' by omega, Nat.add_assoc]

/-- Three fields of a word. -/
theorem eq_append_three_iff {l m n : Nat} (w : BitVec (l + m + n)) (x : BitVec l) (y : BitVec m) (z : BitVec n) :
    w = x ++ y ++ z ↔ w.extractLsb' (n + m) l = x ∧ w.extractLsb' n m = y ∧ w.extractLsb' 0 n = z := by
  rw [eq_append_iff, eq_append_iff, extractLsb'_extractLsb' _ (by omega), extractLsb'_extractLsb' _ (by omega), and_assoc]
  rfl

/-- Four fields of a word. -/
theorem eq_append_four_iff {k l m n : Nat} (w : BitVec (k + l + m + n)) (x : BitVec k) (y : BitVec l) (z : BitVec m)
    (u : BitVec n) :
    w = x ++ y ++ z ++ u ↔
      w.extractLsb' (n + (m + l)) k = x ∧ w.extractLsb' (n + m) l = y ∧ w.extractLsb' n m = z ∧ w.extractLsb' 0 n = u := by
  rw [eq_append_iff, eq_append_three_iff, extractLsb'_extractLsb' _ (by omega), extractLsb'_extractLsb' _ (by omega),
    extractLsb'_extractLsb' _ (by omega), and_assoc, and_assoc]
  rfl

theorem extractLsb'_one {w : Nat} (x : BitVec w) (i : Nat) (b : Bool) :
    x.extractLsb' i 1 = BitVec.ofBool b ↔ x.getLsbD i = b := by
  rw [BitVec.eq_of_getLsbD_eq_iff]
  simp

/-! ### The small fields (R91) -/

theorem codeOfBits_eq_some (b : BitVec 2) (c : Code) : codeOfBits b = some c ↔ b = codeBits c := by
  revert b
  cases c <;> decide

theorem srcOfBits_eq_some (b : BitVec 2) (c : PolySrc) : srcOfBits b = some c ↔ b = srcBits c := by
  revert b
  cases c <;> decide

theorem toneOfBits_eq_some (b : BitVec 2) (c : Tone) : toneOfBits b = some c ↔ b = toneBits c := by
  revert b
  cases c <;> decide

/-! ### The formats (R91) -/

section
variable {op : Byte} {arg : BitVec 32} {i : Instr}

/-- A word is accepted when its must-be-zero bits are zero and its fields name a well-formed instruction. -/
theorem accept_eq_ok {mbz : Bool} {field : Option Instr} :
    accept op mbz field = .ok i ↔ mbz = true ∧ field = some i ∧ i.wf = true := by
  cases mbz
  · simp [accept]
  cases field with
  | none => simp [accept]
  | some k =>
    by_cases hk : k.wf = true
    · simp only [accept, hk, if_true, Except.ok.injEq, Option.some.injEq, true_and]
      exact ⟨fun h => ⟨h, h ▸ hk⟩, And.left⟩
    · simp only [accept, hk, if_true, if_false, true_and, Option.some.injEq, Bool.false_eq_true]
      exact ⟨fun h => (by cases h), fun h => absurd (h.1 ▸ h.2) hk⟩

theorem fmtZ_eq_ok {k : Instr} : fmtZ op arg k = .ok i ↔ i.wf = true ∧ i = k ∧ arg = 0#32 := by
  simp only [fmtZ, accept_eq_ok, decide_eq_true_eq, Option.some.injEq]
  exact ⟨fun ⟨h1, h2, h3⟩ => ⟨h3, h2.symm, h1⟩, fun ⟨h1, h2, h3⟩ => ⟨h3, h2.symm, h1⟩⟩

theorem fmtG2_eq_ok : fmtG2 op arg = .ok i ↔ i.wf = true ∧ ∃ a b, i = .gfmul a b ∧ arg = 0#16 ++ a ++ b := by
  simp only [fmtG2, accept_eq_ok, decide_eq_true_eq, Option.some.injEq, eq_append_three_iff (l := 16) (m := 8) (n := 8) arg]
  constructor
  · rintro ⟨h1, rfl, h3⟩
    exact ⟨h3, _, _, rfl, h1, rfl, rfl⟩
  · rintro ⟨h, a, b, rfl, h1, rfl, rfl⟩
    exact ⟨h1, rfl, h⟩

theorem fmtG1_eq_ok : fmtG1 op arg = .ok i ↔ i.wf = true ∧ ∃ a, i = .gfinv a ∧ arg = 0#24 ++ a := by
  simp only [fmtG1, accept_eq_ok, decide_eq_true_eq, Option.some.injEq, eq_append_iff (m := 24) (n := 8) arg]
  constructor
  · rintro ⟨h1, rfl, h3⟩
    exact ⟨h3, _, rfl, h1, rfl⟩
  · rintro ⟨h, a, rfl, h1, rfl⟩
    exact ⟨h1, rfl, h⟩

theorem fmtPE_eq_ok :
    fmtPE op arg = .ok i ↔ i.wf = true ∧ ∃ src x, i = .gfpeval src x ∧ arg = 0#22 ++ srcBits src ++ x := by
  simp only [fmtPE, accept_eq_ok, decide_eq_true_eq, Option.map_eq_some_iff, srcOfBits_eq_some,
    eq_append_three_iff (l := 22) (m := 2) (n := 8) arg]
  constructor
  · rintro ⟨h1, ⟨src, hs, rfl⟩, h3⟩
    exact ⟨h3, src, _, rfl, h1, hs, rfl⟩
  · rintro ⟨h, src, x, rfl, h1, hs, rfl⟩
    exact ⟨h1, ⟨src, hs, rfl⟩, h⟩

theorem fmtRC_eq_ok {k : Code → Instr} :
    fmtRC op arg k = .ok i ↔ i.wf = true ∧ ∃ code, i = k code ∧ arg = 0#30 ++ codeBits code := by
  simp only [fmtRC, accept_eq_ok, decide_eq_true_eq, Option.map_eq_some_iff, codeOfBits_eq_some,
    eq_append_iff (m := 30) (n := 2) arg]
  constructor
  · rintro ⟨h1, ⟨code, hc, rfl⟩, h3⟩
    exact ⟨h3, code, rfl, h1, hc⟩
  · rintro ⟨h, code, rfl, h1, hc⟩
    exact ⟨h1, ⟨code, hc, rfl⟩, h⟩

theorem fmtRCfe_eq_ok :
    fmtRCfe op arg = .ok i ↔
      i.wf = true ∧ ∃ fe code, i = .rssolve fe code ∧ arg = 0#23 ++ BitVec.ofBool fe ++ 0#6 ++ codeBits code := by
  simp only [fmtRCfe, accept_eq_ok, Bool.and_eq_true, decide_eq_true_eq, Option.map_eq_some_iff, codeOfBits_eq_some,
    eq_append_four_iff (k := 23) (l := 1) (m := 6) (n := 2) arg, extractLsb'_one]
  constructor
  · rintro ⟨⟨h1, h2⟩, ⟨code, hc, rfl⟩, h3⟩
    exact ⟨h3, _, code, rfl, h1, rfl, h2, hc⟩
  · rintro ⟨h, fe, code, rfl, h1, rfl, h2, hc⟩
    exact ⟨⟨h1, h2⟩, ⟨code, hc, rfl⟩, h⟩

theorem fmtV1_eq_ok :
    fmtV1 op arg = .ok i ↔ i.wf = true ∧ ∃ blocks il, i = .c1dec blocks il ∧ arg = 0#24 ++ blocks ++ BitVec.ofBool il := by
  simp only [fmtV1, accept_eq_ok, decide_eq_true_eq, Option.some.injEq, eq_append_three_iff (l := 24) (m := 7) (n := 1) arg,
    extractLsb'_one]
  constructor
  · rintro ⟨h1, rfl, h3⟩
    exact ⟨h3, _, _, rfl, h1, rfl, rfl⟩
  · rintro ⟨h, a, b, rfl, h1, rfl, rfl⟩
    exact ⟨h1, rfl, h⟩

theorem fmtV2_eq_ok :
    fmtV2 op arg = .ok i ↔ i.wf = true ∧ ∃ group slice, i = .c2dec group slice ∧ arg = 0#25 ++ group ++ slice := by
  simp only [fmtV2, accept_eq_ok, decide_eq_true_eq, Option.some.injEq, eq_append_three_iff (l := 25) (m := 2) (n := 5) arg]
  constructor
  · rintro ⟨h1, rfl, h3⟩
    exact ⟨h3, _, _, rfl, h1, rfl, rfl⟩
  · rintro ⟨h, a, b, rfl, h1, rfl, rfl⟩
    exact ⟨h1, rfl, h⟩

theorem fmtV3_eq_ok :
    fmtV3 op arg = .ok i ↔
      i.wf = true ∧ ∃ slice tp il, i = .c3dec slice tp il ∧ arg = 0#20 ++ slice ++ BitVec.ofBool tp ++ BitVec.ofBool il := by
  simp only [fmtV3, accept_eq_ok, decide_eq_true_eq, Option.some.injEq,
    eq_append_four_iff (k := 20) (l := 10) (m := 1) (n := 1) arg, extractLsb'_one]
  constructor
  · rintro ⟨h1, rfl, h3⟩
    exact ⟨h3, _, _, _, rfl, h1, rfl, rfl, rfl⟩
  · rintro ⟨h, a, b, c, rfl, h1, rfl, rfl, rfl⟩
    exact ⟨h1, rfl, h⟩

theorem fmtB2_eq_ok : fmtB2 op arg = .ok i ↔ i.wf = true ∧ ∃ tone, i = .atf tone ∧ arg = 0#30 ++ toneBits tone := by
  simp only [fmtB2, accept_eq_ok, decide_eq_true_eq, Option.map_eq_some_iff, toneOfBits_eq_some,
    eq_append_iff (m := 30) (n := 2) arg]
  constructor
  · rintro ⟨h1, ⟨tone, hc, rfl⟩, h3⟩
    exact ⟨h3, tone, rfl, h1, hc⟩
  · rintro ⟨h, tone, rfl, h1, hc⟩
    exact ⟨h1, ⟨tone, hc, rfl⟩, h⟩

theorem fmtB1_eq_ok {k : Bool → Instr} :
    fmtB1 op arg k = .ok i ↔ i.wf = true ∧ ∃ b, i = k b ∧ arg = 0#31 ++ BitVec.ofBool b := by
  simp only [fmtB1, accept_eq_ok, decide_eq_true_eq, Option.some.injEq, eq_append_iff (m := 31) (n := 1) arg,
    extractLsb'_one]
  constructor
  · rintro ⟨h1, rfl, h3⟩
    exact ⟨h3, _, rfl, h1, rfl⟩
  · rintro ⟨h, a, rfl, h1, rfl⟩
    exact ⟨h1, rfl, h⟩

theorem fmtW10_eq_ok :
    fmtW10 op arg = .ok i ↔ i.wf = true ∧ ∃ sync w, i = .word sync w ∧ arg = 0#21 ++ BitVec.ofBool sync ++ w := by
  simp only [fmtW10, accept_eq_ok, decide_eq_true_eq, Option.some.injEq,
    eq_append_three_iff (l := 21) (m := 1) (n := 10) arg, extractLsb'_one]
  constructor
  · rintro ⟨h1, rfl, h3⟩
    exact ⟨h3, _, _, rfl, h1, rfl, rfl⟩
  · rintro ⟨h, a, b, rfl, h1, rfl, rfl⟩
    exact ⟨h1, rfl, h⟩

/-- The two formats whose one field is the whole operand word, GFPOWA and SAMPLE. -/
theorem acceptAll_eq_ok {k : Instr} : accept op true (some k) = .ok i ↔ i.wf = true ∧ i = k := by
  rw [accept_eq_ok, Option.some.injEq]
  exact ⟨fun ⟨_, hk, hw⟩ => ⟨hw, hk.symm⟩, fun ⟨hw, hk⟩ => ⟨rfl, hk.symm, hw⟩⟩

end

/-! ### The opcode table (R92) -/

/-- The decoder gives back an operation whose fields stand in the operand word. -/
theorem decodeArg_opcode_argOf (i : Instr) (h : i.wf = true) : decodeArg (opcode i) (argOf i) = .ok i := by
  cases i with
  | gfmul a b => exact fmtG2_eq_ok.2 ⟨h, a, b, rfl, rfl⟩
  | gfpowa n => exact acceptAll_eq_ok.2 ⟨h, rfl⟩
  | gfinv a => exact fmtG1_eq_ok.2 ⟨h, a, rfl, rfl⟩
  | gfpeval src x => exact fmtPE_eq_ok.2 ⟨h, src, x, rfl, rfl⟩
  | rssyn code | rseval code | rsvfy code => exact fmtRC_eq_ok.2 ⟨h, code, rfl, rfl⟩
  | rssolve fe code => exact fmtRCfe_eq_ok.2 ⟨h, fe, code, rfl, rfl⟩
  | c1dec blocks il => exact fmtV1_eq_ok.2 ⟨h, blocks, il, rfl, rfl⟩
  | c2dec group slice => exact fmtV2_eq_ok.2 ⟨h, group, slice, rfl, rfl⟩
  | c3dec slice tp il => exact fmtV3_eq_ok.2 ⟨h, slice, tp, il, rfl, rfl⟩
  | sample bits => exact acceptAll_eq_ok.2 ⟨h, rfl⟩
  | atf tone => exact fmtB2_eq_ok.2 ⟨h, tone, rfl, rfl⟩
  | clkev b | sym b | bit b => exact fmtB1_eq_ok.2 ⟨h, b, rfl, rfl⟩
  | word sync w => exact fmtW10_eq_ok.2 ⟨h, sync, w, rfl, rfl⟩
  | c1pass | c2pass | c3pass | stop | block | trkstart | trkstop | trkcpl | subx | track | pair | g3dec | dewht | sess
  | bgmerge | bgfin => exact fmtZ_eq_ok.2 ⟨h, rfl, rfl⟩

/-- What the decoder accepts is the operation with that opcode and those fields. -/
theorem of_decodeArg_eq_ok {op : Byte} {arg : BitVec 32} {i : Instr} (h : decodeArg op arg = .ok i) :
    i.wf = true ∧ opcode i = op ∧ argOf i = arg := by
  have named {n : Nat} (hop : op.toNat = n) (hi : (opcode i).toNat = n) : opcode i = op :=
    BitVec.eq_of_toNat_eq (hi.trans hop.symm)
  unfold decodeArg at h
  split at h
  case h_1 hop => obtain ⟨hw, a, b, rfl, rfl⟩ := fmtG2_eq_ok.1 h; exact ⟨hw, named hop rfl, rfl⟩
  case h_2 hop => obtain ⟨hw, rfl⟩ := acceptAll_eq_ok.1 h; exact ⟨hw, named hop rfl, rfl⟩
  case h_3 hop => obtain ⟨hw, a, rfl, rfl⟩ := fmtG1_eq_ok.1 h; exact ⟨hw, named hop rfl, rfl⟩
  case h_4 hop => obtain ⟨hw, src, x, rfl, rfl⟩ := fmtPE_eq_ok.1 h; exact ⟨hw, named hop rfl, rfl⟩
  case h_6 hop => obtain ⟨hw, fe, code, rfl, rfl⟩ := fmtRCfe_eq_ok.1 h; exact ⟨hw, named hop rfl, rfl⟩
  case h_5 hop | h_7 hop | h_8 hop => obtain ⟨hw, code, rfl, rfl⟩ := fmtRC_eq_ok.1 h; exact ⟨hw, named hop rfl, rfl⟩
  case h_9 hop => obtain ⟨hw, blocks, il, rfl, rfl⟩ := fmtV1_eq_ok.1 h; exact ⟨hw, named hop rfl, rfl⟩
  case h_10 hop => obtain ⟨hw, group, slice, rfl, rfl⟩ := fmtV2_eq_ok.1 h; exact ⟨hw, named hop rfl, rfl⟩
  case h_11 hop => obtain ⟨hw, slice, tp, il, rfl, rfl⟩ := fmtV3_eq_ok.1 h; exact ⟨hw, named hop rfl, rfl⟩
  case h_15 hop => obtain ⟨hw, rfl⟩ := acceptAll_eq_ok.1 h; exact ⟨hw, named hop rfl, rfl⟩
  case h_16 hop => obtain ⟨hw, tone, rfl, rfl⟩ := fmtB2_eq_ok.1 h; exact ⟨hw, named hop rfl, rfl⟩
  case h_18 hop | h_19 hop | h_20 hop => obtain ⟨hw, b, rfl, rfl⟩ := fmtB1_eq_ok.1 h; exact ⟨hw, named hop rfl, rfl⟩
  case h_21 hop => obtain ⟨hw, sync, w, rfl, rfl⟩ := fmtW10_eq_ok.1 h; exact ⟨hw, named hop rfl, rfl⟩
  case h_34 => cases h
  all_goals
    next hop => obtain ⟨hw, rfl, rfl⟩ := fmtZ_eq_ok.1 h; exact ⟨hw, named hop rfl, rfl⟩

/-! ### The whole word (R90) -/

@[simp] theorem opField_encode (i : Instr) : opField (encode i) = opcode i := BitVec.extractLsb'_append_eq_left

@[simp] theorem argField_encode (i : Instr) : argField (encode i) = argOf i := BitVec.extractLsb'_append_eq_right

theorem opField_append_argField (w : CmdWord) : opField w ++ argField w = w := BitVec.extractLsb'_append_extractLsb' (w := 8)

theorem decode_encode (i : Instr) (h : i.wf = true) : decode (encode i) = .ok i := by
  rw [decode, opField_encode, argField_encode, decodeArg_opcode_argOf i h]

theorem encode_of_decode {w : CmdWord} {i : Instr} (h : decode w = .ok i) : i.wf = true ∧ encode i = w := by
  obtain ⟨hw, hop, harg⟩ := of_decodeArg_eq_ok h
  exact ⟨hw, by rw [encode, hop, harg, opField_append_argField]⟩

/-- Settles O1: the decoder accepts a word exactly when it is the encoding of a well-formed instruction, format by format. -/
theorem decodeEncodeRoundTrip : Obligations.DecodeEncodeRoundTrip :=
  ⟨decode_encode, fun _ _ => encode_of_decode⟩

/-- Settles O3: each word is the encoding of its well-formed instruction. -/
theorem writtenWordsDecode : Obligations.WrittenWordsDecode :=
  ⟨decode_encode (.gfmul 0x53 0xCA) rfl, decode_encode (.gfpeval .sig 0x01) rfl, decode_encode (.rssolve true .c1) rfl,
    decode_encode (.c1dec 71 true) rfl, decode_encode (.c2dec 1 23) rfl, decode_encode (.c3dec 719 true true) rfl,
    decode_encode (.sample 0x3F800000) rfl, decode_encode (.atf .tone3) rfl, decode_encode (.word true 0x111) rfl,
    decode_encode .bgfin rfl⟩

end Sys2Proof
end

section
/-! Taking the next input of the port (60_exceptions.md R405): what a step does for each kind of input, and the statements
about commands, configuration writes and RESET. -/

namespace Sys2Proof.Machine

open Sys2Proof

/-! ### A step, by the input at the head of the port -/

section
variable {s : State} {rest : List PortInput}

theorem step_of_idle (h : s.port = []) : step s = .next s := by
  simp only [step, takeInput, h]

/-- A reserved word is refused, whoever issues it. -/
theorem step_of_reserved {issuer : Issuer} {w : CmdWord} {e : DecodeError} (h : s.port = .command issuer w :: rest)
    (hw : decode w = .error e) : step s = .refused (.reserved e) := by
  simp only [step, takeInput, h, takeCommand, hw]
  rfl

/-- A class E command of the host is refused. -/
theorem step_of_hostEvent {w : CmdWord} {i : Instr} (h : s.port = .command .host w :: rest) (hw : decode w = .ok i)
    (hi : i.eventOnly = true) : step s = .refused .eventFromHost := by
  simp only [step, takeInput, h, takeCommand, hw, hi, and_self, if_true]
  rfl

/-- Any other command runs, from the state that no longer holds it. -/
theorem step_of_command {issuer : Issuer} {w : CmdWord} {i : Instr} (h : s.port = .command issuer w :: rest)
    (hw : decode w = .ok i) (hi : issuer = .rule ∨ i.eventOnly = false) : step s = exec i (startCommand issuer rest s) := by
  have hok : ¬ (issuer = .host ∧ i.eventOnly = true) := by
    rintro ⟨rfl, he⟩
    rcases hi with hi | hi
    · cases hi
    · exact absurd (he.symm.trans hi) (by decide)
  simp only [step, takeInput, h, takeCommand, hw, if_neg hok]
  rfl

theorem step_of_reset (h : s.port = .reset :: rest) : step s = .next (takeReset rest s) := by
  simp only [step, takeInput, h]

theorem step_of_writeMode {m : Mode} (h : s.port = .writeMode m :: rest) : step s = settle (takeMode m rest s) := by
  simp only [step, takeInput, h]
  cases takeMode m rest s <;> rfl

theorem step_of_writeSessionSel {n : Nat} (h : s.port = .writeSessionSel n :: rest) :
    step s = settle (takeSessionSel n rest s) := by
  simp only [step, takeInput, h]
  cases takeSessionSel n rest s <;> rfl

theorem step_of_supply {p : Params} (h : s.port = .supply p :: rest) : step s = settle (takeParams p rest s) := by
  simp only [step, takeInput, h]
  cases takeParams p rest s <;> rfl

theorem step_of_images {l : List (Nat × Image)} (h : s.port = .images l :: rest) :
    step s = .next (takeImages l rest s) := by
  simp only [step, takeInput, h]

/-! ### Configuration writes (R430) -/

theorem frozen_of_idle (h : s.running = false) : frozen s = .ok () := by
  simp [frozen, h]

theorem frozen_of_running (h : s.running = true) : frozen s = .error .configFrozen := by
  simp [frozen, h, refuse]

/-- A write of MODE with a Track open or held is refused. -/
theorem takeMode_of_track (m : Mode) (h : s.cur.isSome = true ∨ s.last.isSome = true) :
    takeMode m rest s = .error .modeWithTrack := by
  rw [takeMode, if_pos (by simpa using h), refuse]

/-- Without one it is refused in a run and takes effect outside of it, as every configuration write. -/
theorem takeMode_of_noTrack (m : Mode) (hc : s.cur = none) (hl : s.last = none) :
    takeMode m rest s = frozen s >>= fun _ => .ok { s with port := rest, out := [], mode := m } := by
  rw [takeMode, if_neg (by simp [hc, hl])]

end

/-! ### The statements -/

/-- One instruction for each row of the opcode table (R92). -/
def tableRows : List Instr :=
  [.gfmul 0 0, .gfpowa 0, .gfinv 0, .gfpeval .syn 0, .rssyn .c1, .rssolve false .c1, .rseval .c1, .rsvfy .c1, .c1dec 0 false,
    .c2dec 0 0, .c3dec 0 false false, .c1pass, .c2pass, .c3pass, .sample 0, .atf .tone2, .stop, .clkev false, .sym false,
    .bit false, .word false 0, .block, .trkstart, .trkstop, .trkcpl, .subx, .track, .pair, .g3dec, .dewht, .sess, .bgmerge,
    .bgfin]

/-- An opcode of no row is the reason of the refusal (R94). -/
theorem decodeArg_of_unknown {op : Byte} (arg : BitVec 32) (h : ∀ i, opcode i ≠ op) :
    decodeArg op arg = .error (.reservedOpcode op) := by
  have hno : ∀ n ∈ tableRows.map fun i => (opcode i).toNat, op.toNat ≠ n := by
    intro n hn he
    obtain ⟨i, -, rfl⟩ := List.mem_map.1 hn
    exact h i (BitVec.eq_of_toNat_eq he.symm)
  unfold decodeArg
  split
  case h_34 => rfl
  all_goals next hop => exact absurd hop (hno _ (by decide))

/-- The class E operations take no operand, so each is well-formed. -/
theorem eventOnly_of_mem {i : Instr}
    (h : i ∈ [Instr.block, .trkcpl, .subx, .track, .pair, .g3dec, .dewht, .sess, .bgmerge, .bgfin]) :
    i.wf = true ∧ i.eventOnly = true := by
  revert i
  decide

/-- Settles O2: decoding after encoding succeeds, so a reserved word encodes nothing; the refusals are the step's. -/
theorem reservedWordsAreRefused : Obligations.ReservedWordsAreRefused := by
  refine ⟨fun w e hw => ⟨?_, fun s issuer rest h => step_of_reserved h hw⟩, fun w h => decodeArg_of_unknown _ h,
    fun s rest i hi h => ?_⟩
  · rintro i hi rfl
    rw [decode_encode i hi] at hw
    cases hw
  · obtain ⟨hwf, he⟩ := eventOnly_of_mem hi
    exact step_of_hostEvent h (decode_encode i hwf) he

/-- Settles O4: a command that decodes and is not a class E command of the host runs. -/
theorem stepRunsDecodedCommand : Obligations.StepRunsDecodedCommand :=
  fun _ _ _ _ _ hport hw hi => step_of_command hport hw hi

/-- Settles O5: each write by the checks it makes before it takes effect. -/
theorem configurationWrites : Obligations.ConfigurationWrites := by
  refine ⟨fun s => step_of_idle, fun s rest m h => ⟨fun hc hl hr => ?_, fun ht => ?_, fun hc hl hr => ?_⟩,
    fun s rest n h => ⟨fun hr => ?_, fun hr => ?_⟩, fun s rest p h => ⟨fun hr => ?_, fun hr => ?_⟩,
    fun s rest l => step_of_images⟩
  · rw [step_of_writeMode h, takeMode_of_noTrack m hc hl, frozen_of_idle hr, ok_bind, settle_ok]
  · rw [step_of_writeMode h, takeMode_of_track m ht, settle_error]
  · rw [step_of_writeMode h, takeMode_of_noTrack m hc hl, frozen_of_running hr, error_bind, settle_error]
  · rw [step_of_writeSessionSel h, takeSessionSel, frozen_of_idle hr, ok_bind, settle_ok]
  · rw [step_of_writeSessionSel h, takeSessionSel, frozen_of_running hr, error_bind, settle_error]
  · rw [step_of_supply h, takeParams, frozen_of_idle hr, ok_bind, settle_ok]
  · rw [step_of_supply h, takeParams, frozen_of_running hr, error_bind, settle_error]

/-- A register file at reset holds one value at every index. -/
theorem replicate_getElem_fin {α : Type} {n : Nat} (a : α) (i : Fin n) : (Vector.replicate n a)[i] = a := by
  simp

/-- Settles O6: RESET puts the reset state in place of every field but those it leaves alone. -/
theorem resetInputRestoresResetValues : Obligations.ResetInputRestoresResetValues := by
  intro s rest h
  refine ⟨takeReset rest s, step_of_reset h, replicate_getElem_fin _, ?_⟩
  simp only [takeReset, State.reset, RsFile.initial, replicate_getElem_fin, implies_true, and_self]

end Sys2Proof.Machine
end

section
/-! The meaning of each operation as an equation of `exec`, so that no later proof unfolds the dispatch (30_encoding.md R92). -/

namespace Sys2Proof.Machine

open Sys2Proof

section
variable (s : State)

theorem exec_gfmul (a b : Byte) : exec (.gfmul a b) s = .next (s.setGfr (gfMul s.cfg.primPoly a b)) := rfl
theorem exec_gfpowa (n : BitVec 32) : exec (.gfpowa n) s = .next (s.setGfr (gfPow s.cfg.primPoly n.toNat)) := rfl
theorem exec_gfinv (a : Byte) :
    exec (.gfinv a) s = if a = 0 then .refused .inverseOfZero else .next (s.setGfr (gfInv s.cfg.primPoly a)) := rfl
theorem exec_gfpeval (src : PolySrc) (x : Byte) :
    exec (.gfpeval src x) s = .next (s.setGfr (gfPeval s.cfg.primPoly (polyOperand s.rs src) x)) := rfl
theorem exec_rssyn (code : Code) : exec (.rssyn code) s = .next (s.setRs (rsSyn s.cfg code s.rs)) := rfl
theorem exec_rssolve (fe : Bool) (code : Code) :
    exec (.rssolve fe code) s = .next (s.setRs (rsSolve s.cfg fe code s.rs)) := rfl
theorem exec_rseval (code : Code) : exec (.rseval code) s = .next (s.setRs (rsEval s.cfg code s.rs)) := rfl
theorem exec_rsvfy (code : Code) : exec (.rsvfy code) s = .next (s.setRs (rsVfy s.cfg code s.rs)) := rfl
theorem exec_c1pass : exec .c1pass s = settle (c1pass s) := rfl
theorem exec_c2pass : exec .c2pass s = settle (c2pass s) := rfl
theorem exec_c3pass : exec .c3pass s = settle (c3pass s) := rfl
theorem exec_atf (tone : Tone) : exec (.atf tone) s = settle (atf tone s) := rfl
theorem exec_stop : exec .stop s = settle (stop s) := rfl
theorem exec_sym (v : Bool) : exec (.sym v) s = settle (sym v s) := rfl
theorem exec_bit (b : Bool) : exec (.bit b) s = settle (bit b s) := rfl
theorem exec_word (sync : Bool) (w : LineWord) : exec (.word sync w) s = settle (word sync w s) := rfl
theorem exec_block : exec .block s = settle (block s) := rfl
theorem exec_trkstart : exec .trkstart s = .next (trkstart s) := rfl
theorem exec_trkstop : exec .trkstop s = settle (trkstop s) := rfl
theorem exec_trkcpl : exec .trkcpl s = settle (trkcpl s) := rfl
theorem exec_subx : exec .subx s = settle (subx s) := rfl
theorem exec_track : exec .track s = settle (track s) := rfl
theorem exec_pair : exec .pair s = settle (pair s) := rfl
theorem exec_g3dec : exec .g3dec s = settle (g3dec s) := rfl
theorem exec_dewht : exec .dewht s = settle (dewht s) := rfl
theorem exec_sess : exec .sess s = settle (sess s) := rfl
theorem exec_bgmerge : exec .bgmerge s = settle (bgmerge s) := rfl
theorem exec_bgfin : exec .bgfin s = settle (bgfin s) := rfl

/-- The shells check the range of their selector before anything else (R94). -/
theorem exec_c1dec (blocks : BitVec 7) (il : Bool) :
    exec (.c1dec blocks il) s =
      if blocks.toNat ≤ 71 then settle (c1dec blocks.toNat il.toNat s) else .refused .fieldOutOfRange := rfl
theorem exec_c2dec (group : BitVec 2) (slice : BitVec 5) :
    exec (.c2dec group slice) s =
      if group.toNat % 2 = 0 ∨ slice.toNat ≤ 23 then settle (c2dec group.toNat slice.toNat s)
      else .refused .fieldOutOfRange := rfl
theorem exec_c3dec (slice : BitVec 10) (tp il : Bool) :
    exec (.c3dec slice tp il) s =
      if h : slice.toNat < 720 then settle (c3dec ⟨slice.toNat, h⟩ tp il s) else .refused .fieldOutOfRange := rfl
theorem exec_sample (bits : BitVec 32) :
    exec (.sample bits) s =
      if f32Finite bits then settle (sampleReal (fpOfReal s.cfg.fp (f32Value bits)) s)
      else .refused .nonFiniteSample := rfl

end

/-! ### What STOP does (R376) -/

/-- The first part of STOP: both Tracks discarded and the timer stopped. -/
def discardTracks (s : State) : State := (((s.setCur none).setLastBlk none).setLast none).setTimer ⟨0, false⟩

theorem stop_of_dat {s : State} (h : s.mode = .dat) :
    stop s = .ok ((emitOut (discardTracks s) .sinkFlush).setRunning false) := by
  have hm : (discardTracks s).mode = .dat := h
  simp only [stop]
  rw [discardTracks] at hm
  rw [hm]
  rfl

theorem stop_of_dds {s u : State} (h : s.mode = .dds) (hu : bgfin (discardTracks s) = .ok u) :
    stop s = .ok ((emitOut u .sinkFlush).setRunning false) := by
  have hm : (discardTracks s).mode = .dds := h
  rw [discardTracks] at hm hu
  simp only [stop]
  rw [hm]
  simp only [hu]
  rfl

end Sys2Proof.Machine
end

section
/-! The invariants (10_state.md, 20_memory.md): every operation keeps storage in its canonical form and the host's side of the
state, and the operations that a host can issue keep the pipeline empty between inputs. -/

namespace Sys2Proof.Machine

open Sys2Proof

/-! ### Every operation keeps storage and the host's side -/

/-- The storage invariant does not read the host's side of the state. -/
theorem StorageInv.withHost {s : State} (h : StorageInv s) (gfr : Byte) (m : Mode) (n : Nat) (p : Params)
    (l : List (Nat × Image)) (run : Bool) (port : List PortInput) (out : List HostOut) :
    StorageInv { s with
      gfr := gfr, mode := m, sessionSel := n, cfg := p, images := l, running := run, port := port, out := out } :=
  ⟨h.cur, h.last, h.transitTrack, h.transitPair, h.transitFrame, h.transitG1, h.bg, h.timerRange, h.timerRunning,
    h.timerTrack, h.preRun, h.lastBlk, h.nera, h.era, h.cor⟩

theorem StorageInv.setGfr {s : State} (h : StorageInv s) (v : Byte) : StorageInv (s.setGfr v) :=
  h.withHost v s.mode s.sessionSel s.cfg s.images s.running s.port s.out

theorem StorageInv.setRunning {s : State} (h : StorageInv s) (b : Bool) : StorageInv (s.setRunning b) :=
  h.withHost s.gfr s.mode s.sessionSel s.cfg s.images b s.port s.out

theorem discardTracks_keeps (s : State) : OpKeeps s (discardTracks s) :=
  .of_storage rfl rfl rfl rfl rfl rfl rfl rfl rfl fun h =>
    ⟨fun _ ht => (by cases ht), fun _ ht => (by cases ht), h.transitTrack, h.transitPair, h.transitFrame, h.transitG1, h.bg,
      Nat.zero_le _, rfl, rfl, h.preRun, fun hl => (by cases hl), h.nera, h.era, h.cor⟩

/-- STOP ends the run and flushes the sink, after a state that every other operation could have left. -/
theorem stop_cases {s t : State} (h : stop s = .ok t) :
    ∃ u, OpKeeps s u ∧ t = (emitOut u .sinkFlush).setRunning false ∧ u.cur = none ∧ u.last = none ∧
      u.transit = s.transit ∧ (u.bg = none ∨ s.mode = .dat ∧ u.bg = s.bg) := by
  cases hm : s.mode with
  | dat =>
    rw [stop_of_dat hm] at h
    cases h
    exact ⟨_, discardTracks_keeps s, rfl, rfl, rfl, rfl, .inr ⟨rfl, rfl⟩⟩
  | dds =>
    obtain ⟨u, hu, hbg, htr, hk⟩ := bgfin_completes (discardTracks s)
    rw [stop_of_dds hm hu] at h
    cases h
    obtain ⟨-, -, -, -, -, -, -, -, -, -, -, -, hcur, -, hlast⟩ := hk.front
    exact ⟨u, (discardTracks_keeps s).trans (bgfin_keeps hu), rfl, hcur, hlast, htr, .inl hbg⟩

/-- The operations of the GF unit, the only ones that write GFR (R32). -/
def isGfOp : Instr → Bool
  | .gfmul _ _ | .gfpowa _ | .gfinv _ | .gfpeval _ _ => true
  | _ => false

/-- A GF operation writes GFR and nothing else. -/
theorem exec_gfOp {i : Instr} {s t : State} (hi : isGfOp i = true) (h : exec i s = .next t) : ∃ v, t = s.setGfr v := by
  cases i with
  | gfmul a b => rw [exec_gfmul] at h; cases h; exact ⟨_, rfl⟩
  | gfpowa n => rw [exec_gfpowa] at h; cases h; exact ⟨_, rfl⟩
  | gfinv a =>
    rw [exec_gfinv] at h
    split at h
    · cases h
    · cases h; exact ⟨_, rfl⟩
  | gfpeval src x => rw [exec_gfpeval] at h; cases h; exact ⟨_, rfl⟩
  | _ => cases hi

/-- Every operation but those of the GF unit and STOP keeps the host's side of the state and the canonical form. -/
theorem exec_keeps {i : Instr} {s t : State} (hg : isGfOp i = false) (hs : i ≠ .stop) (h : exec i s = .next t) :
    OpKeeps s t := by
  cases i with
  | gfmul | gfpowa | gfinv | gfpeval => cases hg
  | stop => exact absurd rfl hs
  | rssyn code => rw [exec_rssyn] at h; cases h; exact opKeeps_setRs s (rsSyn_lists s.cfg code)
  | rssolve fe code => rw [exec_rssolve] at h; cases h; exact opKeeps_setRs s (rsSolve_lists s.cfg fe code)
  | rseval code => rw [exec_rseval] at h; cases h; exact opKeeps_setRs s (rsEval_lists s.cfg code)
  | rsvfy code => rw [exec_rsvfy] at h; cases h; exact opKeeps_setRs s (rsVfy_lists s.cfg code)
  | c1dec blocks il =>
    rw [exec_c1dec] at h
    split at h
    · exact c1dec_keeps (by omega) il.toNat_lt (settle_eq_next.1 h)
    · cases h
  | c2dec group slice =>
    rw [exec_c2dec] at h
    split at h
    · exact c2dec_keeps group.isLt slice.isLt (settle_eq_next.1 h)
    · cases h
  | c3dec slice tp il =>
    rw [exec_c3dec] at h
    split at h
    · exact c3dec_keeps (settle_eq_next.1 h)
    · cases h
  | c1pass => exact c1pass_keeps (settle_eq_next.1 h)
  | c2pass => exact c2pass_keeps (settle_eq_next.1 h)
  | c3pass => exact c3pass_keeps (settle_eq_next.1 h)
  | sample bits =>
    rw [exec_sample] at h
    split at h
    · exact (sampleReal_keeps (settle_eq_next.1 h)).1
    · cases h
  | atf tone => exact atf_keeps (settle_eq_next.1 h)
  | clkev d => rw [exec_clkev] at h; cases h; exact clkev_keeps s d
  | sym v => exact sym_keeps (settle_eq_next.1 h)
  | bit b => exact bit_keeps (settle_eq_next.1 h)
  | word sync w => exact word_keeps (settle_eq_next.1 h)
  | block => exact block_keeps (settle_eq_next.1 h)
  | trkstart => rw [exec_trkstart] at h; cases h; exact trkstart_keeps s
  | trkstop => exact (trkstop_keeps (settle_eq_next.1 h)).1
  | trkcpl => exact trkcpl_keeps (settle_eq_next.1 h)
  | subx => exact subx_keeps (settle_eq_next.1 h)
  | track => exact (track_keeps (settle_eq_next.1 h)).1
  | pair => exact pair_keeps (settle_eq_next.1 h)
  | g3dec => exact g3dec_keeps (settle_eq_next.1 h)
  | dewht => exact dewht_keeps (settle_eq_next.1 h)
  | sess => exact sess_keeps (settle_eq_next.1 h)
  | bgmerge => exact bgmerge_keeps (settle_eq_next.1 h)
  | bgfin => exact bgfin_keeps (settle_eq_next.1 h)

/-- Settles O59: GFR is all that the GF unit writes, STOP clears the run flag, and every other operation keeps the host's
side. -/
theorem operationsKeepTheHostSide : Obligations.OperationsKeepTheHostSide := by
  intro i s t h
  by_cases hg : isGfOp i = true
  · obtain ⟨v, rfl⟩ := exec_gfOp hg h
    refine ⟨rfl, rfl, rfl, rfl, rfl, rfl, fun _ => rfl, fun h1 h2 h3 h4 => ?_, [], by simp⟩
    cases i with
    | gfmul a b => exact absurd rfl (h1 a b)
    | gfpowa n => exact absurd rfl (h2 n)
    | gfinv a => exact absurd rfl (h3 a)
    | gfpeval c x => exact absurd rfl (h4 c x)
    | _ => cases hg
  by_cases hs : i = .stop
  · subst hs
    obtain ⟨u, hk, rfl, -⟩ := stop_cases (settle_eq_next.1 h)
    obtain ⟨more, hout⟩ := hk.out
    refine ⟨hk.cfg, hk.mode, hk.sel, hk.images, hk.port, hk.win, fun hne => absurd rfl hne, fun _ _ _ _ => hk.gfr,
      more ++ [.sinkFlush], ?_⟩
    show u.out ++ [.sinkFlush] = _
    rw [hout, List.append_assoc]
  · have hk := exec_keeps (by simpa using hg) hs h
    exact ⟨hk.cfg, hk.mode, hk.sel, hk.images, hk.port, hk.win, fun _ => hk.running, fun _ _ _ _ => hk.gfr, hk.out⟩

/-- Every operation keeps the storage invariant. -/
theorem exec_keeps_storage {i : Instr} {s t : State} (hs : StorageInv s) (h : exec i s = .next t) : StorageInv t := by
  by_cases hg : isGfOp i = true
  · obtain ⟨v, rfl⟩ := exec_gfOp hg h
    exact hs.setGfr v
  by_cases hi : i = .stop
  · subst hi
    obtain ⟨u, hk, rfl, -⟩ := stop_cases (settle_eq_next.1 h)
    exact ((emitOut_keeps u .sinkFlush).storage (hk.storage hs)).setRunning false
  · exact (exec_keeps (by simpa using hg) hi h).storage hs

/-! ### What a step can do -/

/-- The inputs that change the host's side of the state alone, and what it then is (R50, R51, R423, R374). -/
structure HostWrite (s t : State) (rest : List PortInput) : Prop where
  frame : t = { s with mode := t.mode, sessionSel := t.sessionSel, cfg := t.cfg, images := t.images, port := rest, out := [] }
  mode : t.mode = s.mode ∨ s.running = false ∧ s.cur = none ∧ s.last = none

/-- A step that is not refused. -/
theorem step_cases {s t : State} (h : step s = .next t) :
    (s.port = [] ∧ t = s) ∨ ∃ x rest, s.port = x :: rest ∧
      ((∃ issuer w i, x = .command issuer w ∧ (issuer = .rule ∨ i.eventOnly = false) ∧
          exec i (startCommand issuer rest s) = .next t) ∨
        t = takeReset rest s ∨ HostWrite s t rest) := by
  have idle : ∀ {f : State → State}, (frozen s >>= fun _ => .ok (f s) : Res) = .ok t → s.running = false ∧ t = f s := by
    intro f hf
    cases hr : s.running
    · rw [frozen_of_idle hr, ok_bind] at hf
      exact ⟨rfl, (Except.ok.inj hf).symm⟩
    · rw [frozen_of_running hr] at hf
      cases hf
  cases hp : s.port with
  | nil =>
    rw [step_of_idle hp] at h
    cases h
    exact .inl ⟨rfl, rfl⟩
  | cons x rest =>
    refine .inr ⟨x, rest, rfl, ?_⟩
    cases x with
    | command issuer w =>
      cases hw : decode w with
      | error e => rw [step_of_reserved hp hw] at h; cases h
      | ok i =>
        by_cases hi : issuer = .rule ∨ i.eventOnly = false
        · rw [step_of_command hp hw hi] at h
          exact .inl ⟨issuer, w, i, rfl, hi, h⟩
        · rw [not_or] at hi
          obtain ⟨h1, h2⟩ := hi
          cases issuer with
          | rule => exact absurd rfl h1
          | host => rw [step_of_hostEvent hp hw (by simpa using h2)] at h; cases h
    | reset =>
      rw [step_of_reset hp] at h
      cases h
      exact .inr (.inl rfl)
    | writeMode m =>
      rw [step_of_writeMode hp] at h
      have h := settle_eq_next.1 h
      by_cases ht : s.cur.isSome = true ∨ s.last.isSome = true
      · rw [takeMode_of_track m ht] at h; cases h
      · rw [not_or, Bool.not_eq_true, Bool.not_eq_true, Option.isSome_eq_false_iff, Option.isSome_eq_false_iff,
          Option.isNone_iff_eq_none, Option.isNone_iff_eq_none] at ht
        rw [takeMode_of_noTrack m ht.1 ht.2] at h
        obtain ⟨hr, rfl⟩ := idle (f := fun s => { s with port := rest, out := [], mode := m }) h
        exact .inr (.inr ⟨rfl, .inr ⟨hr, ht⟩⟩)
    | writeSessionSel n =>
      rw [step_of_writeSessionSel hp] at h
      obtain ⟨-, rfl⟩ := idle (f := fun s => { s with port := rest, out := [], sessionSel := n }) (settle_eq_next.1 h)
      exact .inr (.inr ⟨rfl, .inl rfl⟩)
    | supply p =>
      rw [step_of_supply hp] at h
      obtain ⟨-, rfl⟩ := idle (f := fun s => { s with port := rest, out := [], cfg := p }) (settle_eq_next.1 h)
      exact .inr (.inr ⟨rfl, .inl rfl⟩)
    | images l =>
      rw [step_of_images hp] at h
      cases h
      exact .inr (.inr ⟨rfl, .inl rfl⟩)

theorem storageInv_reset : StorageInv State.reset := by
  constructor <;> simp [State.reset, Transit.none, RsFile.initial]

/-- RESET makes the storage of the reset state, whatever the count of free values. -/
theorem storageInv_takeReset (rest : List PortInput) (s : State) : StorageInv (takeReset rest s) := by
  have h := storageInv_reset
  exact ⟨h.cur, h.last, h.transitTrack, h.transitPair, h.transitFrame, h.transitG1, h.bg, h.timerRange, h.timerRunning,
    h.timerTrack, h.preRun, h.lastBlk, h.nera, h.era, h.cor⟩

theorem HostWrite.storage {s t : State} {rest : List PortInput} (h : HostWrite s t rest) (hs : StorageInv s) :
    StorageInv t := by
  rw [h.frame]
  exact hs.withHost s.gfr t.mode t.sessionSel t.cfg t.images s.running rest []

/-- Settles O57: a step runs one operation, resets, or writes the host's side, and each keeps the storage invariant. -/
theorem stepKeepsStorageInvariant : Obligations.StepKeepsStorageInvariant := by
  intro s t hs h
  rcases step_cases h with ⟨-, rfl⟩ | ⟨x, rest, -, ⟨issuer, w, i, -, -, h⟩ | rfl | hw⟩
  · exact hs
  · exact exec_keeps_storage (hs.withHost s.gfr s.mode s.sessionSel s.cfg s.images _ rest []) h
  · exact storageInv_takeReset rest s
  · exact hw.storage hs

end Sys2Proof.Machine
end

section
/-! The pipeline invariant (10_state.md R22, 20_memory.md R77, 70_reset_and_hazards.md R430): the operations that the host can
issue leave nothing in transit, seal no open Track and make no basic group in DAT mode. -/

namespace Sys2Proof.Machine

open Sys2Proof

/-- What every operation of class H keeps of the pipeline. -/
structure PipeKeeps (s t : State) : Prop where
  transit : s.transit = Transit.none → t.transit = Transit.none
  cur : curUnsealed s → curUnsealed t
  group : s.mode = .dat → s.bg = none → t.bg = none

theorem PipeKeeps.refl (s : State) : PipeKeeps s s := ⟨id, id, fun _ => id⟩

theorem PipeKeeps.trans {s t u : State} (h1 : PipeKeeps s t) (hm : t.mode = s.mode) (h2 : PipeKeeps t u) : PipeKeeps s u :=
  ⟨fun h => h2.transit (h1.transit h), fun h => h2.cur (h1.cur h), fun h hb => h2.group (hm.trans h) (h1.group h hb)⟩

/-- An operation that changes none of the fields the pipeline invariant reads. -/
theorem PipeKeeps.of_same {s t : State} (h1 : t.transit = s.transit) (h2 : t.cur = s.cur) (h3 : t.bg = s.bg) :
    PipeKeeps s t :=
  ⟨h1.trans, fun h => by rw [curUnsealed, h2]; exact h, fun _ => h3.trans⟩

/-- An operation that leaves an open Track which is not sealed. -/
theorem PipeKeeps.of_open {s t : State} {tr : Track} (h1 : t.transit = s.transit) (h2 : t.cur = some tr)
    (h3 : t.bg = s.bg) (hs : tr.isSealed = false) : PipeKeeps s t :=
  ⟨h1.trans, fun _ x hx => by rw [h2, Option.some.injEq] at hx; exact hx ▸ hs, fun _ => h3.trans⟩

theorem LineKeeps.pipe {s t : State} (h : LineKeeps s t) : PipeKeeps s t := ⟨h.transit.trans, h.sealedness, fun _ => h.bg.trans⟩

/-! ### The shells and the passes -/

/-- A shell or pass on the open Track starts from one that is not sealed. -/
theorem openTrack_of_bind {β : Type} {s : State} {f : Track → Except Refusal β} {b : β} (h : openTrack s >>= f = .ok b) :
    ∃ tr, trackOpen s tr ∧ f tr = .ok b := by
  obtain ⟨tr, ho, h⟩ := bind_eq_ok.1 h
  exact ⟨tr, openTrack_eq_ok.1 ho, h⟩

theorem c1dec_pipe {s t : State} {pr il : Nat} (h : c1dec pr il s = .ok t) : PipeKeeps s t := by
  obtain ⟨tr, ho, h⟩ := openTrack_of_bind h
  cases h
  exact .of_open rfl rfl rfl ho.2

theorem c2dec_pipe {s t : State} {g sl : Nat} (h : c2dec g sl s = .ok t) : PipeKeeps s t := by
  obtain ⟨tr, ho, h⟩ := openTrack_of_bind h
  cases h
  exact .of_open rfl rfl rfl ho.2

theorem c1pass_pipe {s t : State} (h : c1pass s = .ok t) : PipeKeeps s t := by
  obtain ⟨tr, ho, -⟩ := openTrack_of_bind h
  obtain ⟨rs, cells, c, u, hp, -⟩ := c1pass_completes ho
  rw [hp] at h
  cases h
  exact .of_open rfl rfl rfl ho.2

theorem c2pass_pipe {s t : State} (h : c2pass s = .ok t) : PipeKeeps s t := by
  obtain ⟨tr, ho, -⟩ := openTrack_of_bind h
  obtain ⟨rs, cells, c, u, hp, -⟩ := c2pass_completes ho
  rw [hp] at h
  cases h
  exact .of_open rfl rfl rfl ho.2

/-- An operation on the basic group that was not refused had one. -/
theorem PipeKeeps.of_group {s t : State} {g : BasicGroup} (h1 : t.transit = s.transit) (h2 : t.cur = s.cur)
    (hg : s.bg = some g) : PipeKeeps s t :=
  ⟨h1.trans, fun h => by rw [curUnsealed, h2]; exact h, fun _ hn => by rw [hg] at hn; cases hn⟩

theorem c3dec_pipe {s t : State} {sl : Fin 720} {tp il : Bool} (h : c3dec sl tp il s = .ok t) : PipeKeeps s t := by
  obtain ⟨g, hg, h⟩ := bind_eq_ok.1 h
  cases h
  exact .of_group rfl rfl (activeGroup_eq_ok.1 hg)

theorem c3pass_pipe {s t : State} (h : c3pass s = .ok t) : PipeKeeps s t := by
  obtain ⟨g, hg, -⟩ := bind_eq_ok.1 h
  have hg := activeGroup_eq_ok.1 hg
  obtain ⟨rs, g', hp, -⟩ := c3pass_completes hg
  rw [hp] at h
  cases h
  exact .of_group rfl rfl hg

/-! ### Delivering a Track -/

/-- In DAT mode PAIR hands the frame to the host and makes no basic group (R331). -/
theorem pair_bg {s t : State} (h : pair s = .ok t) (hm : s.mode = .dat) : t.bg = s.bg := by
  obtain ⟨ab, -, h⟩ := bind_eq_ok.1 h
  simp only [State.setTransit_mode, hm] at h
  cases h
  rfl

theorem track_bg {s t : State} (h : track s = .ok t) (hm : s.mode = .dat) : t.bg = s.bg := by
  obtain ⟨k, -, h⟩ := bind_eq_ok.1 h
  simp only at h
  split at h
  · cases h; rfl
  · split at h
    · have hb := pair_bg h hm
      exact hb
    · cases h; rfl

theorem trkcpl_bg {s t : State} (h : trkcpl s = .ok t) : t.bg = s.bg ∧ t.mode = s.mode := by
  have h0 := h
  obtain ⟨_, h0, -⟩ := bind_eq_ok.1 h0
  obtain ⟨_, h0, -⟩ := bind_eq_ok.1 h0
  obtain ⟨_, h0, -⟩ := bind_eq_ok.1 h0
  obtain ⟨tr, ho, -⟩ := openTrack_of_bind h0
  obtain ⟨rs, k, hp, -⟩ := trkcpl_completes ho
  rw [hp] at h
  cases h
  exact ⟨rfl, rfl⟩

theorem trkstop_bg {s t : State} (h : trkstop s = .ok t) (hm : s.mode = .dat) : t.bg = s.bg := by
  cases hc : s.cur with
  | none => rw [trkstop_closed hc] at h; cases h; rfl
  | some tr =>
    have hci : (trackIdle s).cur = some tr := hc
    rw [trkstop] at h
    simp only [hci] at h
    obtain ⟨u, hu, h⟩ := bind_eq_ok.1 h
    obtain ⟨hb, hmode⟩ := trkcpl_bg hu
    have ht := track_bg h (hmode.trans hm)
    exact ht.trans hb

theorem trkstop_pipe {s t : State} (h : trkstop s = .ok t) : PipeKeeps s t := by
  obtain ⟨-, hcur, -, -, -, -, htr⟩ := trkstop_keeps h
  exact ⟨htr, fun _ x hx => (by rw [hcur] at hx; cases hx), fun hm => (trkstop_bg h hm).trans⟩

theorem timerTick_pipe {s t : State} (h : timerTick s = .ok t) : PipeKeeps s t := by
  unfold timerTick at h
  split at h
  · cases h; exact .refl s
  · rw [trkstop_setTimer] at h
    exact trkstop_pipe h
  · cases h; exact .of_same rfl rfl rfl

theorem scanStep_pipe (s : State) : PipeKeeps s (scanStep s) := by
  rcases scanStep_cases s with h | h <;> rw [h] <;> exact .of_same rfl rfl rfl

theorem sampleReal_pipe {s t : State} {x : Rat} (h : sampleReal x s = .ok t) : PipeKeeps s t := by
  obtain ⟨u, hu, h⟩ := sampleReal_cases h
  obtain ⟨hk, hl⟩ := emitSym_keeps hu
  have hset : PipeKeeps s (s.setClk (closeSymbol s.cfg.fp (takeSample s.cfg.fp x s.clk)).1) := .of_same rfl rfl rfl
  have hsym : PipeKeeps s u := hset.trans rfl hl.pipe
  have hscan : PipeKeeps s (advance (scanStep u)) :=
    (hsym.trans hk.mode (scanStep_pipe u)).trans ((scanStep_keeps u).mode.trans hk.mode) (.of_same rfl rfl rfl)
  exact hscan.trans ((scanStep_keeps u).mode.trans hk.mode) (timerTick_pipe h)

/-! ### The operations of class H -/

theorem atf_pipe {s t : State} {tone : Tone} (h : atf tone s = .ok t) : PipeKeeps s t := by
  unfold atf at h
  split at h
  · split at h
    · cases h
    · next hs => cases h; exact .of_open rfl rfl rfl (by simpa using hs)
  · cases h; exact .refl s
  · cases h; exact .refl s

theorem exec_pipe {i : Instr} {s t : State} (hi : i.eventOnly = false) (hs : i ≠ .stop) (h : exec i s = .next t) :
    PipeKeeps s t := by
  cases i with
  | stop => exact absurd rfl hs
  | block | trkcpl | subx | track | pair | g3dec | dewht | sess | bgmerge | bgfin => cases hi
  | gfmul | gfpowa | gfinv | gfpeval =>
    obtain ⟨v, rfl⟩ := exec_gfOp rfl h
    exact .of_same rfl rfl rfl
  | rssyn code => rw [exec_rssyn] at h; cases h; exact .of_same rfl rfl rfl
  | rssolve fe code => rw [exec_rssolve] at h; cases h; exact .of_same rfl rfl rfl
  | rseval code => rw [exec_rseval] at h; cases h; exact .of_same rfl rfl rfl
  | rsvfy code => rw [exec_rsvfy] at h; cases h; exact .of_same rfl rfl rfl
  | c1dec blocks il =>
    rw [exec_c1dec] at h
    split at h
    · exact c1dec_pipe (settle_eq_next.1 h)
    · cases h
  | c2dec group slice =>
    rw [exec_c2dec] at h
    split at h
    · exact c2dec_pipe (settle_eq_next.1 h)
    · cases h
  | c3dec slice tp il =>
    rw [exec_c3dec] at h
    split at h
    · exact c3dec_pipe (settle_eq_next.1 h)
    · cases h
  | c1pass => exact c1pass_pipe (settle_eq_next.1 h)
  | c2pass => exact c2pass_pipe (settle_eq_next.1 h)
  | c3pass => exact c3pass_pipe (settle_eq_next.1 h)
  | sample bits =>
    rw [exec_sample] at h
    split at h
    · exact sampleReal_pipe (settle_eq_next.1 h)
    · cases h
  | atf tone => exact atf_pipe (settle_eq_next.1 h)
  | clkev d => rw [exec_clkev] at h; cases h; cases d <;> exact .of_same rfl rfl rfl
  | sym v => exact (sym_line (settle_eq_next.1 h)).pipe
  | bit b => exact (bit_line (settle_eq_next.1 h)).pipe
  | word sync w => exact (word_line (settle_eq_next.1 h)).pipe
  | trkstart => rw [exec_trkstart] at h; cases h; exact .of_open rfl rfl rfl rfl
  | trkstop => exact trkstop_pipe (settle_eq_next.1 h)

/-! ### The statements -/

theorem pipelineInv_takeReset (rest : List PortInput) (s : State) (h : ∀ x ∈ rest, ∀ w, x ≠ .command .rule w) :
    PipelineInv (takeReset rest s) :=
  ⟨storageInv_takeReset rest s, h, rfl, fun _ ht => (by cases ht), fun _ => rfl, fun _ => ⟨rfl, rfl, rfl⟩⟩

/-- Settles O56: every container of the reset state is empty. -/
theorem resetMeetsInvariant : Obligations.ResetMeetsInvariant :=
  ⟨storageInv_reset, fun _ hx => (by cases hx), rfl, fun _ ht => (by cases ht), fun _ => rfl, fun _ => ⟨rfl, rfl, rfl⟩⟩

/-- A host command keeps the invariant: STOP empties the pipeline and ends the run, every other one goes on with it. -/
theorem exec_keeps_pipeline {i : Instr} {s t : State} (hs : PipelineInv s) (hr : s.running = true)
    (hi : i.eventOnly = false) (h : exec i s = .next t) : PipelineInv t := by
  have hstorage := exec_keeps_storage hs.storage h
  obtain ⟨-, hmode, -, -, hport, -, hrun, -⟩ := operationsKeepTheHostSide i s t h
  have hport : portFromHost t := by rw [portFromHost, hport]; exact hs.port
  by_cases hstop : i = .stop
  · subst hstop
    obtain ⟨u, hk, rfl, hcur, hlast, htr, hbg⟩ := stop_cases (settle_eq_next.1 h)
    have hbg : u.bg = none := hbg.elim id fun ⟨hm, hb⟩ => hb.trans (hs.datGroup hm)
    exact ⟨hstorage, hport, htr.trans hs.transit, fun x (hx : u.cur = some x) => (by rw [hcur] at hx; cases hx), fun _ => hbg,
      fun _ => ⟨hcur, hlast, hbg⟩⟩
  · have hp := exec_pipe hi hstop h
    refine ⟨hstorage, hport, hp.transit hs.transit, hp.cur hs.curUnsealed, fun hm => ?_, fun hn => ?_⟩
    · rw [hmode] at hm
      exact hp.group hm (hs.datGroup hm)
    · rw [hrun hstop, hr] at hn
      cases hn

/-- Settles O58: only the host's commands wait, so a step runs an operation of class H in a run. -/
theorem stepKeepsPipelineInvariant : Obligations.StepKeepsPipelineInvariant := by
  intro s t hs h
  rcases step_cases h with ⟨-, rfl⟩ | ⟨x, rest, hp, hx⟩
  · exact hs
  have hrest : ∀ y ∈ rest, ∀ w, y ≠ .command .rule w := fun y hy => hs.port y (by rw [hp]; exact List.mem_cons_of_mem _ hy)
  rcases hx with ⟨issuer, w, i, rfl, hi, h⟩ | rfl | hw
  · have hhost : issuer = .host := by
      cases issuer with
      | host => rfl
      | rule => exact absurd rfl (hs.port _ (by rw [hp]; exact List.mem_cons_self) w)
    subst hhost
    have hrun : (startCommand .host rest s).running = true := by simp [startCommand]
    have hstart : PipelineInv (startCommand .host rest s) :=
      ⟨hs.storage.withHost s.gfr s.mode s.sessionSel s.cfg s.images _ rest [], hrest, hs.transit, hs.curUnsealed,
        hs.datGroup, fun hn => (by rw [hrun] at hn; cases hn)⟩
    exact exec_keeps_pipeline hstart hrun (hi.resolve_left (by decide)) h
  · exact pipelineInv_takeReset rest s hrest
  · have hstorage := hw.storage hs.storage
    have hmode := hw.mode
    rw [hw.frame] at hstorage ⊢
    refine ⟨hstorage, hrest, hs.transit, hs.curUnsealed, fun hm => ?_, hs.idle⟩
    rcases hmode with he | ⟨hr, -⟩
    · exact hs.datGroup (he.symm.trans hm)
    · exact (hs.idle hr).2.2

end Sys2Proof.Machine
end

section
/-! The GF unit against polynomial arithmetic (40_gf256.md R134 to R137): GFMUL is Horner's rule on the bits of a factor, GFPEVAL
Horner's rule on the coefficients. -/

namespace Sys2Proof.Machine

open Sys2Proof

variable {p : BitVec 9}

/-! ### GFMUL is the polynomial product -/

/-- Multiplying by z before or after another factor is the same. -/
theorem gfMul_timesZ (hp : primitive p) (a b : Byte) : gfMul p a (timesZ p b) = timesZ p (gfMul p a b) := by
  rcases eq_zero_or_alphaPow hp a with rfl | ⟨n, rfl⟩
  · rw [zero_gfMul, zero_gfMul, timesZ_zero]
  · rw [alphaPow_gfMul_eq_iterate hp, alphaPow_gfMul_eq_iterate hp, ← Function.iterate_succ_apply,
      Function.iterate_succ_apply']

theorem gfMul_one (hp : primitive p) (a : Byte) : gfMul p a 1 = a := by
  rw [gfMul_comm hp]
  exact alphaPow_gfMul_eq_iterate hp 0 a

theorem one_gfMul (hp : primitive p) (a : Byte) : gfMul p 1 a = a := alphaPow_gfMul_eq_iterate hp 0 a

theorem xor_gfMul (hp : primitive p) (a b c : Byte) : gfMul p (a ^^^ b) c = gfMul p a c ^^^ gfMul p b c := by
  rw [gfMul_comm hp, gfMul_xor hp, gfMul_comm hp c, gfMul_comm hp c]

/-- The upper bits of a byte, one bit more: below z^8 the shift is the multiplication by z. -/
theorem ushiftRight_step (p : BitVec 9) (b : Byte) {k : Nat} (hk : k < 8) :
    b >>> (7 - k) = timesZ p (b >>> (8 - k)) ^^^ (if b.getLsbD (7 - k) then 1 else 0) := by
  have hmsb : (b >>> (8 - k)).msb = false := by
    rw [BitVec.msb_eq_getLsbD_last, BitVec.getLsbD_ushiftRight]
    exact BitVec.getLsbD_of_ge _ _ (by omega)
  have hz : timesZ p (b >>> (8 - k)) = (b >>> (8 - k)) <<< 1 := by simp [timesZ, hmsb]
  have hbit (i : Nat) : (if b.getLsbD (7 - k) then (1 : Byte) else 0).getLsbD i = (decide (i = 0) && b.getLsbD (7 - k)) := by
    cases b.getLsbD (7 - k) <;> simp [BitVec.getLsbD_one]
  rw [hz]
  apply BitVec.eq_of_getLsbD_eq
  intro i hi
  rw [BitVec.getLsbD_xor, hbit, BitVec.getLsbD_shiftLeft, BitVec.getLsbD_ushiftRight, BitVec.getLsbD_ushiftRight]
  cases i with
  | zero => simp
  | succ i =>
    have : 7 - k + (i + 1) = 8 - k + i := by omega
    simp [hi, this]

/-- After `k` bits Horner's rule holds the product with the upper `k` bits. -/
theorem polyProd_fold (hp : primitive p) (a b : Byte) {k : Nat} (hk : k ≤ 8) :
    (List.range k).foldl (fun r i => timesZ p r ^^^ (if b.getLsbD (7 - i) then a else 0)) 0 = gfMul p a (b >>> (8 - k)) := by
  induction k with
  | zero => rw [show b >>> (8 - 0) = 0 from BitVec.ushiftRight_eq_zero (by decide), gfMul_zero]; rfl
  | succ k ih =>
    rw [List.range_succ, List.foldl_append, ih (by omega), List.foldl_cons, List.foldl_nil,
      show 8 - (k + 1) = 7 - k by omega, ushiftRight_step p b (by omega), gfMul_xor hp, gfMul_timesZ hp]
    cases b.getLsbD (7 - k)
    · rw [if_neg Bool.false_ne_true, if_neg Bool.false_ne_true, gfMul_zero]
    · rw [if_pos rfl, if_pos rfl, gfMul_one hp]

theorem polyProd_eq (hp : primitive p) (a b : Byte) : polyProd p a b = gfMul p a b := by
  rw [polyProd, polyProd_fold hp a b (Nat.le_refl 8)]
  simp

theorem gfPow_natCast (hp : primitive p) (n : Nat) : gfPow p n = alphaPow p n := by
  rw [gfPow_eq, alphaPow_eq_iff hp]
  omega

/-- Settles O7: the four meanings of the GF unit, with GFMUL the polynomial product. -/
theorem gfmulGfpowaGfinvFollowTheField : Obligations.GfmulGfpowaGfinvFollowTheField := by
  refine ⟨fun s a b hp => ?_, fun s i hp => ?_, fun s a hp ha => ⟨gfInv s.cfg.primPoly a, ?_, ?_⟩, fun s => ?_⟩
  · rw [exec_gfmul, polyProd_eq hp]
  · rw [exec_gfpowa, gfPow_natCast hp]
  · rw [polyProd_eq hp, gfMul_gfInv hp ha]
  · rw [exec_gfinv, if_neg ha]
  · rw [exec_gfinv, if_pos rfl]

/-! ### GFPEVAL is the value of the polynomial -/

theorem gfPeval_nil (p : BitVec 9) (x : Byte) : gfPeval p [] x = 0 := rfl

theorem gfPeval_cons (p : BitVec 9) (a : Byte) (c : List Byte) (x : Byte) :
    gfPeval p (a :: c) x = gfMul p (gfPeval p c x) x ^^^ a := rfl

/-- Coefficients that start at x^k. -/
theorem xorSum_zipIdx (hp : primitive p) (c : List Byte) (x : Byte) (k : Nat) :
    xorSum ((c.zipIdx k).map fun ci => polyProd p ci.1 (bytePow p x ci.2)) = gfMul p (gfPeval p c x) (bytePow p x k) := by
  induction c generalizing k with
  | nil => rw [gfPeval_nil, zero_gfMul]; rfl
  | cons a c ih =>
    rw [List.zipIdx_cons, List.map_cons, xorSum_cons, ih, gfPeval_cons, xor_gfMul hp, polyProd_eq hp, bytePow,
      polyProd_eq hp, ← gfMul_assoc hp, gfMul_comm hp x, BitVec.xor_comm]

theorem gfPeval_eq_polyValue (hp : primitive p) (c : List Byte) (x : Byte) : gfPeval p c x = polyValue p c x := by
  rw [polyValue, xorSum_zipIdx hp, bytePow, gfMul_one hp]

theorem polyOperand_eq_polyRegs (rs : RsFile) (src : PolySrc) : polyOperand rs src = polyRegs rs src := by
  cases src <;> rfl

/-- Settles O8: Horner's rule is the sum of the terms. -/
theorem gfpevalEvaluatesPolynomial : Obligations.GfpevalEvaluatesPolynomial := by
  intro s src x hp
  rw [exec_gfpeval, gfPeval_eq_polyValue hp, polyOperand_eq_polyRegs]

end Sys2Proof.Machine
end

section
/-! The solver's operations that need no algebra (41_rs_solver.md R153, R154, R157, R158): RSSYN, the failure of RSSOLVE, RSEVAL
and RSVFY, each from what Laws/Rs.lean says it can do. -/

namespace Sys2Proof.Machine

open Sys2Proof

/-! ### Registers that a list is written to -/

/-- The registers that the list reaches. -/
theorem writeFile_getElem_lt {α : Type} {m : Nat} (v : Vector α m) (xs : List α) (i : Fin m) (h : i.val < xs.length) :
    (writeFile v xs)[i] = xs[i.val] := by
  rw [Fin.getElem_fin, writeFile_getElem, dif_pos h]

/-- The registers after them. -/
theorem writeFile_getElem_ge {α : Type} {m : Nat} (v : Vector α m) (xs : List α) (i : Fin m) (h : xs.length ≤ i.val) :
    (writeFile v xs)[i] = v[i] := by
  rw [Fin.getElem_fin, writeFile_getElem, dif_neg (by omega)]
  rfl

theorem synStatus_eq_uncorrectable {syn : List Byte} (h : synStatus syn ≠ .noErrors) : synStatus syn = .uncorrectable := by
  unfold synStatus at h ⊢
  split
  · next ha => rw [if_pos ha] at h; exact absurd rfl h
  · rfl

/-- Settles O10: RSSYN writes the parity sums, their status and CODE. -/
theorem rssynComputesSyndrome : Obligations.RssynComputesSyndrome := by
  intro s code
  have hlen := syndromes_length s.cfg code (fileValues s.rs.vec (codeLen code))
  have hst := synStatus_noErrors s.cfg code s.rs.vec
  refine ⟨rsSyn s.cfg code s.rs, exec_rssyn s code, ?_⟩
  rw [rsSyn_eq]
  refine ⟨fun j hj => ?_, fun j hj => ?_, rfl, hst.2, fun hn => synStatus_eq_uncorrectable (mt hst.1 hn), rfl⟩
  · show (writeFile _ _)[j] = _
    rw [writeFile_getElem_lt _ _ j (by omega)]
    exact syndromes_getElem s.cfg code s.rs.vec j.val hj
  · exact writeFile_getElem_ge _ _ j (by omega)

theorem unspecify_getElem_lt {m : Nat} (v : Vector Byte m) (n k : Nat) (i : Fin m) (h : i.val < n) :
    (unspecify v n k)[i] = Config.freeByte (k + i.val) := by
  rw [Fin.getElem_fin, unspecify_getElem, if_pos h]

theorem unspecify_getElem_ge {m : Nat} (v : Vector Byte m) (n k : Nat) (i : Fin m) (h : n ≤ i.val) :
    (unspecify v n k)[i] = v[i] := by
  rw [Fin.getElem_fin, unspecify_getElem, if_neg (by omega)]
  rfl

/-- Settles O11: the registers of the solution are drawn anew, and the solver fails. -/
theorem rssolveRejectsTooManyErasures : Obligations.RssolveRejectsTooManyErasures := by
  intro s fe code h
  refine ⟨rsSolve s.cfg fe code s.rs, exec_rssolve s fe code, ?_⟩
  rw [rsSolve_rejects s.cfg fe code h]
  refine ⟨rfl, rfl, rfl, fun i hi => ?_, fun i hi => ?_, fun i hi => ?_, fun i hi => ?_, rfl, rfl⟩
  · exact unspecify_getElem_lt _ _ _ i (by omega)
  · exact unspecify_getElem_ge _ _ _ i (by omega)
  · exact unspecify_getElem_lt _ _ _ i hi
  · exact unspecify_getElem_ge _ _ _ i hi

/-! ### The degree of a coefficient list (00_scope.md R14) -/

theorem polyTrim_eq_rdropWhile (c : List Byte) : polyTrim c = c.rdropWhile (· = 0) := rfl

/-- A zero coefficient of the highest degree is trimmed. -/
theorem polyDeg_append_zero (c : List Byte) : polyDeg (c ++ [0]) = polyDeg c := by
  rw [polyDeg, polyDeg, polyTrim_eq_rdropWhile, polyTrim_eq_rdropWhile, List.rdropWhile_concat_pos _ _ _ (by simp)]

/-- A nonzero coefficient of the highest degree is not. -/
theorem polyDeg_append_ne_zero (c : List Byte) {a : Byte} (ha : a ≠ 0) : polyDeg (c ++ [a]) = c.length := by
  rw [polyDeg, polyTrim_eq_rdropWhile, List.rdropWhile_concat_neg _ _ _ (by simpa using ha)]
  simp

theorem getD_append_singleton (c : List Byte) (a : Byte) (k : Nat) :
    (c ++ [a]).getD k 0 = if k = c.length then a else c.getD k 0 := by
  rcases Nat.lt_trichotomy k c.length with h | h | h
  · rw [List.getD_append _ _ _ _ h, if_neg (by omega)]
  · rw [h, List.getD_append_right _ _ _ _ (Nat.le_refl _), if_pos rfl, Nat.sub_self]
    rfl
  · rw [if_neg (by omega), List.getD_eq_default _ _ (by simp; omega), List.getD_eq_default _ _ (by omega)]

theorem polyDeg_nil : polyDeg [] = -1 := rfl

/-- The degree is -1 exactly for a list of zeros. -/
theorem polyDeg_eq_neg_one (c : List Byte) : polyDeg c = -1 ↔ ∀ k, c.getD k 0 = 0 := by
  induction c using List.reverseRecOn with
  | nil => simp [polyDeg_nil]
  | append_singleton c a ih =>
    by_cases ha : a = 0
    · subst ha
      rw [polyDeg_append_zero, ih]
      refine forall_congr' fun k => ?_
      rw [getD_append_singleton]
      split
      · next hk => rw [hk, List.getD_eq_default _ _ (Nat.le_refl _)]
      · rfl
    · rw [polyDeg_append_ne_zero c ha]
      refine iff_of_false (by omega) fun h => ha ?_
      have := h c.length
      rwa [getD_append_singleton, if_pos rfl] at this

/-- The degree is `d` exactly when the largest index of a nonzero coefficient is `d`. -/
theorem isDegree_iff (c : List Byte) (d : Nat) : isDegree c d ↔ (d : Int) = polyDeg c := by
  induction c using List.reverseRecOn with
  | nil => exact iff_of_false (fun h => h.1 rfl) (by rw [polyDeg_nil]; omega)
  | append_singleton c a ih =>
    by_cases ha : a = 0
    · subst ha
      rw [polyDeg_append_zero, ← ih]
      have hget (k : Nat) : (c ++ [0]).getD k 0 = c.getD k 0 := by
        rw [getD_append_singleton]
        split
        · next hk => rw [hk, List.getD_eq_default _ _ (Nat.le_refl _)]
        · rfl
      simp only [isDegree, hget]
    · rw [polyDeg_append_ne_zero c ha, Nat.cast_inj]
      constructor
      · rintro ⟨hd, hz⟩
        rcases Nat.lt_trichotomy d c.length with h | h | h
        · have := hz c.length h
          rw [getD_append_singleton, if_pos rfl] at this
          exact absurd this ha
        · exact h
        · rw [List.getD_eq_default _ _ (by simp; omega)] at hd
          exact absurd rfl hd
      · rintro rfl
        refine ⟨by rwa [getD_append_singleton, if_pos rfl], fun k hk => ?_⟩
        exact List.getD_eq_default _ _ (by simp; omega)

/-! ### RSEVAL and RSVFY -/

/-- Settles O14: the three ways a search can end, and RSEVAL after a failed solve. -/
theorem rsevalFindsRootsAndValues : Obligations.RsevalFindsRootsAndValues := by
  intro s code
  refine ⟨fun h => ?_, fun h => ⟨fun hd hdeg => ?_, fun hd hdeg => ?_, fun hrep => ?_⟩⟩
  · rw [exec_rseval, rsEval_failed s.cfg code h]
    rfl
  · rw [isDegree_iff] at hdeg
    rw [exec_rseval, rsEval_solved s.cfg code h]
    simp only [rootSearch_distinct s.cfg code _ _ _ _ hd]
    simp only [List.nil_append, List.length_map, hdeg, if_true, Bool.true_eq_false, if_false]
  · rw [isDegree_iff] at hdeg
    rw [exec_rseval, rsEval_solved s.cfg code h]
    simp only [rootSearch_distinct s.cfg code _ _ _ _ hd]
    simp only [List.nil_append, List.length_map, hdeg, Bool.true_eq_false, if_false]
  · rw [exec_rseval, rsEval_solved s.cfg code h]
    simp only [rootSearch_repeated s.cfg code _ _ _ _ hrep, if_true]
    exact ⟨_, rfl⟩

/-- The check of RSVFY is that every residual of the code is zero. -/
theorem residuals_all_zero (cfg : Params) (code : Code) (syn : Vector Byte 6) (cor : List (Fin 46 × Byte)) :
    (residuals cfg code (fileValues syn (codePar code)) cor).all (· = 0) = true ↔
      ∀ j : Fin 6, j.val < codePar code → syn[j] ^^^ xorSum (cor.map fun pe =>
        gfMul cfg.primPoly pe.2 (gfPow cfg.primPoly (locOf cfg code pe.1 * (cfg.fcr + (j.val : Int))))) = 0 := by
  have hlen := residuals_length cfg code syn cor
  rw [List.all_eq_true]
  constructor
  · intro h j hj
    have := h _ (List.getElem_mem (hlen.symm ▸ hj))
    rwa [residuals_getElem cfg code syn cor j.val hj, decide_eq_true_eq] at this
  · intro h x hx
    obtain ⟨j, hj, rfl⟩ := List.mem_iff_getElem.1 hx
    rw [hlen] at hj
    rw [residuals_getElem cfg code syn cor j hj, decide_eq_true_eq]
    exact h ⟨j, lt_of_lt_of_le hj (codePar_le code)⟩ hj

/-- Settles O15: RSVFY applies the corrections exactly when every residual is zero. -/
theorem rsvfyVerifiesThenApplies : Obligations.RsvfyVerifiesThenApplies := by
  intro s code
  refine ⟨fun h => ?_, fun h => ⟨fun hz => ⟨applyCor s.rs.cor s.rs.vec, ?_, applyCor_getElem _ _⟩, fun ⟨j, hj, hne⟩ => ?_⟩⟩
  · rw [exec_rsvfy, rsVfy_failed s.cfg code h]
  · rw [exec_rsvfy, rsVfy_applies s.cfg code h ((residuals_all_zero ..).2 hz)]
  · rw [exec_rsvfy, rsVfy_rejects s.cfg code h fun hall => hne ((residuals_all_zero ..).1 hall j hj)]

end Sys2Proof.Machine
end

section
/-! One vector of C1 or C2 on the open Track (42_codec_shells.md R180 to R187): the working registers after the shell, the cells
written back, and that an accepted vector is a codeword. -/

namespace Sys2Proof.Machine

open Sys2Proof

/-! ### Parity sums are linear (41_rs_solver.md R152) -/

theorem xorSum_map_xor {α : Type} (l : List α) (f g : α → Byte) :
    xorSum (l.map fun a => f a ^^^ g a) = xorSum (l.map f) ^^^ xorSum (l.map g) := by
  induction l with
  | nil => exact BitVec.xor_zero.symm
  | cons a l ih =>
    simp only [List.map_cons, xorSum_cons, ih]
    ac_rfl

theorem xorSum_map_eq_zero {α : Type} {l : List α} {f : α → Byte} (h : ∀ a ∈ l, f a = 0) : xorSum (l.map f) = 0 := by
  induction l with
  | nil => rfl
  | cons a l ih => rw [List.map_cons, xorSum_cons, h a (by simp), ih fun b hb => h b (by simp [hb])]; rfl

/-- A sum with one term that can differ from zero. -/
theorem xorSum_map_single {α : Type} [DecidableEq α] {l : List α} (hl : l.Nodup) {q : α} (hq : q ∈ l) (f : α → Byte) :
    xorSum (l.map fun a => if q = a then f a else 0) = f q := by
  induction l with
  | nil => simp at hq
  | cons a l ih =>
    obtain ⟨ha, hl⟩ := List.nodup_cons.1 hl
    rw [List.map_cons, xorSum_cons]
    by_cases hqa : q = a
    · subst hqa
      rw [if_pos rfl, xorSum_map_eq_zero fun b hb => if_neg fun (h : q = b) => ha (h ▸ hb)]
      exact BitVec.xor_zero
    · rw [if_neg hqa, ih hl ((List.mem_cons.1 hq).resolve_left hqa)]
      exact BitVec.zero_xor

variable {cfg : Params} {code : Code}

theorem paritySum_xor (hp : primitive cfg.primPoly) (v w : Fin 46 → Byte) (j : Nat) :
    paritySum cfg code (fun p => v p ^^^ w p) j = paritySum cfg code v j ^^^ paritySum cfg code w j := by
  simp only [paritySum, xor_gfMul hp, xorSum_map_xor]

/-- The parity sum of a vector of corrections, position by position, is the sum that RSVFY predicts (R158). -/
theorem paritySum_corrections (hp : primitive cfg.primPoly) (cor : List (Fin 46 × Byte))
    (h : ∀ x ∈ cor, x.1.val < codeLen code) (j : Nat) :
    paritySum cfg code (fun p => xorSum ((cor.filter (·.1 = p)).map (·.2))) j =
      xorSum (cor.map fun pe => gfMul cfg.primPoly pe.2 (gfPow cfg.primPoly (locOf cfg code pe.1 * (cfg.fcr + (j : Int))))) := by
  induction cor with
  | nil => exact xorSum_map_eq_zero fun p _ => zero_gfMul _ _
  | cons x cor ih =>
    have split (p : Fin 46) : xorSum (((x :: cor).filter (·.1 = p)).map (·.2)) =
        (if x.1 = p then x.2 else 0) ^^^ xorSum ((cor.filter (·.1 = p)).map (·.2)) := by
      by_cases hx : x.1 = p
      · rw [List.filter_cons_of_pos (by simpa using hx), if_pos hx]; rfl
      · rw [List.filter_cons_of_neg (by simpa using hx), if_neg hx]; exact BitVec.zero_xor.symm
    have single : paritySum cfg code (fun p => if x.1 = p then x.2 else 0) j =
        gfMul cfg.primPoly x.2 (gfPow cfg.primPoly (locOf cfg code x.1 * (cfg.fcr + (j : Int)))) := by
      rw [← xorSum_map_single (codePositions_pairwise code).nodup (mem_codePositions.2 (h x (by simp)))
        fun p => gfMul cfg.primPoly x.2 (gfPow cfg.primPoly (locOf cfg code p * (cfg.fcr + (j : Int))))]
      refine congrArg xorSum (List.map_congr_left fun p _ => ?_)
      dsimp only
      split
      · rfl
      · exact zero_gfMul _ _
    simp only [split]
    rw [paritySum_xor hp, single, ih fun y hy => h y (by simp [hy])]
    rfl

/-- What a shell accepts is a codeword (R160). -/
theorem ShellDone.accepted {lim : Nat} {cells : List Flagged} {rs rs' : RsFile} (hd : ShellDone cfg code lim cells rs rs')
    (hp : primitive cfg.primPoly) (h : rs'.status ≠ .uncorrectable) : isCodeword cfg code (fun p => rs'.vec[p]) := by
  cases hst : rs'.status with
  | uncorrectable => exact absurd hst h
  | noErrors =>
    have hle : badCount cells ≤ lim := not_lt.1 fun hlt => h (hd.overLimit hlt)
    rw [isCodeword_congr (hd.keep (by rw [hst]; decide))]
    exact (hd.clean hle).1 hst
  | corrected =>
    obtain ⟨-, -, hlen, hsum, hvec⟩ := hd.fixed hst
    rw [isCodeword_congr hvec]
    intro j hj
    rw [paritySum_xor hp, paritySum_corrections hp _ hlen]
    exact hsum ⟨j, lt_of_lt_of_le hj (codePar_le code)⟩ hj

/-! ### The cells written back -/

/-- The store `m'` is `m` with the 32 cells at `addr` taken from VEC of `rs`, all with the flag `f` (R180). -/
structure WrittenBack (m : Store Flagged) (addr : Nat → Nat) (rs : RsFile) (f : Bool) (m' : Store Flagged) : Prop where
  off : ∀ a, a ∉ (List.range 32).map addr → sread blankCell m' a = sread blankCell m a
  on : ∀ p : Fin 46, p.val < 32 → sread blankCell m' (addr p.val) = ⟨rs.vec[p], f⟩

/-- Position `p` of the cells that are written back with one flag. -/
theorem vectorCells_replicate_getD (f : Bool) (rs : RsFile) (p : Fin 46) (hp : p.val < 32) :
    (vectorCells 32 (setValid (List.replicate 32 f) rs)).getD p.val blankCell = ⟨rs.vec[p], f⟩ := by
  have hok := vectorCells_replicate f rs p.val hp
  have hget := vectorCells_getElem? 32 (setValid (List.replicate 32 f) rs) p.val (by decide)
  rw [dif_pos hp] at hget
  rw [List.getD_eq_getElem?_getD, hget, Option.getD_some] at hok ⊢
  simp only at hok
  rw [hok]
  simp only [setValid_vec, Fin.getElem_fin]

theorem writtenBack {m : Store Flagged} {addr : Nat → Nat} (hm : swf blankCell 4608 m = true)
    (hn : ((List.range 32).map addr).Nodup) (hb : ∀ a ∈ (List.range 32).map addr, a < 4608) (rs : RsFile) (f : Bool) :
    WrittenBack m addr rs f
      (swriteAll blankCell m (((List.range 32).map addr).zip (vectorCells 32 (setValid (List.replicate 32 f) rs)))) := by
  obtain ⟨-, hoff, hon⟩ := writeBack_spec hm (by simp) hn hb (setValid (List.replicate 32 f) rs)
  refine ⟨hoff, fun p hp => ?_⟩
  have := hon p.val hp
  rw [List.getElem_map, List.getElem_range] at this
  rw [this, vectorCells_replicate_getD f rs p hp]

section
variable {lim : Nat} {tr : Track} {addr : Nat → Nat} {f : Bool} {rs rs1 : RsFile} {m' : Store Flagged}

theorem WrittenBack.flag (hw : WrittenBack tr.cells addr rs1 f m') :
    ∀ a ∈ (List.range 32).map addr, (sread blankCell m' a).ok = f := by
  intro a ha
  obtain ⟨p, hp, rfl⟩ := List.mem_map.1 ha
  have hp := List.mem_range.1 hp
  rw [hw.on ⟨p, by omega⟩ hp]

/-- The cells that the shell reads, by position. -/
theorem readCells_addr (tr : Track) (addr : Nat → Nat) {p : Nat} (hp : p < 32) :
    (readCells tr ((List.range 32).map addr)).getD p blankCell = sread blankCell tr.cells (addr p) := by
  rw [readCells_getD _ _ _ (by simpa using hp), List.getElem_map, List.getElem_range]

variable (hd : ShellDone cfg code lim (readCells tr ((List.range 32).map addr)) rs rs1) (hl : codeLen code = 32)
include hd hl

/-- Without corrections the bytes stay. -/
theorem WrittenBack.kept (hw : WrittenBack tr.cells addr rs1 f m') (h : rs1.status ≠ .corrected) :
    ∀ a ∈ (List.range 32).map addr, sread blankCell m' a = ⟨(sread blankCell tr.cells a).v, f⟩ := by
  intro a ha
  obtain ⟨p, hp, rfl⟩ := List.mem_map.1 ha
  have hp := List.mem_range.1 hp
  rw [hw.on ⟨p, by omega⟩ hp, hd.keep h ⟨p, by omega⟩ (by rw [hl]; exact hp), readCells_addr tr addr hp]

theorem WrittenBack.accepted (hw : WrittenBack tr.cells addr rs1 f m') (hp : primitive cfg.primPoly)
    (h : rs1.status ≠ .uncorrectable) : isCodeword cfg code fun p => (sread blankCell m' (addr p.val)).v :=
  (isCodeword_congr fun p hlt => by rw [hw.on p (by omega)]).2 (hd.accepted hp h)

/-- With few bad flags the status tells whether the vector is a codeword. -/
theorem ShellDone.clean_iff (h : ((List.range 32).map addr).countP (fun a => !(sread blankCell tr.cells a).ok) ≤ lim) :
    rs1.status = .noErrors ↔ isCodeword cfg code fun p => (sread blankCell tr.cells (addr p.val)).v := by
  rw [hd.clean (by rwa [badCount_readCells])]
  exact isCodeword_congr fun p hp => by rw [readCells_addr tr addr (by omega)]

omit hl in
theorem ShellDone.tooManyBad (h : lim < ((List.range 32).map addr).countP fun a => !(sread blankCell tr.cells a).ok) :
    rs1.status = .uncorrectable := hd.overLimit (by rwa [badCount_readCells])

end

theorem c1Valid_noErrors (n : Nat) : c1Valid .noErrors n = true := rfl
theorem c1Valid_uncorrectable (n : Nat) : c1Valid .uncorrectable n = false := rfl
theorem c2Valid_noErrors : c2Valid .noErrors = true := rfl
theorem c2Valid_corrected : c2Valid .corrected = true := rfl
theorem c2Valid_uncorrectable : c2Valid .uncorrectable = false := rfl

/-- C1DEC on an open Track. -/
theorem c1dec_done {s : State} {tr : Track} (h : trackOpen s tr) (ht : TrackOk tr) {pr il : Nat} (hpr : pr < 72) (hil : il < 2) :
    ∃ (rs1 : RsFile) (cells : Store Flagged),
      ShellDone s.cfg .c1 4 (readCells tr ((List.range 32).map (c1Addr pr il))) s.rs rs1 ∧
      c1dec pr il s = .ok ((s.setRs (setValid (List.replicate 32 (c1Valid rs1.status rs1.ncor)) rs1)).setCur
        (some { tr with cells := cells })) ∧
      WrittenBack tr.cells (c1Addr pr il) rs1 (c1Valid rs1.status rs1.ncor) cells := by
  obtain ⟨rs1, heq, hd⟩ := c1Vector_eq s.cfg (cells := readCells tr (c1Addrs pr il)) s.rs (by simp)
  refine ⟨rs1, _, hd, ?_, writtenBack ht.cells (c1Addrs_nodup hil) (fun a ha => ?_) rs1 _⟩
  · rw [c1dec_eq h, heq]; rfl
  · obtain ⟨p, hp, rfl⟩ := mem_c1Addrs.1 ha
    exact c1Addr_lt hpr hil hp

/-- C2DEC on an open Track. -/
theorem c2dec_done {s : State} {tr : Track} (h : trackOpen s tr) (ht : TrackOk tr) {g sl : Nat} (hg : g < 4) (hsl : sl < 32) :
    ∃ (rs1 : RsFile) (cells : Store Flagged),
      ShellDone s.cfg .c2 6 (readCells tr ((List.range 32).map (c2Addr g sl))) s.rs rs1 ∧
      c2dec g sl s = .ok ((s.setRs (setValid (List.replicate 32 (c2Valid rs1.status)) rs1)).setCur
        (some { tr with cells := cells })) ∧
      WrittenBack tr.cells (c2Addr g sl) rs1 (c2Valid rs1.status) cells := by
  obtain ⟨rs1, heq, hd⟩ := c2Vector_eq s.cfg (cells := readCells tr (c2Addrs g sl)) s.rs (by simp)
  refine ⟨rs1, _, hd, ?_, writtenBack ht.cells (c2Addrs_nodup hg hsl) (fun a ha => ?_) rs1 _⟩
  · rw [c2dec_eq h, heq]; rfl
  · obtain ⟨p, hp, rfl⟩ := mem_c2Addrs.1 ha
    exact c2Addr_lt hg hsl hp

/-- VEC and VAL beyond the vector's 32 positions. -/
theorem ShellDone.upper {lim : Nat} {cells : List Flagged} {rs rs1 : RsFile} (hd : ShellDone cfg code lim cells rs rs1)
    (hl : codeLen code = 32) (hc : cells.length = 32) (f : Bool) (p : Fin 46) (hp : 32 ≤ p.val) :
    (setValid (List.replicate 32 f) rs1).vec[p] = rs.vec[p] ∧
      (setValid (List.replicate 32 f) rs1).valid[p] = rs.valid[p] := by
  constructor
  · rw [setValid_vec, hd.vecFrame p (by omega)]
  · rw [setValid_valid, writeFile_getElem_ge _ _ p (by simpa using hp), hd.valid, writeFile_getElem_ge _ _ p (by simpa [hc] using hp)]

/-- Settles O16: the registers and the written cells of one C1 vector, by its status. -/
theorem c1decDecodesOneVector : Obligations.C1decDecodesOneVector := by
  intro s tr blocks il h ht hb addrs
  obtain ⟨rs1, cells, hd, hex, hw⟩ := c1dec_done h ht (show blocks.toNat < 72 by omega) il.toNat_lt
  have kept := hw.kept hd rfl
  have flag := hw.flag
  refine ⟨_, cells, by rw [exec_c1dec, if_pos hb, hex]; rfl, ?_, ?_, hw.off, ?_⟩
  · rw [setValid_code]; exact hd.code_eq
  · rw [setValid_draws]; exact hd.draws
  rw [setValid_status, setValid_ncor, setValid_syn, setValid_omg, setValid_sig]
  refine ⟨hd.tooManyBad, fun hle hcw => (hd.clean_iff rfl hle).2 hcw, fun hs a ha => ?_, fun hs hn a ha => ?_,
    fun hs hn a ha => ?_, fun hs a ha => ?_, fun p hp => hd.upper rfl (by simp) _ p hp,
    fun j hj => ⟨hd.synFrame j hj, hd.omgFrame j hj⟩, fun j hj => hd.sigFrame j (by simp only [codePar]; omega)⟩
  · rw [kept (by rw [hs]; decide) a ha, hs, c1Valid_noErrors]
  · rw [flag a ha, hs, hn]; rfl
  · rw [flag a ha, hs, hn]; rfl
  · rw [kept (by rw [hs]; decide) a ha, hs, c1Valid_uncorrectable]

/-- Settles O17: the registers and the written cells of one C2 vector, by its status. -/
theorem c2decDecodesOneVector : Obligations.C2decDecodesOneVector := by
  intro s tr group slice h ht hb addrs
  obtain ⟨rs1, cells, hd, hex, hw⟩ := c2dec_done h ht group.isLt slice.isLt
  have kept := hw.kept hd rfl
  have flag := hw.flag
  refine ⟨_, cells, by rw [exec_c2dec, if_pos hb, hex]; rfl, ?_, ?_, hw.off, ?_⟩
  · rw [setValid_code]; exact hd.code_eq
  · rw [setValid_draws]; exact hd.draws
  rw [setValid_status]
  refine ⟨hd.tooManyBad, fun hs a ha => ?_, fun hs a ha => ?_, fun hs a ha => ?_, fun p hp => hd.upper rfl (by simp) _ p hp⟩
  · rw [kept (by rw [hs]; decide) a ha, hs, c2Valid_noErrors]
  · rw [flag a ha, hs, c2Valid_corrected]
  · rw [kept (by rw [hs]; decide) a ha, hs, c2Valid_uncorrectable]

/-- Settles O19: the residuals that RSVFY finds zero are the parity sums of the corrected vector. -/
theorem acceptedVectorsAreCodewords : Obligations.AcceptedVectorsAreCodewords := by
  intro s t tr k hp h ht hk hst
  refine ⟨fun blocks il hb hex => ?_, fun group slice hb hex => ?_⟩
  · obtain ⟨rs1, cells, hd, hdec, hw⟩ := c1dec_done h ht (show blocks.toNat < 72 by omega) il.toNat_lt
    rw [exec_c1dec, if_pos hb, hdec] at hex
    cases hex
    cases hk
    rw [State.setCur_rs, State.setRs_rs, setValid_status] at hst
    exact hw.accepted hd rfl hp hst
  · obtain ⟨rs1, cells, hd, hdec, hw⟩ := c2dec_done h ht group.isLt slice.isLt
    rw [exec_c2dec, if_pos hb, hdec] at hex
    cases hex
    cases hk
    rw [State.setCur_rs, State.setRs_rs, setValid_status] at hst
    exact hw.accepted hd rfl hp hst

end Sys2Proof.Machine
end

section
/-! The geometry of the C1 and C2 vectors and their passes over the open Track (42_codec_shells.md R182, R185, R200, R201). -/

namespace Sys2Proof.Machine

open Sys2Proof

/-! ### The vectors cover the Track (R182, R185) -/

theorem exists_c1Addr {a : Nat} (h : a < 4608) : ∃ pr il p, pr < 72 ∧ il < 2 ∧ p < 32 ∧ c1Addr pr il p = a := by
  by_cases hodd : a / 32 % 2 = 0
  · refine ⟨a / 64, a % 2, a % 32 / 2, by omega, by omega, by omega, ?_⟩
    rw [c1Addr, if_pos (by omega)]
    omega
  · refine ⟨a / 64, a % 2, 16 + a % 32 / 2, by omega, by omega, by omega, ?_⟩
    rw [c1Addr, if_neg (by omega)]
    omega

/-- The cells of the C2 vectors are those of the data blocks but bytes 24 to 31 of the odd ones. -/
theorem inSomeC2_iff (a : Nat) :
    inSomeC2 a = true ↔ ∃ g sl p, g < 4 ∧ sl < (if g % 2 = 0 then 32 else 24) ∧ p < 32 ∧ c2Addr g sl p = a := by
  rw [inSomeC2, decide_eq_true_eq]
  constructor
  · rintro ⟨h1, h2⟩
    refine ⟨a / 32 % 4, a % 32, a / 128, by omega, ?_, by omega, by rw [c2Addr]; omega⟩
    split <;> omega
  · rintro ⟨g, sl, p, hg, hsl, hp, rfl⟩
    have hlt : sl < 32 := by split at hsl <;> omega
    rw [c2Addr]
    refine ⟨by omega, ?_⟩
    split at hsl <;> omega

/-- Settles O24: an address names its vector and position, and each cell has one. -/
theorem vectorsPartitionTheTrack : Obligations.VectorsPartitionTheTrack := by
  refine ⟨fun a ha => ?_, fun a ha => ?_, fun a ha g sl p hg hsl hp he => ?_⟩
  · obtain ⟨pr, il, p, h1, h2, h3, rfl⟩ := exists_c1Addr ha
    refine ⟨(pr, il, p), ⟨h1, h2, h3, rfl⟩, fun ⟨pr', il', p'⟩ ⟨_, h2', h3', he⟩ => ?_⟩
    obtain ⟨rfl, rfl, rfl⟩ := c1Addr_inj h2' h3' h2 h3 he
    rfl
  · obtain ⟨g, sl, p, h1, h2, h3, rfl⟩ := (inSomeC2_iff a).1 ha
    have h2s : sl < 32 := by split at h2 <;> omega
    refine ⟨(g, sl, p), ⟨h1, h2, h3, rfl⟩, fun ⟨g', sl', p'⟩ ⟨h1', h2', _, he⟩ => ?_⟩
    have h2s' : sl' < 32 := by simp only at h2'; split at h2' <;> omega
    obtain ⟨rfl, rfl, rfl⟩ := c2Addr_inj h1' h2s' h1 h2s he
    rfl
  · rw [(inSomeC2_iff a).2 ⟨g, sl, p, hg, hsl, hp, he⟩] at ha
    cases ha

/-! ### One vector of a pass -/

/-- C1DEC writes back what its shell makes of the cells. -/
theorem c1dec_reads {s : State} {tr : Track} (h : trackOpen s tr) (ht : TrackOk tr) {pr il : Nat} (hpr : pr < 72)
    (hil : il < 2) :
    let rs := c1Vector s.cfg (readCells tr (c1Addrs pr il)) s.rs
    ∃ k : Track, c1dec pr il s = .ok ((s.setRs rs).setCur (some k)) ∧
      ∀ p < 32, sread blankCell k.cells (c1Addr pr il p) = (vectorCells 32 rs).getD p blankCell := by
  have hb : ∀ a ∈ c1Addrs pr il, a < 4608 := c1Addrs_lt (mem_c1Selectors (x := (pr, il)).2 ⟨hpr, hil⟩)
  obtain ⟨-, -, hon⟩ := writeBack_spec ht.cells (c1Addrs_length pr il) (c1Addrs_nodup hil) hb
    (c1Vector s.cfg (readCells tr (c1Addrs pr il)) s.rs)
  refine ⟨_, c1dec_eq h pr il, fun p hp => ?_⟩
  have := hon p hp
  simpa only [Track.writeCells, c1Addrs, List.getElem_map, List.getElem_range] using this

/-- C2DEC writes back what its shell makes of the cells. -/
theorem c2dec_reads {s : State} {tr : Track} (h : trackOpen s tr) (ht : TrackOk tr) {g sl : Nat} (hg : g < 4)
    (hsl : sl < 32) :
    let rs := c2Vector s.cfg (readCells tr (c2Addrs g sl)) s.rs
    ∃ k : Track, c2dec g sl s = .ok ((s.setRs rs).setCur (some k)) ∧
      ∀ p < 32, sread blankCell k.cells (c2Addr g sl p) = (vectorCells 32 rs).getD p blankCell := by
  have hb : ∀ a ∈ c2Addrs g sl, a < 4608 := fun a ha => by
    obtain ⟨p, hp, rfl⟩ := mem_c2Addrs.1 ha
    exact c2Addr_lt hg hsl hp
  obtain ⟨-, -, hon⟩ := writeBack_spec ht.cells (c2Addrs_length g sl) (c2Addrs_nodup hg hsl) hb
    (c2Vector s.cfg (readCells tr (c2Addrs g sl)) s.rs)
  refine ⟨_, c2dec_eq h g sl, fun p hp => ?_⟩
  have := hon p hp
  simpa only [Track.writeCells, c2Addrs, List.getElem_map, List.getElem_range] using this

/-! ### The operands of the vectors -/

theorem c1Selectors_eq : c1Selectors = c1Vectors.map fun x => (x.1.toNat, x.2.toNat) := by
  rw [c1Selectors, c1Vectors, List.map_flatMap]
  refine List.flatMap_congr fun pr hpr => ?_
  have := List.mem_range.1 hpr
  simp only [List.map_cons, List.map_nil, BitVec.toNat_ofNat, Bool.toNat_false, Bool.toNat_true]
  rw [Nat.mod_eq_of_lt (by omega)]

/-- The slices of a group as operands. -/
theorem map_slices (g : BitVec 2) {n : Nat} (hn : n ≤ 32) :
    ((List.range n).map fun sl => (g, BitVec.ofNat 5 sl)).map (fun x : BitVec 2 × BitVec 5 => (x.1.toNat, x.2.toNat)) =
      (List.range n).map fun sl => (g.toNat, sl) := by
  rw [List.map_map]
  refine List.map_congr_left fun sl hsl => ?_
  have := List.mem_range.1 hsl
  simp only [Function.comp_apply, BitVec.toNat_ofNat]
  rw [Nat.mod_eq_of_lt (by omega)]

theorem c2Selectors_eq : c2Selectors = c2Vectors.map fun x => (x.1.toNat, x.2.toNat) := by
  rw [c2Selectors, c2Vectors, List.map_flatMap]
  simp only [List.flatMap_cons, List.flatMap_nil, map_slices _ (by decide : 32 ≤ 32), map_slices _ (by decide : 24 ≤ 32)]
  rfl

theorem mem_c1Selectors_of_le {blocks : BitVec 7} (il : Bool) (h : blocks.toNat ≤ 71) :
    (blocks.toNat, il.toNat) ∈ c1Selectors := mem_c1Selectors.2 ⟨by simp only; omega, il.toNat_lt⟩

theorem mem_c2Selectors_of_legal {group : BitVec 2} {slice : BitVec 5} (h : group.toNat % 2 = 0 ∨ slice.toNat ≤ 23) :
    (group.toNat, slice.toNat) ∈ c2Selectors := by
  refine mem_c2Selectors.2 ⟨group.isLt, ?_⟩
  have := slice.isLt
  simp only
  split <;> omega

/-! ### The passes -/

/-- Settles O25: the vectors are disjoint, so each one is read as it was before the pass. -/
theorem c1passDecodesEveryVector : Obligations.C1passDecodesEveryVector := by
  intro s tr h ht
  obtain ⟨rs, cells, hpass, hon, hoff⟩ := c1pass_spec h ht.cells
  refine ⟨rs, cells, fun x => (c1Vector s.cfg (readCells tr (c1Addrs x.1.toNat x.2.toNat)) s.rs).status, ?_, ?_, ?_⟩
  · rw [exec_c1pass, hpass, c1Selectors_eq, List.countP_map, List.countP_map]
    rfl
  · intro blocks il hb
    obtain ⟨k, hk, hread⟩ := c1dec_reads h ht (show blocks.toNat < 72 by omega) il.toNat_lt
    refine ⟨_, k, by rw [exec_c1dec, if_pos hb, hk]; rfl, rfl, rfl, fun p hp => ?_⟩
    have hpass := hon _ (mem_c1Selectors_of_le il hb) p hp
    simp only [c1Addrs, List.getElem_map, List.getElem_range] at hpass
    rw [hread p hp, hpass]
    rfl
  · intro a ha
    refine hoff a fun x hx hmem => ?_
    have := c1Addrs_lt hx a hmem
    omega

/-- The flags that C2PASS leaves are those of the vectors' outcomes (R187). -/
theorem c2Vector_flags (cfg : Params) {cells : List Flagged} (rs : RsFile) (h : cells.length = 32) {p : Nat} (hp : p < 32) :
    ((vectorCells 32 (c2Vector cfg cells rs)).getD p blankCell).ok = c2Valid (c2Vector cfg cells rs).status := by
  obtain ⟨rs1, heq, -⟩ := c2Vector_eq cfg rs h
  rw [heq, setValid_status, vectorCells_replicate _ _ _ hp]

theorem c2Valid_eq_false (st : RsStatus) : (!c2Valid st) = decide (st = .uncorrectable) := by cases st <;> rfl

/-- The cells that C2PASS leaves: flags uniform per vector, and the invalid vectors are the uncorrectable ones. -/
theorem c2pass_flags {s : State} {tr : Track} {cells : Store Flagged}
    (hon : ∀ x ∈ c2Selectors, ∀ p (hp : p < 32), sread blankCell cells ((c2Addrs x.1 x.2)[p]'(by simpa using hp)) =
      (vectorCells 32 (c2Vector s.cfg (readCells tr (c2Addrs x.1 x.2)) s.rs)).getD p blankCell)
    {x : Nat × Nat} (hx : x ∈ c2Selectors) {p : Nat} (hp : p < 32) :
    (sread blankCell cells (c2Addr x.1 x.2 p)).ok =
      c2Valid (c2Vector s.cfg (readCells tr (c2Addrs x.1 x.2)) s.rs).status := by
  have := hon x hx p hp
  simp only [c2Addrs, List.getElem_map, List.getElem_range] at this
  rw [this]
  exact c2Vector_flags s.cfg s.rs (by simp) hp

/-- Settles O26: the vectors are disjoint, so each one is read as it was before the pass. -/
theorem c2passDecodesEveryVector : Obligations.C2passDecodesEveryVector := by
  intro s tr h ht
  obtain ⟨rs, cells, hpass, hon, hoff⟩ := c2pass_spec h ht.cells
  refine ⟨rs, cells, fun x => (c2Vector s.cfg (readCells tr (c2Addrs x.1.toNat x.2.toNat)) s.rs).status, ?_, ?_, ?_, ?_, ?_⟩
  · rw [exec_c2pass, hpass, c2Selectors_eq, List.countP_map, List.countP_map]
    rfl
  · intro group slice hb
    obtain ⟨k, hk, hread⟩ := c2dec_reads h ht group.isLt slice.isLt
    refine ⟨_, k, by rw [exec_c2dec, if_pos hb, hk]; rfl, rfl, rfl, fun p hp => ?_⟩
    have hpass := hon _ (mem_c2Selectors_of_legal hb) p hp
    simp only [c2Addrs, List.getElem_map, List.getElem_range] at hpass
    rw [hread p hp, hpass]
    rfl
  · have hcount : c2InvalidCount cells = c2Selectors.countP fun x =>
        decide ((c2Vector s.cfg (readCells tr (c2Addrs x.1 x.2)) s.rs).status = .uncorrectable) :=
      List.countP_congr fun x hx => by rw [c2pass_flags hon hx (by decide), c2Valid_eq_false]
    rw [hcount, c2Selectors_eq, List.countP_map]
    rfl
  · intro g sl hg hsl
    exact ⟨_, fun p hp => c2pass_flags hon (x := (g, sl)) (mem_c2Selectors.2 ⟨hg, hsl⟩) hp⟩
  · intro a ha
    refine hoff a fun x hx hmem => ?_
    obtain ⟨p, hp, rfl⟩ := mem_c2Addrs.1 hmem
    obtain ⟨hg, hsl⟩ := mem_c2Selectors.1 hx
    rw [(inSomeC2_iff _).2 ⟨x.1, x.2, p, hg, hsl, hp, rfl⟩] at ha
    cases ha

end Sys2Proof.Machine
end

section
/-! C3DEC and C3PASS on the active basic group (42_codec_shells.md R196 to R202): one write through a cell reference, a
vector's writes, and the pass as a fold over vectors that share no stored cell. -/

namespace Sys2Proof.Machine

open Sys2Proof

/-! ### Writes through cell references -/

theorem readC3_eq_c3Cell (g : BasicGroup) (r : C3Ref) : readC3 g r = c3Cell g r := by cases r <;> rfl

/-- Read after write through references. -/
theorem writeC3_cell {g : BasicGroup} (h : GroupOk g) (r q : C3Ref) (c : Flagged) (hq : ∀ x, q ≠ .fixed x) :
    c3Cell (writeC3 g r c) q = if r = q then c else c3Cell g q := by
  cases q with
  | fixed x => exact absurd rfl (hq x)
  | main k =>
    rw [c3Cell, writeC3_mainCell h]
    cases r with
    | main m => simp only [C3Ref.main.injEq, Fin.ext_iff, eq_comm]; rfl
    | ecc m => rfl
    | fixed x => rfl
  | ecc k =>
    rw [c3Cell, writeC3_eccCell h]
    cases r with
    | ecc m => simp only [C3Ref.ecc.injEq, Fin.ext_iff, eq_comm]; rfl
    | main m => rfl
    | fixed x => rfl

/-- References that are not written keep their cells. -/
theorem writeGroup_cell_frame {xs : List (C3Ref × Flagged)} {g : BasicGroup} (h : GroupOk g) {q : C3Ref}
    (hq : q ∉ xs.map (·.1)) : c3Cell (writeGroup g xs) q = c3Cell g q := by
  cases hf : q with
  | fixed x => rfl
  | _ =>
    rw [← hf]
    have hne : ∀ x, q ≠ .fixed x := by rw [hf]; simp
    clear hf
    induction xs generalizing g with
    | nil => rfl
    | cons x xs ih =>
      rw [List.map_cons, List.mem_cons, not_or] at hq
      have := ih (writeC3_ok h x.1 x.2) hq.2
      rw [writeC3_cell h _ _ _ hne, if_neg (Ne.symm hq.1)] at this
      exact this

/-- What a list of writes leaves in a cell depends on that cell alone. -/
theorem writeGroup_cell_congr (xs : List (C3Ref × Flagged)) {g g' : BasicGroup} (h : GroupOk g) (h' : GroupOk g') {q : C3Ref}
    (he : c3Cell g q = c3Cell g' q) : c3Cell (writeGroup g xs) q = c3Cell (writeGroup g' xs) q := by
  cases hf : q with
  | fixed x => rfl
  | _ =>
    rw [← hf]
    have hne : ∀ x, q ≠ .fixed x := by rw [hf]; simp
    clear hf
    induction xs generalizing g g' with
    | nil => exact he
    | cons x xs ih =>
      refine ih (writeC3_ok h x.1 x.2) (writeC3_ok h' x.1 x.2) ?_
      rw [writeC3_cell h _ _ _ hne, writeC3_cell h' _ _ _ hne, he]

/-- The reference of position `p` under a selector. -/
theorem mem_c3Refs {cfg : Params} {sl : Fin 720} {tp il : Bool} {r : C3Ref} :
    r ∈ c3Refs cfg sl tp il ↔ ∃ p, c3CellOf cfg ⟨sl, tp, il, p⟩ = r := by
  simp [c3Refs]

/-! ### One vector -/

/-- The writes of C3DEC: its 46 references with what its shell makes of their cells. -/
def c3Writes (cfg : Params) (g : BasicGroup) (rs : RsFile) (x : Fin 720 × Bool × Bool) : List (C3Ref × Flagged) :=
  (c3Refs cfg x.1 x.2.1 x.2.2).zip
    (vectorCells 46 (c3Vector cfg ((c3Refs cfg x.1 x.2.1 x.2.2).map (readC3 g)) rs))

theorem c3dec_eq {s : State} {g : BasicGroup} (h : s.bg = some g) (x : Fin 720 × Bool × Bool) :
    c3dec x.1 x.2.1 x.2.2 s = .ok ((s.setRs (c3Vector s.cfg ((c3Refs s.cfg x.1 x.2.1 x.2.2).map (readC3 g)) s.rs)).setBg
      (some (writeGroup g (c3Writes s.cfg g s.rs x)))) := by
  simp only [c3dec, activeGroup_some h, ok_bind, c3Writes]
  rfl

theorem c3Writes_refs (cfg : Params) (g : BasicGroup) (rs : RsFile) (x : Fin 720 × Bool × Bool) :
    (c3Writes cfg g rs x).map (·.1) = c3Refs cfg x.1 x.2.1 x.2.2 := by
  rw [c3Writes, List.map_fst_zip]
  rw [vectorCells_length 46 _ (Nat.le_refl 46), c3Refs_length]

/-- The writes depend on the cells that the vector reads, and not on the working registers. -/
theorem c3Writes_congr (cfg : Params) {g g' : BasicGroup} (rs rs' : RsFile) (x : Fin 720 × Bool × Bool)
    (h : ∀ r ∈ c3Refs cfg x.1 x.2.1 x.2.2, c3Cell g r = c3Cell g' r) : c3Writes cfg g rs x = c3Writes cfg g' rs' x := by
  have hread : (c3Refs cfg x.1 x.2.1 x.2.2).map (readC3 g) = (c3Refs cfg x.1 x.2.1 x.2.2).map (readC3 g') :=
    List.map_congr_left fun r hr => by rw [readC3_eq_c3Cell, readC3_eq_c3Cell, h r hr]
  rw [c3Writes, c3Writes, hread, (c3Vector_same cfg rs rs' (by simp)).2]

theorem badCount_readC3 (g : BasicGroup) (refs : List C3Ref) :
    badCount (refs.map (readC3 g)) = refs.countP fun r => !(readC3 g r).ok := by
  rw [badCount, List.countP_map]
  rfl

/-- A reference of the vector is written. -/
theorem exists_mem_zip_of_mem {refs : List C3Ref} {cells : List Flagged} (hl : refs.length ≤ cells.length) {r : C3Ref}
    (h : r ∈ refs) : ∃ c, (r, c) ∈ refs.zip cells := by
  rw [← List.map_fst_zip hl] at h
  obtain ⟨⟨q, c⟩, hm, rfl⟩ := List.mem_map.1 h
  exact ⟨c, hm⟩

/-- Settles O18: only referenced cells are written, and a failure writes back what it read. -/
theorem c3decDecodesOneVector : Obligations.C3decDecodesOneVector := by
  intro s g slice tp il hbg hg hlt refs
  obtain ⟨rs1, rs, hd, hrs, hex, hx⟩ := c3dec_ok hbg ⟨slice.toNat, hlt⟩ tp il
  obtain ⟨-, hid, hdiff⟩ := writeGroup_ok (refs.zip (vectorCells 46 rs)) hg
  have main := writeGroup_main (refs.zip (vectorCells 46 rs)) hg
  have ecc := writeGroup_ecc (refs.zip (vectorCells 46 rs)) hg
  have written {r : C3Ref} (hr : r ∈ refs) : ∃ c, (r, c) ∈ refs.zip (vectorCells 46 rs) :=
    exists_mem_zip_of_mem (by rw [c3Refs_length, vectorCells_length 46 rs (Nat.le_refl 46)]) hr
  refine ⟨rs, writeGroup g (refs.zip (vectorCells 46 rs)), by rw [exec_c3dec, dif_pos hlt, hex]; rfl, hid, hdiff, ?_, ?_,
    fun k hk => ?_, fun k hk => ?_, fun hbad => ?_, fun hu k => ⟨?_, ?_⟩, fun hu => ⟨fun m hm => ?_, fun m hm => ?_⟩⟩
  · rw [hrs, setValid_code]; exact hd.code_eq
  · rw [hrs, setValid_draws]; exact hd.draws
  · rcases main k with ⟨m, c, hm, hmk, -⟩ | ⟨-, he⟩
    · exact absurd hmk (hk m (List.of_mem_zip hm).1)
    · exact he
  · rcases ecc k with ⟨m, c, hm, hmk, -⟩ | ⟨-, he⟩
    · exact absurd hmk (hk m (List.of_mem_zip hm).1)
    · exact he
  · rw [hrs, setValid_status]
    exact hd.overLimit (by rwa [badCount_readC3])
  · rw [hrs, setValid_status] at hu
    rcases main k with ⟨m, c, hm, rfl, he⟩ | ⟨-, he⟩
    · exact he.trans ((hx _ hm).1 hu)
    · exact he
  · rw [hrs, setValid_status] at hu
    rcases ecc k with ⟨m, c, hm, rfl, he⟩ | ⟨-, he⟩
    · exact he.trans ((hx _ hm).1 hu)
    · exact he
  · rw [hrs, setValid_status] at hu
    rcases main m.val with ⟨m', c, hm', -, he⟩ | ⟨hno, -⟩
    · rw [he]; exact (hx _ hm').2 hu
    · obtain ⟨c, hc⟩ := written hm
      exact absurd rfl (hno m c hc)
  · rw [hrs, setValid_status] at hu
    rcases ecc m.val with ⟨m', c, hm', -, he⟩ | ⟨hno, -⟩
    · rw [he]; exact (hx _ hm').2 hu
    · obtain ⟨c, hc⟩ := written hm
      exact absurd rfl (hno m c hc)

/-! ### The pass -/

theorem c3Selectors_nodup : c3Selectors.Nodup := by
  rw [c3Selectors, List.nodup_flatMap]
  refine ⟨fun sl _ => by simp, (List.nodup_finRange 720).imp fun {a b} hab x hx hy => hab ?_⟩
  simp only [List.mem_cons, List.not_mem_nil, or_false] at hx hy
  rcases hx with rfl | rfl | rfl | rfl <;> simpa using hy

theorem mem_c3Selectors (x : Fin 720 × Bool × Bool) : x ∈ c3Selectors := by
  obtain ⟨sl, tp, il⟩ := x
  rw [c3Selectors, List.mem_flatMap]
  refine ⟨sl, List.mem_finRange sl, ?_⟩
  cases tp <;> cases il <;> simp

/-- With a legal C3_CELL different selectors share no stored cell (R196). -/
theorem c3Injective.disjoint {cfg : Params} (h : c3Injective cfg) {x y : Fin 720 × Bool × Bool} (hxy : x ≠ y) {r : C3Ref}
    (hr : ∀ v, r ≠ .fixed v) (hx : r ∈ c3Refs cfg x.1 x.2.1 x.2.2) : r ∉ c3Refs cfg y.1 y.2.1 y.2.2 := by
  intro hy
  obtain ⟨p, hp⟩ := mem_c3Refs.1 hx
  obtain ⟨q, hq⟩ := mem_c3Refs.1 hy
  have : (⟨x.1, x.2.1, x.2.2, p⟩ : C3Sel) = ⟨y.1, y.2.1, y.2.2, q⟩ := by
    cases r with
    | fixed v => exact absurd rfl (hr v)
    | main k => exact h.1 _ _ k hp hq
    | ecc k => exact h.2 _ _ k hp hq
  injection this with h1 h2 h3
  exact hxy (Prod.ext h1 (Prod.ext h2 h3))

/-- The pass over a list of vectors: cells that no selector maps to stay, and with a legal C3_CELL each vector ends as C3DEC
alone leaves it. -/
theorem c3fold_cells (sels : List (Fin 720 × Bool × Bool)) {s t : State} {g : BasicGroup} (hbg : s.bg = some g)
    (hg : GroupOk g) (h : sels.foldlM (fun s sel => c3dec sel.1 sel.2.1 sel.2.2 s) s = .ok t) :
    ∃ g', t.bg = some g' ∧
      (∀ r, (∀ x ∈ sels, r ∉ c3Refs s.cfg x.1 x.2.1 x.2.2) → c3Cell g' r = c3Cell g r) ∧
      (c3Injective s.cfg → sels.Nodup → ∀ x ∈ sels, ∀ r ∈ c3Refs s.cfg x.1 x.2.1 x.2.2,
        c3Cell g' r = c3Cell (writeGroup g (c3Writes s.cfg g s.rs x)) r) := by
  induction sels generalizing s g with
  | nil =>
    cases h
    exact ⟨g, hbg, fun _ _ => rfl, fun _ _ x hx => by simp at hx⟩
  | cons x xs ih =>
    rw [List.foldlM_cons, c3dec_eq hbg, ok_bind] at h
    have hg1 := (writeGroup_ok (c3Writes s.cfg g s.rs x) hg).1
    obtain ⟨g', hbg', hframe, hcells⟩ := ih rfl hg1 h
    have frame1 {r : C3Ref} (hr : r ∉ c3Refs s.cfg x.1 x.2.1 x.2.2) :
        c3Cell (writeGroup g (c3Writes s.cfg g s.rs x)) r = c3Cell g r :=
      writeGroup_cell_frame hg (by rwa [c3Writes_refs])
    refine ⟨g', hbg', fun r hr => ?_, fun hinj hnd y hy r hr => ?_⟩
    · rw [hframe r fun y hy => hr y (by simp [hy]), frame1 (hr x (by simp))]
    · obtain ⟨hx, hnd⟩ := List.nodup_cons.1 hnd
      cases hf : r with
      | fixed v => rfl
      | _ =>
        rw [← hf]
        have hne : ∀ v, r ≠ .fixed v := by rw [hf]; simp
        rcases List.mem_cons.1 hy with rfl | hy
        · exact hframe r fun z hz => hinj.disjoint (fun he => hx (by rwa [he])) hne hr
        · have hxy : y ≠ x := fun (h : y = x) => hx (h ▸ hy)
          have hsame : ∀ q ∈ c3Refs s.cfg y.1 y.2.1 y.2.2,
              c3Cell (writeGroup g (c3Writes s.cfg g s.rs x)) q = c3Cell g q := by
            intro q hq
            cases q with
            | fixed v => rfl
            | main k => exact frame1 (hinj.disjoint hxy (by simp) hq)
            | ecc k => exact frame1 (hinj.disjoint hxy (by simp) hq)
          rw [hcells hinj hnd y hy r hr]
          refine (writeGroup_cell_congr _ hg1 hg (hsame r hr)).trans ?_
          rw [← c3Writes_congr s.cfg _ s.rs y hsame]
          rfl

/-- A canonical store reads as the default outside its bounds. -/
theorem sread_of_ge {α : Type} [DecidableEq α] {d : α} {n : Nat} {m : Store α} (h : swf d n m = true) {k : Nat} (hk : n ≤ k) :
    sread d m k = d := by
  have hlt : ∀ e ∈ m, e.1 < n := fun e he => ((swf_iff.1 h).2 e he).1
  clear h
  induction m with
  | nil => rfl
  | cons e m ih =>
    have := hlt e (by simp)
    rw [sread, if_neg (by omega), ih fun e he => hlt e (by simp [he])]

/-- A main cell is the cell of a reference, or lies outside the buffer. -/
theorem mainCell_congr {g g' : BasicGroup} (hg : GroupOk g) (hg' : GroupOk g') {k : Nat}
    (h : ∀ m : Fin 126632, m.val = k → c3Cell g' (.main m) = c3Cell g (.main m)) : g'.mainCell k = g.mainCell k := by
  by_cases hk : k < 126632
  · exact h ⟨k, hk⟩ rfl
  · exact (sread_of_ge hg'.main (by omega)).trans (sread_of_ge hg.main (by omega)).symm

theorem eccCell_congr {g g' : BasicGroup} (hg : GroupOk g) (hg' : GroupOk g') {k : Nat}
    (h : ∀ m : Fin 5756, m.val = k → c3Cell g' (.ecc m) = c3Cell g (.ecc m)) : g'.eccCell k = g.eccCell k := by
  by_cases hk : k < 5756
  · exact h ⟨k, hk⟩ rfl
  · exact (sread_of_ge hg'.ecc (by omega)).trans (sread_of_ge hg.ecc (by omega)).symm

/-- Settles O27: no step of the pass demotes a cell, and a legal map makes its vectors disjoint. -/
theorem c3passNeverDemotes : Obligations.C3passNeverDemotes := by
  intro s g hbg hg
  obtain ⟨rs, g', hfold, -, -, hg', hid, hdiff, hok⟩ := c3fold_ok c3Selectors hbg hg
  obtain ⟨g'', hbg'', hframe, hcells⟩ := c3fold_cells c3Selectors hbg hg hfold
  obtain rfl : g' = g'' := Option.some.inj hbg''
  have unmapped {r : C3Ref} (hr : ∀ sel, c3CellOf s.cfg sel ≠ r) : c3Cell g' r = c3Cell g r :=
    hframe r fun x _ hmem => by
      obtain ⟨p, hp⟩ := mem_c3Refs.1 hmem
      exact hr _ hp
  refine ⟨rs, g', ?_, hid, hdiff, hok, fun hinj slice tp il hlt => ?_, fun k hk => ?_, fun k hk => ?_⟩
  · rw [exec_c3pass, c3pass, activeGroup_some hbg, ok_bind, hfold]
    rfl
  · have hx := mem_c3Selectors (⟨slice.toNat, hlt⟩, tp, il)
    exact ⟨_, _, by rw [exec_c3dec, dif_pos hlt, c3dec_eq hbg (⟨slice.toNat, hlt⟩, tp, il)]; rfl, rfl,
      fun p => hcells hinj c3Selectors_nodup _ hx _ (mem_c3Refs.2 ⟨p, rfl⟩)⟩
  · exact mainCell_congr hg hg' fun m hm => unmapped fun sel he => hk sel m he hm
  · exact eccCell_congr hg hg' fun m hm => unmapped fun sel he => hk sel m he hm

end Sys2Proof.Machine
end

section
/-! Clock recovery and the track timer (43_clock_recovery.md R222 to R232): SAMPLE as its four parts, the scan for the maximum,
and the energies. -/

namespace Sys2Proof.Machine

open Sys2Proof

/-! ### The parts of SAMPLE -/

theorem closeSymbol_away {fp : Numerics} {c : Clock} (h : c.pos ≠ c.syncPos) : closeSymbol fp c = (c, none) := if_neg h

theorem closeSymbol_at {fp : Numerics} {c : Clock} (h : c.pos = c.syncPos) :
    closeSymbol fp c = ({ c with integ := 0, syncPos := c.nextSyncPos }, some (fpLt fp 0 c.integ)) := if_pos h

theorem scanRing_away {fp : Numerics} {c : Clock} (h : c.pos ≠ c.maxPos) : (scanRing fp c).1 = c := by
  rw [scanRing, if_neg h]

theorem scanRing_at {fp : Numerics} {c : Clock} (h : c.pos = c.maxPos) :
    (scanRing fp c).1 = { c with maxPos := argMax fp c.e, nextSyncPos := argMax fp c.e + 4, detected := clockDetected fp c.e } := by
  rw [scanRing, if_pos h]

theorem scanRing_pos (fp : Numerics) (c : Clock) : (scanRing fp c).1.pos = c.pos := by
  rw [scanRing]
  split <;> rfl

theorem scanRing_e (fp : Numerics) (c : Clock) : (scanRing fp c).1.e = c.e := by
  rw [scanRing]
  split <;> rfl

/-- The clock after a sample and its symbol. -/
def symbolClock (fp : Numerics) (x : Rat) (c : Clock) : Clock := (closeSymbol fp (takeSample fp x c)).1

theorem symbolClock_away {fp : Numerics} {x : Rat} {c : Clock} (h : c.pos ≠ c.syncPos) :
    symbolClock fp x c = takeSample fp x c := congrArg Prod.fst (closeSymbol_away (c := takeSample fp x c) h)

theorem symbolClock_at {fp : Numerics} {x : Rat} {c : Clock} (h : c.pos = c.syncPos) :
    symbolClock fp x c = { takeSample fp x c with integ := 0, syncPos := c.nextSyncPos } :=
  congrArg Prod.fst (closeSymbol_at (c := takeSample fp x c) h)

/-- The registers that a symbol does not write. -/
theorem symbolClock_frame (fp : Numerics) (x : Rat) (c : Clock) :
    (symbolClock fp x c).e = (takeSample fp x c).e ∧ (symbolClock fp x c).pos = c.pos ∧
      (symbolClock fp x c).maxPos = c.maxPos ∧ (symbolClock fp x c).nextSyncPos = c.nextSyncPos ∧
      (symbolClock fp x c).detected = c.detected := by
  by_cases h : c.pos = c.syncPos
  · rw [symbolClock_at h]; exact ⟨rfl, rfl, rfl, rfl, rfl⟩
  · rw [symbolClock_away h]; exact ⟨rfl, rfl, rfl, rfl, rfl⟩

/-- The clock after SAMPLE: sample, symbol, scan and advance. -/
def sampledClock (fp : Numerics) (x : Rat) (c : Clock) : Clock :=
  { (scanRing fp (symbolClock fp x c)).1 with pos := c.pos + 1 }

theorem sampledClock_pos (fp : Numerics) (x : Rat) (c : Clock) : (sampledClock fp x c).pos = c.pos + 1 := rfl

theorem sampledClock_e (fp : Numerics) (x : Rat) (c : Clock) : (sampledClock fp x c).e = (takeSample fp x c).e :=
  (scanRing_e fp (symbolClock fp x c)).trans (symbolClock_frame fp x c).1

theorem sampledClock_away {fp : Numerics} {x : Rat} {c : Clock} (h : c.pos ≠ c.maxPos) :
    sampledClock fp x c = { symbolClock fp x c with pos := c.pos + 1 } := by
  obtain ⟨-, hpos, hmax, -, -⟩ := symbolClock_frame fp x c
  rw [sampledClock, scanRing_away (by rw [hpos, hmax]; exact h)]

theorem sampledClock_at {fp : Numerics} {x : Rat} {c : Clock} (h : c.pos = c.maxPos) :
    sampledClock fp x c = { symbolClock fp x c with
      pos := c.pos + 1
      maxPos := argMax fp (takeSample fp x c).e
      nextSyncPos := argMax fp (takeSample fp x c).e + 4
      detected := clockDetected fp (takeSample fp x c).e } := by
  obtain ⟨he, hpos, hmax, -, -⟩ := symbolClock_frame fp x c
  rw [sampledClock, scanRing_at (by rw [hpos, hmax]; exact h)]
  dsimp only
  rw [he]

/-- The scan touches neither the integrator nor the sync position. -/
theorem sampledClock_symbol (fp : Numerics) (x : Rat) (c : Clock) :
    (sampledClock fp x c).integ = (symbolClock fp x c).integ ∧ (sampledClock fp x c).syncPos = (symbolClock fp x c).syncPos := by
  by_cases h : c.pos = c.maxPos
  · rw [sampledClock_at h]; exact ⟨rfl, rfl⟩
  · rw [sampledClock_away h]; exact ⟨rfl, rfl⟩

/-- SAMPLE away from the sync position: no symbol. -/
theorem sampleReal_away {s : State} (h : s.clk.pos ≠ s.clk.syncPos) (x : Rat) :
    sampleReal x s = timerTick (advance (scanStep (s.setClk (takeSample s.cfg.fp x s.clk)))) := by
  rw [sampleReal]
  simp only [closeSymbol_away (c := takeSample s.cfg.fp x s.clk) h]
  rfl

/-- A timer that does not end goes down by one, or stays stopped (R232). -/
theorem timerTick_of_ne_one {s : State} (h : s.timer.count ≠ 1) :
    timerTick s = .ok (s.setTimer { s.timer with count := s.timer.count - 1 }) := by
  unfold timerTick
  split
  · next h0 => rw [show s.timer.count - 1 = s.timer.count by omega]; rfl
  · next h1 => exact absurd h1 h
  · next n hn => rw [hn]; rfl

theorem timerTick_of_one {s : State} (h : s.timer.count = 1) : timerTick s = trkstop (s.setTimer ⟨0, false⟩) := by
  unfold timerTick
  rw [h]

/-- The scan, its event and the advance, after the symbol: the clock registers, and a deframer that is reset iff the clock is
lost. -/
theorem advance_scanStep {u : State} {c : Clock} {x : Rat} (hclk : u.clk = symbolClock u.cfg.fp x c) :
    advance (scanStep u) = (u.setClk (sampledClock u.cfg.fp x c)).setDfr
      (if c.detected = true ∧ (sampledClock u.cfg.fp x c).detected = false then ⟨0, 0, false, false⟩ else u.dfr) := by
  obtain ⟨-, hpos, -, -, hdet⟩ := symbolClock_frame u.cfg.fp x c
  rw [scanStep_eq, hclk, hdet, advance, sampledClock, ← hpos, ← scanRing_pos u.cfg.fp (symbolClock u.cfg.fp x c)]
  rfl

/-- Without a scan the deframer stays. -/
theorem not_clockLost_away {fp : Numerics} {x : Rat} {c : Clock} (h : c.pos ≠ c.maxPos) :
    ¬ (c.detected = true ∧ (sampledClock fp x c).detected = false) := by
  rw [sampledClock_away h]
  rintro ⟨ht, hf⟩
  rw [(symbolClock_frame fp x c).2.2.2.2, ht] at hf
  cases hf

/-- Settles O28: away from the two positions only the ring slot, the integrator and the timer move. -/
theorem sampleQuietStep : Obligations.SampleQuietStep := by
  intro s bits
  refine ⟨fun h => by rw [exec_sample, h]; rfl, fun hf hsync hmax hcount => ?_⟩
  intro fp x old
  rw [exec_sample, if_pos hf, sampleReal_away hsync,
    advance_scanStep (c := s.clk) (x := fpOfReal s.cfg.fp (f32Value bits)) (symbolClock_away hsync).symm,
    if_neg (not_clockLost_away hmax), sampledClock_away hmax, symbolClock_away hsync]
  refine (congrArg settle (timerTick_of_ne_one ?_)).trans rfl
  exact hcount

/-! ### A step that completes -/

/-- A completed SAMPLE: the state after the symbol, and the tick on the state after the scan. -/
theorem sampleReal_spec {s t : State} {x : Rat} (h : sampleReal x s = .ok t) :
    ∃ u, (s.clk.pos ≠ s.clk.syncPos → u = s.setClk (symbolClock s.cfg.fp x s.clk)) ∧
      (s.clk.pos = s.clk.syncPos →
        sym (fpLt s.cfg.fp 0 (fpAdd s.cfg.fp s.clk.integ x)) (s.setClk (symbolClock s.cfg.fp x s.clk)) = .ok u) ∧
      u.clk = symbolClock s.cfg.fp x s.clk ∧ u.cfg = s.cfg ∧ (u.timer = s.timer ∨ u.timer = ⟨592704, true⟩) ∧
      timerTick (advance (scanStep u)) = .ok t := by
  obtain ⟨u, hu, ht⟩ := sampleReal_cases h
  obtain ⟨hk, hl⟩ := emitSym_keeps hu
  refine ⟨u, fun hp => ?_, fun hp => ?_, hl.clk, hk.cfg, hl.timer, ht⟩
  · rw [closeSymbol_away (c := takeSample s.cfg.fp x s.clk) hp] at hu
    rw [symbolClock_away hp]
    exact (Except.ok.inj hu).symm
  · rw [closeSymbol_at (c := takeSample s.cfg.fp x s.clk) hp] at hu
    rw [symbolClock_at hp]
    exact hu

/-- The tick of a completed SAMPLE acts on the state after scan and advance. -/
theorem sampleReal_tick {s u t : State} {x : Rat} (hclk : u.clk = symbolClock s.cfg.fp x s.clk) (hcfg : u.cfg = s.cfg)
    (h : timerTick (advance (scanStep u)) = .ok t) :
    timerTick ((u.setClk (sampledClock s.cfg.fp x s.clk)).setDfr
      (if s.clk.detected = true ∧ (sampledClock s.cfg.fp x s.clk).detected = false then ⟨0, 0, false, false⟩ else u.dfr)) =
        .ok t := by
  rw [← hcfg] at hclk ⊢
  rwa [advance_scanStep hclk] at h

/-- The clock registers after SAMPLE. -/
theorem sampleReal_clk {s t : State} {x : Rat} (h : sampleReal x s = .ok t) : t.clk = sampledClock s.cfg.fp x s.clk := by
  obtain ⟨u, -, -, hclk, hcfg, -, ht⟩ := sampleReal_spec h
  obtain ⟨-, -, htick⟩ := timerTick_keeps (sampleReal_tick hclk hcfg ht)
  exact htick

theorem exec_sample_of_finite {bits : BitVec 32} (h : f32Finite bits = true) (s : State) :
    exec (.sample bits) s = settle (sampleReal (fpOfReal s.cfg.fp (f32Value bits)) s) := by
  rw [exec_sample, if_pos h]

/-! ### The scan over the reals (R226, R227) -/

/-- A scan with a strict greater-than that starts below the positions it scans ends at the lowest maximum. -/
theorem foldl_lowest_max (f : Fin 8 → Rat) (l : List (Fin 8)) (m : Fin 8) (hl : l.Pairwise (· < ·)) (hm : ∀ i ∈ l, m ≤ i) :
    let r := l.foldl (fun m i => if f m < f i then i else m) m
    (∀ j, j = m ∨ j ∈ l → f j ≤ f r ∧ (j < r → f j < f r)) := by
  induction l generalizing m with
  | nil => simp
  | cons i l ih =>
    obtain ⟨hi, hl⟩ := List.pairwise_cons.1 hl
    have hmi := hm i (by simp)
    rw [List.foldl_cons]
    split
    · next hlt =>
      have h := ih i hl fun j hj => (hi j hj).le
      intro r j hj
      rcases hj with rfl | hj
      · have := (h i (.inl rfl)).1
        exact ⟨(hlt.trans_le this).le, fun _ => hlt.trans_le this⟩
      · exact h j (List.mem_cons.1 hj)
    · next hge =>
      have h := ih m hl fun j hj => hm j (by simp [hj])
      have hle : f i ≤ f m := not_lt.1 hge
      intro r j hj
      rcases hj with rfl | hj
      · exact h j (.inl rfl)
      · rcases List.mem_cons.1 hj with rfl | hj
        · have := h m (.inl rfl)
          exact ⟨hle.trans this.1, fun hjr => hle.trans_lt (this.2 (hmi.trans_lt hjr))⟩
        · exact h j (.inr hj)

theorem finRange_fold_lowest_max (f : Fin 8 → Rat) (j : Fin 8) :
    let r := (List.finRange 8).foldl (fun m i => if f m < f i then i else m) 0
    f j ≤ f r ∧ (j < r → f j < f r) :=
  foldl_lowest_max f (List.finRange 8) 0 (List.pairwise_lt_finRange 8) (fun i _ => Fin.zero_le i) j (.inr (List.mem_finRange j))

theorem argMax_exact (e : Vector Rat 8) :
    argMax .exact e = (List.finRange 8).foldl (fun m i => if e[m] < e[i] then i else m) 0 := by
  simp only [argMax, fpLt, decide_eq_true_eq]

theorem argMin_exact (e : Vector Rat 8) :
    argMin .exact e = (List.finRange 8).foldl (fun m i => if -e[m] < -e[i] then i else m) 0 := by
  simp only [argMin, fpLt, decide_eq_true_eq, neg_lt_neg_iff]

theorem le_argMax (e : Vector Rat 8) (j : Fin 8) : e[j] ≤ e[argMax .exact e] := by
  simp only [argMax_exact]
  exact (finRange_fold_lowest_max (fun i => e[i]) j).1

theorem lt_argMax (e : Vector Rat 8) {j : Fin 8} (h : j < argMax .exact e) : e[j] < e[argMax .exact e] := by
  simp only [argMax_exact] at h ⊢
  exact (finRange_fold_lowest_max (fun i => e[i]) j).2 h

theorem argMin_le (e : Vector Rat 8) (j : Fin 8) : e[argMin .exact e] ≤ e[j] := by
  simp only [argMin_exact]
  exact neg_le_neg_iff.1 (finRange_fold_lowest_max (fun i => -e[i]) j).1

/-- The clock is detected when some slot lies below 0.97 of a positive maximum (R227). -/
theorem clockDetected_exact (e : Vector Rat 8) :
    clockDetected .exact e = true ↔ 0 < e[argMax .exact e] ∧ ∃ j : Fin 8, e[j] < 97 / 100 * e[argMax .exact e] := by
  have hdef : clockDetected .exact e =
      (decide (0 < e[argMax .exact e]) && decide (e[argMin .exact e] / e[argMax .exact e] < 97 / 100)) := rfl
  rw [hdef, Bool.and_eq_true, decide_eq_true_eq, decide_eq_true_eq]
  refine and_congr_right fun hpos => ?_
  rw [div_lt_iff₀ hpos]
  exact ⟨fun h => ⟨_, h⟩, fun ⟨j, hj⟩ => (argMin_le e j).trans_lt hj⟩

/-! ### The statements over the reals -/

theorem fpAbs_exact (x : Rat) : fpAbs .exact x = |x| := by
  rw [fpAbs]
  split
  · next h => exact (abs_of_neg h).symm
  · next h => exact (abs_of_nonneg (not_lt.1 h)).symm

theorem envelope_exact (old x : Rat) : envelope .exact old x = old + 1 / 30 * (|x| - old) := by
  rw [envelope, fpAbs_exact]
  rfl

/-- What SAMPLE's first part makes of the ring over the reals. -/
theorem takeSample_exact (x : Rat) (c : Clock) :
    takeSample .exact x c =
      { c with integ := c.integ + x, e := c.e.set c.pos (c.e[c.pos] + 1 / 30 * (|x| - c.e[c.pos])) } := by
  rw [takeSample, envelope_exact]
  rfl

/-- Settles O29: the clock after the step is `sampledClock`, whatever SYM and the timer do. -/
theorem sampleClockRecovery : Obligations.SampleClockRecovery := by
  intro s bits hfp hf hready x old ring
  obtain ⟨t, ht⟩ := sampleReal_completes hready (fpOfReal s.cfg.fp (f32Value bits))
  refine ⟨t, by rw [exec_sample_of_finite hf, ht]; rfl, ?_⟩
  have hclk : t.clk = sampledClock .exact x s.clk := by rw [sampleReal_clk ht, hfp]; rfl
  have hring : (takeSample .exact x s.clk).e = ring := by rw [takeSample_exact]
  obtain ⟨hinteg, hsyncPos⟩ := sampledClock_symbol .exact x s.clk
  refine ⟨?_, ?_, fun hp => ?_, fun hp => ?_, fun hp => ?_, fun hp => ?_⟩
  · rw [hclk, sampledClock_e, hring]
  · rw [hclk]; exact Fin.val_add s.clk.pos 1
  · rw [hclk, hinteg, hsyncPos, symbolClock_at hp]; exact ⟨rfl, rfl⟩
  · rw [hclk, hinteg, hsyncPos, symbolClock_away hp]; exact ⟨rfl, rfl⟩
  · simp only [hclk, sampledClock_at hp, hring]
    exact ⟨le_argMax ring, fun j hj => lt_argMax ring hj, Fin.val_add _ _, clockDetected_exact ring⟩
  · obtain ⟨-, -, hmax, hnext, hdet⟩ := symbolClock_frame .exact x s.clk
    rw [hclk, sampledClock_away hp]
    exact ⟨hmax, hnext, hdet⟩

/-- After its symbol a timer that did not run out still does not: SYM can only load it anew (R231). -/
theorem symbol_timer_ne_one {s u : State} (hs : s.timer.count ≠ 1) (h : u.timer = s.timer ∨ u.timer = ⟨592704, true⟩) :
    u.timer.count ≠ 1 := by
  rcases h with h | h <;> rw [h]
  · exact hs
  · decide

/-- SYM at the sync position, from the state after the sample. -/
theorem exec_sym_of_sample {s u : State} {x : Rat} (hp : s.clk.pos = s.clk.syncPos)
    (h : sym (fpLt s.cfg.fp 0 (fpAdd s.cfg.fp s.clk.integ x)) (s.setClk (symbolClock s.cfg.fp x s.clk)) = .ok u) :
    exec (.sym (fpLt s.cfg.fp 0 (fpAdd s.cfg.fp s.clk.integ x)))
      (s.setClk { takeSample s.cfg.fp x s.clk with integ := 0, syncPos := s.clk.nextSyncPos }) = .next u := by
  rw [exec_sym, ← symbolClock_at hp, h]
  rfl

/-- Settles O30: the symbol runs before the scan, and the scan's event after it. -/
theorem sampleEmitsSymbolAndClockEvent : Obligations.SampleEmitsSymbolAndClockEvent := by
  intro s bits hfp hf hready hcount x old ring
  obtain ⟨t, ht⟩ := sampleReal_completes hready (fpOfReal s.cfg.fp (f32Value bits))
  have hex : exec (.sample bits) s = .next t := by rw [exec_sample_of_finite hf, ht]; rfl
  obtain ⟨u, haway, hat, hclk, hcfg, htimer, htick⟩ := sampleReal_spec ht
  have htick := sampleReal_tick hclk hcfg htick
  rw [timerTick_of_ne_one (by exact symbol_timer_ne_one hcount htimer)] at htick
  rw [hfp] at haway hat hclk htick
  have hsync (hp : s.clk.pos = s.clk.syncPos) : exec (.sym (decide (0 < s.clk.integ + x)))
      (s.setClk { s.clk with e := ring, integ := 0, syncPos := s.clk.nextSyncPos }) = .next u := by
    have h := hat hp
    rw [symbolClock_at hp, takeSample_exact] at h
    rw [exec_sym]
    exact congrArg settle h
  cases htick
  refine ⟨fun hp hm => ⟨u, hsync hp, ?_⟩, fun hp _ => ⟨sampledClock .exact x s.clk, ?_⟩,
    fun hp _ => ⟨u, sampledClock .exact x s.clk, hsync hp, hex⟩⟩
  · rw [hex, if_neg (not_clockLost_away hm), sampledClock_away hm, ← hclk]
    rfl
  · rw [hex, haway hp]
    rfl

/-- Settles O31: the tick acts on the state that the other three parts leave. -/
theorem sampleTicksTheTimer : Obligations.SampleTicksTheTimer := by
  intro s bits hf hready fp x old ring integ
  obtain ⟨t, ht⟩ := sampleReal_completes hready x
  obtain ⟨v, haway, hat, hclk, hcfg, -, htick⟩ := sampleReal_spec ht
  have htick := sampleReal_tick hclk hcfg htick
  rw [← sampleReal_clk ht] at htick
  refine ⟨v, t, by rw [exec_sample_of_finite hf, ht]; rfl, fun hp => ?_, fun hp => exec_sym_of_sample hp (hat hp),
    by rw [sampleReal_clk ht, sampledClock_pos], fun hm => ?_, ?_⟩
  · rw [haway hp, symbolClock_away hp]; rfl
  · rw [sampleReal_clk ht, sampledClock_away hm, hclk]
  · intro w
    refine ⟨fun h0 => ?_, fun h2 => ?_, fun h1 => ?_⟩
    · rw [timerTick_of_ne_one (s := w) (by omega), h0] at htick
      rw [← Except.ok.inj htick]
      show w.setTimer { w.timer with count := 0 } = w
      rw [← h0]
      rfl
    · rw [timerTick_of_ne_one (s := w) (by omega)] at htick
      exact (Except.ok.inj htick).symm
    · rw [timerTick_of_one (s := w) h1] at htick
      obtain ⟨-, hcur, htm, hpre, -⟩ := trkstop_keeps htick
      exact ⟨by rw [exec_trkstop]; exact congrArg settle htick, htm, hcur, hpre⟩

/-! ### The energies -/

theorem DdsKeeps.clk {s t : State} (h : DdsKeeps s t) : t.clk = s.clk := by rw [h.frame]

/-- Only SAMPLE writes the clock registers (R33). -/
theorem exec_clk {i : Instr} {s t : State} (hi : ∀ bits, i ≠ .sample bits) (h : exec i s = .next t) : t.clk = s.clk := by
  cases i with
  | sample bits => exact absurd rfl (hi bits)
  | gfmul | gfpowa | gfinv | gfpeval => obtain ⟨v, rfl⟩ := exec_gfOp rfl h; rfl
  | rssyn code => rw [exec_rssyn] at h; cases h; rfl
  | rssolve fe code => rw [exec_rssolve] at h; cases h; rfl
  | rseval code => rw [exec_rseval] at h; cases h; rfl
  | rsvfy code => rw [exec_rsvfy] at h; cases h; rfl
  | c1dec blocks il =>
    rw [exec_c1dec] at h
    split at h
    · obtain ⟨tr, -, h⟩ := openTrack_of_bind (settle_eq_next.1 h); cases h; rfl
    · cases h
  | c2dec group slice =>
    rw [exec_c2dec] at h
    split at h
    · obtain ⟨tr, -, h⟩ := openTrack_of_bind (settle_eq_next.1 h); cases h; rfl
    · cases h
  | c3dec slice tp il =>
    rw [exec_c3dec] at h
    split at h
    · obtain ⟨g, -, h⟩ := bind_eq_ok.1 (settle_eq_next.1 h); cases h; rfl
    · cases h
  | c1pass =>
    have h := settle_eq_next.1 h
    obtain ⟨tr, ho, -⟩ := openTrack_of_bind h
    obtain ⟨rs, cells, c, u, hp, -⟩ := c1pass_completes ho
    rw [hp] at h; cases h; rfl
  | c2pass =>
    have h := settle_eq_next.1 h
    obtain ⟨tr, ho, -⟩ := openTrack_of_bind h
    obtain ⟨rs, cells, c, u, hp, -⟩ := c2pass_completes ho
    rw [hp] at h; cases h; rfl
  | c3pass =>
    have h := settle_eq_next.1 h
    obtain ⟨g, hg, -⟩ := bind_eq_ok.1 h
    obtain ⟨rs, g', hp, -⟩ := c3pass_completes (activeGroup_eq_ok.1 hg)
    rw [hp] at h; cases h; rfl
  | atf tone =>
    have h := settle_eq_next.1 h
    unfold atf at h
    split at h
    · split at h
      · cases h
      · cases h; rfl
    · cases h; rfl
    · cases h; rfl
  | stop =>
    have h := settle_eq_next.1 h
    cases hm : s.mode with
    | dat => rw [stop_of_dat hm] at h; cases h; rfl
    | dds =>
      obtain ⟨u, hu, -, -, hk⟩ := bgfin_completes (discardTracks s)
      rw [stop_of_dds hm hu] at h
      cases h
      exact hk.clk
  | clkev d => rw [exec_clkev] at h; cases h; cases d <;> rfl
  | sym v => exact (sym_line (settle_eq_next.1 h)).clk
  | bit b => exact (bit_line (settle_eq_next.1 h)).clk
  | word sync w => exact (word_line (settle_eq_next.1 h)).clk
  | block => exact (block_line (settle_eq_next.1 h)).clk
  | trkstart => rw [exec_trkstart] at h; cases h; rfl
  | trkstop =>
    obtain ⟨-, -, -, -, hclk, -⟩ := trkstop_keeps (settle_eq_next.1 h)
    exact hclk
  | trkcpl =>
    have h := settle_eq_next.1 h
    have h0 := h
    obtain ⟨_, h0, -⟩ := bind_eq_ok.1 h0
    obtain ⟨_, h0, -⟩ := bind_eq_ok.1 h0
    obtain ⟨_, h0, -⟩ := bind_eq_ok.1 h0
    obtain ⟨tr, ho, -⟩ := openTrack_of_bind h0
    obtain ⟨rs, k, hp, -⟩ := trkcpl_completes ho
    rw [hp] at h; cases h; rfl
  | subx => obtain ⟨tr, -, h⟩ := openTrack_of_bind (settle_eq_next.1 h); cases h; rfl
  | track =>
    obtain ⟨-, -, -, -, -, hclk, -⟩ := track_keeps (settle_eq_next.1 h)
    exact hclk
  | pair => exact (pair_dds (settle_eq_next.1 h)).1.clk
  | g3dec => exact (g3dec_dds (settle_eq_next.1 h)).2.clk
  | dewht => obtain ⟨f, -, h⟩ := bind_eq_ok.1 (settle_eq_next.1 h); cases h; rfl
  | sess => obtain ⟨g, -, h⟩ := bind_eq_ok.1 (settle_eq_next.1 h); cases h; rfl
  | bgmerge => exact (bgmerge_dds (settle_eq_next.1 h)).2.clk
  | bgfin =>
    obtain ⟨u, hu, -, -, hk⟩ := bgfin_completes s
    have h := settle_eq_next.1 h
    rw [hu] at h
    cases h
    exact hk.clk

/-- The envelope is a weighted mean of the old energy and a magnitude (R223). -/
theorem envelope_nonneg {old x : Rat} (h : 0 ≤ old) : 0 ≤ envelope .exact old x := by
  rw [envelope_exact]
  linarith [abs_nonneg x]

/-- Settles O32: only SAMPLE writes the ring, and there one slot, which takes an envelope. -/
theorem energiesStayNonnegative : Obligations.EnergiesStayNonnegative := by
  intro i s t hfp hs h j
  by_cases hi : ∀ bits, i ≠ .sample bits
  · rw [exec_clk hi h]
    exact hs j
  · obtain ⟨bits, rfl⟩ := not_forall_not.1 hi
    rw [exec_sample] at h
    split at h
    · have hclk := sampleReal_clk (settle_eq_next.1 h)
      have he : t.clk.e = (takeSample s.cfg.fp (fpOfReal s.cfg.fp (f32Value bits)) s.clk).e := by
        rw [hclk, sampledClock_e]
      rw [he, hfp, Fin.getElem_fin]
      simp only [takeSample, Fin.getElem_fin]
      rw [Vector.getElem_set]
      split
      · exact envelope_nonneg (hs s.clk.pos)
      · exact hs j
    · cases h

theorem atf_of_some {s : State} {tr : Track} (h : s.cur = some tr) :
    atf .tone3 s = if tr.isSealed then refuse .trackSealed else .ok (s.setCur (some { tr with atf3Cnt := tr.atf3Cnt + 1 })) := by
  unfold atf
  rw [h]

theorem atf_of_none {s : State} (h : s.cur = none) : atf .tone3 s = .ok s := by
  unfold atf
  rw [h]

/-- Settles O33: by the tone and the open Track. -/
theorem atfCountsToneThree : Obligations.AtfCountsToneThree := by
  refine ⟨fun s tr h => ?_, fun s h => ?_, fun s => rfl, fun s tr h hs => ?_⟩
  · rw [exec_atf, atf_of_some h.1, if_neg (by rw [h.2]; decide)]
    rfl
  · rw [exec_atf, atf_of_none h]
    rfl
  · rw [exec_atf, atf_of_some h, if_pos hs]
    rfl

end Sys2Proof.Machine
end

section
/-! The deframer and the block assembler (44_deframer.md R251 to R255, 45_block_track.md R271 to R280): one bit by arithmetic of
its own, WORD and BLOCK. -/

namespace Sys2Proof.Machine

open Sys2Proof

/-! ### SYM and BIT -/

/-- Settles O35: SYM keeps the symbol and is BIT with the transition. -/
theorem symIsNrzi : Obligations.SymIsNrzi := by
  intro s v h
  obtain ⟨t, ht⟩ := sym_completes h v
  have hv : decide (v ≠ s.dfr.prevSym) = (v != s.dfr.prevSym) := by cases v <;> cases s.dfr.prevSym <;> rfl
  refine ⟨t, by rw [exec_sym, ht]; rfl, ?_⟩
  rw [exec_bit, hv]
  exact congrArg settle ht

/-- The shift register after a bit, as a number (R252). -/
theorem shiftIn_eq (sr : LineWord) (b : Bool) : shiftIn sr b = BitVec.ofNat 10 (2 * sr.toNat + b.toNat) := by
  apply BitVec.eq_of_getLsbD_eq
  intro i hi
  have hsum : 2 * sr.toNat + b.toNat = Nat.bit b sr.toNat := by rw [Nat.bit_val]
  rw [shiftIn, BitVec.getLsbD_or, BitVec.getLsbD_shiftLeft, hsum, BitVec.getLsbD_ofNat]
  cases i with
  | zero => cases b <;> simp
  | succ i =>
    rw [Nat.testBit_bit_succ]
    have : (if b then (1 : LineWord) else 0).getLsbD (i + 1) = false := by cases b <;> simp [BitVec.getLsbD_one]
    rw [this]
    simp [hi, BitVec.getLsbD]

/-- The sync match reads the low nine bits (R253). -/
theorem syncMatch_eq (sr : LineWord) : syncMatch sr = decide (sr.toNat % 512 = 0x111) := by
  have hand : (sr &&& Config.syncMask).toNat = sr.toNat % 512 := by
    rw [BitVec.toNat_and]
    exact Nat.and_two_pow_sub_one_eq_mod sr.toNat 9
  rw [syncMatch]
  congr 1
  rw [← BitVec.toNat_inj, hand]
  rfl

theorem Fin.add_one_of_lt_nine {k : Fin 10} (h : k.val + 1 < 10) : (⟨k.val + 1, h⟩ : Fin 10) = k + 1 := by
  apply Fin.ext
  rw [Fin.val_add]
  exact (Nat.mod_eq_of_lt h).symm

/-- A decimal counter that cannot go up is nine, and goes to zero. -/
theorem Fin.eq_nine_of_not_lt {k : Fin 10} (h : ¬ k.val + 1 < 10) : k = 9 := Fin.ext (by
  have := k.isLt
  show k.val = 9
  omega)

/-- One bit in the deframer: every tenth bit or a match ends a word; a match also sets the word boundary (R252 to R254). -/
theorem frameBit_eq (d : Deframer) (b : Bool) :
    frameBit d b =
      (⟨shiftIn d.sr b, if syncMatch (shiftIn d.sr b) then 0 else d.bitCnt + 1, d.synced || syncMatch (shiftIn d.sr b),
          d.prevSym⟩,
        if syncMatch (shiftIn d.sr b) = true ∨ (d.bitCnt = 9 ∧ d.synced = true) then
          some (syncMatch (shiftIn d.sr b), shiftIn d.sr b) else none) := by
  simp only [frameBit]
  by_cases hm : syncMatch (shiftIn d.sr b) = true
  · rw [if_pos hm, hm, Bool.or_true, if_pos (show true = true ∨ _ from .inl rfl)]
    rfl
  · rw [if_neg hm, Bool.not_eq_true] at *
    by_cases hc : d.bitCnt.val + 1 < 10
    · have hne : d.bitCnt ≠ 9 := fun h => by rw [h] at hc; exact absurd hc (by decide)
      have hno : ¬ (false = true ∨ d.bitCnt = 9 ∧ d.synced = true) := by simp [hne]
      rw [dif_pos hc, hm, if_neg hno, Bool.or_false, Fin.add_one_of_lt_nine hc]
      rfl
    · have h9 := Fin.eq_nine_of_not_lt hc
      rw [dif_neg hc, hm, Bool.or_false, h9]
      cases hs : d.synced <;> rfl

/-- One bit in the preamble detector: every tenth one checks the register, and the eleventh good check in a row declares the
preamble once (R255). -/
theorem preambleBit_eq (p : Preamble) (sr : LineWord) :
    let ones : Bool := decide (p.cnt = 9) && decide (sr = 0x3FF)
    let starts : Bool := ones && decide (10 ≤ p.run) && !p.present
    preambleBit p sr =
      (⟨p.cnt + 1, if p.cnt = 9 then (if ones then (if p.run ≤ 10 then p.run + 1 else p.run) else 0) else p.run,
        p.present || starts⟩, starts) := by
  intro ones starts
  rw [preambleBit]
  by_cases hc : p.cnt.val + 1 < 10
  · have hne : p.cnt ≠ 9 := fun h => by rw [h] at hc; exact absurd hc (by decide)
    have hones : ones = false := by simp [ones, hne]
    have hstarts : starts = false := by simp [starts, hones]
    rw [dif_pos hc, hstarts, if_neg hne, Bool.or_false, Fin.add_one_of_lt_nine hc]
  · have h9 := Fin.eq_nine_of_not_lt hc
    rw [dif_neg hc, if_pos h9, h9]
    by_cases hsr : sr = Config.preambleWord
    · have hones : ones = true := by simp only [ones, h9, hsr]; rfl
      have hrun : (Config.preambleRun < if p.run ≤ Config.preambleRun then p.run + 1 else p.run) ↔ 10 ≤ p.run := by
        rw [show Config.preambleRun = 10 from rfl]
        by_cases h : p.run ≤ 10
        · rw [if_pos h]; omega
        · rw [if_neg h]; omega
      rw [if_pos hsr]
      dsimp only
      rw [hones, if_pos rfl]
      by_cases hs : 10 ≤ p.run ∧ p.present = false
      · have hstarts : starts = true := by simp [starts, hones, hs.1, hs.2]
        rw [if_pos ⟨hrun.2 hs.1, hs.2⟩, hstarts, Bool.or_true]
        rfl
      · have hstarts : starts = false := by
          cases hpres : p.present
          · simp [starts, hones, hpres] at hs ⊢; omega
          · simp [starts, hpres]
        rw [if_neg fun h => hs ⟨hrun.1 h.1, h.2⟩, hstarts, Bool.or_false]
        rfl
    · have hones : ones = false := by
        simp only [ones, Bool.and_eq_false_iff, decide_eq_false_iff_not]
        exact .inr hsr
      have hstarts : starts = false := by simp [starts, hones]
      rw [if_neg hsr, hones, hstarts, Bool.or_false]
      rfl

/-- A word and its block leave the deframer and the preamble detector alone. -/
theorem emitWord_front {s t : State} {o : Option (Bool × LineWord)} (h : emitWord s o = .ok t) :
    t.dfr = s.dfr ∧ t.pre = s.pre := by
  obtain ⟨a, more, rfl | hb⟩ := emitWord_cases h
  · exact ⟨rfl, rfl⟩
  · rw [block_frame hb]
    exact ⟨rfl, rfl⟩

/-- A completed BIT: the state after the word, and the preamble check on it. -/
theorem bit_spec {s t : State} {b : Bool} (h : bit b s = .ok t) :
    ∃ u, emitWord (s.setDfr (frameBit s.dfr b).1) (frameBit s.dfr b).2 = .ok u ∧ t = preambleCheck u ∧
      u.dfr = (frameBit s.dfr b).1 ∧ u.pre = s.pre := by
  obtain ⟨u, hu, h⟩ := bind_eq_ok.1 h
  obtain ⟨hdfr, hpre⟩ := emitWord_front hu
  exact ⟨u, hu, (Except.ok.inj h).symm, hdfr, hpre⟩

/-- Settles O36: the two halves of BIT, the framer and the preamble detector, by arithmetic. -/
theorem bitFramesWordsAndPreamble : Obligations.BitFramesWordsAndPreamble := by
  intro s b hcur sr hit d ones starts p
  obtain ⟨t, ht⟩ := bit_completes hcur b
  obtain ⟨u, hu, htu, hdfr, hpre⟩ := bit_spec ht
  have hsr : shiftIn s.dfr.sr b = sr := shiftIn_eq s.dfr.sr b
  have hhit : syncMatch sr = hit := syncMatch_eq sr
  rw [frameBit_eq, hsr, hhit] at hu hdfr
  have hcheck : preambleBit u.pre u.dfr.sr = (p, starts) := by
    rw [hpre, hdfr]
    exact preambleBit_eq s.pre sr
  rw [preambleCheck, hcheck] at htu
  have hword : emitWord (s.setDfr d) (if hit = true ∨ s.dfr.bitCnt = 9 ∧ s.dfr.synced = true then some (hit, sr) else none) =
      .ok u := hu
  refine ⟨u, t, by rw [exec_bit, ht]; rfl, fun hw => ?_, fun ⟨hno, hw⟩ => ?_, fun hs => ?_, fun hs => ?_⟩
  · rw [if_pos hw] at hword
    rw [exec_word]
    exact congrArg settle hword
  · rw [if_neg (not_or.2 ⟨by rw [hno]; exact Bool.false_ne_true, hw⟩)] at hword
    exact (Except.ok.inj hword).symm
  · rw [htu, exec_trkstart, if_pos hs]
  · rw [htu, if_neg fun h => Bool.false_ne_true (hs.symm.trans h)]

/-! ### WORD and BLOCK -/

/-- Settles O37: by the index of the word. -/
theorem wordFillsTheBlock : Obligations.WordFillsTheBlock := by
  intro s sync w i
  refine ⟨fun h => ?_, fun h hcur => ?_⟩
  · rw [exec_word, word_short (s := s) (sync := sync) h]
    rfl
  · obtain ⟨t, ht⟩ := block_completes (s := s.setAsm ⟨s.asm.words.set i w, 0⟩) hcur
    exact ⟨t, by rw [exec_word, word_full (s := s) (sync := sync) h]; exact congrArg settle ht, by rw [exec_block, ht]; rfl⟩

/-- The decoded payload, by index (R273). -/
theorem decodeBlock_getD (s : State) {j : Nat} (hj : j < 35) :
    (decodeBlock s.cfg (payloadWords s.asm)).getD j blankCell = blockByte s j := by
  have hlen : s.asm.words.toList.length = 36 := s.asm.words.length_toList
  have h1 : j < (s.asm.words.toList.drop 1).length := by rw [List.length_drop]; omega
  have h2 : j + 1 < s.asm.words.toList.length := by omega
  rw [decodeBlock, payloadWords, blockByte, List.getD_eq_getElem _ _ (by simpa using h1), List.getElem_map,
    List.getElem_drop, List.getD_eq_getElem _ _ h2]
  simp only [Nat.add_comm]

/-- The header check on the block in the assembler (R274). -/
theorem hdrGood_iff (s : State) :
    hdrGood (blockByte s 0) (blockByte s 1) (blockByte s 2) = true ↔ headerGood s := by
  simp only [hdrGood, headerGood, Bool.and_eq_true, decide_eq_true_eq, and_assoc]

/-- What placing the block does to the Track (R279). -/
theorem placeBlock_placedAt {s : State} {tr : Track} (h : TrackOk tr) {b : Nat} (hb : b < 144) (ok : Bool) :
    placedAt s tr (placeBlock tr (decodeBlock s.cfg (payloadWords s.asm)) b ok) b ok := by
  obtain ⟨hcell, hoff⟩ := placeBlock_cell h (decodeBlock s.cfg (payloadWords s.asm)) hb ok
  refine ⟨fun i hi => ?_, hoff, ?_, fun b' hb' => ?_, placeBlock_rest _ _ _ _⟩
  · rw [hcell i hi, decodeBlock_getD s (by omega)]
  · rw [placeBlock_hdr h, if_pos rfl, decodeBlock_getD s (by decide)]
  · rw [placeBlock_hdr h, if_neg hb']

theorem place_eq {s : State} {tr : Track} (h : trackOpen s tr) (y : List Flagged) (b : Nat) (ok : Bool) :
    place y b ok s = .ok (s.setCur (some (placeBlock tr y b ok))) := by
  rw [place, openTrack_of_open h, ok_bind]
  rfl

/-- BLOCK on an open Track: placed at its declared number, placed by the guess, or dropped (R276). -/
theorem block_eq {s : State} {tr : Track} (h : trackOpen s tr) :
    block s =
      if hdrGood (blockByte s 0) (blockByte s 1) (blockByte s 2) then
        .ok ((s.setCur (some (placeBlock tr (decodeBlock s.cfg (payloadWords s.asm))
          (blknoOf s.cfg (blockByte s 0).v (blockByte s 1).v).val true))).setLastBlk
            (some (blknoOf s.cfg (blockByte s 0).v (blockByte s 1).v)))
      else match guessFor s.lastBlk with
        | some b => .ok ((s.setCur (some (placeBlock tr (decodeBlock s.cfg (payloadWords s.asm)) b false))).setLastBlk none)
        | none => .ok (s.setLastBlk none) := by
  rw [block]
  simp only [h.1, decodeBlock_getD s (show 0 < 35 by decide), decodeBlock_getD s (show 1 < 35 by decide),
    decodeBlock_getD s (show 2 < 35 by decide), place_eq h, ok_bind]
  rfl

/-- Settles O38: the placed block is read back cell by cell. -/
theorem blockWithGoodHeaderIsPlaced : Obligations.BlockWithGoodHeaderIsPlaced := by
  intro s tr h ht hgood
  refine ⟨_, ?_, placeBlock_placedAt ht (blknoOf s.cfg (blockByte s 0).v (blockByte s 1).v).isLt true⟩
  rw [exec_block, block_eq h, if_pos ((hdrGood_iff s).2 hgood)]
  rfl

theorem legalSucc_iff_sameRange (k : Fin 144) : legalSucc k.val = true ↔ sameRange k.val := by
  rw [legalSucc_iff]
  simp only [sameRange, List.mem_cons, List.not_mem_nil, or_false, exists_eq_or_imp, exists_eq_left]
  omega

theorem guessFor_of_legal {l : Option (Fin 144)} {k : Fin 144} (hl : l = some k) (hk : sameRange k.val) :
    guessFor l = some (k.val + 1) := by
  rw [hl, guessFor, Option.bind_some, if_pos ((legalSucc_iff_sameRange k).2 hk)]

theorem guessFor_of_illegal {l : Option (Fin 144)} (h : ∀ k, l = some k → ¬ sameRange k.val) : guessFor l = none := by
  cases l with
  | none => rfl
  | some k => rw [guessFor, Option.bind_some, if_neg (mt (legalSucc_iff_sameRange k).1 (h k rfl))]

theorem block_of_closed {s : State} (h : s.cur = none) : block s = .ok (s.setLastBlk none) := by
  rw [block]
  simp only [h]

/-- Settles O39: by the predecessor block, and without an open Track. -/
theorem blockWithBadHeaderIsGuessedOrDropped : Obligations.BlockWithBadHeaderIsGuessedOrDropped := by
  refine ⟨fun s h => by rw [exec_block, block_of_closed h]; rfl, fun s tr h ht hbad => ?_⟩
  have hbad : ¬ hdrGood (blockByte s 0) (blockByte s 1) (blockByte s 2) = true := mt (hdrGood_iff s).1 hbad
  refine ⟨fun k hk hr => ?_, fun hno => ?_⟩
  · have hguess := guessFor_of_legal hk hr
    refine ⟨_, ?_, placeBlock_placedAt ht (guessFor_lt hguess) false⟩
    rw [exec_block, block_eq h, if_neg hbad, hguess]
    rfl
  · rw [exec_block, block_eq h, if_neg hbad, guessFor_of_illegal hno]
    rfl

end Sys2Proof.Machine
end

section
/-! Track start, stop and completion (45_block_track.md R281 to R287, R293, R294). -/

namespace Sys2Proof.Machine

open Sys2Proof

/-- Settles O40: TRKSTART is one assignment. -/
theorem trkstartOpensEmptyTrack : Obligations.TrkstartOpensEmptyTrack := by
  intro s
  exact ⟨Track.new, rfl, fun _ _ => rfl, fun _ => rfl, rfl, rfl, rfl, fun j => Vector.getElem_replicate j.isLt,
    fun j => Vector.getElem_replicate j.isLt, rfl, rfl, rfl, rfl, rfl, rfl⟩

/-- Settles O41: TRKSTOP is TRKCPL and TRACK on the open Track with its head set. -/
theorem trkstopSealsAndDelivers : Obligations.TrkstopSealsAndDelivers := by
  refine ⟨fun s h => by rw [exec_trkstop, trkstop_closed h]; rfl, fun s tr h hi => ?_⟩
  obtain ⟨rs, k, l, t, hcpl, hsealed, hhead, -, -, hstop, htrack, -, hk, -⟩ := trkstop_open h hi
  obtain ⟨-, hcur, htimer, hpre, -⟩ := trkstop_keeps hstop
  have hlast : t.lastBlk = none := by rw [hk.frame]; rfl
  refine ⟨((trackIdle s).setRs rs).setCur (some k), k, t, ?_, rfl, hsealed, hhead, ?_, by rw [exec_trkstop, hstop]; rfl, hcur, hlast, htimer, hpre⟩
  · rw [exec_trkcpl]
    exact congrArg settle hcpl
  · rw [exec_track]
    exact congrArg settle htrack

/-! ### TRKCPL -/

/-- No vector is counted as CORRECTED and as UNCORRECTABLE. -/
theorem countP_status_le {α : Type} (l : List α) (st : α → RsStatus) :
    l.countP (fun x => decide (st x = .corrected)) + l.countP (fun x => decide (st x = .uncorrectable)) ≤ l.length := by
  induction l with
  | nil => exact Nat.le_refl 0
  | cons x l ih =>
    rw [List.countP_cons, List.countP_cons, List.length_cons]
    cases st x <;> simp <;> omega

theorem c1Selectors_length : c1Selectors.length = 144 := by simp [c1Selectors, List.length_flatMap]

theorem c2Selectors_length : c2Selectors.length = 112 := by
  simp [c2Selectors, List.range_succ]

/-- The flags that C1 leaves are those of the vector's outcome (R184). -/
theorem c1Vector_flags (cfg : Params) {cells : List Flagged} (rs : RsFile) (h : cells.length = 32) {p : Nat} (hp : p < 32) :
    ((vectorCells 32 (c1Vector cfg cells rs)).getD p blankCell).ok =
      c1Valid (c1Vector cfg cells rs).status (c1Vector cfg cells rs).ncor := by
  obtain ⟨rs1, heq, -⟩ := c1Vector_eq cfg rs h
  rw [heq, setValid_status, setValid_ncor, vectorCells_replicate _ _ _ hp]

/-- What C1PASS leaves on an open Track: counters, canonical cells, and vectors with uniform flags. -/
theorem c1pass_uniform {s : State} {tr : Track} (h : trackOpen s tr) (ht : TrackOk tr) :
    ∃ (rs : RsFile) (cells : Store Flagged) (c u : Nat),
      c1pass s = .ok ((s.setRs rs).setCur (some { tr with cells := cells, c1Corr := tr.c1Corr + c, c1Unc := tr.c1Unc + u })) ∧
      c + u ≤ 144 ∧ swf blankCell 4608 cells = true ∧
      ∀ pr il, pr < 72 → il < 2 → ∃ f : Bool, ∀ p < 32, (sread blankCell cells (c1Addr pr il p)).ok = f := by
  obtain ⟨rs, cells, hpass, hon, -⟩ := c1pass_spec h ht.cells
  obtain ⟨rs', cells', c, u, hpass', -, hswf⟩ := c1pass_completes h
  have hsame : cells = cells' := by
    rw [hpass] at hpass'
    injection hpass' with hst
    exact congrArg Track.cells (Option.some.inj (congrArg State.cur hst))
  refine ⟨rs, cells, _, _, hpass, ?_, hsame ▸ hswf ht, fun pr il hpr hil => ⟨?_, fun p hp => ?_⟩⟩
  · exact (countP_status_le _ _).trans c1Selectors_length.le
  · exact c1Valid (c1Vector s.cfg (readCells tr (c1Addrs pr il)) s.rs).status
      (c1Vector s.cfg (readCells tr (c1Addrs pr il)) s.rs).ncor
  · have := hon (pr, il) (mem_c1Selectors.2 ⟨hpr, hil⟩) p hp
    simp only [c1Addrs, List.getElem_map, List.getElem_range] at this
    rw [this]
    exact c1Vector_flags s.cfg s.rs (by simp) hp

/-- What C2PASS leaves on an open Track: counters, vectors with uniform flags, and every other cell as it was. -/
theorem c2pass_uniform {s : State} {tr : Track} (h : trackOpen s tr) (hc : swf blankCell 4608 tr.cells = true) :
    ∃ (rs : RsFile) (cells : Store Flagged) (c u : Nat),
      c2pass s = .ok ((s.setRs rs).setCur (some { tr with cells := cells, c2Corr := tr.c2Corr + c, c2Unc := tr.c2Unc + u })) ∧
      c + u ≤ 112 ∧ c2Uniform cells ∧ ∀ a, inSomeC2 a = false → sread blankCell cells a = sread blankCell tr.cells a := by
  obtain ⟨rs, cells, hpass, hon, hoff⟩ := c2pass_spec h hc
  refine ⟨rs, cells, _, _, hpass, ?_, fun g sl hg hsl => ⟨?_, fun p hp => ?_⟩, fun a ha => hoff a fun x hx hmem => ?_⟩
  · exact (countP_status_le _ _).trans c2Selectors_length.le
  · exact c2Valid (c2Vector s.cfg (readCells tr (c2Addrs g sl)) s.rs).status
  · exact c2pass_flags hon (x := (g, sl)) (mem_c2Selectors.2 ⟨hg, hsl⟩) hp
  · obtain ⟨p, hp, rfl⟩ := mem_c2Addrs.1 hmem
    obtain ⟨hg, hsl⟩ := mem_c2Selectors.1 hx
    rw [(inSomeC2_iff _).2 ⟨x.1, x.2, p, hg, hsl, hp, rfl⟩] at ha
    cases ha

theorem sealTrack_eq {s : State} {tr : Track} (h : trackOpen s tr) :
    sealTrack s = .ok (s.setCur (some { tr with isSealed := true })) := by
  rw [sealTrack, openTrack_of_open h, ok_bind]
  rfl

/-- Settles O42: the two passes and the extraction, one after the other; extraction writes no cell. -/
theorem trkcplCompletesTheTrack : Obligations.TrkcplCompletesTheTrack := by
  intro s tr h ht
  obtain ⟨rs1, cells1, c1, u1, hpass1, hle1, hswf, huni1⟩ := c1pass_uniform h ht
  obtain ⟨tr1, htr1⟩ : ∃ t : Track, t = { tr with cells := cells1, c1Corr := tr.c1Corr + c1, c1Unc := tr.c1Unc + u1 } :=
    ⟨_, rfl⟩
  rw [← htr1] at hpass1
  have hop1 : trackOpen ((s.setRs rs1).setCur (some tr1)) tr1 := ⟨rfl, by rw [htr1]; exact h.2⟩
  obtain ⟨rs2, cells2, c2, u2, hpass2, hle2, huni2, hoff2⟩ := c2pass_uniform hop1 (by rw [htr1]; exact hswf)
  obtain ⟨tr2, htr2⟩ : ∃ t : Track, t = { tr1 with cells := cells2, c2Corr := tr1.c2Corr + c2, c2Unc := tr1.c2Unc + u2 } :=
    ⟨_, rfl⟩
  rw [← htr2] at hpass2
  have hop2 : trackOpen ((((s.setRs rs1).setCur (some tr1)).setRs rs2).setCur (some tr2)) tr2 :=
    ⟨rfl, by rw [htr2, htr1]; exact h.2⟩
  obtain ⟨k, hk⟩ : ∃ t : Track, t = extractSubcode tr2 := ⟨_, rfl⟩
  have hsubx := subx_ok hop2
  obtain ⟨hsame, -⟩ := extractSubcode_same tr2
  rw [← hk] at hsubx hsame
  have hfields : k.cells = cells2 ∧ k.head = tr.head ∧ k.atf3Cnt = tr.atf3Cnt ∧ k.hdrs = tr.hdrs ∧ k.isSealed = false ∧
      k.c1Corr = tr.c1Corr + c1 ∧ k.c1Unc = tr.c1Unc + u1 ∧ k.c2Corr = tr.c2Corr + c2 ∧ k.c2Unc = tr.c2Unc + u2 := by
    rw [hsame, htr2, htr1]
    exact ⟨rfl, rfl, rfl, rfl, h.2, rfl, rfl, rfl, rfl⟩
  obtain ⟨hcells, hhead, hatf, hhdrs, hopen, e1, e2, e3, e4⟩ := hfields
  have hseal := sealTrack_eq
    (s := ((((s.setRs rs1).setCur (some tr1)).setRs rs2).setCur (some tr2)).setCur (some k)) (tr := k) ⟨rfl, hopen⟩
  refine ⟨_, _, _, k, by rw [exec_c1pass, hpass1]; rfl, by rw [exec_c2pass, hpass2]; rfl, by rw [exec_subx, hsubx]; rfl, rfl,
    ?_, rfl, hhead, hatf, hhdrs, by omega, by omega, by omega, by omega, by omega, by omega, ?_, ?_⟩
  · rw [exec_trkcpl, trkcpl, hpass1, ok_bind, hpass2, ok_bind, hsubx, ok_bind, hseal]
    rfl
  · rw [hcells]; exact huni2
  · rw [hcells]
    intro pr il hpr hil
    obtain ⟨f, hf⟩ := huni1 pr il hpr hil
    refine ⟨f, fun p hp hno => ?_⟩
    rw [hoff2 _ hno, htr1]
    exact hf p hp

end Sys2Proof.Machine
end

section
/-! Subcode extraction (45_block_track.md R288 to R292): what one item of the walk latches, and the walk as the first good item
of each slot. -/

namespace Sys2Proof.Machine

open Sys2Proof

/-! ### Items -/

theorem itemGood_eq (t : Track) (bj : Nat × Nat) : itemGood (itemCells t bj.1 bj.2) = goodItem t bj := by
  rw [itemGood, goodItem, itemCells, foldl_xor_zero, List.all_map, List.map_map]
  rfl

theorem itemCells_getD (t : Track) (b j : Nat) {m : Nat} (hm : m < 8) :
    (itemCells t b j).getD m blankCell = t.cell b (8 * j + m) := by
  rw [itemCells, List.getD_eq_getElem _ _ (by simpa using hm), List.getElem_map, List.getElem_range]

/-- The identifier of an item is the upper nibble of its first byte. -/
theorem itemId_toNat (t : Track) (bj : Nat × Nat) : (itemId (itemCells t bj.1 bj.2)).toNat = itemIdOf t bj := by
  have := (t.cell bj.1 (8 * bj.2)).v.isLt
  rw [itemId, itemCells_getD t _ _ (by decide), BitVec.extractLsb'_toNat, itemIdOf, Nat.shiftRight_eq_div_pow]
  exact Nat.mod_eq_of_lt (by simp only [Nat.add_zero]; omega)

theorem itemId_eq (t : Track) (bj : Nat × Nat) : itemId (itemCells t bj.1 bj.2) = BitVec.ofNat 4 (itemIdOf t bj) := by
  rw [← itemId_toNat, BitVec.ofNat_toNat, BitVec.setWidth_eq]

theorem itemPack_eq (t : Track) (bj : Nat × Nat) : itemPack (itemCells t bj.1 bj.2) = itemPackOf t bj := by
  rw [itemPack, itemPackOf]
  congr 1
  funext m
  rw [itemCells_getD t _ _ (by omega)]

theorem slotOf_eq (bj : Nat × Nat) : slotOf bj.1 bj.2 = slotIndex bj := by
  rw [slotOf, slotIndex, Nat.add_comm]

theorem subWalk_eq : subWalk = itemsInOrder := by decide

theorem idBlocks_eq : (List.range 8).map (128 + 2 * ·) = [128, 130, 132, 134, 136, 138, 140, 142] := rfl

/-- Items are read from the cells alone. -/
theorem goodItem_congr {t t' : Track} (h : t'.cells = t.cells) (bj : Nat × Nat) :
    goodItem t' bj = goodItem t bj ∧ itemIdOf t' bj = itemIdOf t bj ∧ itemPackOf t' bj = itemPackOf t bj := by
  have hcell : t'.cell = t.cell := by funext b i; rw [Track.cell, h]; rfl
  rw [goodItem, itemIdOf, itemPackOf, hcell]
  exact ⟨rfl, rfl, rfl⟩

/-! ### One item -/

/-- A signature entry after an item: an empty one at the item's slot takes the identifier. -/
theorem latchSig_sig (t : Track) (n : Nat) (id : BitVec 4) (slot : Fin 7) :
    (latchSig t n id).sig[slot] = t.sig[slot].or (if n = slot.val then some id else none) := by
  rw [latchSig]
  split
  · next h =>
    obtain ⟨hn, hempty⟩ := Vector.getElem?_eq_some_iff.1 h
    rw [Fin.getElem_fin, Fin.getElem_fin, Vector.getElem_setIfInBounds _]
    split
    · next he => subst he; rw [hempty]; rfl
    · rw [Option.or_none]
  · next h =>
    split
    · next he =>
      subst he
      cases hs : t.sig[slot] with
      | none => exact absurd (by rw [Vector.getElem?_eq_getElem slot.isLt]; exact congrArg some hs) h
      | some x => rfl
    · rw [Option.or_none]

/-- A pack slot after an item: an empty one with the item's identifier takes the pack. -/
theorem latchPack_pack (t : Track) (id : BitVec 4) (p : Pack) (slot : Fin 16) (hs : slot ≠ 0) :
    (latchPack t id p).pack[slot] = t.pack[slot].or (if id.toNat = slot.val then some p else none) := by
  rw [latchPack]
  split
  · next h =>
    obtain ⟨hn, hempty⟩ := Vector.getElem?_eq_some_iff.1 h.2
    rw [Fin.getElem_fin, Fin.getElem_fin, Vector.getElem_setIfInBounds _]
    split
    · next he => simp only [← he]; rw [hempty]; rfl
    · rw [Option.or_none]
  · next h =>
    split
    · next he =>
      have hid : id ≠ 0 := fun h0 => hs (Fin.ext (by rw [← he, h0]; rfl))
      cases hp : t.pack[slot] with
      | none => exact absurd ⟨hid, by rw [he, Vector.getElem?_eq_getElem slot.isLt]; exact congrArg some hp⟩ h
      | some x => rfl
    · rw [Option.or_none]

theorem latchSig_pack (t : Track) (n : Nat) (id : BitVec 4) : (latchSig t n id).pack = t.pack := by
  rw [latchSig]
  split <;> rfl

theorem latchPack_sig (t : Track) (id : BitVec 4) (p : Pack) : (latchPack t id p).sig = t.sig := by
  rw [latchPack]
  split <;> rfl

theorem sameButSubcode.cells {t t' : Track} (h : sameButSubcode t t') : t'.cells = t.cells := by rw [h.1]

theorem sameButSubcode.hdrs {t t' : Track} (h : sameButSubcode t t') : t'.hdrs = t.hdrs := by rw [h.1]

theorem subItem_sig (t : Track) (bj : Nat × Nat) (slot : Fin 7) :
    (subItem t bj).sig[slot] = t.sig[slot].or
      (if goodItem t bj && decide (slotIndex bj = slot.val) then some (BitVec.ofNat 4 (itemIdOf t bj)) else none) := by
  rw [subItem, itemGood_eq, itemId_eq, slotOf_eq]
  cases goodItem t bj
  · exact Option.or_none.symm
  · rw [if_pos rfl, latchPack_sig, latchSig_sig, Bool.true_and]
    simp only [decide_eq_true_eq]

theorem subItem_pack (t : Track) (bj : Nat × Nat) (slot : Fin 16) (hs : slot ≠ 0) :
    (subItem t bj).pack[slot] = t.pack[slot].or
      (if goodItem t bj && decide (itemIdOf t bj = slot.val) then some (itemPackOf t bj) else none) := by
  rw [subItem, itemGood_eq, itemPack_eq]
  cases goodItem t bj
  · exact Option.or_none.symm
  · rw [if_pos rfl, latchPack_pack _ _ _ _ hs, latchSig_pack, itemId_toNat, Bool.true_and]
    simp only [decide_eq_true_eq]

/-! ### The walk -/

/-- An entry that each item of a walk may fill when it is empty ends as its first filler. -/
theorem foldl_or_find {β γ : Type} (f : Track → β → Track) (get : Track → Option γ) (p : β → Bool) (v : β → γ) (P : Track → Prop)
    (hP : ∀ t x, P t → P (f t x))
    (hget : ∀ t x, P t → get (f t x) = (get t).or (if p x then some (v x) else none)) (l : List β) (t : Track) (ht : P t) :
    get (l.foldl f t) = (get t).or ((l.find? p).map v) := by
  induction l generalizing t with
  | nil => exact Option.or_none.symm
  | cons x l ih =>
    rw [List.foldl_cons, ih _ (hP t x ht), hget t x ht, Option.or_assoc, List.find?_cons]
    cases p x <;> rfl

theorem subFold_sig (l : List (Nat × Nat)) (t : Track) (slot : Fin 7) :
    (l.foldl subItem t).sig[slot] = t.sig[slot].or
      ((l.find? fun bj => goodItem t bj && decide (slotIndex bj = slot.val)).map fun bj => BitVec.ofNat 4 (itemIdOf t bj)) := by
  refine foldl_or_find subItem (fun k => k.sig[slot]) _ _ (fun k => k.cells = t.cells) (fun k x hk => ?_) (fun k x hk => ?_)
    l t rfl
  · exact (subItem_same k x).cells.trans hk
  · obtain ⟨hg, hid, -⟩ := goodItem_congr hk x
    rw [subItem_sig, hg, hid]

theorem subFold_pack (l : List (Nat × Nat)) (t : Track) (slot : Fin 16) (hs : slot ≠ 0) :
    (l.foldl subItem t).pack[slot] = t.pack[slot].or
      ((l.find? fun bj => goodItem t bj && decide (itemIdOf t bj = slot.val)).map (itemPackOf t)) := by
  refine foldl_or_find subItem (fun k => k.pack[slot]) _ _ (fun k => k.cells = t.cells) (fun k x hk => ?_) (fun k x hk => ?_)
    l t rfl
  · exact (subItem_same k x).cells.trans hk
  · obtain ⟨hg, hid, hpack⟩ := goodItem_congr hk x
    rw [subItem_pack _ _ _ hs, hg, hid, hpack]

/-- No item writes the two identifiers. -/
theorem subItem_ids (t : Track) (bj : Nat × Nat) : (subItem t bj).ctlId = t.ctlId ∧ (subItem t bj).dataId = t.dataId := by
  simp only [subItem, latchSig, latchPack]
  split
  · split <;> split <;> exact ⟨rfl, rfl⟩
  · exact ⟨rfl, rfl⟩

theorem subFold_ids (l : List (Nat × Nat)) (t : Track) :
    (l.foldl subItem t).ctlId = t.ctlId ∧ (l.foldl subItem t).dataId = t.dataId := by
  induction l generalizing t with
  | nil => exact ⟨rfl, rfl⟩
  | cons x l ih =>
    obtain ⟨h1, h2⟩ := ih (subItem t x)
    obtain ⟨h3, h4⟩ := subItem_ids t x
    exact ⟨h1.trans h3, h2.trans h4⟩

/-- The block that gives the identifiers is found among the headers, which the walk leaves alone. -/
theorem idBlock_congr {t t' : Track} (h : t'.hdrs = t.hdrs) : idBlock t' = idBlock t := by
  simp only [idBlock, Track.hdr, h]

theorem latchIds_of_some {t : Track} {b : Nat} (h : idBlock t = some b) :
    latchIds t = { t with ctlId := some ((t.hdr b).id.extractLsb' 4 4), dataId := some ((t.hdr b).id.extractLsb' 0 4) } := by
  rw [latchIds, h]

theorem latchIds_of_none {t : Track} (h : idBlock t = none) : latchIds t = t := by rw [latchIds, h]

theorem latchIds_slots (t : Track) : (latchIds t).pack = t.pack ∧ (latchIds t).sig = t.sig := by
  cases h : idBlock t with
  | none => rw [latchIds_of_none h]; exact ⟨rfl, rfl⟩
  | some b => rw [latchIds_of_some h]; exact ⟨rfl, rfl⟩

/-- The nibbles of a byte as numbers. -/
theorem extractLsb'_nibble (x : Byte) :
    x.extractLsb' 4 4 = BitVec.ofNat 4 (x.toNat / 16) ∧ x.extractLsb' 0 4 = BitVec.ofNat 4 (x.toNat % 16) := by
  constructor
  · apply BitVec.eq_of_toNat_eq
    rw [BitVec.extractLsb'_toNat, BitVec.toNat_ofNat, Nat.shiftRight_eq_div_pow]
  · apply BitVec.eq_of_toNat_eq
    rw [BitVec.extractLsb'_toNat, BitVec.toNat_ofNat, Nat.shiftRight_zero]
    exact (Nat.mod_mod _ _).symm

/-- Settles O43: the walk fills each empty entry with its first item, and the identifiers come last. -/
theorem subxLatchesFirstGoodItems : Obligations.SubxLatchesFirstGoodItems := by
  intro s tr h
  obtain ⟨hframe, hpack0⟩ := extractSubcode_same tr
  have hwalk := (subFold_same subWalk tr).hdrs
  have hid : idBlock (subWalk.foldl subItem tr) = idBlock tr := idBlock_congr hwalk
  obtain ⟨hpack, hsig⟩ := latchIds_slots (subWalk.foldl subItem tr)
  refine ⟨extractSubcode tr, by rw [exec_subx, subx_ok h]; rfl, hframe, hpack0, fun id hid0 => ?_, fun slot => ?_,
    fun b hb => ?_, fun hb => ?_⟩
  · have hp := subFold_pack subWalk tr id hid0
    rw [← hpack, subWalk_eq] at hp
    refine ⟨fun q hq => ?_, fun hq => ?_⟩
    · rw [hq] at hp; exact hp
    · rw [hq] at hp; exact hp
  · have hp := subFold_sig subWalk tr slot
    rw [← hsig, subWalk_eq] at hp
    refine ⟨fun q hq => ?_, fun hq => ?_⟩
    · rw [hq] at hp; exact hp
    · rw [hq] at hp; exact hp
  · rw [← idBlocks_eq] at hb
    have hk := latchIds_of_some (hid.trans hb)
    have hh : (subWalk.foldl subItem tr).hdr b = tr.hdr b := by rw [Track.hdr, hwalk]; rfl
    obtain ⟨hhi, hlo⟩ := extractLsb'_nibble (tr.hdr b).id
    rw [extractSubcode, hk, hh, hhi, hlo]
    exact ⟨rfl, rfl⟩
  · rw [← idBlocks_eq] at hb
    rw [extractSubcode, latchIds_of_none (hid.trans hb)]
    exact subFold_ids subWalk tr

end Sys2Proof.Machine
end

section
/-! The framer (46_framer_frame.md R320 to R331): TRACK by the held Track, PAIR by MODE, and the wired frame cell by cell. -/

namespace Sys2Proof.Machine

open Sys2Proof

/-! ### TRACK -/

/-- TRACK keeps the new Track when the framer holds none (R320). -/
theorem track_of_none {s : State} {t : Track} (ht : s.transit.track = some t) (hl : s.last = none) :
    track s = .ok ((s.setTransit { s.transit with track := none }).setLast (some t)) := by
  rw [track, object_some ht, ok_bind]
  simp only [State.setTransit_last, hl]
  rfl

/-- TRACK keeps the newer of two Tracks that make no frame. -/
theorem track_of_noFrame {s : State} {t l : Track} (ht : s.transit.track = some t) (hl : s.last = some l)
    (hf : isFrame s.mode l t = false) :
    track s = .ok ((s.setTransit { s.transit with track := none }).setLast (some t)) := by
  rw [track, object_some ht, ok_bind]
  simp only [State.setTransit_last, State.setTransit_mode, hl, hf, Bool.false_eq_true, if_false]
  rfl

/-- TRACK hands two Tracks that make a frame to PAIR. -/
theorem track_of_frame {s : State} {t l : Track} (ht : s.transit.track = some t) (hl : s.last = some l)
    (hf : isFrame s.mode l t = true) :
    track s = pair ((s.setTransit { s.transit with track := none, pair := some (l, t) }).setLast none) := by
  rw [track, object_some ht, ok_bind]
  simp only [State.setTransit_last, State.setTransit_mode, hl, hf, if_true]
  rfl

/-- Settles O45: by the held Track: none, one that pairs, one that does not. -/
theorem trackPairsOrKeepsNewer : Obligations.TrackPairsOrKeepsNewer := by
  intro s t ht
  refine ⟨fun hl => ?_, fun l hl hf => ?_, fun l hl hf hi => ?_⟩
  · rw [exec_track, track_of_none ht hl]
    rfl
  · rw [exec_track, track_of_noFrame ht hl hf]
    rfl
  · obtain ⟨u, hu, hk, -⟩ := pair_completes (a := l) (b := t)
      (s := (s.setTransit { s.transit with track := none, pair := some (l, t) }).setLast none) rfl hi
    refine ⟨u, by rw [exec_track, track_of_frame ht hl hf, hu]; rfl, by rw [exec_pair, hu]; rfl, ?_⟩
    rw [hk.frame]
    rfl

/-! ### PAIR -/

/-- A cell of the frame of a pair (R326). -/
theorem frameOf_cell (cfg : Params) (a b : Track) (w : Fin 1456) (col : Fin 4) :
    (frameOf cfg a b).cell w.val col.val = frameCell cfg a b w col := by
  have hrow : (4 * w.val + col.val) / 4 = w.val := by omega
  have hcol : (4 * w.val + col.val) % 4 = col.val := by omega
  have hlt : 4 * w.val + col.val < 5824 := by omega
  rw [Frame.cell, frameOf, sread_sbuild, if_pos hlt, dif_pos hlt]
  congr 1 <;> exact Fin.ext (by assumption)

theorem frameCell_low (cfg : Params) (a b : Track) (w : Fin 1456) (c : Fin 2) :
    frameCell cfg a b w ⟨c.val, by omega⟩ =
      (if w.val % 2 = 0 then a else b).cell (demuxOf cfg c w).1.val (demuxOf cfg c w).2.val := by
  have hc : (⟨c.val % 2, by omega⟩ : Fin 2) = c := Fin.ext (Nat.mod_eq_of_lt c.isLt)
  simp only [frameCell, hc, if_pos c.isLt]

theorem frameCell_high (cfg : Params) (a b : Track) (w : Fin 1456) (c : Fin 2) :
    frameCell cfg a b w ⟨c.val + 2, by omega⟩ =
      (if w.val % 2 = 0 then b else a).cell (demuxOf cfg c w).1.val (demuxOf cfg c w).2.val := by
  have hc : (⟨(c.val + 2) % 2, by omega⟩ : Fin 2) = c := Fin.ext (by simp only; omega)
  have hge : ¬ c.val + 2 < 2 := by omega
  simp only [frameCell, hc, if_neg hge]

/-- The frame of a pair is wired as R325 says. -/
theorem wiredFrame_frameOf (cfg : Params) (a b : Track) : wiredFrame cfg a b (frameOf cfg a b) := by
  refine ⟨rfl, rfl, fun c w => ?_, rfl, rfl, rfl, rfl⟩
  have hlow := (frameOf_cell cfg a b w ⟨c.val, by omega⟩).trans (frameCell_low cfg a b w c)
  have hhigh := (frameOf_cell cfg a b w ⟨c.val + 2, by omega⟩).trans (frameCell_high cfg a b w c)
  intro src
  split
  · next he =>
    rw [if_pos he] at hlow hhigh
    exact ⟨hlow, hhigh⟩
  · next ho =>
    rw [if_neg ho] at hlow hhigh
    exact ⟨hhigh, hlow⟩

theorem pair_of_dat {s : State} {a b : Track} (hp : s.transit.pair = some (a, b)) (hm : s.mode = .dat) :
    pair s = .ok (emitOut (s.setTransit { s.transit with pair := none }) (.datFrame (frameOf s.cfg a b))) := by
  rw [pair, object_some hp, ok_bind]
  simp only [State.setTransit_mode, hm]
  rfl

theorem pair_of_dds {s : State} {a b : Track} (hp : s.transit.pair = some (a, b)) (hm : s.mode = .dds) :
    pair s = g3dec (s.setTransit { s.transit with pair := none, frame := some (frameOf s.cfg a b) }) := by
  rw [pair, object_some hp, ok_bind]
  simp only [State.setTransit_mode, hm]
  rfl

/-- Settles O46: the wired frame is `frameOf`, and MODE says who takes it. -/
theorem pairWiresTheFrame : Obligations.PairWiresTheFrame := by
  intro s a b hp
  refine ⟨frameOf s.cfg a b, wiredFrame_frameOf s.cfg a b, fun hm => ?_, fun hm hi => ?_⟩
  · rw [exec_pair, pair_of_dat hp hm]
    rfl
  · obtain ⟨t, ht, -⟩ := pair_completes hp hi
    rw [exec_pair, exec_g3dec, ← pair_of_dds hp hm, ht]
    exact ⟨t, rfl, rfl⟩

end Sys2Proof.Machine
end

section
/-! Group-3 decode (47_dds.md R341 to R354): SESS, DEWHT, and G3DEC check by check. -/

namespace Sys2Proof.Machine

open Sys2Proof

/-! ### SESS and DEWHT -/

theorem sess_eq {s : State} {g : Group3} (h : s.transit.g3 = some g) :
    sess s = .ok (s.setSess (sessNext s.sess g.fields.area)) := by
  rw [sess, object_some h, ok_bind]
  rfl

theorem sessNext_enter {ss : Session} {a : Area} (h : ss.state = .data) (ha : a = .eod) : sessNext ss a = ⟨.eot, ss.cnt⟩ := by
  rw [sessNext, h]
  exact if_pos ha

theorem sessNext_leave {ss : Session} {a : Area} (h : ss.state = .eot) (ha : a ≠ .eod) :
    sessNext ss a = ⟨.data, ss.cnt + 1⟩ := by
  rw [sessNext, h]
  exact if_neg ha

theorem sessNext_stay {ss : Session} {a : Area} (h : (ss.state = .data ∧ a ≠ .eod) ∨ (ss.state = .eot ∧ a = .eod)) :
    sessNext ss a = ss := by
  rcases h with ⟨hs, ha⟩ | ⟨hs, ha⟩
  · rw [sessNext, hs]
    exact if_neg ha
  · rw [sessNext, hs]
    exact if_pos ha

/-- Settles O47: the rule is one function of the session state and the area. -/
theorem sessFollowsTheArea : Obligations.SessFollowsTheArea := by
  intro s g h
  rw [exec_sess, sess_eq h, settle_ok]
  exact ⟨fun hs ha => by rw [sessNext_enter hs ha], fun hs ha => by rw [sessNext_leave hs ha],
    fun hs => by rw [sessNext_stay hs]; rfl⟩

theorem dewht_eq {s : State} {f : Frame} (h : s.transit.frame = some f) :
    dewht s = .ok (s.setTransit { s.transit with g1 := some (dewhiten s.cfg f) }) := by
  rw [dewht, object_some h, ok_bind]
  rfl

/-- Settles O48: each group-1 cell is the frame cell in row order with its byte XORed. -/
theorem dewhtWhitensThePayload : Obligations.DewhtWhitensThePayload := by
  intro s f h
  refine ⟨dewhiten s.cfg f, by rw [exec_dewht, dewht_eq h]; rfl, fun i => ?_⟩
  rw [dewhiten, sread_sbuild, if_pos i.isLt, dif_pos i.isLt]
  rfl

/-! ### The checks before the session (R342 to R345) -/

theorem packs14_of_has {t : Track} {p : Packs} (h : hasPacks t p) : packs14 t = some p := by
  obtain ⟨h1, h2, h3, h4⟩ := h
  rw [packs14, h1, h2, h3, h4]

theorem packs14_of_lacks {t : Track} (h : lacksPack t) : packs14 t = none := by
  cases hp : packs14 t with
  | none => rfl
  | some p =>
    unfold packs14 at hp
    split at hp
    · next h1 h2 h3 h4 =>
      rcases h with h | h | h | h
      · rw [h1] at h; cases h
      · rw [h2] at h; cases h
      · rw [h3] at h; cases h
      · rw [h4] at h; cases h
    · cases hp

theorem g3Front_missing {cfg : Params} {f : Frame} (h : lacksPack f.a ∨ lacksPack f.b) :
    g3Front cfg f = .reject .missingPack false := by
  rw [g3Front]
  rcases h with h | h
  · rw [packs14_of_lacks h]
  · rw [packs14_of_lacks h]
    cases packs14 f.a <;> rfl

section
variable {cfg : Params} {f : Frame} {pa pb : Packs} (ha : hasPacks f.a pa) (hb : hasPacks f.b pb)
include ha hb

theorem g3Front_badField (h : parseDdsOf cfg pa = none ∨ parseDdsOf cfg pb = none) :
    g3Front cfg f = .reject .badField false := by
  rw [g3Front, packs14_of_has ha, packs14_of_has hb]
  dsimp only
  rcases h with h | h
  · rw [h]
  · rw [h]
    cases parseDdsOf cfg pa <;> rfl

/-- Both copies parse: only a disagreement on the logical frame of a data frame rejects (R344, R345). -/
theorem g3Front_parsed {fa fb : DdsFields} (hpa : parseDdsOf cfg pa = some fa) (hpb : parseDdsOf cfg pb = some fb) :
    g3Front cfg f =
      if fa.area = .data ∧ fa.lfid ≠ fb.lfid then .reject .lfidMismatch (decide (fa.afn ≠ fb.afn))
      else .fields fa (decide (fa.afn ≠ fb.afn)) := by
  rw [g3Front, packs14_of_has ha, packs14_of_has hb]
  dsimp only
  rw [hpa, hpb]

end

theorem g3dec_of_reject {s : State} {f : Frame} {kind : G3Kind} {mism : Bool} (hf : s.transit.frame = some f)
    (h : g3Front s.cfg f = .reject kind mism) : g3dec s = .ok (reported s kind mism none) := by
  rw [g3dec, object_some hf, ok_bind, h]
  rfl

/-- Settles O49: each check that fails answers before the session step. -/
theorem g3decRejectsBeforeSession : Obligations.G3decRejectsBeforeSession := by
  intro s f hf
  refine ⟨fun h => ?_, fun pa pb ha hb => ⟨fun h => ?_, fun fa fb hpa hpb harea hlfid => ?_⟩⟩
  · rw [exec_g3dec, g3dec_of_reject hf (g3Front_missing h)]
    rfl
  · rw [exec_g3dec, g3dec_of_reject hf (g3Front_badField ha hb h)]
    rfl
  · rw [exec_g3dec, g3dec_of_reject hf ((g3Front_parsed ha hb hpa hpb).trans (if_pos ⟨harea, hlfid⟩))]
    rfl

/-! ### The checks after the session (R346 to R350) -/

theorem frameHasInvalid_iff (f : Frame) : frameHasInvalid f = true ↔ frameInvalid f := by
  rw [frameHasInvalid, Bool.not_eq_true', List.all_eq_false]
  constructor
  · rintro ⟨k, hk, hno⟩
    have hk := List.mem_range.1 hk
    refine ⟨k / 4, k % 4, by omega, by omega, ?_⟩
    rw [Frame.cell, Nat.div_add_mod]
    simpa using hno
  · rintro ⟨w, c, hw, hc, hno⟩
    exact ⟨4 * w + c, List.mem_range.2 (by omega), by simpa [Frame.cell] using hno⟩

theorem g3Status_of_invalid {f : Frame} (h : frameInvalid f) : g3Status f = .c2ErrorsPresent :=
  if_pos ((frameHasInvalid_iff f).2 h)

theorem g3Status_of_valid {f : Frame} (h : ¬ frameInvalid f) : g3Status f = .ok :=
  if_neg (mt (frameHasInvalid_iff f).1 h)

/-- The LFID byte as a number (30_encoding.md R106). -/
theorem lfidByte_toNat (d : DdsFields) :
    (lfidByte d).toNat = d.lfid.toNat + (if d.isEcc3 then 0x40 else 0) + (if d.isLast then 0x80 else 0) := by
  have hl := d.lfid.isLt
  rw [lfidByte, BitVec.toNat_append, BitVec.toNat_append, ← Nat.shiftLeft_add_eq_or_of_lt hl,
    ← Nat.shiftLeft_add_eq_or_of_lt (BitVec.isLt _)]
  simp only [Nat.shiftLeft_eq]
  cases d.isLast <;> cases d.isEcc3 <;> simp <;> omega

theorem headerIsLfid_iff (f : Frame) (d : DdsFields) :
    headerIsLfid f d ↔ (f.cell 0 1).v = lfidByte d ∧ (f.cell 0 3).v = lfidByte d := by
  rw [headerIsLfid, ← lfidByte_toNat]
  simp only [BitVec.toNat_inj]
  exact ⟨fun h => ⟨h 1 (.inl rfl), h 3 (.inr rfl)⟩, fun ⟨h1, h3⟩ c hc => by rcases hc with rfl | rfl <;> assumption⟩

theorem headerCheck_nonzero {f : Frame} {d : DdsFields} (h : ¬ headerZeros f) : headerCheck f d = some .headerNonzero :=
  if_pos (not_and_or.1 h)

theorem headerCheck_mismatch {f : Frame} {d : DdsFields} (hz : headerZeros f) (h : ¬ headerIsLfid f d) :
    headerCheck f d = some .headerLfidMismatch := by
  rw [headerIsLfid_iff] at h
  rw [headerCheck, if_neg fun hn => hn.elim (absurd hz.1) (absurd hz.2), if_pos (not_and_or.1 h)]

theorem headerCheck_good {f : Frame} {d : DdsFields} (hz : headerZeros f) (h : headerIsLfid f d) : headerCheck f d = none := by
  obtain ⟨h1, h3⟩ := (headerIsLfid_iff f d).1 h
  rw [headerCheck, if_neg fun hn => hn.elim (absurd hz.1) (absurd hz.2), if_neg fun hn => hn.elim (absurd h1) (absurd h3)]

/-- G3DEC past the first checks: SESS, and then by the area and the header row (R341). -/
theorem g3dec_of_fields {s u : State} {f : Frame} {d : DdsFields} {mism : Bool} (hf : s.transit.frame = some f)
    (h : g3Front s.cfg f = .fields d mism)
    (hu : sess (s.setTransit { s.transit with g3 := some ⟨d, none, false⟩ }) = .ok u) :
    g3dec s =
      if d.area ≠ .data then .ok (reported u (g3Status f) mism (some ⟨d, none, false⟩))
      else match headerCheck f d with
        | some kind => .ok (reported u kind mism (some ⟨d, none, false⟩))
        | none => g3Accept f d mism u := by
  rw [g3dec, object_some hf, ok_bind, h]
  dsimp only
  rw [hu, ok_bind]
  rfl

/-- Settles O50: past the packs the session moves, and the area and the header row decide. -/
theorem g3decStopsAfterSession : Obligations.G3decStopsAfterSession := by
  intro s f pa pb fa fb hf ha hb hpa hpb hlfid
  have hfront := (g3Front_parsed ha hb hpa hpb).trans (if_neg fun h => h.2 (hlfid h.1))
  have hsess := sess_eq (s := s.setTransit { s.transit with g3 := some ⟨fa, none, false⟩ }) rfl
  have hg3 := g3dec_of_fields hf hfront hsess
  refine ⟨_, by rw [exec_sess, hsess]; rfl, fun harea hinv => ?_, fun harea hval => ?_, fun harea hz => ?_,
    fun harea hz hl => ?_⟩
  · rw [exec_g3dec, hg3, if_pos harea, g3Status_of_invalid hinv]
    rfl
  · rw [exec_g3dec, hg3, if_pos harea, g3Status_of_valid hval]
    rfl
  · rw [exec_g3dec, hg3, if_neg (not_not.2 harea), headerCheck_nonzero hz]
    rfl
  · rw [exec_g3dec, hg3, if_neg (not_not.2 harea), headerCheck_mismatch hz hl]
    rfl

/-- The checksums are XOR sums (R350). -/
theorem cksumComputed_eq (cfg : Params) (f : Frame) :
    cksumComputed cfg f = Vector.ofFn fun k => xorSum ((cksumSetOf cfg k).map fun rc => (f.cell rc.1.val rc.2.val).v) := by
  simp only [cksumComputed, foldl_xor_zero]

/-- Settles O51: the dropped objects and the session filter apart, the next state is that of DEWHT and BGMERGE. -/
theorem g3decPassesDataOn : Obligations.G3decPassesDataOn := by
  intro s f pa pb fa fb hf hi ha hb hpa hpb harea hlfid hz hl ck g3
  have hfront := (g3Front_parsed ha hb hpa hpb).trans (if_neg fun h => h.2 hlfid)
  obtain ⟨u, hu⟩ : ∃ u, u = (s.setTransit { s.transit with g3 := some ⟨fa, none, false⟩ }).setSess (sessNext s.sess fa.area) :=
    ⟨_, rfl⟩
  have hsess : sess (s.setTransit { s.transit with g3 := some ⟨fa, none, false⟩ }) = .ok u := by rw [hu]; rfl
  have hck : cksumComputed u.cfg f = ck := by rw [cksumComputed_eq, hu]; rfl
  have hg3 := g3dec_of_fields hf hfront hsess
  rw [if_neg (not_not.2 harea), headerCheck_good hz hl, g3Accept, hck] at hg3
  obtain ⟨v0, hv0⟩ : ∃ v0, v0 = (u.setTransit { u.transit with g3 := some g3 }).setReport
      (some ⟨g3Status f, decide (fa.afn ≠ fb.afn), some g3⟩) := ⟨_, rfl⟩
  have hframe : v0.transit.frame = some f := by rw [hv0, hu]; exact hf
  have hdewht := dewht_eq hframe
  obtain ⟨v, hv⟩ : ∃ v, v = v0.setTransit { v0.transit with g1 := some (dewhiten v0.cfg f) } := ⟨_, rfl⟩
  rw [← hv] at hdewht
  have hg3 : g3dec s = dewht v0 >>= fun x =>
      if x.sess.cnt = x.sessionSel then bgmerge x >>= fun y => .ok (dropFrame y) else .ok (dropFrame x) := by
    rw [hg3, hv0]
    rfl
  rw [hdewht, ok_bind] at hg3
  have himages : imagesOk v := by rw [hv, hv0, hu]; exact hi
  obtain ⟨w, hw, -⟩ := bgmerge_completes (s := v) (g1 := dewhiten v0.cfg f) (g3 := g3) (by rw [hv]; rfl)
    (by rw [hv, hv0]; rfl) (himages.fits _)
  refine ⟨g3Status f, u, v, if v.sess.cnt = v.sessionSel then w else v, fun h => g3Status_of_invalid h,
    fun h => g3Status_of_valid h, by rw [exec_sess, hsess]; rfl, ?_, fun hs => ?_, fun hs => if_neg hs, ?_⟩
  · rw [exec_dewht, ← hv0, hdewht]
    rfl
  · rw [exec_bgmerge, hw, if_pos hs]
    rfl
  · rw [exec_g3dec, hg3]
    by_cases hs : v.sess.cnt = v.sessionSel
    · rw [if_pos hs, if_pos hs, hw]
      rfl
    · rw [if_neg hs, if_neg hs]
      rfl

end Sys2Proof.Machine
end

section
/-! The accumulator (47_dds.md R360 to R376): the merge of a group-1 cell by cell, the beginning and the end of a basic group, and
STOP. -/

namespace Sys2Proof.Machine

open Sys2Proof

/-! ### Merging one group-1 (R360, R363) -/

theorem mergeCell_fst (old new : Flagged) : (mergeCell old new).1 = mergedCell old new := by
  obtain ⟨v, ok⟩ := new
  rw [mergeCell, mergedCell]
  cases ok <;> cases old.ok <;> rfl

theorem mergeCell_snd (old new : Flagged) :
    (mergeCell old new).2 = if old.ok && new.ok && decide (old.v ≠ new.v) then 1 else 0 := by
  rw [mergeCell]
  cases new.ok <;> cases old.ok <;> simp only [Bool.false_and, Bool.and_false, Bool.true_and, Bool.and_true, if_true,
    Bool.false_eq_true, if_false, decide_eq_true_eq, ne_comm]

/-- The merge of the first `k` cells: each takes its merge with the cell as it was, and the disagreements are counted. -/
theorem mergeFold_spec {n base : Nat} (g1 m : Store Flagged) (c : Nat) (hm : swf blankCell n m = true) {k : Nat}
    (hk : base + k ≤ n) :
    let r := (List.range k).foldl (fun m i =>
      let r := mergeCell (sread blankCell m.1 (base + i)) (sread blankCell g1 i)
      (swrite blankCell m.1 (base + i) r.1, m.2 + r.2)) (m, c)
    swf blankCell n r.1 = true ∧
    (∀ a, sread blankCell r.1 a =
      if base ≤ a ∧ a < base + k then mergedCell (sread blankCell m a) (sread blankCell g1 (a - base)) else sread blankCell m a) ∧
    r.2 = c + (List.range k).countP fun i => (sread blankCell m (base + i)).ok && (sread blankCell g1 i).ok &&
      decide ((sread blankCell m (base + i)).v ≠ (sread blankCell g1 i).v) := by
  induction k with
  | zero => exact ⟨hm, fun a => (if_neg (by omega)).symm, rfl⟩
  | succ k ih =>
    obtain ⟨hswf, hread, hcount⟩ := ih (by omega)
    rw [List.range_succ, List.foldl_append, List.foldl_cons, List.foldl_nil]
    have hold : sread blankCell ((List.range k).foldl (fun m i =>
        let r := mergeCell (sread blankCell m.1 (base + i)) (sread blankCell g1 i)
        (swrite blankCell m.1 (base + i) r.1, m.2 + r.2)) (m, c)).1 (base + k) = sread blankCell m (base + k) := by
      rw [hread, if_neg (by omega)]
    intro r
    refine ⟨swf_swrite hswf (by omega) _, fun a => ?_, ?_⟩
    · show sread blankCell (swrite blankCell _ _ _) a = _
      rw [sread_swrite hswf, hold, mergeCell_fst, hread]
      by_cases ha : a = base + k
      · rw [if_pos ha, if_pos (by omega), ha, Nat.add_sub_cancel_left]
      · rw [if_neg ha]
        by_cases hin : base ≤ a ∧ a < base + k
        · rw [if_pos hin, if_pos (by omega)]
        · rw [if_neg hin, if_neg (by omega)]
    · show _ + (mergeCell _ _).2 = _
      rw [hold, hcount, mergeCell_snd, List.countP_append, List.countP_singleton, Nat.add_assoc]

theorem mergeRange_spec {n base : Nat} {m : Store Flagged} (hm : swf blankCell n m = true) (hb : base + 5756 ≤ n)
    (g1 : Store Flagged) (c : Nat) :
    mergedInto base m g1 (mergeRange base g1 (m, c)).1 ∧
      (mergeRange base g1 (m, c)).2 = c + disagreements base m g1 := by
  obtain ⟨-, hread, hcount⟩ := mergeFold_spec g1 m c hm hb
  exact ⟨hread, hcount⟩

theorem placeGroup_id (d : DdsFields) (g1 : Store Flagged) (g : BasicGroup) : (placeGroup d g1 g).id = g.id := by
  rw [placeGroup]
  split
  · rfl
  · split <;> rfl

theorem placeGroup_ecc {d : DdsFields} (h : d.isEcc3 = true) (g1 : Store Flagged) (g : BasicGroup) :
    placeGroup d g1 g =
      { g with ecc := (mergeRange 0 g1 (g.ecc, g.diffLog)).1, diffLog := (mergeRange 0 g1 (g.ecc, g.diffLog)).2 } := if_pos h

theorem placeGroup_slice {d : DdsFields} (h : d.isEcc3 = false) (h1 : 1 ≤ d.lfid.toNat) (h22 : d.lfid.toNat ≤ 22)
    (g1 : Store Flagged) (g : BasicGroup) :
    placeGroup d g1 g =
      { g with
        main := (mergeRange ((d.lfid.toNat - 1) * 5756) g1 (g.main, g.diffLog)).1
        diffLog := (mergeRange ((d.lfid.toNat - 1) * 5756) g1 (g.main, g.diffLog)).2 } :=
  (if_neg (by rw [h]; decide)).trans (if_pos ⟨h1, h22⟩)

theorem placeGroup_nowhere {d : DdsFields} (h : d.isEcc3 = false) (hl : d.lfid.toNat = 0 ∨ 23 ≤ d.lfid.toNat)
    (g1 : Store Flagged) (g : BasicGroup) : placeGroup d g1 g = g :=
  (if_neg (by rw [h]; decide)).trans (if_neg (by omega))

/-! ### BGMERGE by the active group -/

theorem closeOther_of_none {s : State} (h : s.bg = none) (id : Nat) : closeOther id s = .ok s := by
  rw [closeOther, h]

theorem closeOther_of_same {s : State} {g : BasicGroup} (h : s.bg = some g) {id : Nat} (hid : g.id = id) :
    closeOther id s = .ok s := by
  rw [closeOther, h]
  exact if_neg (not_not.2 hid)

theorem closeOther_of_other {s : State} {g : BasicGroup} (h : s.bg = some g) {id : Nat} (hid : g.id ≠ id) :
    closeOther id s = bgfin s := by
  rw [closeOther, h]
  exact if_pos hid

theorem ensureGroup_of_none {s : State} (h : s.bg = none) (id : Nat) : ensureGroup id s = beginGroup id s := by
  rw [ensureGroup, h]

theorem ensureGroup_of_some {s : State} {g : BasicGroup} (h : s.bg = some g) (id : Nat) : ensureGroup id s = .ok s := by
  rw [ensureGroup, h]

/-- The state after the merge into the active group, before a last sub-group is finalized. -/
def merged (s : State) (g : BasicGroup) (g1 : Store Flagged) (d : DdsFields) : State :=
  (s.setBg (some (placeGroup d g1 g))).setTransit { s.transit with g1 := none, g3 := none }

section
variable {s : State} {g1 : Store Flagged} {g3 : Group3} (h1 : s.transit.g1 = some g1) (h3 : s.transit.g3 = some g3)
include h1 h3

/-- BGMERGE with its objects: finalize another group, begin one, merge, finalize after the last sub-group (R360). -/
theorem bgmerge_eq :
    bgmerge s = closeOther g3.fields.bgId s >>= fun s => ensureGroup g3.fields.bgId s >>= fun s => activeGroup s >>= fun g =>
      if g3.fields.isLast then bgfin (merged s g g1 g3.fields) else .ok (merged s g g1 g3.fields) := by
  rw [bgmerge, object_some h1, ok_bind, object_some h3, ok_bind]
  rfl

theorem bgmerge_of_same {g : BasicGroup} (hbg : s.bg = some g) (hid : g.id = g3.fields.bgId) :
    bgmerge s = if g3.fields.isLast then bgfin (merged s g g1 g3.fields) else .ok (merged s g g1 g3.fields) := by
  rw [bgmerge_eq h1 h3, closeOther_of_same hbg hid, ok_bind, ensureGroup_of_some hbg, ok_bind, activeGroup_some hbg, ok_bind]

/-- BGMERGE without a group begins one and goes on with it. -/
theorem bgmerge_of_none (hbg : s.bg = none) :
    bgmerge s = beginGroup g3.fields.bgId s >>= fun s => activeGroup s >>= fun g =>
      if g3.fields.isLast then bgfin (merged s g g1 g3.fields) else .ok (merged s g g1 g3.fields) := by
  rw [bgmerge_eq h1 h3, closeOther_of_none hbg, ok_bind, ensureGroup_of_none hbg]

end

/-- Settles O52: the merge of one slice is a fold over its cells. -/
theorem bgmergeMergesOneSlice : Obligations.BgmergeMergesOneSlice := by
  intro s g g1 g3 h1 h3 hbg hg hid hlast
  refine ⟨placeGroup g3.fields g1 g, ?_, placeGroup_id _ _ _, fun he => ?_, fun he hlo hhi => ?_, fun he hl =>
    placeGroup_nowhere he hl g1 g⟩
  · rw [exec_bgmerge, bgmerge_of_same h1 h3 hbg hid, hlast]
    rfl
  · have hspec := mergeRange_spec hg.ecc (base := 0) (Nat.le_of_eq (Nat.zero_add _)) g1 g.diffLog
    simp only [placeGroup_ecc he]
    exact ⟨hspec.1, trivial, hspec.2⟩
  · have hfits : (g3.fields.lfid.toNat - 1) * 5756 + 5756 ≤ 126632 := by omega
    have hspec := mergeRange_spec hg.main (base := (g3.fields.lfid.toNat - 1) * 5756) hfits g1 g.diffLog
    simp only [placeGroup_slice he hlo hhi]
    exact ⟨hspec.1, trivial, hspec.2⟩

/-! ### Beginning a group (R361, R373, R374) -/

theorem imageLengthOk_iff (img : Image) :
    imageLengthOk img = true ↔ img.main.length = 126632 ∧ img.mainVal.length = 126632 ∧
      img.ecc.length = 5756 ∧ img.eccVal.length = 5756 := by
  rw [imageLengthOk, Bool.and_eq_true, Bool.and_eq_true, Bool.and_eq_true, decide_eq_true_eq, decide_eq_true_eq,
    decide_eq_true_eq, decide_eq_true_eq, and_assoc, and_assoc]

theorem imageValidityOk_iff (img : Image) :
    imageValidityOk img = true ↔ ∀ b ∈ img.mainVal ++ img.eccVal, b = 0xFF ∨ b = 0x00 := by
  rw [imageValidityOk, List.all_eq_true]
  exact forall₂_congr fun b _ => by rw [Bool.or_eq_true, decide_eq_true_eq, decide_eq_true_eq]

/-- The cells of an image's pair of arrays. -/
theorem sread_imageCells {vals flags : List Byte} {n : Nat} (hv : vals.length = n) (hf : flags.length = n) {k : Nat} (hk : k < n) :
    sread blankCell (imageCells vals flags) k = ⟨vals.getD k 0, decide (flags.getD k 0 = 0xFF)⟩ := by
  rw [imageCells, sread_sofList, List.getD_eq_getElem _ _ (by simp; omega), List.getElem_map, List.getElem_zip,
    List.getD_eq_getElem _ _ (by omega), List.getD_eq_getElem _ _ (by omega)]

theorem beginGroup_of_noImage {s : State} {id : Nat} (h : s.images.lookup id = none) :
    beginGroup id s = .ok ((s.setOut (s.out ++ [.bgLoad id])).setBg (some ⟨id, [], [], 0⟩)) := by
  simp only [beginGroup, emitOut, State.setOut_images, h]

theorem beginGroup_of_image {s : State} {id : Nat} {img : Image} (h : s.images.lookup id = some img) :
    beginGroup id s =
      if !imageLengthOk img then refuse .imageLength
      else if !imageValidityOk img then refuse .imageValidity
      else .ok ((s.setOut (s.out ++ [.bgLoad id])).setBg
        (some ⟨id, imageCells img.main img.mainVal, imageCells img.ecc img.eccVal, 0⟩)) := by
  simp only [beginGroup, emitOut, State.setOut_images, h]

/-- The group that BEGIN makes: the cells of the host's image, or blank ones. -/
structure Begun (s : State) (n : Nat) (g : BasicGroup) : Prop where
  idEq : g.id = n
  diffLog : g.diffLog = 0
  blank : s.images.lookup n = none → ∀ k, g.mainCell k = blankCell ∧ g.eccCell k = blankCell
  loaded : ∀ img, s.images.lookup n = some img →
    (∀ k < 126632, g.mainCell k = ⟨img.main.getD k 0, decide (img.mainVal.getD k 0 = 0xFF)⟩) ∧
    (∀ k < 5756, g.eccCell k = ⟨img.ecc.getD k 0, decide (img.eccVal.getD k 0 = 0xFF)⟩)

theorem beginGroup_begun {s : State} {id : Nat} (h : imageFits s id) :
    ∃ g, Begun s id g ∧ beginGroup id s = .ok ((s.setOut (s.out ++ [.bgLoad id])).setBg (some g)) := by
  cases hl : s.images.lookup id with
  | none =>
    exact ⟨_, ⟨rfl, rfl, fun _ k => ⟨rfl, rfl⟩, fun img hi => (by rw [hl] at hi; cases hi)⟩, beginGroup_of_noImage hl⟩
  | some img =>
    obtain ⟨hlen, hval⟩ := h img hl
    obtain ⟨hm, hmv, he, hev⟩ := (imageLengthOk_iff img).1 hlen
    refine ⟨⟨id, imageCells img.main img.mainVal, imageCells img.ecc img.eccVal, 0⟩, ⟨rfl, rfl, fun hn => ?_, fun img' hi => ?_⟩, ?_⟩
    · rw [hl] at hn; cases hn
    · rw [hl] at hi
      cases hi
      exact ⟨fun k hk => sread_imageCells hm hmv hk, fun k hk => sread_imageCells he hev hk⟩
    · rw [beginGroup_of_image hl, hlen, hval]
      rfl

/-- BGMERGE without a group is BGMERGE on the group that BEGIN makes. -/
theorem bgmerge_begins {s : State} {g1 : Store Flagged} {g3 : Group3} (h1 : s.transit.g1 = some g1)
    (h3 : s.transit.g3 = some g3) (hbg : s.bg = none) {g : BasicGroup} (hid : g.id = g3.fields.bgId)
    (hb : beginGroup g3.fields.bgId s = .ok ((s.setOut (s.out ++ [.bgLoad g3.fields.bgId])).setBg (some g))) :
    bgmerge s = bgmerge ((s.setOut (s.out ++ [.bgLoad g3.fields.bgId])).setBg (some g)) := by
  rw [bgmerge_of_none h1 h3 hbg, hb, ok_bind, activeGroup_some rfl, ok_bind]
  have hsame := bgmerge_of_same (s := (s.setOut (s.out ++ [.bgLoad g3.fields.bgId])).setBg (some g)) (g := g) h1 h3 rfl hid
  exact hsame.symm

theorem bgmerge_of_error {s : State} {g1 : Store Flagged} {g3 : Group3} {r : Refusal} (h1 : s.transit.g1 = some g1)
    (h3 : s.transit.g3 = some g3) (hbg : s.bg = none) (hb : beginGroup g3.fields.bgId s = .error r) :
    bgmerge s = .error r := by
  rw [bgmerge_of_none h1 h3 hbg, hb, error_bind]

/-- Settles O53: BGMERGE without a group is BGMERGE on the group that BEGIN makes, and with another one BGMERGE after BGFIN. -/
theorem bgmergeBeginsAndFinalizes : Obligations.BgmergeBeginsAndFinalizes := by
  intro s g1 g3 h1 h3 id lengthsOk validityOk
  refine ⟨fun hbg himg => ?_, fun img hbg hl => ⟨fun hlen => ?_, fun hlen hval => ?_⟩, fun g hbg hid => ?_, fun g hbg hid hlast => ?_⟩
  · have hfit : imageFits s id := fun img hl =>
      ⟨(imageLengthOk_iff img).2 (himg img hl).1, (imageValidityOk_iff img).2 (himg img hl).2⟩
    obtain ⟨g0, hg0, hb⟩ := beginGroup_begun hfit
    obtain ⟨t, ht, -⟩ := bgmerge_completes h1 h3 hfit
    have hsame := bgmerge_begins h1 h3 hbg hg0.idEq hb
    exact ⟨g0, t, hg0.idEq, hg0.diffLog, hg0.blank, hg0.loaded, by rw [exec_bgmerge, ← hsame, ht]; rfl,
      by rw [exec_bgmerge, ht]; rfl⟩
  · have hb : beginGroup id s = .error .imageLength := by
      rw [beginGroup_of_image hl, if_pos (by rw [Bool.not_eq_true', ← Bool.not_eq_true, imageLengthOk_iff]; exact hlen)]
      rfl
    rw [exec_bgmerge, bgmerge_of_error h1 h3 hbg hb]
    rfl
  · have hb : beginGroup id s = .error .imageValidity := by
      rw [beginGroup_of_image hl, (imageLengthOk_iff img).2 hlen,
        if_neg (by decide), if_pos (by rw [Bool.not_eq_true', ← Bool.not_eq_true, imageValidityOk_iff]; exact hval)]
      rfl
    rw [exec_bgmerge, bgmerge_of_error h1 h3 hbg hb]
    rfl
  · obtain ⟨u, hu, hnone, htr, hk⟩ := bgfin_completes s
    refine ⟨u, by rw [exec_bgfin, hu]; rfl, hnone, hk.images_eq, htr, ?_⟩
    rw [exec_bgmerge, exec_bgmerge, bgmerge_eq h1 h3, closeOther_of_other hbg hid, hu, ok_bind,
      bgmerge_eq (s := u) (htr ▸ h1) (htr ▸ h3), closeOther_of_none hnone, ok_bind]
  · obtain ⟨t, ht, hnone, -⟩ := bgfin_completes (merged s g g1 g3.fields)
    refine ⟨merged s g g1 g3.fields, t, ?_, by rw [exec_bgfin, ht]; rfl, ?_, hnone⟩
    · rw [exec_bgmerge, bgmerge_of_same (g := g) (g1 := g1)
        (s := s.setTransit { s.transit with g3 := some { g3 with fields := { g3.fields with isLast := false } } }) h1 rfl hbg hid]
      rfl
    · rw [exec_bgmerge, bgmerge_of_same h1 h3 hbg hid, hlast, if_pos rfl, ht]
      rfl

/-! ### BGFIN and STOP -/

/-- The image that BG_PERSIST carries holds the group (R375). -/
theorem imageHolds_imageOf (g : BasicGroup) : imageHolds (imageOf g) g := by
  refine ⟨imageOf_lengthOk g, fun k hk => ?_, fun k hk => ?_⟩
  · simp only [imageOf, List.getElem?_map, sdump_getElem?, if_pos hk]
    exact ⟨rfl, rfl⟩
  · simp only [imageOf, List.getElem?_map, sdump_getElem?, if_pos hk]
    exact ⟨rfl, rfl⟩

/-- Settles O54: the pass completes, and the image sent holds the group that it leaves. -/
theorem bgfinPersistsTheGroup : Obligations.BgfinPersistsTheGroup := by
  refine ⟨fun s h => by rw [exec_bgfin, bgfin_none h]; rfl, fun s g h => ?_⟩
  obtain ⟨rs, g', hpass, hid, hfin, -⟩ := bgfin_some h
  exact ⟨_, g', imageOf g', by rw [exec_c3pass, hpass]; rfl, rfl, hid, imageHolds_imageOf g',
    by rw [exec_bgfin, hfin]; rfl⟩

/-- Settles O55: in DDS mode STOP is BGFIN between the discarded Tracks and the flush. -/
theorem stopEndsTheRun : Obligations.StopEndsTheRun := by
  intro s c
  refine ⟨fun hm => ?_, fun hm => ?_⟩
  · rw [exec_stop, stop_of_dat hm]
    rfl
  · obtain ⟨u, hu, -⟩ := bgfin_completes (discardTracks s)
    exact ⟨u, by rw [exec_bgfin]; exact congrArg settle hu, by rw [exec_stop, stop_of_dds hm hu]; rfl⟩

end Sys2Proof.Machine
end

section
/-! Refusals (60_exceptions.md R390): an operation of class H answers a refusal exactly where the spec refuses it, and a next
state on every other state whose stream can run. -/

namespace Sys2Proof.Machine

open Sys2Proof

/-- The outcome is a refusal exactly for the reasons in `P`, and a next state when there are none. -/
def RefusedExactly (P : Refusal → Prop) (o : Host.Outcome State Fault Refusal) : Prop :=
  (∀ r, o = .refused r ↔ P r) ∧ ((∀ r, ¬ P r) → ∃ t, o = .next t)

namespace RefusedExactly

variable {P : Refusal → Prop} {o : Host.Outcome State Fault Refusal}

theorem of_next {t : State} (h : o = .next t) (hP : ∀ r, ¬ P r) : RefusedExactly P o :=
  ⟨fun r => ⟨fun hr => (by rw [h] at hr; cases hr), fun hr => absurd hr (hP r)⟩, fun _ => ⟨t, h⟩⟩

theorem of_refused {r0 : Refusal} (h : o = .refused r0) (hP : ∀ r, P r ↔ r = r0) : RefusedExactly P o := by
  refine ⟨fun r => ?_, fun hno => absurd ((hP r0).2 rfl) (hno r0)⟩
  rw [h, hP, Host.Outcome.refused.injEq, eq_comm]

/-- An operation that the spec refuses on no state and that completes. -/
theorem of_completes {x : Res} (h : ∃ t, x = .ok t) : RefusedExactly (fun _ => False) (settle x) := by
  obtain ⟨t, rfl⟩ := h
  exact of_next rfl fun _ => id

end RefusedExactly

/-! ### The containers (U5, 20_memory.md R77) -/

/-- An operation of the open Track that completes on every open Track is refused exactly as R77 and U5 say. -/
theorem refusedExactly_track {s : State} {x : Res} {f : Track → Res} (hx : x = openTrack s >>= f)
    (hf : ∀ tr, trackOpen s tr → ∃ t, x = .ok t) : RefusedExactly (refusesTrack s) (settle x) := by
  cases hc : s.cur with
  | none =>
    have hopen : openTrack s = .error .noTrack := by rw [openTrack, hc]; rfl
    refine .of_refused (r0 := .noTrack) (by rw [hx, hopen]; rfl) fun r => ⟨?_, fun hr => .inl ⟨hc, hr⟩⟩
    rintro (⟨-, hr⟩ | ⟨t, ht, -⟩)
    · exact hr
    · rw [hc] at ht; cases ht
  | some tr =>
    cases hs : tr.isSealed with
    | false =>
      obtain ⟨t, ht⟩ := hf tr ⟨hc, hs⟩
      refine .of_next (t := t) (by rw [ht]; rfl) fun r => ?_
      rintro (⟨hn, -⟩ | ⟨t, ht, hsealed, -⟩)
      · rw [hc] at hn; cases hn
      · rw [hc] at ht; cases ht; rw [hs] at hsealed; cases hsealed
    | true =>
      have hopen : openTrack s = .error .trackSealed := by simp only [openTrack, hc, hs]; rfl
      refine .of_refused (r0 := .trackSealed) (by rw [hx, hopen]; rfl) fun r => ⟨?_, fun hr => .inr ⟨tr, hc, hs, hr⟩⟩
      rintro (⟨hn, -⟩ | ⟨t, -, -, hr⟩)
      · rw [hc] at hn; cases hn
      · exact hr

/-- The same for the active basic group (42_codec_shells.md R197, R202). -/
theorem refusedExactly_group {s : State} {x : Res} {f : BasicGroup → Res} (hx : x = activeGroup s >>= f)
    (hf : ∀ g, s.bg = some g → ∃ t, x = .ok t) :
    RefusedExactly (fun r => s.bg = none ∧ r = .noBasicGroup) (settle x) := by
  cases hg : s.bg with
  | none =>
    have hactive : activeGroup s = .error .noBasicGroup := by rw [activeGroup, hg]; rfl
    exact .of_refused (by rw [hx, hactive]; rfl) fun r => ⟨And.right, fun hr => ⟨rfl, hr⟩⟩
  | some g =>
    obtain ⟨t, ht⟩ := hf g hg
    exact .of_next (t := t) (by rw [ht]; rfl) fun r hr => (by cases hr.1)

/-- A selector's range comes before everything else (30_encoding.md R94). -/
theorem refusedExactly_ranged {inRange : Bool} {P : Refusal → Prop} {o : Host.Outcome State Fault Refusal}
    (hin : inRange = true → RefusedExactly P o) (hout : inRange = false → o = .refused .fieldOutOfRange) :
    RefusedExactly (fun r => (inRange = false ∧ r = .fieldOutOfRange) ∨ (inRange = true ∧ P r)) o := by
  cases inRange with
  | false => exact .of_refused (hout rfl) fun r => by simp only [true_and, Bool.false_eq_true, false_and, or_false]
  | true =>
    simpa only [Bool.true_eq_false, false_and, true_and, false_or] using hin rfl

/-! ### The shells and the passes, on every state -/

theorem c1dec_refusedExactly (s : State) (blocks : BitVec 7) (il : Bool) :
    RefusedExactly (specRefuses (.c1dec blocks il) s) (exec (.c1dec blocks il) s) := by
  refine refusedExactly_ranged (inRange := decide (blocks.toNat ≤ 71)) (fun hin => ?_) fun hout => ?_
  · rw [exec_c1dec, if_pos (of_decide_eq_true hin)]
    exact refusedExactly_track rfl fun tr ho => ⟨_, c1dec_eq ho _ _⟩
  · rw [exec_c1dec, if_neg (of_decide_eq_false hout)]

theorem c2dec_refusedExactly (s : State) (group : BitVec 2) (slice : BitVec 5) :
    RefusedExactly (specRefuses (.c2dec group slice) s) (exec (.c2dec group slice) s) := by
  refine refusedExactly_ranged (inRange := decide (group.toNat % 2 = 0 ∨ slice.toNat ≤ 23)) (fun hin => ?_) fun hout => ?_
  · rw [exec_c2dec, if_pos (of_decide_eq_true hin)]
    exact refusedExactly_track rfl fun tr ho => ⟨_, c2dec_eq ho _ _⟩
  · rw [exec_c2dec, if_neg (of_decide_eq_false hout)]

theorem c3dec_refusedExactly (s : State) (slice : BitVec 10) (tp il : Bool) :
    RefusedExactly (specRefuses (.c3dec slice tp il) s) (exec (.c3dec slice tp il) s) := by
  refine refusedExactly_ranged (inRange := decide (slice.toNat ≤ 719)) (fun hin => ?_) fun hout => ?_
  · have hlt : slice.toNat < 720 := Nat.lt_succ_of_le (of_decide_eq_true hin)
    rw [exec_c3dec, dif_pos hlt]
    exact refusedExactly_group rfl fun g hg => ⟨_, c3dec_eq hg (⟨slice.toNat, hlt⟩, tp, il)⟩
  · rw [exec_c3dec, dif_neg fun hlt => of_decide_eq_false hout (Nat.le_of_lt_succ hlt)]

theorem shell_refusedExactly {i : Instr} (hi : isShell i = true) (s : State) :
    RefusedExactly (specRefuses i s) (exec i s) := by
  cases i with
  | c1dec blocks il => exact c1dec_refusedExactly s blocks il
  | c2dec group slice => exact c2dec_refusedExactly s group slice
  | c3dec slice tp il => exact c3dec_refusedExactly s slice tp il
  | c1pass =>
    refine refusedExactly_track (x := c1pass s) rfl fun tr ho => ?_
    obtain ⟨rs, cells, c, u, h, -⟩ := c1pass_completes ho
    exact ⟨_, h⟩
  | c2pass =>
    refine refusedExactly_track (x := c2pass s) rfl fun tr ho => ?_
    obtain ⟨rs, cells, c, u, h, -⟩ := c2pass_completes ho
    exact ⟨_, h⟩
  | c3pass =>
    refine refusedExactly_group (x := c3pass s) rfl fun g hg => ?_
    obtain ⟨rs, g', h, -⟩ := c3pass_completes hg
    exact ⟨_, h⟩
  | _ => cases hi

/-! ### The operations that run the stream -/

theorem atf_completes {s : State} (h : curUnsealed s) (tone : Tone) : ∃ t, atf tone s = .ok t := by
  cases tone with
  | tone2 => exact ⟨s, rfl⟩
  | tone3 =>
    cases hc : s.cur with
    | none => exact ⟨s, atf_of_none hc⟩
    | some tr => exact ⟨_, (atf_of_some hc).trans (by rw [h tr hc]; rfl)⟩

theorem trkstop_completes {s : State} (h : streamReady s) : ∃ t, trkstop s = .ok t := by
  cases hc : s.cur with
  | none => exact ⟨_, trkstop_closed hc⟩
  | some tr =>
    obtain ⟨rs, k, l, t, -, -, -, -, -, ht, -⟩ := trkstop_open ⟨hc, h.1 tr hc⟩ h.2
    exact ⟨t, ht⟩

theorem stop_completes (s : State) : ∃ t, stop s = .ok t := by
  cases hm : s.mode with
  | dat => exact ⟨_, stop_of_dat hm⟩
  | dds =>
    obtain ⟨u, hu, -⟩ := bgfin_completes (discardTracks s)
    exact ⟨_, stop_of_dds hm hu⟩

theorem gfinv_refusedExactly (s : State) (a : Byte) : RefusedExactly (specRefuses (.gfinv a) s) (exec (.gfinv a) s) := by
  rw [exec_gfinv]
  by_cases ha : a = 0
  · exact .of_refused (r0 := .inverseOfZero) (if_pos ha) fun r => ⟨And.right, fun hr => ⟨ha, hr⟩⟩
  · exact .of_next (if_neg ha) fun r hr => ha hr.1

theorem sample_refusedExactly {s : State} (h : streamReady s) (bits : BitVec 32) :
    RefusedExactly (specRefuses (.sample bits) s) (exec (.sample bits) s) := by
  rw [exec_sample]
  cases hb : f32Finite bits with
  | false => exact .of_refused (r0 := .nonFiniteSample) rfl fun r => ⟨And.right, fun hr => ⟨hb, hr⟩⟩
  | true =>
    obtain ⟨t, ht⟩ := sampleReal_completes h (fpOfReal s.cfg.fp (f32Value bits))
    exact .of_next (t := t) (by rw [if_pos rfl, ht]; rfl) fun r hr => absurd (hb.symm.trans hr.1) (by decide)

/-- Every operation of class H, on a state whose stream can run. -/
theorem classH_refusedExactly {s : State} (h : streamReady s) {i : Instr} (hi : i.eventOnly = false) :
    RefusedExactly (specRefuses i s) (exec i s) := by
  cases i with
  | gfmul a b => exact .of_next (exec_gfmul s a b) fun _ => id
  | gfpowa n => exact .of_next (exec_gfpowa s n) fun _ => id
  | gfinv a => exact gfinv_refusedExactly s a
  | gfpeval src x => exact .of_next (exec_gfpeval s src x) fun _ => id
  | rssyn code => exact .of_next (exec_rssyn s code) fun _ => id
  | rssolve fe code => exact .of_next (exec_rssolve s fe code) fun _ => id
  | rseval code => exact .of_next (exec_rseval s code) fun _ => id
  | rsvfy code => exact .of_next (exec_rsvfy s code) fun _ => id
  | c1dec _ _ | c2dec _ _ | c3dec _ _ _ | c1pass | c2pass | c3pass => exact shell_refusedExactly rfl s
  | sample bits => exact sample_refusedExactly h bits
  | atf tone => exact .of_completes (atf_completes h.1 tone)
  | stop => exact .of_completes (stop_completes s)
  | clkev d => exact .of_next (exec_clkev d s) fun _ => id
  | sym v => exact .of_completes (sym_completes h.1 v)
  | bit b => exact .of_completes (bit_completes h.1 b)
  | word sync w => exact .of_completes (word_completes h.1 sync w)
  | trkstart => exact .of_next (exec_trkstart s) fun _ => id
  | trkstop => exact .of_completes (trkstop_completes h)
  | block | trkcpl | subx | track | pair | g3dec | dewht | sess | bgmerge | bgfin => cases hi

/-- Settles O60: class H with a stream that can run, and the shells on every state. -/
theorem refusalsAreTheSpecs : Obligations.RefusalsAreTheSpecs :=
  ⟨fun _ _ h hi => classH_refusedExactly h hi, fun s _ r hi => (shell_refusedExactly hi s).1 r⟩

end Sys2Proof.Machine
end

section
/-! The bytes with XOR and GFMUL as a field of characteristic 2 (40_gf256.md R130 to R138), and coefficient lists as polynomials
over it (R133), so that the solver's statements can use Mathlib's polynomials. -/

namespace Sys2Proof.Machine

open Sys2Proof Polynomial

/-! ### The field -/

/-- The bytes as elements of the field that PRIM_POLY `p` defines. -/
structure GfElem (p : BitVec 9) where
  byte : Byte

theorem GfElem.ext_byte {p : BitVec 9} {a b : GfElem p} (h : a.byte = b.byte) : a = b := by
  cases a; cases b; exact congrArg _ h

/-- Sum, product and inverse of the field. -/
def GfElem.add {p : BitVec 9} (a b : GfElem p) : GfElem p := ⟨a.byte ^^^ b.byte⟩
def GfElem.mul {p : BitVec 9} (a b : GfElem p) : GfElem p := ⟨gfMul p a.byte b.byte⟩
def GfElem.inv {p : BitVec 9} (a : GfElem p) : GfElem p := ⟨if a.byte = 0 then 0 else gfInv p a.byte⟩

/-- The field of a primitive PRIM_POLY: R138's laws, with every element its own negative. -/
@[reducible] def gfField {p : BitVec 9} (hp : primitive p) : Field (GfElem p) where
  add := .add
  zero := ⟨0⟩
  neg a := a
  mul := .mul
  one := ⟨1⟩
  inv := .inv
  nsmul := @nsmulRec _ ⟨⟨0⟩⟩ ⟨.add⟩
  zsmul := @zsmulRec _ ⟨⟨0⟩⟩ ⟨.add⟩ ⟨id⟩ (@nsmulRec _ ⟨⟨0⟩⟩ ⟨.add⟩)
  nnqsmul := _
  nnqsmul_def _ _ := rfl
  qsmul := _
  qsmul_def _ _ := rfl
  add_assoc a b c := GfElem.ext_byte (BitVec.xor_assoc a.byte b.byte c.byte)
  zero_add a := GfElem.ext_byte BitVec.zero_xor
  add_zero a := GfElem.ext_byte BitVec.xor_zero
  add_comm a b := GfElem.ext_byte (BitVec.xor_comm a.byte b.byte)
  neg_add_cancel a := GfElem.ext_byte BitVec.xor_self
  mul_assoc a b c := GfElem.ext_byte (gfMul_assoc hp a.byte b.byte c.byte).symm
  mul_comm a b := GfElem.ext_byte (gfMul_comm hp a.byte b.byte)
  one_mul a := GfElem.ext_byte (one_gfMul hp a.byte)
  mul_one a := GfElem.ext_byte (gfMul_one hp a.byte)
  left_distrib a b c := GfElem.ext_byte (gfMul_xor hp a.byte b.byte c.byte)
  right_distrib a b c := GfElem.ext_byte (xor_gfMul hp a.byte b.byte c.byte)
  zero_mul a := GfElem.ext_byte (zero_gfMul p a.byte)
  mul_zero a := GfElem.ext_byte (gfMul_zero p a.byte)
  exists_pair_ne := ⟨⟨0⟩, ⟨1⟩, fun h => (show (0 : Byte) ≠ 1 by decide) (congrArg GfElem.byte h)⟩
  mul_inv_cancel a ha := by
    have hne : a.byte ≠ 0 := fun h => ha (GfElem.ext_byte h)
    refine GfElem.ext_byte ?_
    show gfMul p a.byte (if a.byte = 0 then 0 else gfInv p a.byte) = 1
    rw [if_neg hne, gfMul_gfInv hp hne]
  inv_zero := GfElem.ext_byte (show (if (0 : Byte) = 0 then (0 : Byte) else gfInv p 0) = 0 from if_pos rfl)

/-- `φ` takes the bytes into a field: XOR is the sum, GFMUL the product. -/
structure FieldMap {F : Type} [Field F] (p : BitVec 9) (φ : Byte → F) : Prop where
  inj : Function.Injective φ
  zero : φ 0 = 0
  one : φ 1 = 1
  xor : ∀ a b, φ (a ^^^ b) = φ a + φ b
  mul : ∀ a b, φ (gfMul p a b) = φ a * φ b

/-- Every primitive PRIM_POLY has such a field, of characteristic 2. -/
theorem exists_fieldMap {p : BitVec 9} (hp : primitive p) :
    ∃ (F : Type) (_ : Field F) (_ : CharP F 2) (φ : Byte → F), FieldMap p φ := by
  let _ := gfField hp
  refine ⟨GfElem p, gfField hp, ?_, GfElem.mk, fun a b h => congrArg GfElem.byte h, rfl, rfl, fun _ _ => rfl, fun _ _ => rfl⟩
  refine CharTwo.of_one_ne_zero_of_two_eq_zero one_ne_zero ?_
  rw [← one_add_one_eq_two]
  exact GfElem.ext_byte BitVec.xor_self

section
variable {F : Type} [Field F] {p : BitVec 9} {φ : Byte → F} (hφ : FieldMap p φ)
include hφ

namespace FieldMap

theorem eq_zero_iff {a : Byte} : φ a = 0 ↔ a = 0 := by
  rw [← hφ.zero]
  exact hφ.inj.eq_iff

theorem xorSum (xs : List Byte) : φ (xorSum xs) = (xs.map φ).sum := by
  induction xs with
  | nil => exact hφ.zero
  | cons x xs ih => rw [xorSum_cons, hφ.xor, ih, List.map_cons, List.sum_cons]

theorem inv (hp : primitive p) {a : Byte} (ha : a ≠ 0) : φ (gfInv p a) = (φ a)⁻¹ := by
  apply eq_inv_of_mul_eq_one_right
  rw [← hφ.mul, gfMul_gfInv hp ha, hφ.one]

theorem pow_ne_zero (hp : primitive p) (i : Int) : φ (gfPow p i) ≠ 0 := by
  rw [Ne, hφ.eq_zero_iff, gfPow_eq]
  exact alphaPow_ne_zero hp _

theorem pow_natCast (hp : primitive p) (n : Nat) : φ (gfPow p n) = φ (gfPow p 1) ^ n := by
  induction n with
  | zero => rw [pow_zero, ← hφ.one, show gfPow p ((0 : Nat) : Int) = 1 from gfPow_natCast hp 0]
  | succ n ih => rw [Nat.cast_add, Nat.cast_one, gfPow_add hp, hφ.mul, ih, pow_succ]

/-- Exponents of alpha multiply as integer powers. -/
theorem pow_eq_zpow (hp : primitive p) (i : Int) : φ (gfPow p i) = φ (gfPow p 1) ^ i := by
  obtain ⟨n, rfl | rfl⟩ := i.eq_nat_or_neg
  · rw [hφ.pow_natCast hp, zpow_natCast]
  · rw [zpow_neg, zpow_natCast, ← hφ.pow_natCast hp]
    apply eq_inv_of_mul_eq_one_right
    rw [← hφ.mul, ← gfPow_add hp, add_neg_cancel, show gfPow p 0 = 1 from gfPow_natCast hp 0, hφ.one]

theorem pow_mul (hp : primitive p) (i j : Int) : φ (gfPow p (i * j)) = φ (gfPow p i) ^ j := by
  rw [hφ.pow_eq_zpow hp, hφ.pow_eq_zpow hp i, zpow_mul]

theorem pow_neg (hp : primitive p) (i : Int) : φ (gfPow p (-i)) = (φ (gfPow p i))⁻¹ := by
  rw [hφ.pow_eq_zpow hp, hφ.pow_eq_zpow hp i, zpow_neg]

end FieldMap

end

/-! ### Coefficient lists as polynomials (R133) -/

section
variable {F : Type} [Field F]

theorem sum_map_range (f : Nat → F) (n : Nat) : ((List.range n).map f).sum = ∑ i ∈ Finset.range n, f i := rfl

/-- The polynomial of a coefficient list, index = degree. -/
noncomputable def toPoly (φ : Byte → F) : List Byte → F[X]
  | [] => 0
  | a :: c => C (φ a) + X * toPoly φ c

variable {p : BitVec 9} {φ : Byte → F} (hφ : FieldMap p φ)

theorem toPoly_nil (φ : Byte → F) : toPoly φ [] = 0 := rfl

theorem toPoly_cons (φ : Byte → F) (a : Byte) (c : List Byte) : toPoly φ (a :: c) = C (φ a) + X * toPoly φ c := rfl

section
include hφ

theorem coeff_toPoly (c : List Byte) (k : Nat) : (toPoly φ c).coeff k = φ (c.getD k 0) := by
  induction c generalizing k with
  | nil => rw [toPoly_nil, coeff_zero]; exact hφ.zero.symm
  | cons a c ih =>
    cases k with
    | zero => rw [toPoly_cons, coeff_add, coeff_C_zero, coeff_X_mul_zero, add_zero]; rfl
    | succ k => rw [toPoly_cons, coeff_add, coeff_C_succ, coeff_X_mul, zero_add, ih]; rfl

/-- GFPEVAL evaluates the polynomial. -/
theorem eval_toPoly (c : List Byte) (x : Byte) : (toPoly φ c).eval (φ x) = φ (gfPeval p c x) := by
  induction c with
  | nil => rw [toPoly_nil, eval_zero]; exact hφ.zero.symm
  | cons a c ih =>
    rw [toPoly_cons, gfPeval_cons, hφ.xor, hφ.mul, eval_add, eval_C, eval_mul, eval_X, ih]
    ring

/-- Coefficient lists with one polynomial agree at every index. -/
theorem toPoly_eq_iff (a b : List Byte) : toPoly φ a = toPoly φ b ↔ ∀ k, a.getD k 0 = b.getD k 0 := by
  simp only [Polynomial.ext_iff, coeff_toPoly hφ, hφ.inj.eq_iff]

theorem toPoly_polyAdd (a b : List Byte) : toPoly φ (polyAdd a b) = toPoly φ a + toPoly φ b := by
  induction a generalizing b with
  | nil => rw [polyAdd, toPoly_nil, zero_add]
  | cons x a ih =>
    cases b with
    | nil => rw [polyAdd, toPoly_nil, add_zero]; simp
    | cons y b =>
      rw [polyAdd, toPoly_cons, toPoly_cons, toPoly_cons, ih, hφ.xor, C_add]
      ring

theorem toPoly_polyScale (x : Byte) (a : List Byte) : toPoly φ (polyScale p x a) = C (φ x) * toPoly φ a := by
  induction a with
  | nil => exact (mul_zero _).symm
  | cons y a ih =>
    rw [polyScale, List.map_cons, toPoly_cons, toPoly_cons, ← polyScale, ih, hφ.mul, C_mul]
    ring

theorem toPoly_polyMul (a b : List Byte) : toPoly φ (polyMul p a b) = toPoly φ a * toPoly φ b := by
  induction a with
  | nil => rw [polyMul, toPoly_nil, zero_mul]
  | cons x a ih =>
    rw [polyMul, toPoly_polyAdd hφ, toPoly_polyScale hφ, toPoly_cons, toPoly_cons, ih, hφ.zero, C_0]
    ring

theorem toPoly_polyShift (k : Nat) (a : List Byte) : toPoly φ (polyShift k a) = X ^ k * toPoly φ a := by
  induction k with
  | zero => rw [pow_zero, one_mul]; rfl
  | succ k ih =>
    rw [polyShift, List.replicate_succ, List.cons_append, toPoly_cons, ← polyShift, ih, hφ.zero, C_0]
    ring

omit hφ in
theorem toPoly_singleton (a : Byte) : toPoly φ [a] = C (φ a) := by rw [toPoly_cons, toPoly_nil, mul_zero, add_zero]

theorem toPoly_one : toPoly φ [1] = 1 := by rw [toPoly_singleton, hφ.one, C_1]

omit [Field F] hφ in
theorem polyPad_getD (n : Nat) (a : List Byte) (k : Nat) : (polyPad n a).getD k 0 = if k < n then a.getD k 0 else 0 := by
  rw [polyPad]
  split
  · next h => rw [List.getD_eq_getElem _ _ (by simpa using h), List.getElem_map, List.getElem_range]
  · next h => exact List.getD_eq_default _ _ (by simpa using h)

/-- A polynomial of degree below `n` that agrees with a list below `n` is the list cut there. -/
theorem toPoly_polyPad {n : Nat} {a : List Byte} {P : F[X]} (hP : ∀ k < n, P.coeff k = (toPoly φ a).coeff k)
    (hd : P.degree < n) : toPoly φ (polyPad n a) = P := by
  ext k
  rw [coeff_toPoly hφ, polyPad_getD]
  split
  · next h => rw [hP k h, coeff_toPoly hφ]
  · next h => rw [hφ.zero, coeff_eq_zero_of_degree_lt (hd.trans_le (by exact_mod_cast not_lt.1 h))]

/-- Cutting a list at `n` changes a multiple of x^n. -/
theorem X_pow_dvd_polyPad (n : Nat) (a : List Byte) : X ^ n ∣ toPoly φ a - toPoly φ (polyPad n a) := by
  rw [X_pow_dvd_iff]
  intro k hk
  rw [coeff_sub, coeff_toPoly hφ, coeff_toPoly hφ, polyPad_getD, if_pos hk, sub_self]

theorem degree_polyPad_lt (n : Nat) (a : List Byte) : (toPoly φ (polyPad n a)).degree < n := by
  rw [degree_lt_iff_coeff_zero]
  intro k hk
  rw [coeff_toPoly hφ, polyPad_getD, if_neg (by omega), hφ.zero]

/-- The coefficients of a product by their sum. -/
theorem map_productCoeff (a b : List Byte) (k : Nat) :
    φ (productCoeff p a b k) = (toPoly φ a * toPoly φ b).coeff k := by
  rw [productCoeff, hφ.xorSum, List.map_map, coeff_mul, Finset.Nat.sum_antidiagonal_eq_sum_range_succ_mk]
  refine Eq.trans ?_ (sum_map_range _ _)
  refine congrArg List.sum (List.map_congr_left fun i _ => ?_)
  simp only [Function.comp_apply, coeff_toPoly hφ, hφ.mul]

/-- The product of a list and (1 + X x). -/
theorem toPoly_timesLinear (g : List Byte) (x : Byte) :
    toPoly φ (timesLinear p g x) = (1 + C (φ x) * X) * toPoly φ g := by
  ext k
  have hget : (timesLinear p g x).getD k 0 = g.getD k 0 ^^^ (if k = 0 then 0 else gfMul p x (g.getD (k - 1) 0)) := by
    by_cases hk : k < g.length + 1
    · rw [timesLinear, List.getD_eq_getElem _ _ (by simpa using hk), List.getElem_map, List.getElem_range]
    · rw [List.getD_eq_default _ _ (by simp [timesLinear]; omega), List.getD_eq_default g _ (by omega), if_neg (by omega),
        List.getD_eq_default g _ (by omega), gfMul_zero]
      rfl
  rw [coeff_toPoly hφ, hget, hφ.xor, add_mul, one_mul, mul_assoc, coeff_add, coeff_C_mul, coeff_toPoly hφ]
  cases k with
  | zero => rw [if_pos rfl, hφ.zero, coeff_X_mul_zero, mul_zero]
  | succ k => rw [if_neg (Nat.succ_ne_zero k), hφ.mul, coeff_X_mul, coeff_toPoly hφ, Nat.add_sub_cancel]

/-! ### Degree and leading coefficient (00_scope.md R14) -/

theorem toPoly_eq_zero_iff (c : List Byte) : toPoly φ c = 0 ↔ polyDeg c = -1 := by
  rw [polyDeg_eq_neg_one, Polynomial.ext_iff]
  simp only [coeff_toPoly hφ, coeff_zero, hφ.eq_zero_iff]

theorem polyDeg_eq_natDegree {c : List Byte} (h : toPoly φ c ≠ 0) : polyDeg c = (toPoly φ c).natDegree := by
  rw [eq_comm, ← isDegree_iff]
  refine ⟨?_, fun k hk => ?_⟩
  · rw [Ne, ← hφ.eq_zero_iff, ← coeff_toPoly hφ, coeff_natDegree]
    exact leadingCoeff_ne_zero.2 h
  · rw [← hφ.eq_zero_iff, ← coeff_toPoly hφ]
    exact coeff_eq_zero_of_natDegree_lt hk

theorem polyDeg_lt_iff (c : List Byte) (d : Nat) : polyDeg c < d ↔ (toPoly φ c).degree < d := by
  by_cases h : toPoly φ c = 0
  · rw [(toPoly_eq_zero_iff hφ c).1 h, h, degree_zero]
    exact iff_of_true (by omega) (WithBot.bot_lt_coe d)
  · rw [polyDeg_eq_natDegree hφ h, Nat.cast_lt, natDegree_lt_iff_degree_lt h]

theorem map_polyLead (c : List Byte) : φ (polyLead c) = (toPoly φ c).leadingCoeff := by
  induction c using List.reverseRecOn with
  | nil => rw [toPoly_nil, leadingCoeff_zero, ← hφ.zero]; rfl
  | append_singleton c a ih =>
    by_cases ha : a = 0
    · have hlead : polyLead (c ++ [a]) = polyLead c := by
        rw [ha, polyLead, polyLead, polyTrim_eq_rdropWhile, polyTrim_eq_rdropWhile, List.rdropWhile_concat_pos _ _ _ (by simp)]
      have hpoly : toPoly φ (c ++ [a]) = toPoly φ c := by
        rw [toPoly_eq_iff hφ]
        intro k
        rw [getD_append_singleton, ha]
        split
        · next hk => rw [hk, List.getD_eq_default _ _ (Nat.le_refl _)]
        · rfl
      rw [hlead, hpoly, ih]
    · have hlead : polyLead (c ++ [a]) = a := by
        rw [polyLead, polyTrim_eq_rdropWhile, List.rdropWhile_concat_neg _ _ _ (by simpa using ha)]
        simp
      have hdeg := polyDeg_append_ne_zero c ha
      have hne : toPoly φ (c ++ [a]) ≠ 0 := by rw [Ne, toPoly_eq_zero_iff hφ, hdeg]; omega
      have hnat : (toPoly φ (c ++ [a])).natDegree = c.length := by
        rw [polyDeg_eq_natDegree hφ hne] at hdeg
        exact_mod_cast hdeg
      rw [hlead, leadingCoeff, hnat, coeff_toPoly hφ, getD_append_singleton, if_pos rfl]

end

end

end Sys2Proof.Machine
end

section
/-! Long division and the Euclidean loop of RSSOLVE as polynomial arithmetic (41_rs_solver.md R155). -/

namespace Sys2Proof.Machine

open Sys2Proof Polynomial

section
variable {F : Type} [Field F]

/-! ### The loop's invariant, over any field -/

/-- What the loop of R155 keeps: the two Bezout rows, with determinant 1, and the degrees. `T` is the modified syndrome. -/
structure EuclidInv (r bound : Nat) (T a b ua ub : F[X]) : Prop where
  rows : ∃ va vb, a = ua * T + va * X ^ r ∧ b = ub * T + vb * X ^ r ∧ ua * vb + ub * va = 1
  degB : b.degree < a.degree
  degU : ua.degree < ub.degree
  sum : ub.natDegree + a.natDegree = r
  large : bound ≤ 2 * a.natDegree

theorem EuclidInv.start {r bound : Nat} {T : F[X]} (hT : T.degree < r) (hb : bound ≤ 2 * r) :
    EuclidInv r bound T (X ^ r) T 0 1 where
  rows := ⟨1, 0, by ring, by ring, by ring⟩
  degB := by rwa [degree_X_pow]
  degU := by rw [degree_zero, degree_one]; exact WithBot.bot_lt_coe 0
  sum := by rw [natDegree_one, natDegree_X_pow, zero_add]
  large := by rwa [natDegree_X_pow]

section
variable {r bound : Nat} {T a b ua ub : F[X]}

theorem EuclidInv.ub_ne_zero (h : EuclidInv r bound T a b ua ub) : ub ≠ 0 := ne_zero_of_degree_gt h.degU

/-- One division and swap keeps the invariant. -/
theorem EuclidInv.step [CharP F 2] (h : EuclidInv r bound T a b ua ub) (hb : b ≠ 0) (hlarge : bound ≤ 2 * b.natDegree)
    {q rem : F[X]} (hdiv : a = q * b + rem) (hrem : rem.degree < b.degree) :
    EuclidInv r bound T b rem ub (ua + q * ub) := by
  have hua := h.ub_ne_zero
  have hq : q ≠ 0 := by
    rintro rfl
    rw [hdiv, zero_mul, zero_add] at h
    exact absurd (h.degB.trans hrem) (lt_irrefl _)
  have hab : b.natDegree < a.natDegree := natDegree_lt_natDegree hb h.degB
  have hqb : a.natDegree = q.natDegree + b.natDegree := by
    rw [← natDegree_mul hq hb, hdiv, natDegree_add_eq_left_of_degree_lt]
    rw [degree_mul]
    exact hrem.trans_le (le_add_of_nonneg_left (zero_le_degree_iff.2 hq))
  have hlt : ub.degree < (q * ub).degree := by
    rw [degree_eq_natDegree hua, degree_eq_natDegree (mul_ne_zero hq hua), natDegree_mul hq hua]
    exact_mod_cast (show ub.natDegree < q.natDegree + ub.natDegree by omega)
  have hnat : (ua + q * ub).natDegree = q.natDegree + ub.natDegree := by
    rw [natDegree_add_eq_right_of_degree_lt (h.degU.trans hlt), natDegree_mul hq hua]
  obtain ⟨va, vb, ha, hb', hdet⟩ := h.rows
  refine ⟨⟨vb, va + q * vb, hb', ?_, ?_⟩, hrem, ?_, ?_, hlarge⟩
  · have hr : rem = a + q * b := by rw [hdiv, add_right_comm, CharTwo.add_self_eq_zero, zero_add]
    rw [hr, ha, hb']
    ring
  · have hcancel : q * (ub * vb) + q * (ub * vb) = 0 := CharTwo.add_self_eq_zero _
    linear_combination hdet + hcancel
  · rw [degree_add_eq_right_of_degree_lt (h.degU.trans hlt)]
    exact hlt
  · rw [hnat, ← h.sum, hqb]
    ring

/-- A locator and an evaluator for the modified syndrome `T` with `rho` erasures (R154). -/
structure KeyPair (r rho : Nat) (T L W : F[X]) : Prop where
  degL : 2 * L.natDegree + rho ≤ r
  degW : 2 * W.natDegree < r + rho
  key : X ^ r ∣ L * T - W

/-- The loop ends with a locator and an evaluator. -/
theorem EuclidInv.keyPair {rho : Nat} (h : EuclidInv r (r + rho) T a b ua ub) (hend : 2 * b.natDegree < r + rho) :
    KeyPair r rho T ub b := by
  have hsum := h.sum
  have hlarge := h.large
  obtain ⟨va, vb, -, hb, -⟩ := h.rows
  exact ⟨by omega, hend, -vb, by rw [hb]; ring⟩

/-- Every locator with its evaluator is a multiple of the one that the loop ends with. -/
theorem EuclidInv.divides {rho : Nat} (h : EuclidInv r (r + rho) T a b ua ub) (hend : 2 * b.natDegree < r + rho)
    {L W : F[X]} (hk : KeyPair r rho T L W) : ∃ k, L = k * ub ∧ W = k * b := by
  obtain ⟨va, vb, -, hb, hdet⟩ := h.rows
  obtain ⟨hL, hW, V, hV⟩ := hk
  have hub := h.keyPair hend
  have hcross : ub * W - L * b = X ^ r * (-(ub * V + L * vb)) := by
    rw [sub_eq_iff_eq_add] at hV
    have hW' : W = L * T - X ^ r * V := by rw [hV]; ring
    rw [hW', hb]
    ring
  have hdegree : (ub * W - L * b).natDegree < r := by
    have h1 := natDegree_mul_le (p := ub) (q := W)
    have h2 := natDegree_mul_le (p := L) (q := b)
    have hub1 := hub.degL
    have hub2 := hub.degW
    exact lt_of_le_of_lt (natDegree_sub_le _ _) (max_lt (by omega) (by omega))
  have hzero : ub * V + L * vb = 0 := by
    by_contra hne
    rw [hcross, natDegree_X_pow_mul r (neg_ne_zero.2 hne)] at hdegree
    omega
  have hprod : ub * W = L * b := by
    rw [hzero, neg_zero, mul_zero, sub_eq_zero] at hcross
    exact hcross
  have hmul : L = (L * va - ua * V) * ub := by
    linear_combination (-L) * hdet + ua * hzero
  refine ⟨L * va - ua * V, hmul, mul_left_cancel₀ h.ub_ne_zero ?_⟩
  linear_combination hprod + b * hmul

end

/-! ### Division (R155) -/

variable {p : BitVec 9} {φ : Byte → F} (hφ : FieldMap p φ) (hp : primitive p)
include hφ hp

/-- A division step cancels the leading term. -/
theorem degree_divStep_lt [CharP F 2] {b rem : List Byte} (hb : toPoly φ b ≠ 0) (h : polyDeg b ≤ polyDeg rem) :
    let k := (polyDeg rem - polyDeg b).toNat
    let c := gfMul p (polyLead rem) (gfInv p (polyLead b))
    (toPoly φ (polyAdd rem (polyShift k (polyScale p c b)))).degree < (toPoly φ rem).degree := by
  intro k c
  have hbdeg := polyDeg_eq_natDegree hφ hb
  have hrem : toPoly φ rem ≠ 0 := by rw [Ne, toPoly_eq_zero_iff hφ]; omega
  have hremdeg := polyDeg_eq_natDegree hφ hrem
  have hlead : polyLead b ≠ 0 := by rwa [Ne, ← hφ.eq_zero_iff, map_polyLead hφ, leadingCoeff_eq_zero]
  have hc : φ c = (toPoly φ rem).leadingCoeff * (toPoly φ b).leadingCoeff⁻¹ := by
    rw [hφ.mul, hφ.inv hp hlead, map_polyLead hφ, map_polyLead hφ]
  have hblead : (toPoly φ b).leadingCoeff ≠ 0 := leadingCoeff_ne_zero.2 hb
  have hcne : φ c ≠ 0 := by
    rw [hc]
    exact mul_ne_zero (leadingCoeff_ne_zero.2 hrem) (inv_ne_zero hblead)
  have hnat : (X ^ k * (C (φ c) * toPoly φ b)).natDegree = (toPoly φ rem).natDegree := by
    rw [natDegree_X_pow_mul k (mul_ne_zero (C_ne_zero.2 hcne) hb), natDegree_C_mul hcne]
    omega
  rw [toPoly_polyAdd hφ, toPoly_polyShift hφ, toPoly_polyScale hφ, ← CharTwo.sub_eq_add]
  have hprod : X ^ k * (C (φ c) * toPoly φ b) ≠ 0 :=
    mul_ne_zero (pow_ne_zero k X_ne_zero) (mul_ne_zero (C_ne_zero.2 hcne) hb)
  refine degree_sub_lt_left ?_ hrem ?_
  · rw [degree_eq_natDegree hrem, degree_eq_natDegree hprod, hnat]
  · rw [leadingCoeff_mul, leadingCoeff_X_pow, one_mul, leadingCoeff_mul, leadingCoeff_C, hc, inv_mul_cancel_right₀ hblead]

theorem polyDivLoop_spec [CharP F 2] {b : List Byte} (hb : toPoly φ b ≠ 0) {fuel : Nat} {q rem : List Byte}
    (hfuel : polyDeg rem < fuel) :
    let d := polyDivLoop p b fuel q rem
    toPoly φ d.1 * toPoly φ b + toPoly φ d.2 = toPoly φ q * toPoly φ b + toPoly φ rem ∧
      (toPoly φ d.2).degree < (toPoly φ b).degree := by
  have hbdeg := polyDeg_eq_natDegree hφ hb
  have stop {rem : List Byte} (h : polyDeg rem < polyDeg b) : (toPoly φ rem).degree < (toPoly φ b).degree := by
    rw [degree_eq_natDegree hb]
    exact (polyDeg_lt_iff hφ rem _).1 (hbdeg ▸ h)
  induction fuel generalizing q rem with
  | zero => exact ⟨rfl, stop (show polyDeg rem < polyDeg b by omega)⟩
  | succ fuel ih =>
    rw [polyDivLoop]
    split
    · next h => exact ⟨rfl, stop h⟩
    · next h =>
      have hlt := degree_divStep_lt hφ hp hb (not_lt.1 h)
      have hremdeg : (toPoly φ rem).degree ≤ fuel := by
        have hzero := (degree_lt_iff_coeff_zero _ _).1 ((polyDeg_lt_iff hφ rem (fuel + 1)).1 hfuel)
        exact (degree_le_iff_coeff_zero _ _).2 fun m hm => hzero m (by exact_mod_cast hm)
      obtain ⟨heq, hdeg⟩ := ih (q := polyAdd q (polyShift (polyDeg rem - polyDeg b).toNat
          [gfMul p (polyLead rem) (gfInv p (polyLead b))]))
        (rem := polyAdd rem (polyShift (polyDeg rem - polyDeg b).toNat
          (polyScale p (gfMul p (polyLead rem) (gfInv p (polyLead b))) b)))
        ((polyDeg_lt_iff hφ _ _).2 (hlt.trans_le hremdeg))
      refine ⟨heq.trans ?_, hdeg⟩
      rw [toPoly_polyAdd hφ, toPoly_polyAdd hφ, toPoly_polyShift hφ, toPoly_polyShift hφ, toPoly_polyScale hφ,
        toPoly_singleton]
      have hcancel := CharTwo.add_self_eq_zero (X ^ (polyDeg rem - polyDeg b).toNat *
        (C (φ (gfMul p (polyLead rem) (gfInv p (polyLead b)))) * toPoly φ b))
      linear_combination hcancel

/-- Long division (R155). -/
theorem polyDivMod_spec [CharP F 2] (a : List Byte) {b : List Byte} (hb : toPoly φ b ≠ 0) :
    toPoly φ a = toPoly φ (polyDivMod p a b).1 * toPoly φ b + toPoly φ (polyDivMod p a b).2 ∧
      (toPoly φ (polyDivMod p a b).2).degree < (toPoly φ b).degree := by
  have hlen : polyDeg a < a.length := by
    rw [polyDeg_lt_iff hφ, degree_lt_iff_coeff_zero]
    intro k hk
    rw [coeff_toPoly hφ, List.getD_eq_default _ _ hk, hφ.zero]
  obtain ⟨heq, hdeg⟩ := polyDivLoop_spec hφ hp hb hlen (q := [])
  rw [toPoly_nil, zero_mul, zero_add] at heq
  exact ⟨heq.symm, hdeg⟩

/-! ### The loop of the machine -/

/-- The loop keeps the invariant and ends below its bound. -/
theorem euclidLoop_spec [CharP F 2] {r bound : Nat} (hbound : 0 < bound) {B : Int} (hB : B = bound) {T : F[X]} {fuel : Nat}
    {st : Euclid}
    (h : EuclidInv r bound T (toPoly φ st.a) (toPoly φ st.b) (toPoly φ st.ua) (toPoly φ st.ub))
    (hfuel : polyDeg st.b < fuel) :
    let e := euclidLoop p B fuel st
    EuclidInv r bound T (toPoly φ e.a) (toPoly φ e.b) (toPoly φ e.ua) (toPoly φ e.ub) ∧ 2 * polyDeg e.b < bound := by
  subst hB
  induction fuel generalizing st with
  | zero => exact ⟨h, show 2 * polyDeg st.b < bound by omega⟩
  | succ fuel ih =>
    rw [euclidLoop]
    split
    · next hle =>
      have hb : toPoly φ st.b ≠ 0 := by rw [Ne, toPoly_eq_zero_iff hφ]; omega
      have hbdeg := polyDeg_eq_natDegree hφ hb
      obtain ⟨hdiv, hrem⟩ := polyDivMod_spec hφ hp st.a hb
      refine ih ?_ ?_
      · rw [toPoly_polyAdd hφ, toPoly_polyMul hφ]
        exact h.step hb (by omega) hdiv hrem
      · refine (polyDeg_lt_iff hφ _ _).2 (hrem.trans_le ?_)
        rw [degree_eq_natDegree hb]
        exact_mod_cast (show (toPoly φ st.b).natDegree ≤ fuel by omega)
    · next hle => exact ⟨h, not_le.1 hle⟩

end

end Sys2Proof.Machine
end

section
/-! The key-equation solver (41_rs_solver.md R154, R155): what RSSOLVE writes in each mode, as polynomials. -/

namespace Sys2Proof.Machine

open Sys2Proof Polynomial

section
variable {F : Type} [Field F]

/-! ### Polynomials modulo x^n -/

theorem coeff_eq_of_X_pow_dvd {n : Nat} {P Q : F[X]} (h : X ^ n ∣ P - Q) {k : Nat} (hk : k < n) : P.coeff k = Q.coeff k := by
  have := X_pow_dvd_iff.1 h k hk
  rwa [coeff_sub, sub_eq_zero] at this

theorem X_pow_dvd_iff_coeff_eq {n : Nat} {P Q : F[X]} : X ^ n ∣ P - Q ↔ ∀ k < n, P.coeff k = Q.coeff k := by
  refine ⟨fun h k hk => coeff_eq_of_X_pow_dvd h hk, fun h => X_pow_dvd_iff.2 fun k hk => ?_⟩
  rw [coeff_sub, h k hk, sub_self]

/-- Half the bound limits the degree when no coefficient from there on remains. -/
theorem two_mul_natDegree_lt {P : F[X]} {n : Nat} (hn : 0 < n) (h : ∀ k, n ≤ 2 * k → P.coeff k = 0) : 2 * P.natDegree < n := by
  by_contra hle
  have hlead : P.leadingCoeff = 0 := h P.natDegree (not_lt.1 hle)
  rw [leadingCoeff_eq_zero.1 hlead, natDegree_zero] at hle
  omega

/-- The key equation asks for the modified syndrome modulo x^r only. -/
theorem KeyPair.congr {r rho : Nat} {T T' L W : F[X]} (h : X ^ r ∣ T - T') (hk : KeyPair r rho T L W) : KeyPair r rho T' L W := by
  refine ⟨hk.degL, hk.degW, ?_⟩
  have : L * T' - W = (L * T - W) - L * (T - T') := by ring
  rw [this]
  exact dvd_sub hk.key (h.mul_left L)

variable {cfg : Params} {φ : Byte → F} (hφ : FieldMap cfg.primPoly φ) (code : Code)

/-- The linear factor of a position's locator. -/
noncomputable def locFactor (cfg : Params) (φ : Byte → F) (code : Code) (q : Fin 46) : F[X] :=
  1 + C (φ (locator cfg code q)) * X

theorem locFactor_coeff_zero (q : Fin 46) : (locFactor cfg φ code q).coeff 0 = 1 := by
  rw [locFactor, coeff_add, coeff_one_zero, mul_comm, coeff_X_mul_zero, add_zero]

/-- The erasure locator as a polynomial. -/
noncomputable def eraPoly (cfg : Params) (φ : Byte → F) (code : Code) (era : List (Fin 46)) : F[X] :=
  (era.map (locFactor cfg φ code)).prod

theorem eraPoly_coeff_zero (era : List (Fin 46)) : (eraPoly cfg φ code era).coeff 0 = 1 := by
  induction era with
  | nil => exact coeff_one_zero
  | cons q era ih =>
    rw [eraPoly, List.map_cons, List.prod_cons, mul_coeff_zero, ← eraPoly, ih, locFactor_coeff_zero, one_mul]

include hφ

theorem toPoly_gammaPoly (era : List (Fin 46)) : toPoly φ (gammaPoly cfg code era) = eraPoly cfg φ code era := by
  induction era with
  | nil => exact toPoly_one hφ
  | cons q era ih =>
    rw [gammaPoly, List.foldr_cons, ← gammaPoly, toPoly_timesLinear hφ, ih, eraPoly, eraPoly, List.map_cons, List.prod_cons]
    rfl

theorem toPoly_erasureLocator (era : List (Fin 46)) : toPoly φ (erasureLocator cfg code era) = eraPoly cfg φ code era := by
  have key (g : List Byte) : toPoly φ (era.foldl (fun g q =>
      polyMul cfg.primPoly g [1, gfPow cfg.primPoly (locOf cfg code q)]) g) = toPoly φ g * eraPoly cfg φ code era := by
    induction era generalizing g with
    | nil => exact (mul_one _).symm
    | cons q era ih =>
      rw [List.foldl_cons, ih, toPoly_polyMul hφ, toPoly_cons, toPoly_singleton, hφ.one, C_1, eraPoly, eraPoly, List.map_cons,
        List.prod_cons, locFactor, locator]
      ring
  rw [erasureLocator, key, toPoly_one hφ, one_mul]

/-! ### RSSOLVE's pair of polynomials -/

theorem modifiedSyndrome_spec (era : List (Fin 46)) (syn : List Byte) :
    X ^ codePar code ∣ toPoly φ (modifiedSyndrome cfg code era syn) - eraPoly cfg φ code era * toPoly φ syn ∧
      (toPoly φ (modifiedSyndrome cfg code era syn)).degree < codePar code := by
  refine ⟨?_, degree_polyPad_lt hφ _ _⟩
  have := X_pow_dvd_polyPad hφ (codePar code) (polyMul cfg.primPoly syn (erasureLocator cfg code era))
  rw [toPoly_polyMul hφ, toPoly_erasureLocator hφ, mul_comm (toPoly φ syn)] at this
  rw [← neg_sub, dvd_neg]
  exact this

variable {code} (hp : primitive cfg.primPoly) {rho : Nat} {era : List (Fin 46)} {syn : List Byte}

include hp

/-- The end of the loop for the code's erasures and syndromes. -/
theorem euclidEnd_spec [CharP F 2] (hrho : rho ≤ codePar code) :
    let e := euclidEnd cfg code rho era syn
    KeyPair (codePar code) rho (eraPoly cfg φ code era * toPoly φ syn) (toPoly φ e.ub) (toPoly φ e.b) ∧
      ∀ L W, KeyPair (codePar code) rho (eraPoly cfg φ code era * toPoly φ syn) L W →
        ∃ k, L = k * toPoly φ e.ub ∧ W = k * toPoly φ e.b := by
  obtain ⟨hmod, hdeg⟩ := modifiedSyndrome_spec hφ code era syn
  have hr := codePar_pos code
  obtain ⟨hinv, hend⟩ := euclidLoop_spec hφ hp (r := codePar code) (bound := codePar code + rho) (by omega)
    (B := codePar code + rho) (Nat.cast_add _ _).symm
    (fuel := codePar code) (st := ⟨polyShift (codePar code) [1], modifiedSyndrome cfg code era syn, [0], [1]⟩)
    (T := toPoly φ (modifiedSyndrome cfg code era syn))
    (by
      simp only [toPoly_polyShift hφ, toPoly_one hφ, mul_one, toPoly_singleton, hφ.zero, C_0]
      exact .start hdeg (by omega))
    ((polyDeg_lt_iff hφ _ _).2 hdeg)
  have hend : 2 * polyDeg (euclidEnd cfg code rho era syn).b < (codePar code + rho : Nat) := hend
  have hend : 2 * (toPoly φ (euclidEnd cfg code rho era syn).b).natDegree < codePar code + rho := by
    by_cases hb : toPoly φ (euclidEnd cfg code rho era syn).b = 0
    · rw [hb, natDegree_zero]; omega
    · rw [polyDeg_eq_natDegree hφ hb] at hend; omega
  refine ⟨(hinv.keyPair hend).congr hmod, fun L W hk => hinv.divides hend (hk.congr ?_)⟩
  rw [← neg_sub, dvd_neg]
  exact hmod

omit hp in
theorem coeff_zero_toPoly (c : List Byte) : (toPoly φ c).coeff 0 = φ (c.headD 0) := by
  rw [coeff_toPoly hφ]
  cases c <;> rfl

/-- With error search RSSOLVE's pair solves the key equation, and every solution is a multiple of it. -/
theorem keySolve_some [CharP F 2] (hrho : rho ≤ codePar code) {l w : List Byte}
    (h : keySolve cfg code true rho era syn = some (l, w)) :
    KeyPair (codePar code) rho (eraPoly cfg φ code era * toPoly φ syn) (toPoly φ l) (toPoly φ w) ∧ (toPoly φ l).coeff 0 = 1 ∧
      ∀ L W, KeyPair (codePar code) rho (eraPoly cfg φ code era * toPoly φ syn) L W →
        ∃ k, L = k * toPoly φ l ∧ W = k * toPoly φ w := by
  obtain ⟨hk, hmul⟩ := euclidEnd_spec hφ hp (era := era) (syn := syn) hrho
  rw [keySolve, if_pos rfl] at h
  simp only at h hk hmul
  split at h
  · cases h
  · next hne =>
    obtain ⟨rfl, rfl⟩ := Prod.mk.inj (Option.some.inj h)
    have hub : φ ((euclidEnd cfg code rho era syn).ub.headD 0) ≠ 0 := by rwa [Ne, hφ.eq_zero_iff]
    have hc : φ (gfInv cfg.primPoly ((euclidEnd cfg code rho era syn).ub.headD 0)) ≠ 0 := by
      rw [hφ.inv hp hne]
      exact inv_ne_zero hub
    rw [toPoly_polyScale hφ, toPoly_polyScale hφ]
    refine ⟨⟨?_, ?_, ?_⟩, ?_, fun L W hLW => ?_⟩
    · rw [natDegree_C_mul hc]; exact hk.degL
    · rw [natDegree_C_mul hc]; exact hk.degW
    · rw [mul_assoc, ← mul_sub]; exact hk.key.mul_left _
    · rw [coeff_C_mul, coeff_zero_toPoly hφ, hφ.inv hp hne, inv_mul_cancel₀ hub]
    · obtain ⟨k, rfl, rfl⟩ := hmul L W hLW
      have hinv : C (φ (gfInv cfg.primPoly ((euclidEnd cfg code rho era syn).ub.headD 0)))⁻¹ *
          C (φ (gfInv cfg.primPoly ((euclidEnd cfg code rho era syn).ub.headD 0))) = 1 := by
        rw [← C_mul, inv_mul_cancel₀ hc, C_1]
      exact ⟨k * C (φ (gfInv cfg.primPoly ((euclidEnd cfg code rho era syn).ub.headD 0)))⁻¹,
        by linear_combination (-k * toPoly φ (euclidEnd cfg code rho era syn).ub) * hinv,
        by linear_combination (-k * toPoly φ (euclidEnd cfg code rho era syn).b) * hinv⟩

/-- It finds none only when every solution vanishes at 0. -/
theorem keySolve_none [CharP F 2] (hrho : rho ≤ codePar code) (h : keySolve cfg code true rho era syn = none) {L W : F[X]}
    (hLW : KeyPair (codePar code) rho (eraPoly cfg φ code era * toPoly φ syn) L W) : L.coeff 0 = 0 := by
  obtain ⟨-, hmul⟩ := euclidEnd_spec hφ hp (era := era) (syn := syn) hrho
  rw [keySolve, if_pos rfl] at h
  simp only at h hmul
  split at h
  · next hz =>
    obtain ⟨k, rfl, -⟩ := hmul L W hLW
    rw [mul_coeff_zero, coeff_zero_toPoly hφ, hz, hφ.zero, mul_zero]
  · cases h

end

end Sys2Proof.Machine
end

section
/-! RSSOLVE against its contract (41_rs_solver.md R154): erasures only, and with error search. -/

namespace Sys2Proof.Machine

open Sys2Proof Polynomial

/-! ### The registers of a solution -/

theorem writeFile_polyPad_lt {m n : Nat} (v : Vector Byte m) (a : List Byte) (i : Fin m) (h : i.val < n) :
    (writeFile v (polyPad n a))[i] = a.getD i.val 0 := by
  have hlen := polyPad_length n a
  rw [writeFile_getElem_lt _ _ i (by omega), ← List.getD_eq_getElem _ 0 (by omega), polyPad_getD, if_pos h]

theorem writeFile_polyPad_ge {m n : Nat} (v : Vector Byte m) (a : List Byte) (i : Fin m) (h : n ≤ i.val) :
    (writeFile v (polyPad n a))[i] = v[i] := writeFile_getElem_ge _ _ i (by rw [polyPad_length]; exact h)

theorem fileValues_writeFile_polyPad {m n : Nat} (v : Vector Byte m) (a : List Byte) (h : n ≤ m) :
    fileValues (writeFile v (polyPad n a)) n = polyPad n a := by
  have := fileValues_writeFile v (polyPad n a) (by rwa [polyPad_length])
  rwa [polyPad_length] at this

/-- The registers of RSSOLVE after a solution `l`, `w`. -/
def solvedFile (cfg : Params) (code : Code) (rs : RsFile) (l w : List Byte) : RsFile :=
  { rs with
    code := code
    sig := writeFile rs.sig (polyPad (codePar code + 1) (polyMul cfg.primPoly (erasureLocator cfg code rs.era) l))
    omg := writeFile rs.omg (polyPad (codePar code) w)
    solveOk := true }

theorem rsSolve_some {cfg : Params} {fe : Bool} {code : Code} {rs : RsFile} (hle : rs.nera ≤ codePar code) {l w : List Byte}
    (h : keySolve cfg code fe rs.nera rs.era (fileValues rs.syn (codePar code)) = some (l, w)) :
    rsSolve cfg fe code rs = solvedFile cfg code rs l w := by
  rw [rsSolve_solves cfg fe code hle, h]
  rfl

theorem keySolve_erasures (cfg : Params) (code : Code) (rho : Nat) (era : List (Fin 46)) (syn : List Byte) :
    keySolve cfg code false rho era syn = some ([1], modifiedSyndrome cfg code era syn) := rfl

section
variable {F : Type} [Field F] {cfg : Params} {φ : Byte → F} (hφ : FieldMap cfg.primPoly φ) {code : Code}
include hφ

/-- SIG of a solution, index by index. -/
theorem solvedFile_sig (rs : RsFile) (l w : List Byte) (i : Fin 7) (hi : i.val ≤ codePar code) :
    φ (solvedFile cfg code rs l w).sig[i] = (eraPoly cfg φ code rs.era * toPoly φ l).coeff i.val := by
  rw [← toPoly_erasureLocator hφ, ← toPoly_polyMul hφ, coeff_toPoly hφ]
  exact congrArg φ (writeFile_polyPad_lt _ _ i (Nat.lt_succ_of_le hi))

theorem solvedFile_omg (rs : RsFile) (l w : List Byte) (k : Fin 6) (hk : k.val < codePar code) :
    φ (solvedFile cfg code rs l w).omg[k] = (toPoly φ w).coeff k.val := by
  rw [coeff_toPoly hφ]
  exact congrArg φ (writeFile_polyPad_lt _ _ k hk)

/-- The SIG registers hold the locator modulo x^(r+1). -/
theorem solvedFile_sigValues (rs : RsFile) (l w : List Byte) :
    X ^ (codePar code + 1) ∣ eraPoly cfg φ code rs.era * toPoly φ l -
      toPoly φ (fileValues (solvedFile cfg code rs l w).sig (codePar code + 1)) := by
  have hle : codePar code + 1 ≤ 7 := Nat.succ_le_succ (codePar_le code)
  rw [solvedFile, fileValues_writeFile_polyPad _ _ hle, ← toPoly_erasureLocator hφ, ← toPoly_polyMul hφ]
  exact X_pow_dvd_polyPad hφ _ _

end

theorem solvedFile_frame (cfg : Params) (code : Code) (rs : RsFile) (l w : List Byte) :
    (∀ i : Fin 7, codePar code < i.val → (solvedFile cfg code rs l w).sig[i] = rs.sig[i]) ∧
    (∀ k : Fin 6, codePar code ≤ k.val → (solvedFile cfg code rs l w).omg[k] = rs.omg[k]) :=
  ⟨fun i hi => writeFile_polyPad_ge _ _ i hi, fun k hk => writeFile_polyPad_ge _ _ k hk⟩

/-- Settles O12: the locator is the product of the erasure factors, the evaluator the modified syndrome. -/
theorem rssolveErasuresOnly : Obligations.RssolveErasuresOnly := by
  intro s code hp hn hle
  obtain ⟨F, _, _, φ, hφ⟩ := exists_fieldMap hp
  obtain ⟨hsig, homg⟩ := solvedFile_frame s.cfg code s.rs [1] (modifiedSyndrome s.cfg code s.rs.era (fileValues s.rs.syn (codePar code)))
  refine ⟨_, by rw [exec_rssolve, rsSolve_some (hn ▸ hle) (keySolve_erasures ..)], rfl, rfl, fun i hi => hφ.inj ?_, hsig,
    fun k hk => hφ.inj ?_, homg, rfl⟩
  · rw [solvedFile_sig hφ _ _ _ i hi, toPoly_one hφ, mul_one, ← toPoly_gammaPoly hφ, coeff_toPoly hφ]
  · rw [solvedFile_omg hφ _ _ _ k hk, coeff_eq_of_X_pow_dvd (modifiedSyndrome_spec hφ _ _ _).1 hk, map_productCoeff hφ,
      toPoly_gammaPoly hφ]

/-! ### The contract of the error locator -/

section
variable {F : Type} [Field F] {cfg : Params} {φ : Byte → F} (hφ : FieldMap cfg.primPoly φ) {code : Code} {era : List (Fin 46)}
  {syn lam : List Byte}
include hφ

theorem natDegree_toPoly_le (c : List Byte) : (toPoly φ c).natDegree ≤ c.length - 1 := by
  rw [natDegree_le_iff_coeff_eq_zero]
  intro k hk
  rw [coeff_toPoly hφ, List.getD_eq_default _ _ (by omega), hφ.zero]

/-- The list that the contract multiplies by the syndrome is sigma modulo x^(r+1). -/
theorem sigmaList_spec : X ^ (codePar code + 1) ∣ eraPoly cfg φ code era * toPoly φ lam -
    toPoly φ ((List.range (codePar code + 1)).map (productCoeff cfg.primPoly (gammaPoly cfg code era) lam)) := by
  rw [X_pow_dvd_iff_coeff_eq]
  intro k hk
  rw [coeff_toPoly hφ, List.getD_eq_getElem _ _ (by simpa using hk), List.getElem_map, List.getElem_range, map_productCoeff hφ,
    toPoly_gammaPoly hφ]

omit hφ in
/-- A product with it is known modulo x^r. -/
theorem coeff_mul_of_X_pow_dvd {r k : Nat} {P Q : F[X]} (S : F[X]) (h : X ^ (r + 1) ∣ P - Q) (hk : k < r) :
    (Q * S).coeff k = (P * S).coeff k := by
  refine (coeff_eq_of_X_pow_dvd (n := r) ?_ hk).symm
  rw [← sub_mul]
  exact ((pow_dvd_pow X (Nat.le_succ r)).trans h).mul_right S

theorem keyPair_of_keyLocator (h : keyLocator cfg code era syn lam) :
    ∃ W, KeyPair (codePar code) era.length (eraPoly cfg φ code era * toPoly φ syn) (toPoly φ lam) W ∧ (toPoly φ lam).coeff 0 = 1 := by
  obtain ⟨hone, hlen, hkey⟩ := h
  have hdeg := natDegree_toPoly_le hφ lam
  have hr := codePar_pos code
  refine ⟨toPoly φ (polyPad (codePar code) (polyMul cfg.primPoly (polyMul cfg.primPoly (gammaPoly cfg code era) lam) syn)),
    ⟨by omega, ?_, ?_⟩, by rw [coeff_toPoly hφ, hone, hφ.one]⟩
  · refine two_mul_natDegree_lt (by omega) fun k hk => ?_
    rw [coeff_toPoly hφ, polyPad_getD]
    split
    · next hkr =>
      have hz := congrArg φ (hkey k hkr hk)
      rw [map_productCoeff hφ, coeff_mul_of_X_pow_dvd _ (sigmaList_spec hφ) hkr, hφ.zero] at hz
      rw [← coeff_toPoly hφ, toPoly_polyMul hφ, toPoly_polyMul hφ, toPoly_gammaPoly hφ]
      exact hz
    · exact hφ.zero
  · have := X_pow_dvd_polyPad hφ (codePar code) (polyMul cfg.primPoly (polyMul cfg.primPoly (gammaPoly cfg code era) lam) syn)
    rw [toPoly_polyMul hφ, toPoly_polyMul hφ, toPoly_gammaPoly hφ, mul_comm (eraPoly cfg φ code era), mul_assoc] at this
    exact this

theorem keyLocator_of_keyPair {W : F[X]} (hlen : lam.length = (toPoly φ lam).natDegree + 1) (hone : (toPoly φ lam).coeff 0 = 1)
    (h : KeyPair (codePar code) era.length (eraPoly cfg φ code era * toPoly φ syn) (toPoly φ lam) W) :
    keyLocator cfg code era syn lam := by
  have hdeg := h.degL
  have hW := h.degW
  have hkey := h.key
  refine ⟨hφ.inj ?_, by omega, fun k hk hlarge => ?_⟩
  · rw [← coeff_toPoly hφ, hone, hφ.one]
  · rw [← hφ.eq_zero_iff, map_productCoeff hφ, coeff_mul_of_X_pow_dvd _ (sigmaList_spec hφ) hk, mul_right_comm, mul_comm,
      coeff_eq_of_X_pow_dvd hkey hk]
    exact coeff_eq_zero_of_natDegree_lt (by omega)

end

/-- Settles O13: the Euclidean loop finds a locator that divides every other one, so it fails only when there is none. -/
theorem rssolveFindsErrorLocator : Obligations.RssolveFindsErrorLocator := by
  intro s code hp hn hle syn gamma
  obtain ⟨F, _, _, φ, hφ⟩ := exists_fieldMap hp
  have hrho : s.rs.nera ≤ codePar code := hn ▸ hle
  cases hk : keySolve s.cfg code true s.rs.nera s.rs.era syn with
  | none =>
    refine ⟨fun _ => ?_, fun ⟨lam, hlam⟩ => ?_⟩
    · rw [exec_rssolve, rsSolve_solves s.cfg true code hrho, hk]
      rfl
    · obtain ⟨W, hW, hone⟩ := keyPair_of_keyLocator hφ hlam
      rw [← hn] at hW
      exact absurd (keySolve_none hφ hp hrho hk hW) (by rw [hone]; exact one_ne_zero)
  | some lw =>
    obtain ⟨l, w⟩ := lw
    obtain ⟨hpair, hone, -⟩ := keySolve_some hφ hp hrho hk
    have hlam : toPoly φ (polyPad ((toPoly φ l).natDegree + 1) l) = toPoly φ l :=
      toPoly_polyPad hφ (fun _ _ => rfl) (degree_le_natDegree.trans_lt (by exact_mod_cast Nat.lt_succ_self _))
    have hloc : keyLocator s.cfg code s.rs.era syn (polyPad ((toPoly φ l).natDegree + 1) l) :=
      keyLocator_of_keyPair hφ (by rw [polyPad_length, hlam]) (by rw [hlam, hone]) (by rw [hlam, ← hn]; exact hpair)
    obtain ⟨hsig, homg⟩ := solvedFile_frame s.cfg code s.rs l w
    refine ⟨fun hno => absurd hloc (hno _), fun _ => ⟨_, _, hloc, by rw [exec_rssolve, rsSolve_some hrho hk], rfl,
      fun i hi => hφ.inj ?_, hφ.inj ?_, hsig, fun k hk => hφ.inj ?_, homg⟩⟩
    · rw [solvedFile_sig hφ _ _ _ i hi, map_productCoeff hφ, toPoly_gammaPoly hφ, hlam]
    · refine (solvedFile_sig hφ _ _ _ 0 (Nat.zero_le _)).trans ?_
      rw [Fin.val_zero, mul_coeff_zero, eraPoly_coeff_zero, hone, one_mul, hφ.one]
    · have hkey := hpair.key
      rw [solvedFile_omg hφ _ _ _ k hk, map_productCoeff hφ, coeff_mul_of_X_pow_dvd _ (solvedFile_sigValues hφ _ _ _) hk,
        ← coeff_eq_of_X_pow_dvd hkey hk, mul_left_comm, mul_assoc]

end Sys2Proof.Machine
end

section
/-! The error locator and evaluator of a set of positions (41_rs_solver.md R154, R157): the key equation that they solve, the roots
of the locator, and Forney's formula. -/

namespace Sys2Proof.Machine

open Sys2Proof Polynomial

section
variable {F : Type} [Field F] (x y : Fin 46 → F) (E : Finset (Fin 46))

/-- The product of (1 + x_p X) over a set. -/
noncomputable def setLocator : F[X] := ∏ p ∈ E, (1 + C (x p) * X)

/-- The evaluator of a set with weights `y`. -/
noncomputable def setEvaluator : F[X] := ∑ p ∈ E, C (y p) * setLocator x (E.erase p)

variable {x y E}

theorem setLocator_erase {p : Fin 46} (hp : p ∈ E) : setLocator x E = (1 + C (x p) * X) * setLocator x (E.erase p) :=
  (Finset.mul_prod_erase E _ hp).symm

theorem setLocator_coeff_zero : (setLocator x E).coeff 0 = 1 := by
  rw [coeff_zero_eq_eval_zero, setLocator, eval_prod]
  exact Finset.prod_eq_one fun p _ => by simp

theorem setLocator_ne_zero : setLocator x E ≠ 0 := fun h => by
  have := setLocator_coeff_zero (x := x) (E := E)
  rw [h, coeff_zero] at this
  exact zero_ne_one this

theorem natDegree_factor {a : F} (ha : a ≠ 0) : (1 + C a * X).natDegree = 1 := by
  rw [add_comm, ← C_1]
  exact natDegree_linear ha

theorem natDegree_setLocator (hx : ∀ p ∈ E, x p ≠ 0) : (setLocator x E).natDegree = E.card := by
  have hfac : ∀ p ∈ E, (1 + C (x p) * X : F[X]) ≠ 0 := fun p hp h => by
    have := natDegree_factor (hx p hp)
    rw [h, natDegree_zero] at this
    exact zero_ne_one this
  rw [setLocator, natDegree_prod _ _ hfac, Finset.card_eq_sum_ones]
  exact Finset.sum_congr rfl fun p hp => natDegree_factor (hx p hp)

theorem natDegree_setEvaluator_lt (hx : ∀ p ∈ E, x p ≠ 0) (hE : E.Nonempty) : (setEvaluator x y E).natDegree < E.card := by
  have hpos : 0 < E.card := Finset.card_pos.2 hE
  refine lt_of_le_of_lt (natDegree_sum_le_of_forall_le (n := E.card - 1) E _ fun p hp => ?_) (by omega)
  refine (natDegree_C_mul_le _ _).trans ?_
  rw [natDegree_setLocator fun q hq => hx q (Finset.mem_of_mem_erase hq), Finset.card_erase_of_mem hp]

theorem degree_setEvaluator_lt (hx : ∀ p ∈ E, x p ≠ 0) {n : Nat} (hn : E.card ≤ n) : (setEvaluator x y E).degree < n := by
  by_cases hz : setEvaluator x y E = 0
  · rw [hz, degree_zero]
    exact WithBot.bot_lt_coe n
  · have hE : E.Nonempty := Finset.nonempty_of_ne_empty fun h => hz (by rw [setEvaluator, h, Finset.sum_empty])
    rw [degree_eq_natDegree hz]
    exact_mod_cast (natDegree_setEvaluator_lt hx hE).trans_le hn

/-! ### The key equation -/

/-- The geometric series of a locator is the inverse of its factor modulo x^r. -/
theorem X_pow_dvd_factor_mul_geom [CharP F 2] (a : F) (r : Nat) :
    X ^ r ∣ (1 + C a * X) * (∑ j ∈ Finset.range r, (C a * X) ^ j) - 1 := by
  rw [← CharTwo.sub_eq_add, mul_neg_geom_sum, sub_sub_cancel_left, mul_pow, dvd_neg]
  exact dvd_mul_left _ _

/-- Locator times syndrome is the evaluator modulo x^r. -/
theorem setLocator_key [CharP F 2] {r : Nat} {S : F[X]} (hS : ∀ j < r, S.coeff j = ∑ p ∈ E, y p * x p ^ j) :
    X ^ r ∣ setLocator x E * S - setEvaluator x y E := by
  have hsum : X ^ r ∣ S - ∑ p ∈ E, C (y p) * ∑ j ∈ Finset.range r, (C (x p) * X) ^ j := by
    rw [X_pow_dvd_iff_coeff_eq]
    intro k hk
    rw [hS k hk, finsetSum_coeff]
    refine Finset.sum_congr rfl fun p _ => ?_
    rw [coeff_C_mul, finsetSum_coeff, Finset.sum_eq_single_of_mem k (Finset.mem_range.2 hk)]
    · rw [mul_pow, ← C_pow, coeff_C_mul, coeff_X_pow_self, mul_one]
    · intro j _ hj
      rw [mul_pow, ← C_pow, coeff_C_mul, coeff_X_pow, if_neg (Ne.symm hj), mul_zero]
  have hterms : X ^ r ∣ setLocator x E * (∑ p ∈ E, C (y p) * ∑ j ∈ Finset.range r, (C (x p) * X) ^ j) - setEvaluator x y E := by
    rw [setEvaluator, Finset.mul_sum, ← Finset.sum_sub_distrib]
    refine Finset.dvd_sum fun p hp => ?_
    have hterm : setLocator x E * (C (y p) * ∑ j ∈ Finset.range r, (C (x p) * X) ^ j) - C (y p) * setLocator x (E.erase p) =
        C (y p) * setLocator x (E.erase p) * ((1 + C (x p) * X) * (∑ j ∈ Finset.range r, (C (x p) * X) ^ j) - 1) := by
      rw [setLocator_erase hp]
      ring
    rw [hterm]
    exact (X_pow_dvd_factor_mul_geom _ _).mul_left _
  have hadd := (hsum.mul_left (setLocator x E)).add hterms
  rwa [mul_sub, sub_add_sub_cancel] at hadd

/-! ### Roots, derivative, coprimality -/

theorem eval_factor_inv [CharP F 2] {a b : F} (hb : b ≠ 0) : (1 + C a * X).eval b⁻¹ = 0 ↔ a = b := by
  rw [eval_add, eval_one, eval_mul, eval_C, eval_X, ← CharTwo.sub_eq_add, sub_eq_zero, eq_comm, mul_inv_eq_one₀ hb]

theorem eval_setLocator_inv [CharP F 2] {b : F} (hb : b ≠ 0) : (setLocator x E).eval b⁻¹ = 0 ↔ ∃ p ∈ E, x p = b := by
  rw [setLocator, eval_prod, Finset.prod_eq_zero_iff]
  simp only [eval_factor_inv hb]

section
variable [CharP F 2] {p : Fin 46} (hx : ∀ q ∈ E, x q ≠ 0) (hinj : Set.InjOn x E) (hp : p ∈ E)
include hx hinj hp

theorem eval_erase_ne_zero : (setLocator x (E.erase p)).eval (x p)⁻¹ ≠ 0 := by
  rw [Ne, eval_setLocator_inv (hx p hp)]
  rintro ⟨q, hq, hqp⟩
  exact Finset.ne_of_mem_erase hq (hinj (Finset.mem_of_mem_erase hq) hp hqp)

omit hinj in
theorem eval_derivative_setLocator :
    (derivative (setLocator x E)).eval (x p)⁻¹ = x p * (setLocator x (E.erase p)).eval (x p)⁻¹ := by
  have hroot := (eval_factor_inv (a := x p) (hx p hp)).2 rfl
  rw [setLocator_erase hp, derivative_mul, eval_add, eval_mul, eval_mul, hroot, zero_mul, add_zero]
  simp

omit hinj in
theorem eval_setEvaluator :
    (setEvaluator x y E).eval (x p)⁻¹ = y p * (setLocator x (E.erase p)).eval (x p)⁻¹ := by
  rw [setEvaluator, eval_finsetSum, Finset.sum_eq_single_of_mem p hp, eval_mul, eval_C]
  intro q hq hqp
  rw [eval_mul, (eval_setLocator_inv (hx p hp)).2 ⟨p, Finset.mem_erase.2 ⟨Ne.symm hqp, hp⟩, rfl⟩, mul_zero]

end

/-- With nonzero weights the locator and the evaluator have no common factor. -/
theorem isCoprime_setLocator [CharP F 2] (hx : ∀ q ∈ E, x q ≠ 0) (hinj : Set.InjOn x E) (hy : ∀ q ∈ E, y q ≠ 0) :
    IsCoprime (setLocator x E) (setEvaluator x y E) := by
  refine IsCoprime.prod_left fun p hp => ?_
  have hirr : Irreducible (1 + C (x p) * X) :=
    irreducible_of_degree_eq_one (degree_eq_iff_natDegree_eq_of_pos Nat.one_pos |>.2 (natDegree_factor (hx p hp)))
  rw [hirr.coprime_iff_not_dvd]
  rintro ⟨k, hk⟩
  have heval := eval_setEvaluator (y := y) hx hp
  rw [hk, eval_mul, (eval_factor_inv (hx p hp)).2 rfl, zero_mul] at heval
  exact mul_ne_zero (hy p hp) (eval_erase_ne_zero hx hinj hp) heval.symm

/-- Weights whose power sums vanish are zero: fewer positions than syndromes determine the values (R160). -/
theorem weights_eq_zero [CharP F 2] (hx : ∀ q ∈ E, x q ≠ 0) (hinj : Set.InjOn x E) {r : Nat} (hr : E.card ≤ r)
    (hS : ∀ j < r, ∑ p ∈ E, y p * x p ^ j = 0) : ∀ p ∈ E, y p = 0 := by
  intro p hp
  have hkey := setLocator_key (x := x) (y := y) (E := E) (r := r) (S := 0) fun j hj => by rw [coeff_zero, hS j hj]
  have hzero : setEvaluator x y E = 0 := by
    rw [mul_zero, zero_sub, dvd_neg] at hkey
    exact eq_zero_of_dvd_of_degree_lt hkey (by rw [degree_X_pow]; exact degree_setEvaluator_lt hx hr)
  have heval := eval_setEvaluator (y := y) hx hp
  rw [hzero, eval_zero] at heval
  exact (mul_eq_zero.1 heval.symm).resolve_right (eval_erase_ne_zero hx hinj hp)

/-- A solution of the key equation that the locator is a multiple of, with constant term 1, is the locator. -/
theorem setLocator_unique [CharP F 2] (hx : ∀ q ∈ E, x q ≠ 0) (hinj : Set.InjOn x E) (hy : ∀ q ∈ E, y q ≠ 0) {l w k : F[X]}
    (hl : setLocator x E = k * l) (hw : setEvaluator x y E = k * w) (hone : l.coeff 0 = 1) :
    l = setLocator x E ∧ w = setEvaluator x y E := by
  have hunit : IsUnit k := (isCoprime_setLocator hx hinj hy).isUnit_of_dvd' ⟨l, hl⟩ ⟨w, hw⟩
  obtain ⟨c, -, rfl⟩ := Polynomial.isUnit_iff.1 hunit
  have hc : c = 1 := by
    have := setLocator_coeff_zero (x := x) (E := E)
    rwa [hl, mul_coeff_zero, coeff_C_zero, hone, mul_one] at this
  rw [hl, hw, hc, C_1, one_mul, one_mul]
  exact ⟨rfl, rfl⟩

end

end Sys2Proof.Machine
end

section
/-! RSEVAL and RSVFY on the locator of an error pattern (41_rs_solver.md R157, R158): the roots are its positions, Forney's values
its bytes, and the residuals are zero. -/

namespace Sys2Proof.Machine

open Sys2Proof Polynomial

section
variable {F : Type} [Field F] {cfg : Params} {φ : Byte → F} (hφ : FieldMap cfg.primPoly φ) (hp : primitive cfg.primPoly)
  {code : Code}

/-- The locator X_p in the field. -/
def loc (cfg : Params) (φ : Byte → F) (code : Code) (q : Fin 46) : F := φ (locator cfg code q)

/-- The weight of an error byte in the syndromes: e_p X_p^FCR. -/
def weight (cfg : Params) (φ : Byte → F) (code : Code) (e : Fin 46 → Byte) (q : Fin 46) : F :=
  φ (e q) * loc cfg φ code q ^ cfg.fcr

/-! ### Locators and parity sums -/

include hφ hp

theorem loc_ne_zero (q : Fin 46) : loc cfg φ code q ≠ 0 := hφ.pow_ne_zero hp _

theorem map_gfPow_loc (q : Fin 46) (i : Int) : φ (gfPow cfg.primPoly (locOf cfg code q * i)) = loc cfg φ code q ^ i :=
  hφ.pow_mul hp _ _

theorem map_gfPow_neg_loc (q : Fin 46) : φ (gfPow cfg.primPoly (-locOf cfg code q)) = (loc cfg φ code q)⁻¹ :=
  hφ.pow_neg hp _

/-- Locators of different positions of the code differ (R151). -/
theorem loc_injOn (hd : locatorsDistinct cfg code) {E : Finset (Fin 46)} (hE : ∀ q ∈ E, q.val < codeLen code) :
    Set.InjOn (loc cfg φ code) E := by
  intro a ha b hb hab
  by_contra hne
  have heq := (gfPow_eq_iff hp _ _).1 (hφ.inj hab)
  exact hd a b (hE a ha) (hE b hb) hne (by omega)

theorem map_paritySum_term (e : Fin 46 → Byte) (q : Fin 46) (j : Nat) :
    φ (gfMul cfg.primPoly (e q) (gfPow cfg.primPoly (locOf cfg code q * (cfg.fcr + j)))) =
      weight cfg φ code e q * loc cfg φ code q ^ j := by
  rw [hφ.mul, map_gfPow_loc hφ hp, zpow_add₀ (loc_ne_zero hφ hp q), zpow_natCast, weight, mul_assoc]

/-- The parity sums of a vector that is zero outside a set of positions. -/
theorem map_paritySum {e : Fin 46 → Byte} {E : Finset (Fin 46)} (hE : ∀ q ∈ E, q.val < codeLen code)
    (he : ∀ q : Fin 46, q.val < codeLen code → q ∉ E → e q = 0) (j : Nat) :
    φ (paritySum cfg code e j) = ∑ q ∈ E, weight cfg φ code e q * loc cfg φ code q ^ j := by
  rw [paritySum, hφ.xorSum, List.map_map, ← List.sum_toFinset _ (codePositions_pairwise code).nodup]
  refine (Finset.sum_subset (fun q hq => List.mem_toFinset.2 (mem_codePositions.2 (hE q hq))) fun q hq hne => ?_).symm.trans ?_
  · rw [Function.comp_apply, he q (mem_codePositions.1 (List.mem_toFinset.1 hq)) hne, zero_gfMul, hφ.zero]
  · exact Finset.sum_congr rfl fun q _ => map_paritySum_term hφ hp e q j

/-! ### The root search -/

theorem vanishesAt_iff (sig : List Byte) (q : Fin 46) :
    vanishesAt cfg code sig q = true ↔ (toPoly φ sig).eval (loc cfg φ code q)⁻¹ = 0 := by
  rw [vanishesAt, decide_eq_true_eq, ← map_gfPow_neg_loc hφ hp, eval_toPoly hφ, hφ.eq_zero_iff]

/-- The odd-degree sum of R157 is the formal derivative. -/
theorem map_derivativeAt [CharP F 2] {sig : List Byte} (hs : sig ≠ []) (q : Fin 46) :
    φ (derivativeAt cfg code sig q) = (derivative (toPoly φ sig)).eval (loc cfg φ code q)⁻¹ := by
  have hlen : (toPoly φ sig).natDegree < sig.length :=
    lt_of_le_of_lt (natDegree_toPoly_le hφ sig) (Nat.sub_lt (List.length_pos_iff.2 hs) Nat.one_pos)
  rw [derivativeAt, hφ.xorSum, List.map_map, sum_map_range, derivative_eval,
    sum_over_range' _ (fun n => by rw [zero_mul, zero_mul]) _ hlen]
  refine Finset.sum_congr rfl fun i _ => ?_
  rw [Function.comp_apply, coeff_toPoly hφ, CharP.cast_eq_mod F 2 i]
  split
  · next hodd =>
    rw [hodd, Nat.cast_one, mul_one, hφ.mul, neg_mul_comm, map_gfPow_loc hφ hp, zpow_neg, ← inv_zpow,
      show ((i : Int) - 1) = ((i - 1 : Nat) : Int) by omega, zpow_natCast]
  · next heven => rw [show i % 2 = 0 by omega, Nat.cast_zero, mul_zero, zero_mul, hφ.zero]

theorem map_forneyValue {sig : List Byte} (omg : List Byte) {q : Fin 46} (hd : derivativeAt cfg code sig q ≠ 0) :
    φ (forneyValue cfg code sig omg q) = loc cfg φ code q ^ (1 - cfg.fcr) *
      ((toPoly φ omg).eval (loc cfg φ code q)⁻¹ * (φ (derivativeAt cfg code sig q))⁻¹) := by
  rw [forneyValue, hφ.mul, hφ.mul, map_gfPow_loc hφ hp, ← eval_toPoly hφ, map_gfPow_neg_loc hφ hp, hφ.inv hp hd]

section
variable [CharP F 2] (hd : locatorsDistinct cfg code) {e : Fin 46 → Byte} {E : Finset (Fin 46)}
  (hE : ∀ q ∈ E, q.val < codeLen code) {sig omg : List Byte} (hsig : toPoly φ sig = setLocator (loc cfg φ code) E)
  (homg : toPoly φ omg = setEvaluator (loc cfg φ code) (weight cfg φ code e) E)
include hd hE hsig

/-- The roots of the pattern's locator are its positions. -/
theorem vanishesAt_iff_mem {q : Fin 46} (hq : q.val < codeLen code) : vanishesAt cfg code sig q = true ↔ q ∈ E := by
  rw [vanishesAt_iff hφ hp, hsig, eval_setLocator_inv (loc_ne_zero hφ hp q)]
  refine ⟨fun ⟨a, ha, haq⟩ => ?_, fun h => ⟨q, h, rfl⟩⟩
  have hinj := loc_injOn hφ hp hd (E := insert q E) fun b hb => (Finset.mem_insert.1 hb).elim (· ▸ hq) (hE b)
  rw [← hinj (Finset.mem_insert_of_mem ha) (Finset.mem_insert_self q E) haq]
  exact ha

theorem roots_toFinset : ((codePositions code).filter (vanishesAt cfg code sig)).toFinset = E := by
  ext q
  rw [List.mem_toFinset, List.mem_filter, mem_codePositions]
  refine ⟨fun ⟨hq, hv⟩ => (vanishesAt_iff_mem hφ hp hd hE hsig hq).1 hv, fun h => ⟨hE q h, ?_⟩⟩
  exact (vanishesAt_iff_mem hφ hp hd hE hsig (hE q h)).2 h

theorem roots_length : ((codePositions code).filter (vanishesAt cfg code sig)).length = E.card := by
  rw [← List.toFinset_card_of_nodup ((codePositions_pairwise code).nodup.filter _), roots_toFinset hφ hp hd hE hsig]

omit hd hE in
theorem map_derivativeAt_locator (hs : sig ≠ []) {q : Fin 46} (hq : q ∈ E) :
    φ (derivativeAt cfg code sig q) =
      loc cfg φ code q * (setLocator (loc cfg φ code) (E.erase q)).eval (loc cfg φ code q)⁻¹ := by
  rw [map_derivativeAt hφ hp hs, hsig, eval_derivative_setLocator (fun a _ => loc_ne_zero hφ hp a) hq]

/-- No root of the pattern's locator is repeated. -/
theorem derivativeAt_ne_zero (hs : sig ≠ []) {q : Fin 46} (hq : q ∈ E) : derivativeAt cfg code sig q ≠ 0 := by
  rw [Ne, ← hφ.eq_zero_iff, map_derivativeAt_locator hφ hp hsig hs hq]
  exact mul_ne_zero (loc_ne_zero hφ hp q)
    (eval_erase_ne_zero (fun a _ => loc_ne_zero hφ hp a) (loc_injOn hφ hp hd hE) hq)

include homg in
/-- Forney's value is the pattern's byte. -/
theorem forneyValue_eq (hs : sig ≠ []) {q : Fin 46} (hq : q ∈ E) : forneyValue cfg code sig omg q = e q := by
  apply hφ.inj
  have hq0 := loc_ne_zero hφ hp q (code := code)
  have herase : (setLocator (loc cfg φ code) (E.erase q)).eval (loc cfg φ code q)⁻¹ ≠ 0 :=
    eval_erase_ne_zero (fun a _ => loc_ne_zero hφ hp a) (loc_injOn hφ hp hd hE) hq
  rw [map_forneyValue hφ hp omg (derivativeAt_ne_zero hφ hp hd hE hsig hs hq), homg,
    eval_setEvaluator (fun a _ => loc_ne_zero hφ hp a) hq, map_derivativeAt_locator hφ hp hsig hs hq, weight,
    zpow_sub₀ hq0, zpow_one]
  generalize (setLocator (loc cfg φ code) (E.erase q)).eval (loc cfg φ code q)⁻¹ = d at herase
  field_simp

end

end

end Sys2Proof.Machine
end

section
/-! RSCORRECT on a vector that differs from a codeword by a pattern (41_rs_solver.md R159, R160): it is accepted, in erasures-only
mode when the pattern lies in the erasures, with error search when it has at most r/2 positions. -/

namespace Sys2Proof.Machine

open Sys2Proof Polynomial

section
variable {F : Type} [Field F] [CharP F 2] {cfg : Params} {φ : Byte → F} (hφ : FieldMap cfg.primPoly φ)
  (hp : primitive cfg.primPoly) {code : Code} (hd : locatorsDistinct cfg code) {e : Fin 46 → Byte} {E : Finset (Fin 46)}
  (hE : ∀ q ∈ E, q.val < codeLen code) (he : ∀ q : Fin 46, q.val < codeLen code → q ∉ E → e q = 0)
  (hcard : E.card ≤ codePar code)
include hφ hp hd hE he hcard

/-- RSEVAL and RSVFY on the locator and evaluator of a pattern, the syndromes being its parity sums. -/
theorem rsVfy_accepts {rs : RsFile} {l w : List Byte}
    (hl : eraPoly cfg φ code rs.era * toPoly φ l = setLocator (loc cfg φ code) E)
    (hw : toPoly φ w = setEvaluator (loc cfg φ code) (weight cfg φ code e) E)
    (hsyn : ∀ j : Fin 6, j.val < codePar code → rs.syn[j] = paritySum cfg code e j.val) :
    (rsVfy cfg code (rsEval cfg code (solvedFile cfg code rs l w))).status = .corrected ∧
      (rsVfy cfg code (rsEval cfg code (solvedFile cfg code rs l w))).ncor = E.card := by
  have hx : ∀ q ∈ E, loc cfg φ code q ≠ 0 := fun q _ => loc_ne_zero hφ hp q
  obtain ⟨sig, hsigdef⟩ : ∃ sig, sig = fileValues (solvedFile cfg code rs l w).sig (codePar code + 1) := ⟨_, rfl⟩
  obtain ⟨omg, homgdef⟩ : ∃ omg, omg = fileValues (solvedFile cfg code rs l w).omg (codePar code) := ⟨_, rfl⟩
  have hsig : toPoly φ sig = setLocator (loc cfg φ code) E := by
    rw [hsigdef, solvedFile, fileValues_writeFile_polyPad _ _ (Nat.succ_le_succ (codePar_le code))]
    refine toPoly_polyPad hφ (fun k _ => by rw [toPoly_polyMul hφ, toPoly_erasureLocator hφ, hl]) ?_
    rw [degree_eq_natDegree setLocator_ne_zero, natDegree_setLocator hx]
    exact_mod_cast Nat.lt_succ_of_le hcard
  have homg : toPoly φ omg = setEvaluator (loc cfg φ code) (weight cfg φ code e) E := by
    rw [homgdef, solvedFile, fileValues_writeFile_polyPad _ _ (codePar_le code)]
    exact toPoly_polyPad hφ (fun k _ => by rw [hw]) (degree_setEvaluator_lt hx hcard)
  have hs : sig ≠ [] := by
    rintro rfl
    exact setLocator_ne_zero (hsig.symm.trans (toPoly_nil φ))
  have hroots := roots_toFinset hφ hp hd hE hsig
  have hmem {q : Fin 46} : q ∈ (codePositions code).filter (vanishesAt cfg code sig) ↔ q ∈ E := by
    rw [← List.mem_toFinset, hroots]
  have hlen := roots_length hφ hp hd hE hsig
  have hdeg : (E.card : Int) = polyDeg sig := by
    rw [polyDeg_eq_natDegree hφ (by rw [hsig]; exact setLocator_ne_zero), hsig, natDegree_setLocator hx]
  have heval : rsEval cfg code (solvedFile cfg code rs l w) = { solvedFile cfg code rs l w with
      cor := ((codePositions code).filter (vanishesAt cfg code sig)).map fun q => (q, forneyValue cfg code sig omg q)
      ncor := E.card } := by
    rw [rsEval_solved cfg code rfl, ← hsigdef, ← homgdef]
    simp only [rootSearch_distinct cfg code sig omg (codePositions code) []
      fun q hq => derivativeAt_ne_zero hφ hp hd hE hsig hs (hmem.1 hq)]
    simp only [List.nil_append, List.length_map, hlen, hdeg, if_true, Bool.true_eq_false, if_false]
  have hres : (residuals cfg code (fileValues rs.syn (codePar code))
      (((codePositions code).filter (vanishesAt cfg code sig)).map fun q => (q, forneyValue cfg code sig omg q))).all (· = 0) = true := by
    rw [residuals_all_zero]
    intro j hj
    rw [← hφ.eq_zero_iff, hφ.xor, hsyn j hj, map_paritySum hφ hp hE he, hφ.xorSum, List.map_map, List.map_map,
      ← hroots, List.sum_toFinset _ ((codePositions_pairwise code).nodup.filter _)]
    refine (congrArg₂ (· + ·) rfl (congrArg List.sum (List.map_congr_left fun q hq => ?_))).trans (CharTwo.add_self_eq_zero _)
    show φ (gfMul cfg.primPoly (forneyValue cfg code sig omg q) _) = _
    rw [forneyValue_eq hφ hp hd hE hsig homg hs (hmem.1 hq), map_paritySum_term hφ hp]
  rw [heval, rsVfy_applies cfg code rfl hres]
  exact ⟨rfl, rfl⟩

end

/-! ### RSCORRECT -/

/-- The registers after RSSYN. -/
theorem rsSyn_syn (cfg : Params) (code : Code) (rs : RsFile) (j : Fin 6) (hj : j.val < codePar code) :
    (rsSyn cfg code rs).syn[j] = paritySum cfg code (fun q => rs.vec[q]) j.val := by
  rw [rsSyn_eq]
  show (writeFile _ _)[j] = _
  rw [writeFile_getElem_lt _ _ j (by rw [syndromes_length]; exact hj)]
  exact syndromes_getElem cfg code rs.vec j.val hj

/-- RSCORRECT stops at a codeword, and else goes on to solve. -/
theorem rsCorrect_of_codeword {cfg : Params} {fe : Bool} {code : Code} {rs : RsFile}
    (h : isCodeword cfg code fun q => rs.vec[q]) : rsCorrect cfg fe code rs = rsSyn cfg code rs :=
  if_pos ((synStatus_noErrors cfg code rs.vec).2 h)

theorem rsCorrect_of_not_codeword {cfg : Params} {fe : Bool} {code : Code} {rs : RsFile}
    (h : ¬ isCodeword cfg code fun q => rs.vec[q]) :
    rsCorrect cfg fe code rs = rsVfy cfg code (rsEval cfg code (rsSolve cfg fe code (rsSyn cfg code rs))) :=
  if_neg (mt (synStatus_noErrors cfg code rs.vec).1 h)

theorem status_of_codeword {cfg : Params} {fe : Bool} {code : Code} {rs : RsFile}
    (h : isCodeword cfg code fun q => rs.vec[q]) : (rsCorrect cfg fe code rs).status = .noErrors := by
  rw [rsCorrect_of_codeword h]
  exact (synStatus_noErrors cfg code rs.vec).2 h

theorem rsSyn_getD (cfg : Params) (code : Code) (rs : RsFile) {j : Nat} (hj : j < codePar code) :
    (fileValues (rsSyn cfg code rs).syn (codePar code)).getD j 0 = paritySum cfg code (fun q => rs.vec[q]) j := by
  have h6 := lt_of_lt_of_le hj (codePar_le code)
  rw [List.getD_eq_getElem?_getD, fileValues_getElem?, if_pos hj, Vector.getElem?_eq_getElem h6, Option.getD_some]
  exact rsSyn_syn cfg code rs ⟨j, h6⟩ hj

/-- The root search lists roots only. -/
theorem rootSearch_vanishes {cfg : Params} {code : Code} {sig omg : List Byte} (ps : List (Fin 46)) (acc : List (Fin 46 × Byte))
    (hacc : ∀ x ∈ acc, vanishesAt cfg code sig x.1 = true) :
    ∀ x ∈ (rootSearch cfg code sig omg ps acc).1, vanishesAt cfg code sig x.1 = true := by
  induction ps generalizing acc with
  | nil => exact hacc
  | cons q ps ih =>
    rw [rootSearch, isRoot_eq]
    split
    · next hv =>
      simp only
      split
      · exact hacc
      · refine ih _ fun x hx => ?_
        rcases List.mem_append.1 hx with hx | hx
        · exact hacc x hx
        · rw [List.mem_singleton.1 hx]
          exact hv
    · exact ih acc hacc

/-- What a corrected vector tells: the solver's pair, and that COR lists roots of its locator, as many as its degree. -/
theorem rsCorrect_corrected_roots {cfg : Params} {fe : Bool} {code : Code} {rs : RsFile} (hle : rs.nera ≤ codePar code)
    (h : (rsCorrect cfg fe code rs).status = .corrected) :
    ∃ l w, keySolve cfg code fe rs.nera rs.era (fileValues (rsSyn cfg code rs).syn (codePar code)) = some (l, w) ∧
      (((rsCorrect cfg fe code rs).cor.length : Int) =
        polyDeg (fileValues (solvedFile cfg code (rsSyn cfg code rs) l w).sig (codePar code + 1))) ∧
      ∀ x ∈ (rsCorrect cfg fe code rs).cor,
        vanishesAt cfg code (fileValues (solvedFile cfg code (rsSyn cfg code rs) l w).sig (codePar code + 1)) x.1 = true := by
  have hcw : ¬ isCodeword cfg code fun q => rs.vec[q] := fun hcw => by
    rw [status_of_codeword hcw] at h
    cases h
  rw [rsCorrect_of_not_codeword hcw] at h ⊢
  cases hk : keySolve cfg code fe rs.nera rs.era (fileValues (rsSyn cfg code rs).syn (codePar code)) with
  | none =>
    rw [rsSolve_solves cfg fe code (rs := rsSyn cfg code rs) hle, show keySolve cfg code fe (rsSyn cfg code rs).nera
      (rsSyn cfg code rs).era (fileValues (rsSyn cfg code rs).syn (codePar code)) = none from hk] at h
    cases h
  | some lw =>
    obtain ⟨l, w⟩ := lw
    refine ⟨l, w, rfl, ?_⟩
    rw [rsSolve_some (rs := rsSyn cfg code rs) hle hk, rsEval_solved cfg code rfl] at h ⊢
    simp only at h ⊢
    have hvanish := rootSearch_vanishes (cfg := cfg) (code := code)
      (sig := fileValues (solvedFile cfg code (rsSyn cfg code rs) l w).sig (codePar code + 1))
      (omg := fileValues (solvedFile cfg code (rsSyn cfg code rs) l w).omg (codePar code)) (codePositions code) []
      (fun x hx => absurd hx (List.not_mem_nil))
    split at h
    · rw [rsVfy_failed cfg code rfl] at h
      cases h
    · next hdistinct =>
      split at h
      · next hlen =>
        rw [if_neg hdistinct, if_pos hlen]
        have hcor (rs : RsFile) : (rsVfy cfg code rs).cor = rs.cor := by
          unfold rsVfy
          simp only
          split
          · rfl
          · split <;> rfl
        rw [hcor]
        exact ⟨hlen, hvanish⟩
      · rw [rsVfy_failed cfg code rfl] at h
        cases h

section
variable {cfg : Params} {code : Code} (hp : primitive cfg.primPoly)
include hp

/-- In erasures-only mode only erased positions are corrected (R156). -/
theorem corrected_mem_era (hd : locatorsDistinct cfg code) {rs : RsFile} (hn : rs.nera = rs.era.length) (hnodup : rs.era.Nodup)
    (hle : rs.era.length ≤ codePar code) (hE : ∀ q ∈ rs.era, q.val < codeLen code)
    (h : (rsCorrect cfg false code rs).status = .corrected) {x : Fin 46 × Byte} (hx : x ∈ (rsCorrect cfg false code rs).cor)
    (hlen : x.1.val < codeLen code) : x.1 ∈ rs.era := by
  obtain ⟨F, _, _, φ, hφ⟩ := exists_fieldMap hp
  obtain ⟨l, w, hk, -, hroots⟩ := rsCorrect_corrected_roots (hn ▸ hle) h
  rw [keySolve_erasures] at hk
  obtain ⟨rfl, -⟩ := Prod.mk.inj (Option.some.inj hk)
  have hE : ∀ q ∈ rs.era.toFinset, q.val < codeLen code := fun q hq => hE q (List.mem_toFinset.1 hq)
  refine List.mem_toFinset.1 ((vanishesAt_iff_mem hφ hp hd hE ?_ hlen).1 (hroots x hx))
  rw [solvedFile, fileValues_writeFile_polyPad _ _ (Nat.succ_le_succ (codePar_le code))]
  refine toPoly_polyPad hφ (fun k _ => ?_) ?_
  · rw [toPoly_polyMul hφ, toPoly_erasureLocator hφ, toPoly_one hφ, mul_one]
    exact congrArg (coeff · k) (List.prod_toFinset _ hnodup)
  · rw [degree_eq_natDegree setLocator_ne_zero, natDegree_setLocator fun q _ => loc_ne_zero hφ hp q,
      List.toFinset_card_of_nodup hnodup]
    exact_mod_cast Nat.lt_succ_of_le hle

/-- With error search at most half as many positions are corrected as there are syndromes. -/
theorem corrected_length_le {rs : RsFile} (hera : rs.era = []) (hn : rs.nera = 0)
    (h : (rsCorrect cfg true code rs).status = .corrected) : 2 * (rsCorrect cfg true code rs).cor.length ≤ codePar code := by
  obtain ⟨F, _, _, φ, hφ⟩ := exists_fieldMap hp
  obtain ⟨l, w, hk, hlen, -⟩ := rsCorrect_corrected_roots (by omega) h
  rw [hera, hn] at hk
  obtain ⟨hpair, hone, -⟩ := keySolve_some hφ hp (Nat.zero_le _) hk
  have hdeg := hpair.degL
  have hsig : toPoly φ (fileValues (solvedFile cfg code (rsSyn cfg code rs) l w).sig (codePar code + 1)) = toPoly φ l := by
    rw [solvedFile, fileValues_writeFile_polyPad _ _ (Nat.succ_le_succ (codePar_le code))]
    refine toPoly_polyPad hφ (fun k _ => ?_) (degree_le_natDegree.trans_lt ?_)
    · rw [toPoly_polyMul hφ, toPoly_erasureLocator hφ, show (rsSyn cfg code rs).era = [] from hera]
      exact congrArg (coeff · k) (one_mul _).symm
    · exact_mod_cast (show (toPoly φ l).natDegree < codePar code + 1 by omega)
  have hl : toPoly φ l ≠ 0 := fun hz => by
    rw [hz, coeff_zero] at hone
    exact zero_ne_one hone
  rw [polyDeg_eq_natDegree hφ (by rw [hsig]; exact hl), hsig] at hlen
  omega

variable (hd : locatorsDistinct cfg code) {e : Fin 46 → Byte} {rs : RsFile}
  (hsyn : ∀ j < codePar code, paritySum cfg code (fun q => rs.vec[q]) j = paritySum cfg code e j)
include hd hsyn

/-- Erasures only: a pattern inside the erasures is corrected. -/
theorem rsCorrect_erasures (hn : rs.nera = rs.era.length) (hnodup : rs.era.Nodup) (hle : rs.era.length ≤ codePar code)
    (hE : ∀ q ∈ rs.era, q.val < codeLen code) (he : ∀ q : Fin 46, q.val < codeLen code → q ∉ rs.era → e q = 0) :
    (rsCorrect cfg false code rs).status ≠ .uncorrectable := by
  by_cases hcw : isCodeword cfg code fun q => rs.vec[q]
  · rw [status_of_codeword hcw]
    decide
  obtain ⟨F, _, _, φ, hφ⟩ := exists_fieldMap hp
  have hcard : rs.era.toFinset.card ≤ codePar code := by rwa [List.toFinset_card_of_nodup hnodup]
  have hE : ∀ q ∈ rs.era.toFinset, q.val < codeLen code := fun q hq => hE q (List.mem_toFinset.1 hq)
  have he : ∀ q : Fin 46, q.val < codeLen code → q ∉ rs.era.toFinset → e q = 0 := fun q hq hne =>
    he q hq (mt List.mem_toFinset.2 hne)
  have hera : eraPoly cfg φ code rs.era = setLocator (loc cfg φ code) rs.era.toFinset := (List.prod_toFinset _ hnodup).symm
  obtain ⟨hmod, hdeg⟩ := modifiedSyndrome_spec hφ code rs.era (fileValues (rsSyn cfg code rs).syn (codePar code))
  have hkey := setLocator_key (x := loc cfg φ code) (y := weight cfg φ code e) (E := rs.era.toFinset) (r := codePar code)
    (S := toPoly φ (fileValues (rsSyn cfg code rs).syn (codePar code))) fun j hj => by
      rw [coeff_toPoly hφ, ← map_paritySum hφ hp hE he, ← hsyn j hj, rsSyn_getD cfg code rs hj]
  have hw : toPoly φ (modifiedSyndrome cfg code rs.era (fileValues (rsSyn cfg code rs).syn (codePar code))) =
      setEvaluator (loc cfg φ code) (weight cfg φ code e) rs.era.toFinset := by
    rw [hera] at hmod
    have hdvd := dvd_add hmod hkey
    rw [sub_add_sub_cancel] at hdvd
    refine sub_eq_zero.1 (eq_zero_of_dvd_of_degree_lt hdvd ?_)
    rw [degree_X_pow]
    exact (degree_sub_le _ _).trans_lt (max_lt hdeg (degree_setEvaluator_lt (fun q _ => loc_ne_zero hφ hp q) hcard))
  obtain ⟨hst, -⟩ := rsVfy_accepts hφ hp hd hE he hcard (rs := rsSyn cfg code rs) (l := [1])
    (by rw [toPoly_one hφ, mul_one]; exact hera) hw fun j hj => (rsSyn_syn cfg code rs j hj).trans (hsyn j.val hj)
  rw [rsCorrect_of_not_codeword hcw, rsSolve_some (rs := rsSyn cfg code rs) (hn ▸ hle) (keySolve_erasures ..)]
  exact fun h => absurd (hst.symm.trans h) (by decide)

/-- With error search: a pattern of at most r/2 positions is corrected, and NCOR counts them. -/
theorem rsCorrect_errors (hera : rs.era = []) (hn : rs.nera = 0) {E : Finset (Fin 46)} (hcard : 2 * E.card ≤ codePar code)
    (hE : ∀ q ∈ E, q.val < codeLen code) (hne : ∀ q ∈ E, e q ≠ 0)
    (he : ∀ q : Fin 46, q.val < codeLen code → q ∉ E → e q = 0) :
    (rsCorrect cfg true code rs).status ≠ .uncorrectable ∧
      ((rsCorrect cfg true code rs).status = .corrected → (rsCorrect cfg true code rs).ncor = E.card) := by
  by_cases hcw : isCodeword cfg code fun q => rs.vec[q]
  · rw [status_of_codeword hcw]
    exact ⟨by decide, fun h => by cases h⟩
  obtain ⟨F, _, _, φ, hφ⟩ := exists_fieldMap hp
  have hx : ∀ q ∈ E, loc cfg φ code q ≠ 0 := fun q _ => loc_ne_zero hφ hp q
  have hinj := loc_injOn hφ hp hd hE
  have hweight : ∀ q ∈ E, weight cfg φ code e q ≠ 0 := fun q hq =>
    mul_ne_zero (hφ.eq_zero_iff.not.2 (hne q hq)) (zpow_ne_zero _ (hx q hq))
  have hr := codePar_pos code
  have hpair : KeyPair (codePar code) 0 (eraPoly cfg φ code [] * toPoly φ (fileValues (rsSyn cfg code rs).syn (codePar code)))
      (setLocator (loc cfg φ code) E) (setEvaluator (loc cfg φ code) (weight cfg φ code e) E) := by
    refine ⟨by rw [natDegree_setLocator hx]; omega, ?_, ?_⟩
    · rcases E.eq_empty_or_nonempty with rfl | hnonempty
      · rw [setEvaluator, Finset.sum_empty, natDegree_zero]
        omega
      · have := natDegree_setEvaluator_lt (y := weight cfg φ code e) hx hnonempty
        omega
    · rw [show eraPoly cfg φ code [] = 1 from rfl, one_mul]
      refine setLocator_key fun j hj => ?_
      rw [coeff_toPoly hφ, ← map_paritySum hφ hp hE he, ← hsyn j hj, rsSyn_getD cfg code rs hj]
  have hsolve : ∃ l w, keySolve cfg code true rs.nera rs.era (fileValues (rsSyn cfg code rs).syn (codePar code)) = some (l, w) ∧
      toPoly φ l = setLocator (loc cfg φ code) E ∧
      toPoly φ w = setEvaluator (loc cfg φ code) (weight cfg φ code e) E := by
    rw [hera, hn]
    cases hk : keySolve cfg code true 0 [] (fileValues (rsSyn cfg code rs).syn (codePar code)) with
    | none => exact absurd (keySolve_none hφ hp (Nat.zero_le _) hk hpair) (by rw [setLocator_coeff_zero]; exact one_ne_zero)
    | some lw =>
      obtain ⟨-, hone, hmul⟩ := keySolve_some hφ hp (Nat.zero_le _) hk
      obtain ⟨k, hL, hW⟩ := hmul _ _ hpair
      exact ⟨_, _, rfl, setLocator_unique hx hinj hweight hL hW hone⟩
  obtain ⟨l, w, hk, hl, hw⟩ := hsolve
  obtain ⟨hst, hncor⟩ := rsVfy_accepts hφ hp hd hE he (by omega) (rs := rsSyn cfg code rs) (l := l)
    (by rw [show (rsSyn cfg code rs).era = [] from hera, hl]; exact one_mul _) hw
    fun j hj => (rsSyn_syn cfg code rs j hj).trans (hsyn j.val hj)
  rw [rsCorrect_of_not_codeword hcw, rsSolve_some (rs := rsSyn cfg code rs) (show rs.nera ≤ _ by omega) hk]
  exact ⟨fun h => absurd (hst.symm.trans h) (by decide), fun _ => hncor⟩

end

/-! ### Few positions determine a codeword (R160) -/

/-- The vector with given bytes on a set of positions, zero elsewhere. -/
def patternOf (E : Finset (Fin 46)) (f : E → Byte) (q : Fin 46) : Byte := if h : q ∈ E then f ⟨q, h⟩ else 0

theorem patternOf_of_mem {E : Finset (Fin 46)} {f : E → Byte} {q : Fin 46} (h : q ∈ E) : patternOf E f q = f ⟨q, h⟩ := dif_pos h

theorem patternOf_of_notMem {E : Finset (Fin 46)} {f : E → Byte} {q : Fin 46} (h : q ∉ E) : patternOf E f q = 0 := dif_neg h

section
variable {cfg : Params} {code : Code} (hp : primitive cfg.primPoly) (hd : locatorsDistinct cfg code) {E : Finset (Fin 46)}
  (hE : ∀ q ∈ E, q.val < codeLen code) (hcard : E.card ≤ codePar code)
include hp hd hE hcard

/-- A pattern on at most r positions with zero parity sums is zero. -/
theorem pattern_eq_zero {e : Fin 46 → Byte} (he : ∀ q : Fin 46, q.val < codeLen code → q ∉ E → e q = 0)
    (hs : isCodeword cfg code e) {q : Fin 46} (hq : q.val < codeLen code) : e q = 0 := by
  by_cases hmem : q ∈ E
  · obtain ⟨F, _, _, φ, hφ⟩ := exists_fieldMap hp
    have hzero := weights_eq_zero (fun a _ => loc_ne_zero hφ hp a) (loc_injOn hφ hp hd hE) hcard
      (y := weight cfg φ code e) (fun j hj => by rw [← map_paritySum hφ hp hE he, hs j hj, hφ.zero]) q hmem
    rw [weight, mul_eq_zero] at hzero
    exact hφ.eq_zero_iff.1 (hzero.resolve_right (zpow_ne_zero _ (loc_ne_zero hφ hp q)))
  · exact he q hq hmem

/-- Codewords that agree outside at most r positions agree everywhere. -/
theorem codeword_unique {c d : Fin 46 → Byte} (hc : isCodeword cfg code c) (hd' : isCodeword cfg code d)
    (h : ∀ q : Fin 46, q.val < codeLen code → q ∉ E → c q = d q) {q : Fin 46} (hq : q.val < codeLen code) : c q = d q := by
  refine BitVec.xor_eq_zero_iff.1 (pattern_eq_zero hp hd hE hcard (e := fun a => c a ^^^ d a) (fun a ha hne => ?_) (fun j hj => ?_) hq)
  · rw [h a ha hne]
    exact BitVec.xor_self
  · rw [paritySum_xor hp, hc j hj, hd' j hj]
    rfl

/-- With exactly r free positions every vector can be completed to a codeword. -/
theorem exists_codeword (hfull : E.card = codePar code) (v : Fin 46 → Byte) :
    ∃ c, isCodeword cfg code c ∧ ∀ q : Fin 46, q ∉ E → c q = v q := by
  have hinj : Function.Injective fun (f : E → Byte) (j : Fin (codePar code)) => paritySum cfg code (patternOf E f) j.val := by
    intro f g hfg
    funext ⟨q, hq⟩
    have hzero := pattern_eq_zero hp hd hE hcard (q := q) (e := fun a => patternOf E f a ^^^ patternOf E g a)
      (fun a _ hne => by rw [patternOf_of_notMem hne, patternOf_of_notMem hne]; rfl)
      (fun j hj => by
        rw [paritySum_xor hp]
        exact BitVec.xor_eq_zero_iff.2 (congrFun hfg ⟨j, hj⟩))
      (hE q hq)
    rw [patternOf_of_mem hq, patternOf_of_mem hq] at hzero
    exact BitVec.xor_eq_zero_iff.1 hzero
  have hsurj : Function.Surjective fun (f : E → Byte) (j : Fin (codePar code)) => paritySum cfg code (patternOf E f) j.val := by
    refine ((Fintype.bijective_iff_injective_and_card _).2 ⟨hinj, ?_⟩).2
    rw [Fintype.card_fun, Fintype.card_fun, Fintype.card_coe, Fintype.card_fin, hfull]
  obtain ⟨f, hf⟩ := hsurj fun j => paritySum cfg code v j.val
  refine ⟨fun q => v q ^^^ patternOf E f q, fun j hj => ?_, fun q hq => ?_⟩
  · rw [paritySum_xor hp]
    exact BitVec.xor_eq_zero_iff.2 (congrFun hf ⟨j, hj⟩).symm
  · show v q ^^^ patternOf E f q = v q
    rw [patternOf_of_notMem hq]
    exact BitVec.xor_zero

end

end Sys2Proof.Machine
end

section
/-! The erasure-decoding shells C2 and C3 (42_codec_shells.md R186, R197): they keep the valid bytes, accept exactly when a codeword
agrees with them, and store it. -/

namespace Sys2Proof.Machine

open Sys2Proof

/-! ### The bytes and flags of a vector of cells -/

/-- The byte of a vector of cells at a position. -/
def byteAt (cells : List Flagged) (q : Fin 46) : Byte := (cells.getD q.val blankCell).v

/-- Its flag. -/
def okAt (cells : List Flagged) (q : Fin 46) : Bool := (cells.getD q.val blankCell).ok

/-- `c` has the byte of every valid cell. -/
def agreesWith (code : Code) (cells : List Flagged) (c : Fin 46 → Byte) : Prop :=
  ∀ q : Fin 46, q.val < codeLen code → okAt cells q = true → c q = byteAt cells q

/-- The cells, position by position. -/
theorem map_codePositions_getD {code : Code} {cells : List Flagged} (h : cells.length = codeLen code) :
    (codePositions code).map (fun q => cells.getD q.val blankCell) = cells := by
  apply List.ext_getElem
  · rw [List.length_map, codePositions_length, h]
  · intro i hi hi'
    rw [List.getElem_map, codePositions_getElem, List.getD_eq_getElem _ _ hi']

theorem badCount_eq {code : Code} {cells : List Flagged} (h : cells.length = codeLen code) :
    badCount cells = (codePositions code).countP fun q => !okAt cells q := by
  rw [badCount]
  conv_lhs => rw [← map_codePositions_getD h]
  rw [List.countP_map]
  rfl

theorem mem_erasures {code : Code} {cells : List Flagged} (h : cells.length = codeLen code) {q : Fin 46} :
    q ∈ erasures cells ↔ q.val < codeLen code ∧ okAt cells q = false := by
  have hzip : (List.finRange 46).zip cells = (codePositions code).map fun q => (q, cells.getD q.val blankCell) := by
    have hle := codeLen_le code
    apply List.ext_getElem
    · rw [List.length_zip, List.length_map, codePositions_length, List.length_finRange, h]
      omega
    · intro i hi hi'
      have hlt : i < codeLen code := by rwa [List.length_map, codePositions_length] at hi'
      have hq : (codePositions code)[i]'(by rw [codePositions_length]; exact hlt) = ⟨i, hlt.trans_le hle⟩ :=
        Fin.ext (codePositions_getElem code i _)
      rw [List.getElem_zip, List.getElem_map, hq, List.getD_eq_getElem _ _ (show i < cells.length by omega)]
      simp
  rw [erasures, hzip, List.mem_filterMap]
  constructor
  · rintro ⟨x, hx, hok⟩
    obtain ⟨a, ha, rfl⟩ := List.mem_map.1 hx
    simp only at hok
    split at hok
    · cases hok
    · next hbad =>
      cases hok
      exact ⟨mem_codePositions.1 ha, Bool.eq_false_iff.2 hbad⟩
  · rintro ⟨hq, hok⟩
    exact ⟨_, List.mem_map.2 ⟨q, mem_codePositions.2 hq, rfl⟩, if_neg (Bool.eq_false_iff.1 hok)⟩

/-! ### Erasure decoding of a filled vector -/

/-- The registers before the correction: the vector filled in, its bad positions as erasures. -/
def erasureFill (code : Code) (cells : List Flagged) (rs : RsFile) : RsFile :=
  setErasures (erasures cells) (fillVector code cells rs)

section
variable {cfg : Params} {code : Code} (hp : primitive cfg.primPoly) (hd : locatorsDistinct cfg code) {cells : List Flagged}
  (hl : cells.length = codeLen code) (hb : badCount cells ≤ codePar code) (rs : RsFile)

include hl hb in
theorem erasures_length_le : (erasures cells).length ≤ codePar code := by
  rwa [erasures_length cells (by rw [hl]; exact codeLen_le code)]

include hl in
theorem erasureFill_vec {q : Fin 46} (hq : q.val < codeLen code) : (erasureFill code cells rs).vec[q] = byteAt cells q :=
  (filled_fill code cells rs hl).vec q hq

include hp hd hl hb

/-- A codeword that agrees with the valid bytes makes the vector correctable. -/
theorem erasureFill_accepts {c : Fin 46 → Byte} (hc : isCodeword cfg code c) (ha : agreesWith code cells c) :
    (rsCorrect cfg false code (erasureFill code cells rs)).status ≠ .uncorrectable := by
  refine rsCorrect_erasures hp hd (e := fun q => byteAt cells q ^^^ c q) (fun j hj => ?_) rfl (erasures_pairwise cells).nodup
    (erasures_length_le hl hb) (fun q hq => ((mem_erasures hl).1 hq).1) fun q hq hne => ?_
  · rw [paritySum_congr (fun q hq => erasureFill_vec hl rs hq), paritySum_xor hp, hc j hj]
    exact BitVec.xor_zero.symm
  · have hok : okAt cells q = true := by
      by_contra hbad
      exact hne ((mem_erasures hl).2 ⟨hq, Bool.eq_false_iff.2 hbad⟩)
    rw [ha q hq hok]
    exact BitVec.xor_self

/-- Valid bytes are never changed. -/
theorem erasureFill_agrees :
    agreesWith code cells fun q => (rsCorrect cfg false code (erasureFill code cells rs)).vec[q] := by
  intro q hq hok
  have hle := erasures_length_le hl hb
  have hc := rsCorrect_corrected cfg false code (rs := erasureFill code cells rs) hle
  show (rsCorrect cfg false code (erasureFill code cells rs)).vec[q] = _
  by_cases hst : (rsCorrect cfg false code (erasureFill code cells rs)).status = .corrected
  · obtain ⟨-, -, hlen, -, hvec⟩ := hc.fixed hst
    have hno : ∀ x ∈ (rsCorrect cfg false code (erasureFill code cells rs)).cor, x.1 ≠ q := by
      intro x hx hxq
      have hmem := corrected_mem_era hp hd (rs := erasureFill code cells rs) rfl (erasures_pairwise cells).nodup hle
        (fun a ha => ((mem_erasures hl).1 ha).1) hst hx (hlen x hx)
      rw [hxq] at hmem
      have hbad := ((mem_erasures hl).1 hmem).2
      rw [hok] at hbad
      cases hbad
    rw [hvec q, xorSum_no_correction hno, erasureFill_vec hl rs hq]
    exact BitVec.xor_zero
  · rw [hc.keep hst, erasureFill_vec hl rs hq]

/-- A codeword that agrees with the valid bytes is the only one. -/
theorem agreeing_unique {c d : Fin 46 → Byte} (hc : isCodeword cfg code c) (ha : agreesWith code cells c)
    (hcd : isCodeword cfg code d) (hda : agreesWith code cells d) {q : Fin 46} (hq : q.val < codeLen code) : c q = d q := by
  refine codeword_unique hp hd (E := (erasures cells).toFinset) (fun a hm => ((mem_erasures hl).1 (List.mem_toFinset.1 hm)).1)
    ?_ hc hcd (fun a hlt hne => ?_) hq
  · exact (List.toFinset_card_le _).trans (erasures_length_le hl hb)
  · have hok : okAt cells a = true := by
      by_contra hbad
      exact hne (List.mem_toFinset.2 ((mem_erasures hl).2 ⟨hlt, Bool.eq_false_iff.2 hbad⟩))
    rw [ha a hlt hok, hda a hlt hok]

omit hb in
/-- With as many bad flags as parity symbols there always is one. -/
theorem exists_agreeing (hfull : badCount cells = codePar code) : ∃ c, isCodeword cfg code c ∧ agreesWith code cells c := by
  have hcard : (erasures cells).toFinset.card = codePar code := by
    rw [List.toFinset_card_of_nodup (erasures_pairwise cells).nodup,
      erasures_length cells (by rw [hl]; exact codeLen_le code), hfull]
  obtain ⟨c, hc, hv⟩ := exists_codeword hp hd (E := (erasures cells).toFinset)
    (fun a hm => ((mem_erasures hl).1 (List.mem_toFinset.1 hm)).1) hcard.le hcard (byteAt cells)
  refine ⟨c, hc, fun q _ hok => hv q fun hm => ?_⟩
  have hbad := ((mem_erasures hl).1 (List.mem_toFinset.1 hm)).2
  rw [hok] at hbad
  cases hbad

end

/-- The flag that an accepted vector takes (R187, R198). -/
theorem c2Valid_of_accepted {st : RsStatus} (h : st ≠ .uncorrectable) : c2Valid st = true := by
  cases st with
  | uncorrectable => exact absurd rfl h
  | noErrors => rfl
  | corrected => rfl

theorem c3Valid_of_accepted {st : RsStatus} (h : st ≠ .uncorrectable) (ok : Bool) : c3Valid st ok = true := by
  cases st with
  | uncorrectable => exact absurd rfl h
  | noErrors => rfl
  | corrected => rfl

/-! ### C2DEC -/

theorem c2Vector_of_le (cfg : Params) {cells : List Flagged} (rs : RsFile) (hl : cells.length = 32) (hb : badCount cells ≤ 6) :
    c2Vector cfg cells rs = setValid (List.replicate 32 (c2Valid (rsCorrect cfg false .c2 (erasureFill .c2 cells rs)).status))
      (rsCorrect cfg false .c2 (erasureFill .c2 cells rs)) := by
  have hlen : ¬ 6 < (erasures cells).length := by rw [erasures_length cells (by omega)]; omega
  rw [c2Vector]
  simp only [if_neg hlen]
  rfl

/-- C2DEC with at most six bad flags: RSCORRECT in erasures-only mode and the cells written back. -/
theorem c2dec_corrects {s : State} {tr : Track} (h : trackOpen s tr) (ht : TrackOk tr) {g sl : Nat} (hg : g < 4) (hsl : sl < 32)
    {cells : List Flagged} (hcells : cells = readCells tr (c2Addrs g sl)) (hb : badCount cells ≤ 6) :
    ∃ (rs1 : RsFile) (m : Store Flagged), rs1 = rsCorrect s.cfg false .c2 (erasureFill .c2 cells s.rs) ∧
      ShellDone s.cfg .c2 6 cells s.rs rs1 ∧
      c2dec g sl s = .ok ((s.setRs (setValid (List.replicate 32 (c2Valid rs1.status)) rs1)).setCur
        (some { tr with cells := m })) ∧
      WrittenBack tr.cells (c2Addr g sl) rs1 (c2Valid rs1.status) m := by
  have hl : cells.length = 32 := by rw [hcells]; simp
  have hle := erasures_length_le (code := .c2) hl hb
  refine ⟨_, _, rfl, ?_, ?_, writtenBack ht.cells (c2Addrs_nodup hg hsl) (fun a ha => ?_) _ _⟩
  · exact shellDone_correct false (filled_era (filled_fill .c2 cells s.rs hl) _ (erasures_pairwise cells)) hb hle
  · rw [c2dec_eq h, ← hcells, c2Vector_of_le s.cfg s.rs hl hb]
    rfl
  · obtain ⟨p, hp, rfl⟩ := mem_c2Addrs.1 ha
    exact c2Addr_lt hg hsl hp

theorem byteAt_readCells_c2 (tr : Track) (g sl : Nat) (q : Fin 46) (hq : q.val < 32) :
    (readCells tr (c2Addrs g sl)).getD q.val blankCell = sread blankCell tr.cells (c2Addr g sl q.val) :=
  readCells_addr tr (c2Addr g sl) hq

/-- Settles O20: the positions that C2 corrects are erased ones, and an uncorrectable vector keeps its bytes. -/
theorem c2KeepsUnerasedBytes : Obligations.C2KeepsUnerasedBytes := by
  intro s t tr k group slice hp hd h ht hb hex hk p hp32 hok
  have hl : (readCells tr (c2Addrs group.toNat slice.toNat)).length = codeLen .c2 := by simp; rfl
  have hcell := byteAt_readCells_c2 tr group.toNat slice.toNat ⟨p, by omega⟩ hp32
  by_cases hbad : badCount (readCells tr (c2Addrs group.toNat slice.toNat)) ≤ 6
  · obtain ⟨rs1, m, hrs1, -, hdec, hw⟩ := c2dec_corrects h ht group.isLt slice.isLt rfl hbad
    rw [exec_c2dec, if_pos hb, hdec] at hex
    cases hex
    cases hk
    have hagree := erasureFill_agrees hp hd hl hbad s.rs ⟨p, by omega⟩ hp32 (by rw [okAt, hcell]; exact hok)
    rw [← hrs1] at hagree
    rw [hw.on ⟨p, by omega⟩ hp32]
    exact hagree.trans (by rw [byteAt, hcell])
  · obtain ⟨rs1, m, hdone, hdec, hw⟩ := c2dec_done h ht group.isLt slice.isLt
    rw [exec_c2dec, if_pos hb, hdec] at hex
    cases hex
    cases hk
    have hunc : rs1.status = .uncorrectable := hdone.overLimit (not_le.1 hbad)
    show (sread blankCell m _).v = _
    rw [hw.kept hdone rfl (by rw [hunc]; decide) _ (List.mem_map.2 ⟨p, List.mem_range.2 hp32, rfl⟩)]

/-- Settles O22: an accepted vector is a codeword that agrees with the valid bytes, and there is only one. -/
theorem erasedBytesAreRecovered : Obligations.ErasedBytesAreRecovered := by
  intro s tr group slice hp hd h ht hb before erased agrees hle
  obtain ⟨cells, hcells⟩ : ∃ cells, cells = readCells tr (c2Addrs group.toNat slice.toNat) := ⟨_, rfl⟩
  have hl : cells.length = codeLen .c2 := by rw [hcells]; simp; rfl
  have hcell (q : Fin 46) (hq : q.val < 32) : cells.getD q.val blankCell = before q := by
    rw [hcells]
    exact byteAt_readCells_c2 tr group.toNat slice.toNat q hq
  have hcount : badCount cells = erased := by
    rw [badCount_eq hl]
    exact List.countP_congr fun q hq => by rw [okAt, hcell q (mem_codePositions.1 hq)]
  have hagrees (c : Fin 46 → Byte) : agreesWith .c2 cells c ↔ agrees c :=
    forall_congr' fun q => imp_congr_right fun hq => by rw [okAt, byteAt, hcell q hq]
  have hbad : badCount cells ≤ codePar .c2 := hcount ▸ hle
  obtain ⟨rs1, m, hrs1, hdone, hdec, hw⟩ := c2dec_corrects h ht group.isLt slice.isLt hcells hbad
  have hacc {c : Fin 46 → Byte} (hc : isCodeword s.cfg .c2 c) (ha : agrees c) : rs1.status ≠ .uncorrectable :=
    hrs1 ▸ erasureFill_accepts hp hd hl hbad s.rs hc ((hagrees c).2 ha)
  have hvec : agreesWith .c2 cells fun q => rs1.vec[q] := hrs1 ▸ erasureFill_agrees hp hd hl hbad s.rs
  refine ⟨_, _, by rw [exec_c2dec, if_pos hb, hdec]; rfl, rfl, ?_, fun hfull => ?_, fun c hc ha q hq => ?_⟩
  · rw [State.setCur_rs, State.setRs_rs, setValid_status]
    exact ⟨fun hst => ⟨_, hdone.accepted hp hst, (hagrees _).1 hvec⟩, fun ⟨c, hc, ha⟩ => hacc hc ha⟩
  · rw [State.setCur_rs, State.setRs_rs, setValid_status]
    obtain ⟨c, hc, ha⟩ := exists_agreeing hp hd hl (hcount.trans hfull)
    exact hacc hc ((hagrees c).1 ha)
  · have hst := hacc hc ha
    rw [c2Valid_of_accepted hst] at hw
    refine (hw.on q hq).trans ?_
    rw [agreeing_unique hp hd hl hbad (hdone.accepted hp hst) hvec hc ((hagrees c).2 ha) hq]

end Sys2Proof.Machine
end

section
/-! C3DEC with a legal cell map (42_codec_shells.md R196 to R198): the erasure decoding of its 46 cells, each stored cell written
once. -/

namespace Sys2Proof.Machine

open Sys2Proof

/-- A stored cell that a list of writes reaches holds one of the values written to it. -/
theorem writeGroup_cell_mem {xs : List (C3Ref × Flagged)} {g : BasicGroup} (hg : GroupOk g) {r : C3Ref}
    (hr : ∀ x, r ≠ .fixed x) (hmem : r ∈ xs.map (·.1)) : ∃ c, (r, c) ∈ xs ∧ c3Cell (writeGroup g xs) r = c := by
  obtain ⟨⟨r', c0⟩, hc0, rfl⟩ := List.mem_map.1 hmem
  cases r' with
  | fixed x => exact absurd rfl (hr x)
  | main k =>
    rcases writeGroup_main xs hg k.val with ⟨m, c, hin, hk, hcell⟩ | ⟨hno, -⟩
    · cases Fin.ext hk
      exact ⟨c, hin, hcell⟩
    · exact absurd rfl (hno k c0 hc0)
  | ecc k =>
    rcases writeGroup_ecc xs hg k.val with ⟨m, c, hin, hk, hcell⟩ | ⟨hno, -⟩
    · cases Fin.ext hk
      exact ⟨c, hin, hcell⟩
    · exact absurd rfl (hno k c0 hc0)

/-- Two positions of one vector that a legal map sends to one stored cell are the same. -/
theorem c3Injective.position {cfg : Params} (h : c3Injective cfg) {sl : Fin 720} {tp il : Bool} {p q : Fin 46}
    (hr : ∀ x, c3CellOf cfg ⟨sl, tp, il, p⟩ ≠ .fixed x)
    (heq : c3CellOf cfg ⟨sl, tp, il, q⟩ = c3CellOf cfg ⟨sl, tp, il, p⟩) : q = p := by
  have hsel : (⟨sl, tp, il, q⟩ : C3Sel) = ⟨sl, tp, il, p⟩ := by
    cases hc : c3CellOf cfg ⟨sl, tp, il, p⟩ with
    | fixed x => exact absurd hc (hr x)
    | main k => exact h.1 _ _ k (heq.trans hc) hc
    | ecc k => exact h.2 _ _ k (heq.trans hc) hc
  exact congrArg C3Sel.p hsel

theorem c3Vector_of_le (cfg : Params) {cells : List Flagged} (rs : RsFile) (hl : cells.length = 46) (hb : badCount cells ≤ 2) :
    c3Vector cfg cells rs =
      setValid (cells.map fun c => c3Valid (rsCorrect cfg false .c3 (erasureFill .c3 cells rs)).status c.ok)
        (rsCorrect cfg false .c3 (erasureFill .c3 cells rs)) := by
  have hlen : ¬ 2 < (erasures cells).length := by rw [erasures_length cells (by omega)]; omega
  rw [c3Vector]
  simp only [if_neg hlen]
  rfl

/-- The cell of C3DEC's vector at a position. -/
theorem c3Refs_getD (cfg : Params) (g : BasicGroup) (sl : Fin 720) (tp il : Bool) (p : Fin 46) :
    ((c3Refs cfg sl tp il).map (readC3 g)).getD p.val blankCell = c3Cell g (c3CellOf cfg ⟨sl, tp, il, p⟩) := by
  rw [List.getD_eq_getElem _ _ (by simp), List.getElem_map, ← readC3_eq_c3Cell]
  simp [c3Refs]

/-- What C3DEC writes to the stored cell of a position under a legal map. -/
theorem c3Writes_cell {cfg : Params} (hinj : c3Injective cfg) {g : BasicGroup} (hg : GroupOk g) {rs rs1 : RsFile}
    {sl : Fin 720} {tp il : Bool} {flags : List Bool} (hflags : flags.length = 46)
    (hv : c3Vector cfg ((c3Refs cfg sl tp il).map (readC3 g)) rs = setValid flags rs1) {p : Fin 46}
    (hr : ∀ x, c3CellOf cfg ⟨sl, tp, il, p⟩ ≠ .fixed x) :
    c3Cell (writeGroup g (c3Writes cfg g rs (sl, tp, il))) (c3CellOf cfg ⟨sl, tp, il, p⟩) =
      ⟨rs1.vec[p], flags.getD p.val false⟩ := by
  obtain ⟨c, hmem, hcell⟩ := writeGroup_cell_mem (xs := c3Writes cfg g rs (sl, tp, il)) hg hr
    (by rw [c3Writes_refs]; exact mem_c3Refs.2 ⟨p, rfl⟩)
  rw [hcell]
  rw [c3Writes] at hmem
  simp only at hmem
  rw [hv] at hmem
  obtain ⟨i, hi, hget⟩ := List.mem_iff_getElem.1 hmem
  rw [List.getElem_zip, Prod.mk.injEq] at hget
  obtain ⟨href, hc⟩ := hget
  have hi46 : i < 46 := by
    rw [List.length_zip, c3Refs_length, vectorCells_length 46 _ (Nat.le_refl 46)] at hi
    exact hi
  have hip : (⟨i, hi46⟩ : Fin 46) = p := by
    refine hinj.position hr ?_
    rw [← href]
    simp [c3Refs]
  subst hip
  have hcells := vectorCells_getElem? 46 (setValid flags rs1) i (Nat.le_refl 46)
  rw [dif_pos hi46, List.getElem?_eq_getElem (by rw [vectorCells_length 46 _ (Nat.le_refl 46)]; exact hi46), hc] at hcells
  rw [Option.some.inj hcells]
  simp only [setValid_vec, setValid_valid, writeFile_getElem, hflags, hi46, dite_true, Fin.getElem_fin,
    List.getD_eq_getElem?_getD, List.getElem?_eq_getElem (hflags ▸ hi46), Option.getD_some]

/-- Settles O23: as for C2, each stored cell being written by its one position. -/
theorem c3ErasuresAreRecovered : Obligations.C3ErasuresAreRecovered := by
  intro s g slice tp il hp hd hinj hbg hg hlt ref before erased agrees hle
  obtain ⟨cells, hcells⟩ : ∃ cells, cells = (c3Refs s.cfg ⟨slice.toNat, hlt⟩ tp il).map (readC3 g) := ⟨_, rfl⟩
  have hl : cells.length = codeLen .c3 := by rw [hcells, List.length_map, c3Refs_length]; rfl
  have hcell (q : Fin 46) : cells.getD q.val blankCell = before q := by
    rw [hcells]
    exact c3Refs_getD s.cfg g ⟨slice.toNat, hlt⟩ tp il q
  have hcount : badCount cells = erased := by
    rw [badCount_eq hl]
    exact List.countP_congr fun q _ => by rw [okAt, hcell q]
  have hagrees (c : Fin 46 → Byte) : agreesWith .c3 cells c ↔ agrees c :=
    forall_congr' fun q => by rw [okAt, byteAt, hcell q]; exact ⟨fun h => h q.isLt, fun h _ => h⟩
  have hbad : badCount cells ≤ codePar .c3 := hcount ▸ hle
  obtain ⟨rs1, hrs1⟩ : ∃ rs1, rs1 = rsCorrect s.cfg false .c3 (erasureFill .c3 cells s.rs) := ⟨_, rfl⟩
  have hvector := c3Vector_of_le s.cfg s.rs hl hbad
  rw [← hrs1] at hvector
  have hdone : ShellDone s.cfg .c3 2 cells s.rs rs1 := hrs1 ▸
    shellDone_correct false (filled_era (filled_fill .c3 cells s.rs hl) _ (erasures_pairwise cells)) hbad
      (erasures_length_le hl hbad)
  have hacc {c : Fin 46 → Byte} (hc : isCodeword s.cfg .c3 c) (ha : agrees c) : rs1.status ≠ .uncorrectable :=
    hrs1 ▸ erasureFill_accepts hp hd hl hbad s.rs hc ((hagrees c).2 ha)
  have hvec : agreesWith .c3 cells fun q => rs1.vec[q] := hrs1 ▸ erasureFill_agrees hp hd hl hbad s.rs
  rw [hcells] at hvector
  refine ⟨_, _, by rw [exec_c3dec, dif_pos hlt, c3dec_eq hbg (⟨slice.toNat, hlt⟩, tp, il)]; rfl, rfl, ?_, fun hfull => ?_,
    fun c hc ha p hr => ?_⟩
  · rw [State.setBg_rs, State.setRs_rs, hvector, setValid_status]
    exact ⟨fun hst => ⟨_, hdone.accepted hp hst, (hagrees _).1 hvec⟩, fun ⟨c, hc, ha⟩ => hacc hc ha⟩
  · rw [State.setBg_rs, State.setRs_rs, hvector, setValid_status]
    obtain ⟨c, hc, ha⟩ := exists_agreeing hp hd hl (hcount.trans hfull)
    exact hacc hc ((hagrees c).1 ha)
  · have hst := hacc hc ha
    refine (c3Writes_cell hinj hg (by simp) hvector hr).trans ?_
    rw [agreeing_unique hp hd hl hbad (hdone.accepted hp hst) hvec hc ((hagrees c).2 ha) p.isLt]
    simp only [c3Valid_of_accepted hst]
    rw [List.getD_eq_getElem _ _ (by simp), List.getElem_map]

end Sys2Proof.Machine
end

section
/-! C1DEC, the shell with error search (42_codec_shells.md R183, R184): it accepts exactly the vectors within two bytes of a codeword
(41_rs_solver.md R160). -/

namespace Sys2Proof.Machine

open Sys2Proof

/-! ### Distance -/

/-- The positions of the code where a vector of cells differs from `c`. -/
def diffSet (code : Code) (cells : List Flagged) (c : Fin 46 → Byte) : Finset (Fin 46) :=
  ((codePositions code).filter fun q => decide (c q ≠ byteAt cells q)).toFinset

theorem mem_diffSet {code : Code} {cells : List Flagged} {c : Fin 46 → Byte} {q : Fin 46} :
    q ∈ diffSet code cells c ↔ q.val < codeLen code ∧ c q ≠ byteAt cells q := by
  rw [diffSet, List.mem_toFinset, List.mem_filter, mem_codePositions, decide_eq_true_eq]

theorem card_diffSet (code : Code) (cells : List Flagged) (c : Fin 46 → Byte) :
    (diffSet code cells c).card = (codePositions code).countP fun q => decide (c q ≠ byteAt cells q) := by
  rw [diffSet, List.toFinset_card_of_nodup ((codePositions_pairwise code).nodup.filter _), List.countP_eq_length_filter]

theorem card_diffSet_eq_zero {code : Code} {cells : List Flagged} {c : Fin 46 → Byte} :
    (diffSet code cells c).card = 0 ↔ ∀ q : Fin 46, q.val < codeLen code → c q = byteAt cells q := by
  rw [Finset.card_eq_zero, Finset.eq_empty_iff_forall_notMem]
  refine forall_congr' fun q => ?_
  rw [mem_diffSet, not_and, not_not]

/-! ### Error search on a filled vector -/

/-- The registers before the correction: the vector filled in, no erasures. -/
def searchFill (code : Code) (cells : List Flagged) (rs : RsFile) : RsFile := setErasures [] (fillVector code cells rs)

section
variable {cfg : Params} {code : Code} (hp : primitive cfg.primPoly) {cells : List Flagged} (hl : cells.length = codeLen code)
  (rs : RsFile)

include hl in
theorem searchFill_vec {q : Fin 46} (hq : q.val < codeLen code) : (searchFill code cells rs).vec[q] = byteAt cells q :=
  (filled_fill code cells rs hl).vec q hq

include hp hl

/-- An accepted vector differs from what was read in at most r/2 positions. -/
theorem searchFill_near : 2 * (diffSet code cells fun q => (rsCorrect cfg true code (searchFill code cells rs)).vec[q]).card ≤
    codePar code := by
  have hc := rsCorrect_corrected cfg true code (rs := searchFill code cells rs) (Nat.zero_le _)
  by_cases hst : (rsCorrect cfg true code (searchFill code cells rs)).status = .corrected
  · obtain ⟨-, -, -, -, hvec⟩ := hc.fixed hst
    have hsub : diffSet code cells (fun q => (rsCorrect cfg true code (searchFill code cells rs)).vec[q]) ⊆
        ((rsCorrect cfg true code (searchFill code cells rs)).cor.map (·.1)).toFinset := by
      intro q hq
      obtain ⟨hlt, hne⟩ := mem_diffSet.1 hq
      rw [List.mem_toFinset]
      by_contra hno
      refine hne ((hvec q).trans ?_)
      rw [xorSum_no_correction fun x hx hxq => hno (List.mem_map.2 ⟨x, hx, hxq⟩), searchFill_vec hl rs hlt]
      exact BitVec.xor_zero
    have hcard := (Finset.card_le_card hsub).trans (List.toFinset_card_le _)
    rw [List.length_map] at hcard
    have hlen := corrected_length_le hp (rs := searchFill code cells rs) rfl rfl hst
    omega
  · have hzero : (diffSet code cells fun q => (rsCorrect cfg true code (searchFill code cells rs)).vec[q]).card = 0 :=
      card_diffSet_eq_zero.2 fun q hq => by rw [hc.keep hst, searchFill_vec hl rs hq]
    omega

variable (hd : locatorsDistinct cfg code)
include hd

/-- A codeword within r/2 positions makes the vector correctable, and NCOR counts them. -/
theorem searchFill_accepts {c : Fin 46 → Byte} (hc : isCodeword cfg code c) (hdist : 2 * (diffSet code cells c).card ≤ codePar code) :
    (rsCorrect cfg true code (searchFill code cells rs)).status ≠ .uncorrectable ∧
      ((rsCorrect cfg true code (searchFill code cells rs)).status = .corrected →
        (rsCorrect cfg true code (searchFill code cells rs)).ncor = (diffSet code cells c).card) := by
  refine rsCorrect_errors hp hd (e := fun q => byteAt cells q ^^^ c q) (fun j hj => ?_) rfl rfl hdist
    (fun q hq => (mem_diffSet.1 hq).1) (fun q hq => ?_) fun q hq hne => ?_
  · rw [paritySum_congr (fun q hq => searchFill_vec hl rs hq), paritySum_xor hp, hc j hj]
    exact BitVec.xor_zero.symm
  · exact fun h => (mem_diffSet.1 hq).2 (BitVec.xor_eq_zero_iff.1 h).symm
  · have heq : c q = byteAt cells q := by
      by_contra h
      exact hne (mem_diffSet.2 ⟨hq, h⟩)
    rw [heq]
    exact BitVec.xor_self

omit rs hl in
/-- Two codewords within r/2 positions of one vector are the same. -/
theorem near_unique {c d : Fin 46 → Byte} (hc : isCodeword cfg code c) (hcn : 2 * (diffSet code cells c).card ≤ codePar code)
    (hcd : isCodeword cfg code d) (hdn : 2 * (diffSet code cells d).card ≤ codePar code) {q : Fin 46} (hq : q.val < codeLen code) :
    c q = d q := by
  refine codeword_unique hp hd (E := diffSet code cells c ∪ diffSet code cells d) (fun a ha => ?_) ?_ hc hcd (fun a hlt hne => ?_) hq
  · exact (Finset.mem_union.1 ha).elim (fun h => (mem_diffSet.1 h).1) fun h => (mem_diffSet.1 h).1
  · have := Finset.card_union_le (diffSet code cells c) (diffSet code cells d)
    omega
  · rw [Finset.mem_union, mem_diffSet, mem_diffSet, not_or, not_and, not_and, not_not, not_not] at hne
    rw [hne.1 hlt, hne.2 hlt]

end

/-! ### C1DEC -/

theorem c1Vector_of_le (cfg : Params) {cells : List Flagged} (rs : RsFile) (hb : badCount cells ≤ 4) :
    c1Vector cfg cells rs =
      setValid (List.replicate 32 (c1Valid (rsCorrect cfg true .c1 (searchFill .c1 cells rs)).status
        (rsCorrect cfg true .c1 (searchFill .c1 cells rs)).ncor)) (rsCorrect cfg true .c1 (searchFill .c1 cells rs)) := by
  rw [c1Vector]
  simp only [if_neg (not_lt.2 hb)]
  rfl

/-- C1DEC with at most four bad flags: RSCORRECT with error search and the cells written back. -/
theorem c1dec_corrects {s : State} {tr : Track} (h : trackOpen s tr) (ht : TrackOk tr) {pr il : Nat} (hpr : pr < 72) (hil : il < 2)
    {cells : List Flagged} (hcells : cells = readCells tr (c1Addrs pr il)) (hb : badCount cells ≤ 4) :
    ∃ (rs1 : RsFile) (m : Store Flagged), rs1 = rsCorrect s.cfg true .c1 (searchFill .c1 cells s.rs) ∧
      ShellDone s.cfg .c1 4 cells s.rs rs1 ∧
      c1dec pr il s = .ok ((s.setRs (setValid (List.replicate 32 (c1Valid rs1.status rs1.ncor)) rs1)).setCur
        (some { tr with cells := m })) ∧
      WrittenBack tr.cells (c1Addr pr il) rs1 (c1Valid rs1.status rs1.ncor) m := by
  have hl : cells.length = 32 := by rw [hcells]; simp
  refine ⟨_, _, rfl, ?_, ?_, writtenBack ht.cells (c1Addrs_nodup hil) (fun a ha => ?_) _ _⟩
  · exact shellDone_correct true (filled_era (filled_fill .c1 cells s.rs hl) [] List.Pairwise.nil) hb (Nat.zero_le _)
  · rw [c1dec_eq h, ← hcells, c1Vector_of_le s.cfg s.rs hb]
    rfl
  · obtain ⟨p, hp, rfl⟩ := mem_c1Addrs.1 ha
    exact c1Addr_lt hpr hil hp

/-- Settles O21: an accepted vector is a codeword at most two positions away, and there is only one. -/
theorem twoByteErrorsAreCorrected : Obligations.TwoByteErrorsAreCorrected := by
  intro s tr blocks il hp hd h ht hb before distance hle
  obtain ⟨cells, hcells⟩ : ∃ cells, cells = readCells tr (c1Addrs blocks.toNat il.toNat) := ⟨_, rfl⟩
  have hl : cells.length = codeLen .c1 := by rw [hcells]; simp; rfl
  have hcell (q : Fin 46) (hq : q.val < 32) : cells.getD q.val blankCell = before q := by
    rw [hcells]
    exact readCells_addr tr (c1Addr blocks.toNat il.toNat) hq
  have hbad : badCount cells ≤ 4 := by
    rw [badCount_eq hl]
    refine le_trans (le_of_eq (List.countP_congr fun q hq => ?_)) hle
    rw [okAt, hcell q (mem_codePositions.1 hq)]
  have hdist (c : Fin 46 → Byte) : (diffSet .c1 cells c).card = distance c := by
    rw [card_diffSet]
    exact List.countP_congr fun q hq => by rw [byteAt, hcell q (mem_codePositions.1 hq)]
  obtain ⟨rs1, m, hrs1, hdone, hdec, hw⟩ := c1dec_corrects h ht (show blocks.toNat < 72 by omega) il.toNat_lt hcells hbad
  have hnear : 2 * (diffSet .c1 cells fun q => rs1.vec[q]).card ≤ codePar .c1 := hrs1 ▸ searchFill_near hp hl s.rs
  have hacc {c : Fin 46 → Byte} (hc : isCodeword s.cfg .c1 c) (hc2 : distance c ≤ 2) :
      rs1.status ≠ .uncorrectable ∧ (rs1.status = .corrected → rs1.ncor = distance c) := by
    have h4 : 2 * (diffSet .c1 cells c).card ≤ codePar .c1 := by rw [hdist]; exact Nat.mul_le_mul_left 2 hc2
    have hsearch := searchFill_accepts hp hl s.rs hd hc h4
    rw [← hrs1, hdist] at hsearch
    exact hsearch
  refine ⟨_, _, by rw [exec_c1dec, if_pos hb, hdec]; rfl, rfl, ?_, fun c hc hc2 => ?_⟩
  · rw [State.setCur_rs, State.setRs_rs, setValid_status]
    refine ⟨fun hst => ⟨_, hdone.accepted hp hst, ?_⟩, fun ⟨c, hc, hc2⟩ => (hacc hc hc2).1⟩
    rw [← hdist]
    have : codePar .c1 = 4 := rfl
    omega
  · rw [State.setCur_rs, State.setRs_rs, setValid_status, setValid_ncor]
    obtain ⟨hst, hncor⟩ := hacc hc hc2
    have h4 : 2 * (diffSet .c1 cells c).card ≤ codePar .c1 := by rw [hdist]; exact Nat.mul_le_mul_left 2 hc2
    have hstored {q : Fin 46} (hq : q.val < 32) : rs1.vec[q] = c q :=
      near_unique hp hd (hdone.accepted hp hst) hnear hc h4 hq
    have hclean : rs1.status = .noErrors ↔ distance c = 0 := by
      rw [← hdist, card_diffSet_eq_zero]
      refine ⟨fun hno q hq => ?_, fun hsame => ?_⟩
      · rw [← hstored hq]
        exact hdone.keep (by rw [hno]; decide) q hq
      · rw [hdone.clean hbad]
        exact (isCodeword_congr hsame).1 hc
    refine ⟨fun q hq => ?_, hclean, fun hcor => ⟨hncor hcor, ?_⟩⟩
    · show (sread blankCell m _).v = _
      rw [hw.on q hq]
      exact hstored hq
    · have hne : distance c ≠ 0 := fun hz => by
        rw [hclean.2 hz] at hcor
        cases hcor
      rw [hncor hcor]
      omega

end Sys2Proof.Machine
end
